-- ==== Sys2Proof/Word.lean ====
section
/-! DEFINITION. The widths the spec names (00_scope.md R8): bytes of memory, 32-bit register words, 64-bit
scheduler values, 6-bit channel numbers and 16-bit handles. -/

namespace Sys2Proof

/-- A byte of an external memory space (R70). -/
abbrev Byte := BitVec 8

/-- A 32-bit register or FIFO word (R11, R77). -/
abbrev Word := BitVec 32

/-- A 64-bit operand, result or scheduler value (R90, R93). -/
abbrev DWord := BitVec 64

/-- A channel number, the field `X` of a command and the `ch` of an event (R28, R92). -/
abbrev Chan := BitVec 6

/-- An event handle, the field `IMM16` of an event command (R28, R92). -/
abbrev Handle := BitVec 16

end Sys2Proof
end

