-- ==== Sys2Proof/Syntax.lean ====
section
/-! DEFINITION. The commands of the block (30_encoding.md): one constructor of `Instr` per row of the opcode table,
carrying the operands that R92 and R94 give the command. -/

namespace Sys2Proof

/-- The two sides of the machine (R1, R8). -/
inductive Side where
  | main
  | sub
  deriving DecidableEq, Repr

/-- The two IPC FIFOs (R41): SIF0 from the secondary to the main side, SIF1 from the main to the secondary side. -/
inductive Dir where
  | sif0
  | sif1
  deriving DecidableEq, Repr

/-- The eight values of format `D`'s register select (R92). `sel6` and `sel7` are invalid and fault when used. -/
inductive ChanReg where
  | chcr
  | madr
  | cnt
  | tadr
  | status
  | rem
  | sel6
  | sel7
  deriving DecidableEq, Repr

/-- The four values of format `C`'s register select (R92). -/
inductive EngReg where
  | ctrl
  | pcr
  | dintStat
  | dintCtl
  deriving DecidableEq, Repr

/-- A command as it stands at the port: the word and its two operands (R90). -/
structure Command where
  cmd : Word
  a : DWord
  b : DWord
  deriving DecidableEq, Repr

/-- The commands, one per row of the opcode table (R98, R99). -/
inductive Instr where
  /-- EQ.REG: register external callback `k` (R111). -/
  | eqReg (k : DWord)
  /-- EQ.SCHED: schedule `(h, ch)` after `delay` main cycles, repeating with `period` when `rep` (R113). -/
  | eqSched (rep : Bool) (ch : Chan) (h : Handle) (delay period : DWord)
  /-- EQ.SCHEDSUB: as EQ.SCHED with secondary cycles (R115). -/
  | eqSchedSub (rep : Bool) (ch : Chan) (h : Handle) (delay period : DWord)
  /-- EQ.NOW (R116). -/
  | eqNow
  /-- EQ.ADV: move time forward (R117). -/
  | eqAdv (delta : DWord)
  /-- EQ.DRAIN: fire the due events (R118). -/
  | eqDrain
  /-- EQ.QUERY: is `(h, ch)` queued (R124). -/
  | eqQuery (ch : Chan) (h : Handle)
  /-- CLK.CONV: main cycles to secondary cycles (R141). -/
  | clkConv (m : DWord)
  /-- CLK.TOMAIN: secondary cycles to main cycles (R142). -/
  | clkToMain (d : DWord)
  /-- DRV.START (R146). -/
  | drvStart
  /-- DRV.TICK: one tick of `n` main instructions (R145). -/
  | drvTick (n : Word)
  /-- DRV.HALT (R147). -/
  | drvHalt
  /-- DMA.WR: write a channel register (R160). -/
  | dmaWr (sd : Side) (c : Chan) (reg : ChanReg) (v : Word)
  /-- DMA.RD: read a channel register (R164). -/
  | dmaRd (sd : Side) (c : Chan) (reg : ChanReg)
  /-- DMA.WRE: write an engine register (R185). -/
  | dmaWre (sd : Side) (reg : EngReg) (v : Word)
  /-- DMA.RDE: read an engine register (R188). -/
  | dmaRde (sd : Side) (reg : EngReg)
  /-- DMA.DRQ: drive a request line (R166). -/
  | dmaDrq (sd : Side) (c : Chan) (b : Bool)
  /-- SIF.PUSH: push a word through the debug port (R227). -/
  | sifPush (d : Dir) (w : Word)
  /-- SIF.POP: pop a word through the debug port (R228). -/
  | sifPop (d : Dir)
  /-- SIF.OCC: FIFO occupancy (R229). -/
  | sifOcc (d : Dir)
  /-- INT.RAISE: latch an interrupt source (R243). -/
  | intRaise (sd : Side) (src : BitVec 5)
  /-- INT.WMASK: write the mask, by XOR on the main side (R244 to R246). -/
  | intWmask (sd : Side) (v : Word)
  /-- INT.ACK: clear status bits (R247). -/
  | intAck (sd : Side) (v : Word)
  /-- INT.RSTAT: read the status (R248). -/
  | intRstat (sd : Side)
  /-- INT.RMASK: read the mask (R249). -/
  | intRmask (sd : Side)
  /-- INT.RCTRL: read the control register, which disables delivery on the secondary side (R250). -/
  | intRctrl (sd : Side)
  /-- INT.WCTRL: write the master enable (R251). -/
  | intWctrl (sd : Side) (v : Word)
  /-- INT.PEND: read the pending line (R252). -/
  | intPend (sd : Side)
  /-- ILLEGAL: the word 0, with whatever operands came with it (R99). -/
  | illegal (a b : DWord)
  deriving DecidableEq, Repr

end Sys2Proof
end

