-- ==== Sys2Proof/WellFormed.lean ====
section
/-! DEFINITION. Which terms of `Instr` are commands (30_encoding.md R94, R97). The types of the constructors already hold
every operand to its field; the one condition between fields is that `B` is 0 when `R` is 0. -/

namespace Sys2Proof

/-- `B` must be 0 when the event does not repeat (R94, R97). -/
def periodMatches (rep : Bool) (period : DWord) : Bool :=
  rep || period == 0

/-- A command whose must-be-zero operand bits are 0 (R97). Operand ranges and legality by phase are no matter of form:
the machine faults on them when the command runs (R95, R96). -/
def WellFormed : Instr → Bool
  | .eqSched rep _ _ _ period => periodMatches rep period
  | .eqSchedSub rep _ _ _ period => periodMatches rep period
  | .eqReg _ | .eqNow | .eqAdv _ | .eqDrain | .eqQuery _ _ => true
  | .clkConv _ | .clkToMain _ | .drvStart | .drvTick _ | .drvHalt => true
  | .dmaWr _ _ _ _ | .dmaRd _ _ _ | .dmaWre _ _ _ | .dmaRde _ _ | .dmaDrq _ _ _ => true
  | .sifPush _ _ | .sifPop _ | .sifOcc _ => true
  | .intRaise _ _ | .intWmask _ _ | .intAck _ _ | .intRstat _ | .intRmask _ => true
  | .intRctrl _ | .intWctrl _ _ | .intPend _ | .illegal _ _ => true

end Sys2Proof
end

