-- ==== Sys2Proof/Decode.lean ====
section
/-! DEFINITION. The decoder of the command port (30_encoding.md R92 to R100), total on any triple, rejecting by name; then
the encoder, written from the same tables. -/

namespace Sys2Proof

/-- Why a triple is no command (R97, R98). Both are the spec's fault IllegalCommand. -/
inductive DecodeError where
  /-- `OPC` is not in the table of R98. -/
  | reservedOpcode
  /-- a must-be-zero bit of `CMD` is set (R92, R97). -/
  | reservedBits
  /-- a must-be-zero bit of `A` or `B` is set (R94, R97). -/
  | reservedOperand
  deriving DecidableEq, Repr

/-- The fields of a command word (R92). -/
structure Fields where
  opc : BitVec 8
  s : BitVec 1
  r : BitVec 1
  x : Chan
  imm : BitVec 16
  deriving DecidableEq, Repr

/-- Cut a command word into its fields (R92). -/
def splitWord (w : Word) : Fields where
  opc := w.extractLsb' 24 8
  s := w.extractLsb' 23 1
  r := w.extractLsb' 22 1
  x := w.extractLsb' 16 6
  imm := w.extractLsb' 0 16

/-- Put a command word together (R92), bit 31 first. -/
def joinWord (f : Fields) : Word :=
  f.opc ++ f.s ++ f.r ++ f.x ++ f.imm

/-- Field `S` as a side (R92). -/
def sideOf (s : BitVec 1) : Side := if s = 0 then .main else .sub

/-- Field `S` as a FIFO (R92). -/
def dirOf (s : BitVec 1) : Dir := if s = 0 then .sif0 else .sif1

/-- Field `R`, or operand bit `A[0]`, as a truth value. -/
def flagOf (r : BitVec 1) : Bool := r = 1

/-- Format `D`'s register select (R92). -/
def chanRegOf (r : BitVec 3) : ChanReg :=
  match r.toNat with
  | 0 => .chcr
  | 1 => .madr
  | 2 => .cnt
  | 3 => .tadr
  | 4 => .status
  | 5 => .rem
  | 6 => .sel6
  | _ => .sel7

/-- Format `C`'s register select (R92). -/
def engRegOf (r : BitVec 2) : EngReg :=
  match r.toNat with
  | 0 => .ctrl
  | 1 => .pcr
  | 2 => .dintStat
  | _ => .dintCtl

/-- Accept `i` when the must-be-zero bits of the word (`word`) and of the operands (`operand`) are 0 (R97). -/
def accept (word operand : Bool) (i : Instr) : Except DecodeError Instr :=
  if word then (if operand then .ok i else .error .reservedOperand) else .error .reservedBits

/-- Format `N`: everything but `OPC` is 0 (R92). -/
def Fields.formN (f : Fields) : Bool := f.s == 0 && f.r == 0 && f.x == 0 && f.imm == 0

/-- Format `E`: `S` is 0 (R92). -/
def Fields.formE (f : Fields) : Bool := f.s == 0

/-- Format `Q`: `S` and `R` are 0 (R92). -/
def Fields.formQ (f : Fields) : Bool := f.s == 0 && f.r == 0

/-- Format `D`: `R` and `IMM16[15:3]` are 0 (R92, C10). -/
def Fields.formD (f : Fields) : Bool := f.r == 0 && f.imm.extractLsb' 3 13 == 0

/-- Format `DQ`: `R` and `IMM16` are 0 (R92). -/
def Fields.formDQ (f : Fields) : Bool := f.r == 0 && f.imm == 0

/-- Format `C`: `R`, `X` and `IMM16[15:2]` are 0 (R92). -/
def Fields.formC (f : Fields) : Bool := f.r == 0 && f.x == 0 && f.imm.extractLsb' 2 14 == 0

/-- Formats `F` and `I`: everything but `OPC` and `S` is 0 (R92). -/
def Fields.formF (f : Fields) : Bool := f.r == 0 && f.x == 0 && f.imm == 0

/-- Format `IR`: `R`, `X` and `IMM16[15:5]` are 0 (R92). -/
def Fields.formIR (f : Fields) : Bool := f.r == 0 && f.x == 0 && f.imm.extractLsb' 5 11 == 0

/-- The command takes no operand: `A` and `B` are 0 (R94). -/
def Command.noOperand (c : Command) : Bool := c.a == 0 && c.b == 0

/-- The command takes all of `A`: `B` is 0 (R94). -/
def Command.onlyA (c : Command) : Bool := c.b == 0

/-- The command takes a 32-bit value in `A`: `A[63:32]` and `B` are 0 (R94). -/
def Command.wordA (c : Command) : Bool := c.a.extractLsb' 32 32 == 0 && c.b == 0

/-- The command takes one bit in `A`: `A[63:1]` and `B` are 0 (R94). -/
def Command.bitA (c : Command) : Bool := c.a.extractLsb' 1 63 == 0 && c.b == 0

/-- `B` is the period when `R` is 1 and must be 0 otherwise (R94). -/
def Command.periodB (c : Command) (rep : Bool) : Bool := periodMatches rep c.b

/-- The 32-bit value in `A` (R94). -/
def Command.word (c : Command) : Word := c.a.extractLsb' 0 32

/-- The decoder (R92, R94, R97, R98). The word 0 is ILLEGAL whatever operands come with it (R99). -/
def decode (c : Command) : Except DecodeError Instr :=
  let f := splitWord c.cmd
  match f.opc.toNat with
  | 0x00 => if f.formN then .ok (.illegal c.a c.b) else .error .reservedOpcode
  | 0x01 => accept f.formN c.onlyA (.eqReg c.a)
  | 0x02 => accept f.formE (c.periodB (flagOf f.r)) (.eqSched (flagOf f.r) f.x f.imm c.a c.b)
  | 0x03 => accept f.formE (c.periodB (flagOf f.r)) (.eqSchedSub (flagOf f.r) f.x f.imm c.a c.b)
  | 0x04 => accept f.formN c.noOperand .eqNow
  | 0x05 => accept f.formN c.onlyA (.eqAdv c.a)
  | 0x06 => accept f.formN c.noOperand .eqDrain
  | 0x07 => accept f.formQ c.noOperand (.eqQuery f.x f.imm)
  | 0x10 => accept f.formN c.onlyA (.clkConv c.a)
  | 0x11 => accept f.formN c.onlyA (.clkToMain c.a)
  | 0x12 => accept f.formN c.noOperand .drvStart
  | 0x13 => accept f.formN c.wordA (.drvTick c.word)
  | 0x14 => accept f.formN c.noOperand .drvHalt
  | 0x20 => accept f.formD c.wordA (.dmaWr (sideOf f.s) f.x (chanRegOf (f.imm.extractLsb' 0 3)) c.word)
  | 0x21 => accept f.formD c.noOperand (.dmaRd (sideOf f.s) f.x (chanRegOf (f.imm.extractLsb' 0 3)))
  | 0x22 => accept f.formC c.wordA (.dmaWre (sideOf f.s) (engRegOf (f.imm.extractLsb' 0 2)) c.word)
  | 0x23 => accept f.formC c.noOperand (.dmaRde (sideOf f.s) (engRegOf (f.imm.extractLsb' 0 2)))
  | 0x24 => accept f.formDQ c.bitA (.dmaDrq (sideOf f.s) f.x (flagOf (c.a.extractLsb' 0 1)))
  | 0x30 => accept f.formF c.wordA (.sifPush (dirOf f.s) c.word)
  | 0x31 => accept f.formF c.noOperand (.sifPop (dirOf f.s))
  | 0x32 => accept f.formF c.noOperand (.sifOcc (dirOf f.s))
  | 0x40 => accept f.formIR c.noOperand (.intRaise (sideOf f.s) (f.imm.extractLsb' 0 5))
  | 0x41 => accept f.formF c.wordA (.intWmask (sideOf f.s) c.word)
  | 0x42 => accept f.formF c.wordA (.intAck (sideOf f.s) c.word)
  | 0x43 => accept f.formF c.noOperand (.intRstat (sideOf f.s))
  | 0x44 => accept f.formF c.noOperand (.intRmask (sideOf f.s))
  | 0x45 => accept f.formF c.noOperand (.intRctrl (sideOf f.s))
  | 0x46 => accept f.formF c.wordA (.intWctrl (sideOf f.s) c.word)
  | 0x47 => accept f.formF c.noOperand (.intPend (sideOf f.s))
  | _ => .error .reservedOpcode

/-- The command whose bits are `w`: `CMD` in bits 31:0, `A` in bits 95:32, `B` in bits 159:96. -/
def Command.ofNat (w : Nat) : Command where
  cmd := BitVec.ofNat 32 w
  a := BitVec.ofNat 64 (w >>> 32)
  b := BitVec.ofNat 64 (w >>> 96)

/-- The command the decoder reads from the low `nbits` bits of `w`, every bit above them 0. -/
def decodeTableWord (nbits w : Nat) : Option Instr :=
  match decode (Command.ofNat (w % 2 ^ nbits)) with
  | .ok i => some i
  | .error _ => none

/-- A side as field `S` (R92). -/
def sideBit : Side → BitVec 1
  | .main => 0
  | .sub => 1

/-- A FIFO as field `S` (R92). -/
def dirBit : Dir → BitVec 1
  | .sif0 => 0
  | .sif1 => 1

/-- A truth value as one bit. -/
def flagBit (b : Bool) : BitVec 1 := if b then 1 else 0

/-- A channel register as format `D`'s select (R92). -/
def chanRegBits : ChanReg → BitVec 3
  | .chcr => 0
  | .madr => 1
  | .cnt => 2
  | .tadr => 3
  | .status => 4
  | .rem => 5
  | .sel6 => 6
  | .sel7 => 7

/-- An engine register as format `C`'s select (R92). -/
def engRegBits : EngReg → BitVec 2
  | .ctrl => 0
  | .pcr => 1
  | .dintStat => 2
  | .dintCtl => 3

/-- A format `N` word (R92). -/
def wordN (opc : BitVec 8) : Word := joinWord ⟨opc, 0, 0, 0, 0⟩

/-- A format `F` or `I` word (R92). -/
def wordF (opc : BitVec 8) (s : BitVec 1) : Word := joinWord ⟨opc, s, 0, 0, 0⟩

/-- The command of an instruction (R92, R94, R98). -/
def encode : Instr → Command
  | .eqReg k => ⟨wordN 0x01, k, 0⟩
  | .eqSched rep ch h delay period => ⟨joinWord ⟨0x02, 0, flagBit rep, ch, h⟩, delay, period⟩
  | .eqSchedSub rep ch h delay period => ⟨joinWord ⟨0x03, 0, flagBit rep, ch, h⟩, delay, period⟩
  | .eqNow => ⟨wordN 0x04, 0, 0⟩
  | .eqAdv delta => ⟨wordN 0x05, delta, 0⟩
  | .eqDrain => ⟨wordN 0x06, 0, 0⟩
  | .eqQuery ch h => ⟨joinWord ⟨0x07, 0, 0, ch, h⟩, 0, 0⟩
  | .clkConv m => ⟨wordN 0x10, m, 0⟩
  | .clkToMain d => ⟨wordN 0x11, d, 0⟩
  | .drvStart => ⟨wordN 0x12, 0, 0⟩
  | .drvTick n => ⟨wordN 0x13, n.setWidth 64, 0⟩
  | .drvHalt => ⟨wordN 0x14, 0, 0⟩
  | .dmaWr sd c reg v => ⟨joinWord ⟨0x20, sideBit sd, 0, c, (chanRegBits reg).setWidth 16⟩, v.setWidth 64, 0⟩
  | .dmaRd sd c reg => ⟨joinWord ⟨0x21, sideBit sd, 0, c, (chanRegBits reg).setWidth 16⟩, 0, 0⟩
  | .dmaWre sd reg v => ⟨joinWord ⟨0x22, sideBit sd, 0, 0, (engRegBits reg).setWidth 16⟩, v.setWidth 64, 0⟩
  | .dmaRde sd reg => ⟨joinWord ⟨0x23, sideBit sd, 0, 0, (engRegBits reg).setWidth 16⟩, 0, 0⟩
  | .dmaDrq sd c b => ⟨joinWord ⟨0x24, sideBit sd, 0, c, 0⟩, (flagBit b).setWidth 64, 0⟩
  | .sifPush d w => ⟨wordF 0x30 (dirBit d), w.setWidth 64, 0⟩
  | .sifPop d => ⟨wordF 0x31 (dirBit d), 0, 0⟩
  | .sifOcc d => ⟨wordF 0x32 (dirBit d), 0, 0⟩
  | .intRaise sd src => ⟨joinWord ⟨0x40, sideBit sd, 0, 0, src.setWidth 16⟩, 0, 0⟩
  | .intWmask sd v => ⟨wordF 0x41 (sideBit sd), v.setWidth 64, 0⟩
  | .intAck sd v => ⟨wordF 0x42 (sideBit sd), v.setWidth 64, 0⟩
  | .intRstat sd => ⟨wordF 0x43 (sideBit sd), 0, 0⟩
  | .intRmask sd => ⟨wordF 0x44 (sideBit sd), 0, 0⟩
  | .intRctrl sd => ⟨wordF 0x45 (sideBit sd), 0, 0⟩
  | .intWctrl sd v => ⟨wordF 0x46 (sideBit sd), v.setWidth 64, 0⟩
  | .intPend sd => ⟨wordF 0x47 (sideBit sd), 0, 0⟩
  | .illegal a b => ⟨0, a, b⟩

end Sys2Proof
end

