-- ==== Sys2Proof/Config.lean ====
section
/-! DEFINITION. What an implementation fixes (the parameters of 00_scope.md R7) and the free values: the answers of the
external agents that no rule constrains (20_memory.md R76, 40_event_queue.md R119, 41_clock_driver.md R143, R144). -/

namespace Sys2Proof

/-- The external memory spaces (R70). -/
inductive Space where
  | mainRam
  | mainSpr
  | subRam
  deriving DecidableEq, Repr

/-- One access a CPU makes at its point of the instruction sequence: a bus access to a block register, which is a
command (R143), or a store of bytes to a memory space (R70). -/
inductive CpuAct where
  | bus (c : Command)
  | store (sp : Space) (a : Word) (bytes : List Byte)
  deriving DecidableEq, Repr

/-- The open parameter SUB_MASK_WRITE (R246). -/
inductive MaskWrite where
  | or
  | store
  deriving DecidableEq, Repr

/-- The three SIF channel numbers of one side (R7 SIF_CH). -/
structure SifChannels where
  sif0 : Chan
  sif1 : Chan
  sif2 : Chan
  deriving DecidableEq, Repr

/-- The number that stands for each issuer in a PhaseViolation record. No rule gives it. -/
structure IssuerCodes where
  host : DWord
  cpuMain : DWord
  cpuSub : DWord
  callback : DWord
  deriving DecidableEq, Repr

/-- Which list a fault record holds where the rule that raises the fault and the `info` column of R272 give different
ones (R117; R160 for the read-only selects; R164): no ruling says. -/
inductive FaultInfo where
  /-- the list written in the rule's own `raise Fault(kind, info)`, which R271 stores -/
  | byRule
  /-- the list in R272's column for the kind -/
  | byTable
  deriving DecidableEq, Repr

/-- The parameters of R7, one field per row (a row per side gives two fields), and the two points of the fault record that
the spec leaves open: the issuer codes and which of two lists is recorded. -/
structure Params where
  nchMain : Nat
  nchSub : Nat
  fifoCap : Nat
  fifoWidth : Nat
  burstCap : Nat
  dmaCostMain : Nat
  dmaCostSub : Nat
  iopNum : Nat
  iopDen : Nat
  mainCpi : Nat
  lwm : Nat
  maxHandlers : Nat
  maxChan : Nat
  mainRamMask : Word
  sprMask : Word
  subRamMask : Word
  dmaSrcMain : BitVec 5
  dmaSrcSub : BitVec 5
  subMaskWrite : MaskWrite
  maskResetMain : Word
  maskResetSub : Word
  masterResetMain : Bool
  masterResetSub : Bool
  drqResetMain : Word
  drqResetSub : Word
  sifMain : SifChannels
  sifSub : SifChannels
  granMain : Nat
  granSub : Nat
  issuerCode : IssuerCodes
  faultInfo : FaultInfo
  deriving DecidableEq, Repr

/-- The "value" column of R7. DESIGN CHOICE (log 6): the issuer codes, in the order of R91. DESIGN CHOICE
(log 9): `faultInfo`. -/
def Config.spec : Params where
  nchMain := 10
  nchSub := 14
  fifoCap := 32
  fifoWidth := 32
  burstCap := 32
  dmaCostMain := 32
  dmaCostSub := 32
  iopNum := 1
  iopDen := 8
  mainCpi := 1
  lwm := 32
  maxHandlers := 64
  maxChan := 63
  mainRamMask := 0x01FFFFFF
  sprMask := 0x00003FFF
  subRamMask := 0x001FFFFF
  dmaSrcMain := 15
  dmaSrcSub := 3
  subMaskWrite := .or
  maskResetMain := 0
  maskResetSub := 0
  masterResetMain := true
  masterResetSub := false
  drqResetMain := 0xFFFFFFFF
  drqResetSub := 0xFFFFFFFF
  sifMain := ⟨5, 6, 7⟩
  sifSub := ⟨9, 10, 2⟩
  granMain := 4
  granSub := 1
  issuerCode := ⟨0, 1, 2, 3⟩
  faultInfo := .byRule

/-- `NCH[s]` (R7). -/
def Params.nch (p : Params) : Side → Nat
  | .main => p.nchMain
  | .sub => p.nchSub

/-- `SIF_CH[s]` (R7). -/
def Params.sif (p : Params) : Side → SifChannels
  | .main => p.sifMain
  | .sub => p.sifSub

/-- `DMA_SRC[s]` (R7). -/
def Params.dmaSrc (p : Params) : Side → BitVec 5
  | .main => p.dmaSrcMain
  | .sub => p.dmaSrcSub

/-- `GRAN[s]` (R7). -/
def Params.gran (p : Params) : Side → Nat
  | .main => p.granMain
  | .sub => p.granSub

/-- `DRQ_RESET[s]` (R7, R37). -/
def Params.drqReset (p : Params) : Side → Word
  | .main => p.drqResetMain
  | .sub => p.drqResetSub

/-- `MASK_RESET[s]` (R7, R42). -/
def Params.maskReset (p : Params) : Side → Word
  | .main => p.maskResetMain
  | .sub => p.maskResetSub

/-- `MASTER_RESET[s]` (R7, R42). -/
def Params.masterReset (p : Params) : Side → Bool
  | .main => p.masterResetMain
  | .sub => p.masterResetSub

/-- The address mask of a space (R7, R70). -/
def Params.mask (p : Params) : Space → Word
  | .mainRam => p.mainRamMask
  | .mainSpr => p.sprMask
  | .subRam => p.subRamMask

/-- The SIF channel numbers of one side are distinct and below `n` (R7). -/
abbrev SifChannels.Valid (q : SifChannels) (n : Nat) : Prop :=
  q.sif0 ≠ q.sif1 ∧ q.sif0 ≠ q.sif2 ∧ q.sif1 ≠ q.sif2 ∧
  q.sif0.toNat < n ∧ q.sif1.toNat < n ∧ q.sif2.toNat < n

/-- The rows of R7 whose value other rules write out as a number: FIFO entries are u32 words (R41, R220), a quadword of QWC
is 4 words (R73, R163) and the secondary side counts words (R35, R177). DEDUCED (log 25): another value contradicts those
rules, so no configuration has it. -/
abbrev Params.Widths (p : Params) : Prop := p.fifoWidth = 32 ∧ p.granMain = 4 ∧ p.granSub = 1

/-- The constraints every configuration must meet (R7, the sentence under the table), and the widths the rules fix. -/
abbrev Params.Valid (p : Params) : Prop :=
  p.nchMain ≤ 16 ∧ p.nchSub ≤ 16 ∧
  1 ≤ p.iopNum ∧ p.iopNum < p.iopDen ∧
  1 ≤ p.burstCap ∧ p.burstCap % 4 = 0 ∧
  1 ≤ p.lwm ∧ p.lwm ≤ p.fifoCap ∧
  2 ≤ p.maxHandlers ∧
  1 ≤ p.dmaCostMain ∧ 1 ≤ p.dmaCostSub ∧
  p.sifMain.Valid p.nchMain ∧ p.sifSub.Valid p.nchSub ∧
  p.Widths

/-- The word the peripheral of channel `c` of side `sd` supplies at draw `n`, when no script answers: "a draw under
no law" (R76). A free value. -/
opaque Config.periphWord (sd : Side) (c : Chan) (n : Nat) : Word

/-- The commands external callback `k` answers when it is called for channel `ch`, `late` cycles late, at draw `n`,
when no script answers (R119). A free value. -/
opaque Config.callbackCommands (k : DWord) (ch : Chan) (late : Int) (n : Nat) : List Command

/-- What one instruction of a CPU does on the bus at draw `n`, when no script answers (R143, R144). A free value. -/
opaque Config.cpuInstruction (sd : Side) (n : Nat) : List CpuAct

/-- The 64-bit word that stands for a number of cycles `n` of `2 ^ 64` or more, in an answer or a fault record: no rule
states one (log 23). A free value. -/
opaque Config.wideCycles (n : Nat) : DWord

/-- The `h` of R272's `[h, ch, delay]` for a fault of `Advance(delta)`, which has no handle (R117, log 9). A free value. -/
opaque Config.absentHandle (delta : DWord) : DWord

/-- The `ch` of R272's `[h, ch, delay]` for a fault of `Advance(delta)`, which has no channel (R117, log 9). A free
value. -/
opaque Config.absentChannel (delta : DWord) : DWord

end Sys2Proof
end

