-- ==== Sys2Proof/Machine/State.lean ====
section
/-! DEFINITION. The machine's state as plain data (10_state.md), the state after reset (R48, R290), and the reasons a step
of the model can stop. A fault of the SPEC (60_exceptions.md R271) is a state, not one of these reasons. -/

namespace Sys2Proof.Machine

/-- The driver's phase (R22). -/
inductive Phase where
  | init
  | running
  | halted
  | faulted
  deriving DecidableEq, Repr

/-- Who presents a command (R91). -/
inductive Issuer where
  | host
  | cpuMain
  | cpuSub
  | callback
  deriving DecidableEq, Repr

/-- The kinds of the block's faults, in the order of R272. -/
inductive FaultKind where
  | illegalCommand
  | phaseViolation
  | badOperand
  | handlerTableFull
  | negativeDelay
  | badPeriod
  | timeOverflow
  | channelBusy
  | reservedMode
  | unimplemented
  | contradictoryControl
  | zeroCount
  | misaligned
  | fifoOverflow
  | fifoUnderflow
  deriving DecidableEq, Repr

/-- The block's fault record (R24). -/
structure FaultRecord where
  kind : FaultKind
  info : List DWord
  deriving DecidableEq, Repr

/-- A slot of the handler table (R27). -/
inductive Handler where
  | empty
  | dmaMain
  | dmaSub
  | external (k : DWord)
  deriving DecidableEq, Repr

/-- An event record (R28). `deadline` and `period` are i64, read as two's complement. -/
structure Event where
  h : Handle
  ch : Chan
  deadline : DWord
  rep : Bool
  period : DWord
  seq : DWord
  deriving DecidableEq, Repr

/-- A DMA channel record (R30). `drq` is the stored line of a non-SIF channel (R37). -/
structure Channel where
  chcr : Word
  madr : Word
  tadr : Word
  cnt : Word
  drq : Bool
  tagEnd : Bool
  rem : Word
  deriving DecidableEq, Repr

/-- One side's DMA engine (R30, R38, R39). `dintStat` holds the bits `IP[c]`; the master flag is computed (R39). -/
structure Engine where
  chans : List Channel
  ctrl : Word
  pcr : Word
  dintStat : Word
  dintCtl : Word
  deriving DecidableEq, Repr

/-- One side's interrupt controller (R42). -/
structure IntCtl where
  stat : Word
  mask : Word
  master : Bool
  deriving DecidableEq, Repr

/-- The external memory spaces (R70). Each is a list of (address, byte) pairs in the canonical form `Memory.wf`. -/
structure Memory where
  mainRam : List Host.Cell
  mainSpr : List Host.Cell
  subRam : List Host.Cell
  deriving DecidableEq, Repr

/-- What the Host does next between ticks (R90, R290): present a command, store bytes to a memory space (R70), or apply
the reset. -/
inductive HostAct where
  | command (c : Command)
  | store (sp : Space) (a : Word) (bytes : List Byte)
  | reset
  deriving DecidableEq, Repr

/-- A call of a peripheral's data port, as recorded (R76). -/
inductive PeriphCall where
  | read (sd : Side) (c : Chan) (w : Word)
  | write (sd : Side) (c : Chan) (w : Word)
  deriving DecidableEq, Repr

/-- A call of an external callback, as recorded (R119): its identity, channel and lateness. -/
structure CallbackCall where
  k : DWord
  ch : Chan
  late : Int
  deriving DecidableEq, Repr

/-- The external agents' part of the machine: the model's own field (log 3, log 8). The lists are what the agents will
do, in order; `draws` counts the answers taken from the free values once a list has run out; the logs record the calls;
the two flags are the pending lines as each CPU last consulted them (R143, R144). -/
structure Agents where
  host : List HostAct
  mainIn : List (List CpuAct)
  subIn : List (List CpuAct)
  callbackIn : List (List Command)
  periphIn : List Word
  draws : Nat
  periphLog : List PeriphCall
  callbackLog : List CallbackCall
  sampledMain : Bool
  sampledSub : Bool
  deriving DecidableEq, Repr

/-- Work in progress inside a Host command (R118, R119, R145): the model's own field (log 1). -/
inductive Task where
  /-- a CPU slice: `left` instructions still to begin, `acts` still to do of the one begun (R143, R144). -/
  | slice (sd : Side) (left : Nat) (acts : List CpuAct)
  /-- `m = Convert(cycles)`, then the secondary slice of `m` instructions (R145). -/
  | convert (cycles : Nat)
  /-- `Advance(delta)` (R145). -/
  | advance (delta : Nat)
  /-- the drain point: fire events until none is due (R118). -/
  | drain
  /-- the commands an external callback answered, still to run (R119). -/
  | callback (cmds : List Command)
  /-- `tick <- wrap_64(tick + 1)` (R145). -/
  | tickEnd
  deriving DecidableEq, Repr

/-- The state of the machine. -/
structure State where
  /-- the configuration (R7); no step changes it. -/
  cfg : Params
  /-- R22. -/
  phase : Phase
  /-- R23. -/
  tick : DWord
  /-- R24. -/
  fault : Option FaultRecord
  /-- R25, an i64. -/
  now : DWord
  /-- R26. -/
  seq : DWord
  /-- R27. -/
  handlers : List Handler
  /-- R27. -/
  nh : Nat
  /-- R28, in `(deadline, seq)` order. -/
  queue : List Event
  /-- R29. -/
  acc : Nat
  /-- R30 to R39, main side. -/
  dmaMain : Engine
  /-- R30 to R39, secondary side. -/
  dmaSub : Engine
  /-- R40. -/
  pendingStarts : List (Side × Chan)
  /-- R41, FIFO[SIF0], oldest word first. -/
  sif0 : List Word
  /-- R41, FIFO[SIF1], oldest word first. -/
  sif1 : List Word
  /-- R42, main side. -/
  intMain : IntCtl
  /-- R42, secondary side. -/
  intSub : IntCtl
  /-- R70; outside the block. -/
  mem : Memory
  /-- the result of the last command (R93); the model's own field. -/
  answer : Option DWord
  /-- the tick, drain or callback in progress; the model's own field. -/
  agenda : List Task
  /-- the external agents; the model's own field. -/
  agents : Agents
  deriving DecidableEq, Repr

/-- Reasons the MODEL stops where the spec gives the machine no next state. -/
inductive Fault where
  /-- Raised by a drain (R118, R119) when the due event's handle `h` names no filled slot of the handler table, for
  which the spec gives no callback. Safe: R28 excludes such an event, and no state that meets `Safety.Inv` raises it. -/
  | unfilledHandle (h : Handle)
  deriving DecidableEq, Repr

/-- Reasons the model gives an instruction no meaning. -/
inductive Refusal where
  /-- Raised by `exec` for an instruction that is not modelled. Safe. No arm raises it. -/
  | notModelled (mnemonic : String)
  deriving DecidableEq, Repr

/-- No memory byte listed: every byte reads 0. DESIGN CHOICE (log 5), unsafe: R70 and R291 give external memory no
contents, and 95_test_vectors.md takes it as 0. -/
def Memory.blank : Memory := ⟨[], [], []⟩

/-- Agents that have no script and were never called (log 3, log 8). -/
def Agents.blank : Agents where
  host := []
  mainIn := []
  subIn := []
  callbackIn := []
  periphIn := []
  draws := 0
  periphLog := []
  callbackLog := []
  sampledMain := false
  sampledSub := false

/-- A channel after reset (R30, R37): every register 0. A SIF channel's line is not stored; 0 stands there. -/
def Channel.initial (p : Params) (sd : Side) (c : Nat) : Channel where
  chcr := 0
  madr := 0
  tadr := 0
  cnt := 0
  drq := (p.drqReset sd).getLsbD c &&
    !(c == (p.sif sd).sif0.toNat || c == (p.sif sd).sif1.toNat || c == (p.sif sd).sif2.toNat)
  tagEnd := false
  rem := 0

/-- A DMA engine after reset (R30, R38, R39). -/
def Engine.initial (p : Params) (sd : Side) : Engine where
  chans := (List.range (p.nch sd)).map (Channel.initial p sd)
  ctrl := 0
  pcr := 0
  dintStat := 0
  dintCtl := 0

/-- An interrupt controller after reset (R42, R253). -/
def IntCtl.initial (p : Params) (sd : Side) : IntCtl where
  stat := 0
  mask := p.maskReset sd
  master := p.masterReset sd

/-- The block after reset under configuration `p` (R48, R290), beside memory `m` and agents `g`, which the reset does not
touch (R291). -/
def State.initial (p : Params) (m : Memory) (g : Agents) : State where
  cfg := p
  phase := .init
  tick := 0
  fault := none
  now := 0
  seq := 0
  handlers := [.dmaMain, .dmaSub] ++ List.replicate (p.maxHandlers - 2) .empty
  nh := 2
  queue := []
  acc := 0
  dmaMain := Engine.initial p .main
  dmaSub := Engine.initial p .sub
  pendingStarts := []
  sif0 := []
  sif1 := []
  intMain := IntCtl.initial p .main
  intSub := IntCtl.initial p .sub
  mem := m
  answer := none
  agenda := []
  agents := g

/-- The machine right after reset (R48, R290) in the configuration of R7, with memory blank and no agent scripted. -/
def State.reset : State := State.initial Config.spec Memory.blank Agents.blank

end Sys2Proof.Machine
end

