-- ==== Sys2Proof/Machine/Ops.lean ====
section
/-! DEFINITION. The named operations over memory, registers and the event queue, the block's fault entry (R271) and its
one way out, the reset (R290). An operation that can fault answers `Except State`: `.error t` is the faulted state `t`,
and nothing after it in the same rule runs (R9, R271). -/

namespace Sys2Proof.Machine

/-- What a rule of the block leaves: the state it ends in, or the faulted state it stopped in. -/
abbrev Run := Except State State

/-- The state a rule leaves, whether or not it faulted. -/
def runState : Run → State
  | .ok t => t
  | .error t => t

/-- Fault entry (R271): the record is written once, the phase becomes Faulted, and the command, callback, drain and tick
in progress are abandoned; earlier effects stay. A command that faulted answers nothing (R273). -/
def takeFault (kind : FaultKind) (info : List DWord) (s : State) : State :=
  { s with
    fault := match s.fault with
      | none => some ⟨kind, info⟩
      | some f => some f
    phase := .faulted
    agenda := []
    answer := none }

/-- `raise Fault(kind, info)` inside a rule (R9). -/
def raiseFault {α : Type} (kind : FaultKind) (info : List DWord) (s : State) : Except State α :=
  .error (takeFault kind info s)

/-- The list a fault record holds where the raising rule's list and R272's column differ. DESIGN CHOICE (log 9): the
configuration says which, since no ruling does. -/
def infoOf (p : Params) (byRule byTable : List DWord) : List DWord :=
  match p.faultInfo with
  | .byRule => byRule
  | .byTable => byTable

/-- The record of a fault of `Advance`: `[delta]` (R117), or `[h, ch, delay]` (R272) with a free value for each of the two
operands that `Advance` does not have (log 9). -/
def advanceInfo (p : Params) (delta : DWord) : List DWord :=
  infoOf p [delta] [Config.absentHandle delta, Config.absentChannel delta, delta]

/-- The power-on reset (R290), the only way out of Faulted: every block element at its reset value; external memory, the
agents and the configuration untouched (R291). -/
def powerOnReset (s : State) : State :=
  State.initial s.cfg s.mem s.agents

/-- `res <- v` (R93). -/
def reply (v : DWord) (s : State) : State := { s with answer := some v }

/-- The answer of the command before is gone: no result survives a command (R90, R93). -/
def clearAnswer (s : State) : State := { s with answer := none }

/-- `res <- zext_64(w)` (R93). -/
def replyWord (w : Word) (s : State) : State := reply (w.setWidth 64) s

/-! ## Numbers -/

/-- `ceil_div(a, b)` (R8). -/
def ceilDiv (a b : Nat) : Nat := (a + b - 1) / b

/-- The largest i64 (R125). -/
def maxTime : Int := 2 ^ 63 - 1

/-- A natural number as a u64 of a fault record (R24). -/
def u64 (n : Nat) : DWord := BitVec.ofNat 64 n

/-- An i64 as its 64-bit pattern (R93). -/
def i64 (n : Int) : DWord := BitVec.ofInt 64 n

/-- A number of cycles as a 64-bit answer or fault operand. DESIGN CHOICE (log 23): from `2 ^ 64` on a free value, since
R24, R93 and R142 name no 64-bit word for it. -/
def cycles64 (n : Int) : DWord := if n < 2 ^ 64 then i64 n else Config.wideCycles n.toNat

/-! ## External memory (20_memory.md) -/

/-- The byte at address `a`; an unlisted address reads 0 (log 5). -/
def readCell : List Host.Cell → Nat → Byte
  | [], _ => 0
  | (b, v) :: rest, a => if a = b then v else readCell rest a

/-- Put byte `v` at address `a` before cells whose addresses are higher; a byte 0 is not listed. -/
def consCell (a : Nat) (v : Byte) (rest : List Host.Cell) : List Host.Cell :=
  if v = 0 then rest else (a, v) :: rest

/-- Store byte `v` at address `a`, keeping the canonical form. -/
def writeCell : List Host.Cell → Nat → Byte → List Host.Cell
  | [], a, v => consCell a v []
  | (b, w) :: rest, a, v =>
    if a < b then consCell a v ((b, w) :: rest)
    else if a = b then consCell a v rest
    else (b, w) :: writeCell rest a v

/-- The canonical form of one space: addresses strictly rising, no byte 0 listed. -/
def cellsWf : List Host.Cell → Bool
  | [] => true
  | [(_, v)] => v != 0
  | (a, v) :: (b, w) :: rest => v != 0 && decide (a < b) && cellsWf ((b, w) :: rest)

/-- The canonical form of memory. -/
def Memory.wf (m : Memory) : Bool := cellsWf m.mainRam && cellsWf m.mainSpr && cellsWf m.subRam

/-- The cells of a space. -/
def Memory.cells (m : Memory) : Space → List Host.Cell
  | .mainRam => m.mainRam
  | .mainSpr => m.mainSpr
  | .subRam => m.subRam

/-- Replace the cells of a space. -/
def Memory.setCells (m : Memory) (sp : Space) (cs : List Host.Cell) : Memory where
  mainRam := match sp with | .mainRam => cs | _ => m.mainRam
  mainSpr := match sp with | .mainSpr => cs | _ => m.mainSpr
  subRam := match sp with | .subRam => cs | _ => m.subRam

/-- One byte of a space. -/
def Memory.readByte (m : Memory) (sp : Space) (a : Nat) : Byte := readCell (m.cells sp) a

/-- Store one byte in a space. -/
def Memory.writeByte (m : Memory) (sp : Space) (a : Nat) (v : Byte) : Memory :=
  m.setCells sp (writeCell (m.cells sp) a v)

/-- `MemRead(space, a, 4)`, little-endian (R72, R73). -/
def Memory.readWord (m : Memory) (sp : Space) (a : Nat) : Word :=
  m.readByte sp (a + 3) ++ m.readByte sp (a + 2) ++ m.readByte sp (a + 1) ++ m.readByte sp a

/-- `MemWrite(space, a, 4, w)`, little-endian (R72, R73). -/
def Memory.writeWord (m : Memory) (sp : Space) (a : Nat) (w : Word) : Memory :=
  (((m.writeByte sp a (w.extractLsb' 0 8)).writeByte sp (a + 1) (w.extractLsb' 8 8)).writeByte sp (a + 2)
    (w.extractLsb' 16 8)).writeByte sp (a + 3) (w.extractLsb' 24 8)

/-- An external agent's store of consecutive bytes (R70); every address is masked to the space's width (R75, D29). -/
def storeBytes (sp : Space) (mask : Word) : Word → List Byte → Memory → Memory
  | _, [], m => m
  | a, v :: vs, m => storeBytes sp mask (a + 1) vs (m.writeByte sp (a &&& mask).toNat v)

/-! ## The two sides' registers -/

/-- The DMA engine of a side. -/
def State.dma (s : State) : Side → Engine
  | .main => s.dmaMain
  | .sub => s.dmaSub

/-- Replace the DMA engine of a side. -/
def State.setDma (s : State) (sd : Side) (e : Engine) : State :=
  { s with
    dmaMain := match sd with | .main => e | .sub => s.dmaMain
    dmaSub := match sd with | .main => s.dmaSub | .sub => e }

/-- `chan[s][c]` (R30). A number with no channel reads as a channel of zeros. -/
def State.chan (s : State) (sd : Side) (c : Chan) : Channel :=
  (s.dma sd).chans.getD c.toNat ⟨0, 0, 0, 0, false, false, 0⟩

/-- Replace `chan[s][c]`; a number with no channel changes nothing. -/
def State.setChan (s : State) (sd : Side) (c : Chan) (ch : Channel) : State :=
  s.setDma sd { s.dma sd with chans := (s.dma sd).chans.set c.toNat ch }

/-- The interrupt controller of a side (R42). -/
def State.intc (s : State) : Side → IntCtl
  | .main => s.intMain
  | .sub => s.intSub

/-- Replace the interrupt controller of a side. -/
def State.setIntc (s : State) (sd : Side) (q : IntCtl) : State :=
  { s with
    intMain := match sd with | .main => q | .sub => s.intMain
    intSub := match sd with | .main => s.intSub | .sub => q }

/-- `FIFO[d]` (R41). -/
def State.fifo (s : State) : Dir → List Word
  | .sif0 => s.sif0
  | .sif1 => s.sif1

/-- Replace `FIFO[d]`. -/
def State.setFifo (s : State) (d : Dir) (q : List Word) : State :=
  { s with
    sif0 := match d with | .sif0 => q | .sif1 => s.sif0
    sif1 := match d with | .sif0 => s.sif1 | .sif1 => q }

/-- Replace memory. -/
def State.setMem (s : State) (m : Memory) : State := { s with mem := m }

/-- Replace the external agents. -/
def State.setAgents (s : State) (g : Agents) : State := { s with agents := g }

/-- Replace the deferred starts (R40). -/
def State.setPending (s : State) (l : List (Side × Chan)) : State := { s with pendingStarts := l }

/-- Replace the queue (R28). -/
def State.setQueue (s : State) (q : List Event) : State := { s with queue := q }

/-- Replace `now` (R25). -/
def State.setNow (s : State) (t : DWord) : State := { s with now := t }

/-- Replace the converter's remainder (R29). -/
def State.setAcc (s : State) (n : Nat) : State := { s with acc := n }

/-- Replace the phase (R22). -/
def State.setPhase (s : State) (p : Phase) : State := { s with phase := p }

/-- Replace the work in progress. -/
def State.setAgenda (s : State) (ts : List Task) : State := { s with agenda := ts }

/-- A side as a number of a fault record: field `S` of R92. -/
def sideCode : Side → DWord
  | .main => 0
  | .sub => 1

/-- A FIFO as a number of a fault record: field `S` of R92. -/
def dirCode : Dir → DWord
  | .sif0 => 0
  | .sif1 => 1

/-! ## Peripherals (R76) -/

/-- `PeriphRead(s, c)` (R76): the next scripted word, or a free value once the script has run out (log 3). The call is
recorded. -/
def periphRead (sd : Side) (c : Chan) (s : State) : Word × State :=
  match s.agents.periphIn with
  | w :: rest =>
    (w, s.setAgents { s.agents with periphIn := rest, periphLog := s.agents.periphLog ++ [.read sd c w] })
  | [] =>
    let w := Config.periphWord sd c s.agents.draws
    (w, s.setAgents { s.agents with draws := s.agents.draws + 1, periphLog := s.agents.periphLog ++ [.read sd c w] })

/-- `PeriphWrite(s, c, w)` (R76). The call is recorded. -/
def periphWrite (sd : Side) (c : Chan) (w : Word) (s : State) : State :=
  s.setAgents { s.agents with periphLog := s.agents.periphLog ++ [.write sd c w] }

/-! ## The event queue (40_event_queue.md) -/

/-- The queue's key order: deadline, then insertion number (R28, R120). -/
def Event.before (e f : Event) : Bool :=
  decide (e.deadline.toInt < f.deadline.toInt) ||
    (decide (e.deadline.toInt = f.deadline.toInt) && decide (e.seq.toNat < f.seq.toNat))

/-- Put an event at its place in the key order (R28). -/
def insertEvent (e : Event) : List Event → List Event
  | [] => [e]
  | f :: rest => if e.before f then e :: f :: rest else f :: insertEvent e rest

/-- The entry for `(h, ch)` (R28, R114). -/
def Event.isFor (h : Handle) (ch : Chan) (e : Event) : Bool := e.h == h && e.ch == ch

/-- The queue without the entry for `(h, ch)` (R114). -/
def removeEvent (h : Handle) (ch : Chan) (q : List Event) : List Event :=
  q.filter fun e => !e.isFor h ch

/-- Is `(h, ch)` queued (R124). -/
def queued (h : Handle) (ch : Chan) (s : State) : Bool := s.queue.any (Event.isFor h ch)

/-- Insert an event into the queue `q`; the sequence number moves on (R26, R113, R121). -/
def putEvent (e : Event) (q : List Event) (s : State) : State :=
  { s with queue := insertEvent e q, seq := s.seq + 1 }

/-- A deadline, or the period of a repeating event, that is no i64 (R113, R125). DEDUCED (log 14): R125 lets no computation
of the queue wrap, so a period that EQ.SCHEDSUB converts beyond i64 (R115) takes the TimeOverflow of the sums. -/
def beyondI64 (now delay : Int) (rep : Bool) (period : Int) : Bool :=
  decide (maxTime < now + delay) || (rep && decide (maxTime < period))

/-- The primitive `Schedule(h, ch, delay, rep, period)` (R113, R114, R125). -/
def schedule (h : Handle) (ch : Chan) (delay : Int) (rep : Bool) (period : Int) (s : State) : Run :=
  if delay < 0 then
    raiseFault .negativeDelay [h.setWidth 64, ch.setWidth 64, i64 delay] s
  else if rep = true ∧ period ≤ 0 then
    raiseFault .badPeriod [h.setWidth 64, ch.setWidth 64, i64 period] s
  else if beyondI64 s.now.toInt delay rep period then
    raiseFault .timeOverflow [h.setWidth 64, ch.setWidth 64, cycles64 delay] s
  else
    .ok (putEvent
      { h := h, ch := ch, deadline := i64 (s.now.toInt + delay), rep := rep,
        period := if rep then i64 period else 0, seq := s.seq } (removeEvent h ch s.queue) s)

/-- The reinsertion of a firing repeating event (R121). DEDUCED (log 10): the record of its overflow holds the period,
which is what the deadline was to be moved by. -/
def reinsert (e : Event) (s : State) : Run :=
  if maxTime < e.deadline.toInt + e.period.toInt then
    raiseFault .timeOverflow [e.h.setWidth 64, e.ch.setWidth 64, e.period] s
  else
    .ok (putEvent { e with deadline := i64 (e.deadline.toInt + e.period.toInt), seq := s.seq } s.queue s)

/-- `Advance(delta)` (R117, and R272 for its faults). -/
def advance (delta : Int) (s : State) : Run :=
  if delta < 0 then raiseFault .negativeDelay (advanceInfo s.cfg (i64 delta)) s
  else if maxTime < s.now.toInt + delta then raiseFault .timeOverflow (advanceInfo s.cfg (cycles64 delta)) s
  else .ok (s.setNow (i64 (s.now.toInt + delta)))

/-! ## The clock converter (41_clock_driver.md) -/

/-- The whole secondary cycles that `Convert(m)` answers (R141), for any `m`: its range is checked where a command's operand
is converted. -/
def convertResult (m : Nat) (s : State) : Nat := (s.acc + m * s.cfg.iopNum) / s.cfg.iopDen

/-- The state `Convert(m)` leaves: the remainder is carried (R141). -/
def convertState (m : Nat) (s : State) : State :=
  s.setAcc ((s.acc + m * s.cfg.iopNum) % s.cfg.iopDen)

/-- `ToMain(d)` (R142), for any `d`: its range is checked where a command's operand is converted. -/
def toMain (p : Params) (d : Nat) : Nat := ceilDiv (d * p.iopDen) p.iopNum

/-! ## The interrupt controllers (44_interrupt.md) -/

/-- `Raise(s, src)` (R243). -/
def raiseInt (sd : Side) (src : BitVec 5) (s : State) : State :=
  s.setIntc sd { s.intc sd with stat := (s.intc sd).stat ||| ((1 : Word) <<< src.toNat) }

end Sys2Proof.Machine
end

