-- ==== Sys2Proof/Machine/Operands.lean ====
section
/-! DEFINITION. The fields and addresses the rules read out of registers (10_state.md R31 to R36, 20_memory.md R75,
42_dma.md R161, R176, R177), and the checks every command passes before its rule runs (30_encoding.md R95, R96, R100). -/

namespace Sys2Proof.Machine

/-! ## Register fields -/

/-- `WMASK_CHCR[s]` (R161). -/
def chcrMask : Side → Word
  | .main => 0xFFFF01FF
  | .sub => 0x11770703

/-- `WMASK_ADDR[s]` (R161). -/
def addrMask : Side → Word
  | .main => 0xFFFFFFFF
  | .sub => 0x00FFFFFF

/-- `WMASK_CNT[s]` (R161). -/
def cntMask : Side → Word
  | .main => 0x0000FFFF
  | .sub => 0xFFFFFFFF

/-- The STR bit of a CHCR value (R31, R32, R160). -/
def strOf : Side → Word → Bool
  | .main, v => v.getLsbD 8
  | .sub, v => v.getLsbD 24

/-- The STR bit cleared (R180). -/
def clearStr : Side → Word → Word
  | .main, v => v &&& 0xFFFFFEFF
  | .sub, v => v &&& 0xFEFFFFFF

/-- Main MOD, secondary SYNC (R31, R32). -/
def modeOf : Side → Word → BitVec 2
  | .main, v => v.extractLsb' 2 2
  | .sub, v => v.extractLsb' 9 2

/-- `Chain` of a CHCR value (R45). -/
def chainOf : Side → Word → Bool
  | .main, v => modeOf .main v == 1
  | .sub, v => modeOf .sub v == 2

/-- `toMem` of a CHCR value: DIR = 0 (R45). -/
def toMemOf (v : Word) : Bool := !v.getLsbD 0

/-- A mode that no rule models: main MOD = 2, ASP or TTE; secondary DEC or CHOP (R31, R32, R162). -/
def unmodelledMode : Side → Word → Bool
  | .main, v => modeOf .main v == 2 || v.extractLsb' 4 2 != 0 || v.getLsbD 6
  | .sub, v => v.getLsbD 1 || v.getLsbD 8

/-- A count register that is 0 for its mode (R162). -/
def zeroCount (sd : Side) (chcr cnt : Word) : Bool :=
  match sd with
  | .main => cnt.extractLsb' 0 16 == 0
  | .sub => cnt.extractLsb' 0 16 == 0 || (modeOf .sub chcr == 1 && cnt.extractLsb' 16 16 == 0)

/-- The count that the CNT register of a start stands for, in granules: QWC quadwords, BS words, BS * BA words (R35, R163). -/
def countOf (sd : Side) (chcr cnt : Word) : Nat :=
  match sd with
  | .main => (cnt.extractLsb' 0 16).toNat
  | .sub =>
    if modeOf .sub chcr = 0 then (cnt.extractLsb' 0 16).toNat
    else (cnt.extractLsb' 0 16).toNat * (cnt.extractLsb' 16 16).toNat

/-- The words a normal-mode start loads into `rem` (R162, R163): granules of `GRAN[s]` words (log 25). -/
def startCount (p : Params) (sd : Side) (chcr cnt : Word) : Nat := countOf sd chcr cnt * p.gran sd

/-- Replace bits 15:0 (R36). -/
def setLow16 (w : Word) (n : Nat) : Word := (w &&& 0xFFFF0000) ||| (BitVec.ofNat 16 n).setWidth 32

/-- Replace bits 31:16 (R36). -/
def setHigh16 (w : Word) (n : Nat) : Word := (w &&& 0x0000FFFF) ||| ((BitVec.ofNat 16 n).setWidth 32 <<< 16)

/-- The CNT register as it tracks `left` granules still to move (R36). -/
def trackGranules (sd : Side) (chcr cnt : Word) (left : Nat) : Word :=
  match sd with
  | .main => setLow16 cnt left
  | .sub =>
    if chainOf .sub chcr then cnt
    else if modeOf .sub chcr = 0 then setLow16 cnt left
    else setHigh16 cnt (ceilDiv left (cnt.extractLsb' 0 16).toNat)

/-- The CNT register as it tracks `rem` (R36), in granules of `GRAN[s]` words (log 25). -/
def trackCnt (p : Params) (sd : Side) (chcr cnt : Word) (rem : Nat) : Word :=
  trackGranules sd chcr cnt (ceilDiv rem (p.gran sd))

/-- The effective address and space of a MADR or TADR value (R33, R34). -/
def effectiveAddr (p : Params) (sd : Side) (v : Word) : Space × Nat :=
  match sd with
  | .main =>
    if v.getLsbD 31 then (.mainSpr, (v &&& 0x7FFFFFFF &&& p.sprMask).toNat)
    else (.mainRam, (v &&& 0x7FFFFFFF &&& p.mainRamMask).toNat)
  | .sub => (.subRam, (v &&& p.subRamMask).toNat)

/-- An address advanced by `k` within its stored field: bit 31 kept and bits 30:0 wrapping on the main side, 24 bits
wrapping on the secondary side (R75, R176, R177). -/
def advanceAddr (sd : Side) (v : Word) (k : Nat) : Word :=
  match sd with
  | .main => (v &&& 0x80000000) ||| ((v + BitVec.ofNat 32 k) &&& 0x7FFFFFFF)
  | .sub => (v + BitVec.ofNat 32 k) &&& 0x00FFFFFF

/-- Not word-aligned (R74). -/
def offWord (v : Word) : Bool := v.extractLsb' 0 2 != 0

/-- Not quadword-aligned (R74). -/
def offQuad (v : Word) : Bool := v.extractLsb' 0 4 != 0

/-- A main-side chain tag's parts (R176). -/
structure MainTag where
  qwc : BitVec 16
  id : BitVec 3
  irq : Bool
  addr : Word
  deriving DecidableEq, Repr

/-- Read a main-side tag's fields out of its two low words (R176, D27). -/
def mainTagOf (lo hi : Word) : MainTag where
  qwc := lo.extractLsb' 0 16
  id := lo.extractLsb' 28 3
  irq := lo.getLsbD 31
  addr := hi

/-- Where a main-side tag puts MADR and TADR, and whether it ends the chain; none for the ids 4, 5 and 6 (R176). A quadword
of memory is 16 bytes (R73). -/
def mainTagTargets (t : MainTag) (tadr : Word) : Option (Word × Word × Bool) :=
  let data := advanceAddr .main tadr 16
  let after := advanceAddr .main data (16 * t.qwc.toNat)
  match t.id.toNat with
  | 0 => some (t.addr, data, true)
  | 1 => some (data, after, false)
  | 2 => some (data, t.addr, false)
  | 3 => some (t.addr, data, false)
  | 7 => some (data, after, true)
  | _ => none

/-- A secondary-side chain tag's parts (R177). -/
structure SubTag where
  addr : Word
  last : Bool
  len : Word
  deriving DecidableEq, Repr

/-- Read a secondary-side tag's fields out of its two words (R177, D27). -/
def subTagOf (w0 w1 : Word) : SubTag where
  addr := w0 &&& 0x00FFFFFF
  last := w0.getLsbD 31
  len := w1 &&& 0x00FFFFFF

/-! ## Events and handles -/

/-- `dmaHandle(s)` (R44, R112). -/
def dmaHandle : Side → Handle
  | .main => 0
  | .sub => 1

/-- `Cost(s)` in main cycles (R175). DESIGN CHOICE (log 22): R142 gives ToMain no value for a configured cost of `2 ^ 32` or
more, and the model converts it like any other. -/
def burstCost (p : Params) : Side → Nat
  | .main => p.dmaCostMain
  | .sub => toMain p p.dmaCostSub

/-! ## The checks before a command's rule -/

/-- Who presents the command that the machine runs now (R91): the CPU of the slice in progress, the callback in
progress, and otherwise the Host. -/
def State.issuer (s : State) : Issuer :=
  match s.agenda with
  | .slice .main _ _ :: _ => .cpuMain
  | .slice .sub _ _ :: _ => .cpuSub
  | .callback _ :: _ => .callback
  | _ => .host

/-- An issuer as a number of a PhaseViolation record (log 6). -/
def issuerCode (p : Params) : Issuer → DWord
  | .host => p.issuerCode.host
  | .cpuMain => p.issuerCode.cpuMain
  | .cpuSub => p.issuerCode.cpuSub
  | .callback => p.issuerCode.callback

/-- The rows of R96's table. -/
inductive CmdClass where
  /-- EQ.REG, DRV.START. -/
  | setup
  /-- DRV.TICK, DRV.HALT, EQ.ADV, EQ.DRAIN, CLK.CONV, SIF.PUSH, SIF.POP. -/
  | hostRun
  /-- EQ.SCHED, EQ.SCHEDSUB, DMA.DRQ, INT.RAISE. -/
  | device
  /-- CLK.TOMAIN, EQ.NOW, EQ.QUERY, SIF.OCC. -/
  | anyone
  /-- the set "Reg", with its side and whether the command is in the set "Pure". -/
  | register (sd : Side) (isPure : Bool)
  deriving DecidableEq, Repr

/-- The row of R96's table a command stands in. ILLEGAL stands in none: it faults before that check (R100). -/
def cmdClass : Instr → CmdClass
  | .eqReg _ | .drvStart => .setup
  | .drvTick _ | .drvHalt | .eqAdv _ | .eqDrain | .clkConv _ | .sifPush _ _ | .sifPop _ => .hostRun
  | .eqSched _ _ _ _ _ | .eqSchedSub _ _ _ _ _ | .dmaDrq _ _ _ | .intRaise _ _ => .device
  | .clkToMain _ | .eqNow | .eqQuery _ _ | .sifOcc _ | .illegal _ _ => .anyone
  | .dmaWr sd _ _ _ => .register sd false
  | .dmaRd sd _ _ => .register sd true
  | .dmaWre sd _ _ => .register sd false
  | .dmaRde sd _ => .register sd true
  | .intWmask sd _ => .register sd false
  | .intAck sd _ => .register sd false
  | .intRstat sd => .register sd true
  | .intRmask sd => .register sd true
  | .intRctrl sd => .register sd false
  | .intWctrl sd _ => .register sd false
  | .intPend sd => .register sd true

/-- The phases in which a row of R96's table is legal. -/
def legalPhase : CmdClass → Phase → Bool
  | .setup, .init => true
  | .hostRun, .running => true
  | .device, .init => true
  | .device, .running => true
  | .anyone, .faulted => false
  | .anyone, _ => true
  | .register _ _, .init => true
  | .register _ _, .running => true
  | .register _ isPure, .halted => isPure
  | _, _ => false

/-- The issuers for whom a row of R96's table is legal. -/
def legalIssuer : CmdClass → Issuer → Bool
  | .setup, .host => true
  | .hostRun, .host => true
  | .device, .host => true
  | .device, .callback => true
  | .anyone, _ => true
  | .register _ _, .host => true
  | .register _ _, .callback => true
  | .register sd _, .cpuMain => sd == .main
  | .register sd _, .cpuSub => sd == .sub
  | _, _ => false

/-- R96: the command is legal in this phase and for this issuer. -/
def legal (i : Instr) (s : State) : Bool :=
  legalPhase (cmdClass i) s.phase && legalIssuer (cmdClass i) s.issuer

/-- A filled handle and a channel of an event command (R95). -/
def eventRange (ch : Chan) (h : Handle) (s : State) : Bool :=
  decide (ch.toNat ≤ s.cfg.maxChan) && decide (h.toNat < s.nh)

/-- R95, with the ban of the built-in handles in EQ.SCHED and EQ.SCHEDSUB (R113, R115). -/
def inRange (i : Instr) (s : State) : Bool :=
  match i with
  | .eqSched _ ch h _ _ => eventRange ch h s && decide (2 ≤ h.toNat)
  | .eqSchedSub _ ch h _ _ => eventRange ch h s && decide (2 ≤ h.toNat)
  | .eqQuery ch h => eventRange ch h s
  | .dmaWr sd c _ _ => decide (c.toNat < s.cfg.nch sd)
  | .dmaRd sd c _ => decide (c.toNat < s.cfg.nch sd)
  | .dmaDrq sd c _ => decide (c.toNat < s.cfg.nch sd)
  | .eqReg _ | .eqNow | .eqAdv _ | .eqDrain | .clkConv _ | .clkToMain _ => true
  | .drvStart | .drvTick _ | .drvHalt => true
  | .dmaWre _ _ _ | .dmaRde _ _ => true
  | .sifPush _ _ | .sifPop _ | .sifOcc _ => true
  | .intRaise _ _ | .intWmask _ _ | .intAck _ _ | .intRstat _ | .intRmask _ => true
  | .intRctrl _ | .intWctrl _ _ | .intPend _ | .illegal _ _ => true

/-- `[CMD, A, B]` (R272). -/
def cmdInfo (c : Command) : List DWord := [c.cmd.setWidth 64, c.a, c.b]

/-- Steps 1, 4, 5 and 6 of the decoding order (R100) for command `i` whose rule is `rule`: no effect when Faulted, then
PhaseViolation, then BadOperand, then the rule. The answer of the command before is gone (R90). -/
def issue (i : Instr) (rule : State → Run) (s : State) : State :=
  if s.phase = .faulted then clearAnswer s
  else if legal i s = false then
    takeFault .phaseViolation [(encode i).cmd.setWidth 64, issuerCode s.cfg s.issuer] s
  else if inRange i s = false then takeFault .badOperand (cmdInfo (encode i)) s
  else runState (rule (clearAnswer s))

/-- Steps 1 to 3 of the decoding order (R100) for a triple that is no command: no effect when Faulted, else
IllegalCommand (R97, R98, R99). -/
def illegalCommand (c : Command) (s : State) : State :=
  if s.phase = .faulted then clearAnswer s
  else takeFault .illegalCommand (cmdInfo c) s

end Sys2Proof.Machine
end

