-- ==== Sys2Proof/Machine/Clock.lean ====
section
/-! DEFINITION. The clock converter and driver commands (41_clock_driver.md). -/

namespace Sys2Proof.Machine

/-- CLK.CONV's rule (R141). -/
def convertCommand (m : DWord) (s : State) : Run :=
  if m.toNat < 2 ^ 32 then .ok (reply (u64 (convertResult m.toNat s)) (convertState m.toNat s))
  else raiseFault .badOperand (cmdInfo (encode (.clkConv m))) s

/-- CLK.CONV (R141). -/
def execClkConv (m : DWord) (s : State) : Host.Outcome State Fault Refusal :=
  .next (issue (.clkConv m) (convertCommand m) s)

/-- CLK.TOMAIN's rule (R142). A negative operand is at least `2^63` as a natural number. DESIGN CHOICE (log 23): a result
beyond 64 bits, which an IOP_DEN beyond any bound can give, is answered by a free value. -/
def toMainCommand (d : DWord) (s : State) : Run :=
  if d.toNat < 2 ^ 32 then .ok (reply (cycles64 (toMain s.cfg d.toNat)) s)
  else raiseFault .badOperand (cmdInfo (encode (.clkToMain d))) s

/-- CLK.TOMAIN (R142). -/
def execClkToMain (d : DWord) (s : State) : Host.Outcome State Fault Refusal :=
  .next (issue (.clkToMain d) (toMainCommand d) s)

/-- DRV.START (R146). -/
def execDrvStart (s : State) : Host.Outcome State Fault Refusal :=
  .next (issue .drvStart (fun t => .ok (t.setPhase .running)) s)

/-- What a tick of `n` main instructions does, in order (R145): main slice, conversion and secondary slice, advance,
drain, count. DESIGN CHOICE (log 21): `cycles` is converted whatever its size, though R141 gives its operand the range
below `2 ^ 32`, which a MAIN_CPI above 1 can leave. -/
def tickTasks (n cycles : Nat) : List Task :=
  [.slice .main n [], .convert cycles, .advance cycles, .drain, .tickEnd]

/-- DRV.TICK (R145): the tick begins; the steps of the machine then do its tasks in order (log 1). -/
def execDrvTick (n : Word) (s : State) : Host.Outcome State Fault Refusal :=
  .next (issue (.drvTick n)
    (fun t => .ok (t.setAgenda (tickTasks n.toNat (n.toNat * t.cfg.mainCpi) ++ t.agenda))) s)

/-- DRV.HALT (R147). -/
def execDrvHalt (s : State) : Host.Outcome State Fault Refusal :=
  .next (issue .drvHalt (fun t => .ok (t.setPhase .halted)) s)

end Sys2Proof.Machine
end

