-- ==== Sys2Proof/Machine/Flags.lean ====
section
/-! DEFINITION. The block's derived predicates and status bits (10_state.md R37 to R46, 42_dma.md R170, 44_interrupt.md
R252). The block has no condition flags; these are the bits its registers and lines show. -/

namespace Sys2Proof.Machine

/-! ## FIFO ends (R41, R221) -/

/-- The FIFO that channel `c` of side `sd` consumes, if any (R221). -/
def consumes (p : Params) (sd : Side) (c : Chan) : Option Dir :=
  match sd with
  | .main => if c = p.sifMain.sif0 then some .sif0 else none
  | .sub => if c = p.sifSub.sif1 then some .sif1 else none

/-- The FIFO that channel `c` of side `sd` produces, if any (R221). -/
def produces (p : Params) (sd : Side) (c : Chan) : Option Dir :=
  match sd with
  | .main => if c = p.sifMain.sif1 then some .sif1 else none
  | .sub => if c = p.sifSub.sif0 then some .sif0 else none

/-- The consumer channel of a FIFO (R221). -/
def consumerOf (p : Params) : Dir → Side × Chan
  | .sif0 => (.main, p.sifMain.sif0)
  | .sif1 => (.sub, p.sifSub.sif1)

/-- The producer channel of a FIFO (R221). -/
def producerOf (p : Params) : Dir → Side × Chan
  | .sif0 => (.sub, p.sifSub.sif0)
  | .sif1 => (.main, p.sifMain.sif1)

/-- A channel connected to a FIFO (R47, R162). -/
def fifoChannel (p : Params) (sd : Side) (c : Chan) : Bool :=
  (consumes p sd c).isSome || (produces p sd c).isSome

/-- `c in SIF_CH[s]`: the three SIF channels, SIF2 among them (R7, R166). -/
def sifChannel (p : Params) (sd : Side) (c : Chan) : Bool :=
  c == (p.sif sd).sif0 || c == (p.sif sd).sif1 || c == (p.sif sd).sif2

/-- The DRQ of a FIFO's consumer (R226). -/
def consumerDrq (s : State) (d : Dir) : Bool := decide (0 < (s.fifo d).length)

/-- The DRQ of a FIFO's producer (R226). -/
def producerDrq (s : State) (d : Dir) : Bool := decide ((s.fifo d).length < s.cfg.lwm)

/-- `drq(s, c)` (R37): a function of the FIFO for a SIF channel, 0 for SIF2, the stored line otherwise. -/
def drq (s : State) (sd : Side) (c : Chan) : Bool :=
  match consumes s.cfg sd c with
  | some d => consumerDrq s d
  | none =>
    match produces s.cfg sd c with
    | some d => producerDrq s d
    | none => if c = (s.cfg.sif sd).sif2 then false else (s.chan sd c).drq

/-! ## Channel predicates (R44 to R46) -/

/-- `Running(s, c)`: the channel's event is queued (R44). -/
def running (s : State) (sd : Side) (c : Chan) : Bool := queued (dmaHandle sd) c s

/-- `Active(s, c)`: the STR bit (R45). -/
def active (s : State) (sd : Side) (c : Chan) : Bool := strOf sd (s.chan sd c).chcr

/-- `Chain(s, c)` (R45). -/
def chained (s : State) (sd : Side) (c : Chan) : Bool := chainOf sd (s.chan sd c).chcr

/-- `toMem(s, c)` (R45). -/
def toMem (s : State) (sd : Side) (c : Chan) : Bool := toMemOf (s.chan sd c).chcr

/-- The states of a channel's state machine that stand between commands (R46). -/
inductive ChannelPhase where
  | idle
  | waiting
  | transferring
  | completing
  deriving DecidableEq, Repr

/-- The channel state machine read off the state (R46). -/
def channelPhase (s : State) (sd : Side) (c : Chan) : ChannelPhase :=
  if active s sd c = false then .idle
  else if running s sd c = false then .waiting
  else if 0 < (s.chan sd c).rem.toNat ∨ (chained s sd c = true ∧ (s.chan sd c).tagEnd = false) then .transferring
  else .completing

/-- `enabled(s, c) = CTRL[0]` (R38). -/
def engineEnabled (s : State) (sd : Side) : Bool := (s.dma sd).ctrl.getLsbD 0

/-- `priorityControlAllows(s, c)` (R38). -/
def priorityAllows (s : State) (sd : Side) (c : Chan) : Bool :=
  !(s.dma sd).pcr.getLsbD 31 || (s.dma sd).pcr.getLsbD c.toNat

/-- `gate(s, c)` (R170). -/
def gate (s : State) (sd : Side) (c : Chan) : Bool :=
  active s sd c && drq s sd c && engineEnabled s sd && priorityAllows s sd c

/-- The STATUS word of DMA.RD (R164). -/
def statusWord (s : State) (sd : Side) (c : Chan) : Word :=
  (flagBit (drq s sd c)).setWidth 32 ||| ((flagBit (s.chan sd c).tagEnd).setWidth 32 <<< 1) |||
    ((flagBit (running s sd c)).setWidth 32 <<< 2)

/-! ## DMA interrupt flags (R39) -/

/-- `M = 2^NCH[s] - 1` (R185). -/
def channelBits (p : Params) (sd : Side) : Word := BitVec.ofNat 32 (2 ^ p.nch sd - 1)

/-- The master flag MF (R39). -/
def masterFlag (s : State) (sd : Side) : Bool :=
  (s.dma sd).dintCtl.getLsbD 31 &&
    ((s.dma sd).dintStat &&& (s.dma sd).dintCtl &&& channelBits s.cfg sd != 0)

/-- DINT_STAT as it is read: the bits IP, and MF in bit 31 (R39, R188). -/
def dintStatWord (s : State) (sd : Side) : Word :=
  ((s.dma sd).dintStat &&& channelBits s.cfg sd) ||| ((flagBit (masterFlag s sd)).setWidth 32 <<< 31)

/-! ## Interrupt lines (R43) -/

/-- `pending(s)` (R43, R252). -/
def pendingLine (s : State) (sd : Side) : Bool :=
  ((s.intc sd).stat &&& (s.intc sd).mask != 0) && (s.intc sd).master

end Sys2Proof.Machine
end

