-- ==== Sys2Proof/Machine/Fifo.lean ====
section
/-! DEFINITION. The IPC FIFO pair's operations (43_ipc_fifo.md R222, R223, R226). -/

namespace Sys2Proof.Machine

/-- The channels of FIFO `d` whose DRQ is 0 in `before` and 1 in `after` (R226). -/
def risenDrqs (before after : State) (d : Dir) : List (Side × Chan) :=
  (if consumerDrq before d = false ∧ consumerDrq after d = true then [consumerOf after.cfg d] else []) ++
    (if producerDrq before d = false ∧ producerDrq after d = true then [producerOf after.cfg d] else [])

/-- Give FIFO `d` the contents `q` and append the channels whose DRQ rose to the deferred starts: RecomputeDRQ
(R167, R226). -/
def setFifoDrq (d : Dir) (q : List Word) (s : State) : State :=
  (s.setFifo d q).setPending (s.pendingStarts ++ risenDrqs s (s.setFifo d q) d)

/-- A word as an entry of FIFO_WIDTH bits holds it (R7, R220): the word itself, the width being 32 (log 25). -/
def fifoEntry (p : Params) (w : Word) : Word := w &&& BitVec.ofNat 32 (2 ^ p.fifoWidth - 1)

/-- `FifoPush(d, w)` (R222). -/
def fifoPush (d : Dir) (w : Word) (s : State) : Run :=
  if (s.fifo d).length < s.cfg.fifoCap then .ok (setFifoDrq d (s.fifo d ++ [fifoEntry s.cfg w]) s)
  else raiseFault .fifoOverflow [dirCode d, w.setWidth 64] s

/-- `FifoPop(d)` (R223). -/
def fifoPop (d : Dir) (s : State) : Except State (Word × State) :=
  match s.fifo d with
  | [] => raiseFault .fifoUnderflow [dirCode d] s
  | w :: rest => .ok (w, setFifoDrq d rest s)

end Sys2Proof.Machine
end

