-- ==== Sys2Proof/Machine/Dma.lean ====
section
/-! DEFINITION. The DMA engines' internal rules (42_dma.md R162 to R186): starting a channel, the burst, the chain tags,
the completion, the deferred starts. -/

namespace Sys2Proof.Machine

/-- The diagnostic `[s, c, CHCR, MADR, TADR, CNT]` (R162, R272). -/
def channelInfo (sd : Side) (c : Chan) (s : State) : List DWord :=
  let ch := s.chan sd c
  [sideCode sd, c.setWidth 64, ch.chcr.setWidth 64, ch.madr.setWidth 64, ch.tadr.setWidth 64, ch.cnt.setWidth 64]

/-- A fault of a channel, with the channel's diagnostic (R162). -/
def channelFault (kind : FaultKind) (sd : Side) (c : Chan) (s : State) : Run :=
  raiseFault kind (channelInfo sd c s) s

/-! ## Bursts -/

/-- `BurstSize(s, c)` in words (R173). -/
def burstSize (sd : Side) (c : Chan) (s : State) : Nat :=
  match consumes s.cfg sd c with
  | some d => min s.cfg.burstCap (min (s.chan sd c).rem.toNat (s.fifo d).length)
  | none =>
    match produces s.cfg sd c with
    | some d => min s.cfg.burstCap (min (s.chan sd c).rem.toNat (s.cfg.fifoCap - (s.fifo d).length))
    | none => min s.cfg.burstCap (s.chan sd c).rem.toNat

/-- The word a transfer into memory takes: from the FIFO the channel consumes, else from its peripheral (R174). -/
def takeWord (sd : Side) (c : Chan) (s : State) : Except State (Word × State) :=
  match consumes s.cfg sd c with
  | some d => fifoPop d s
  | none => .ok (periphRead sd c s)

/-- Give a word of a transfer from memory to the FIFO the channel produces, else to its peripheral (R174). -/
def giveWord (sd : Side) (c : Chan) (w : Word) (s : State) : Run :=
  match produces s.cfg sd c with
  | some d => fifoPush d w s
  | none => .ok (periphWrite sd c w s)

/-- Advance a channel's MADR by one word (R75, R174). -/
def stepMadr (sd : Side) (c : Chan) (s : State) : State :=
  s.setChan sd c { s.chan sd c with madr := advanceAddr sd (s.chan sd c).madr 4 }

/-- `MoveWord(s, c)` (R174). -/
def moveWord (sd : Side) (c : Chan) (s : State) : Run :=
  let ea := effectiveAddr s.cfg sd (s.chan sd c).madr
  if toMem s sd c then
    match takeWord sd c s with
    | .error t => .error t
    | .ok (w, t) => .ok (stepMadr sd c (t.setMem (t.mem.writeWord ea.1 ea.2 w)))
  else
    match giveWord sd c (s.mem.readWord ea.1 ea.2) s with
    | .error t => .error t
    | .ok t => .ok (stepMadr sd c t)

/-- `repeat n times: MoveWord(s, c)` (R172). -/
def moveWords (sd : Side) (c : Chan) : Nat → State → Run
  | 0, s => .ok s
  | n + 1, s =>
    match moveWord sd c s with
    | .error t => .error t
    | .ok t => moveWords sd c n t

/-- The end of a burst of `n` words: `rem` falls by `n` and CNT tracks it (R36, R172). -/
def countWords (sd : Side) (c : Chan) (n : Nat) (s : State) : State :=
  let ch := s.chan sd c
  let left := ch.rem.toNat - n
  s.setChan sd c { ch with rem := BitVec.ofNat 32 left, cnt := trackCnt s.cfg sd ch.chcr ch.cnt left }

/-! ## Chain tags -/

/-- The data address a main-side tag gives channel `c` is misaligned: words for a FIFO channel, quadwords for another
(R74, R176). -/
def tagDataOff (p : Params) (c : Chan) (madr : Word) : Bool :=
  if fifoChannel p .main c then offWord madr else offQuad madr

/-- A chain start's TADR is misaligned: quadwords on the main side, words on the secondary side (R74, R162). -/
def tagStartOff (sd : Side) (tadr : Word) : Bool :=
  match sd with
  | .main => offQuad tadr
  | .sub => offWord tadr

/-- `TagFetch(MAIN, c)` (R176). -/
def tagFetchMain (c : Chan) (s : State) : Run :=
  let ch := s.chan .main c
  if offQuad ch.tadr then channelFault .misaligned .main c s
  else
    let ea := effectiveAddr s.cfg .main ch.tadr
    let lo := s.mem.readWord ea.1 ea.2
    let t := mainTagOf lo (s.mem.readWord ea.1 (ea.2 + 4))
    let ch1 := { ch with chcr := (lo &&& 0xFFFF0000) ||| (ch.chcr &&& 0x0000FFFF), cnt := t.qwc.setWidth 32 }
    match mainTagTargets t ch.tadr with
    | none => channelFault .unimplemented .main c (s.setChan .main c ch1)
    | some (madr, tadr, last) =>
      let ch2 := { ch1 with madr := madr, tadr := tadr }
      if tagDataOff s.cfg c madr then
        channelFault .misaligned .main c (s.setChan .main c ch2)
      else
        .ok (s.setChan .main c
          { ch2 with
            rem := BitVec.ofNat 32 (s.cfg.granMain * t.qwc.toNat), tagEnd := last || (t.irq && ch.chcr.getLsbD 7) })

/-- `TagFetch(SUB, c)` (R177). -/
def tagFetchSub (c : Chan) (s : State) : Run :=
  let ch := s.chan .sub c
  if offWord ch.tadr then channelFault .misaligned .sub c s
  else
    let e0 := effectiveAddr s.cfg .sub ch.tadr
    let e1 := effectiveAddr s.cfg .sub (advanceAddr .sub ch.tadr 4)
    let t := subTagOf (s.mem.readWord e0.1 e0.2) (s.mem.readWord e1.1 e1.2)
    if offWord t.addr then channelFault .misaligned .sub c s
    else
      .ok (s.setChan .sub c
        { ch with
          madr := t.addr, tadr := advanceAddr .sub ch.tadr 8, rem := BitVec.ofNat 32 (s.cfg.granSub * t.len.toNat)
          tagEnd := t.last })

/-- `TagFetch(s, c)` (R176, R177). -/
def tagFetch (sd : Side) (c : Chan) (s : State) : Run :=
  match sd with
  | .main => tagFetchMain c s
  | .sub => tagFetchSub c s

/-- A burst that begins with nothing left and the chain not ended fetches one tag first (R172, R179). -/
def needsTag (sd : Side) (c : Chan) (s : State) : Bool :=
  chained s sd c && (s.chan sd c).rem == 0 && !(s.chan sd c).tagEnd

/-! ## The burst step and its gate -/

/-- The tag fetch at the head of a burst, where one is due (R172). -/
def fetchIfNeeded (sd : Side) (c : Chan) (s : State) : Run :=
  if needsTag sd c s then tagFetch sd c s else .ok s

/-- The burst after its tag: move the words, count them, schedule the event at its end (R172, R175). DESIGN CHOICE (log 26):
the event is queued for a channel above MAX_CHAN too, which a configuration of R7 may set below NCH[s] - 1. -/
def burstBody (sd : Side) (c : Chan) (s : State) : Run := do
  let t ← moveWords sd c (burstSize sd c s) s
  schedule (dmaHandle sd) c (burstCost s.cfg sd) false 0 (countWords sd c (burstSize sd c s) t)

/-- `BurstStep(s, c)` (R172). -/
def burstStep (sd : Side) (c : Chan) (s : State) : Run := do
  let t ← fetchIfNeeded sd c s
  burstBody sd c t

/-- `CheckRunning(s, c)` (R171). -/
def checkRunning (sd : Side) (c : Chan) (s : State) : Run :=
  if running s sd c then .ok s
  else if gate s sd c then burstStep sd c s
  else .ok s

/-- One round of ProcessPendingStarts: the first deferred start, when its engine is enabled (R184). -/
def startPending (p : Side × Chan) (s : State) : Run :=
  if engineEnabled s p.1 then checkRunning p.1 p.2 s else .ok s

/-- The loop of ProcessPendingStarts, for at most `fuel` rounds (R184). -/
def drainPending : Nat → State → Run
  | 0, s => .ok s
  | fuel + 1, s =>
    match s.pendingStarts with
    | [] => .ok s
    | p :: rest =>
      match startPending p (s.setPending rest) with
      | .error t => .error t
      | .ok t => drainPending fuel t

/-- `ProcessPendingStarts()` (R184). Four rounds beyond the list's length are enough for every state, as R184's argument
says: a round that bursts makes its channel Running, only the four FIFO ends append, and a burst appends at most once. -/
def processPendingStarts (s : State) : Run := drainPending (s.pendingStarts.length + 4) s

/-! ## Start, completion, events -/

/-- `StartChannel(s, c)` (R162), checks in the rule's order. DEDUCED (log 27): a chain's start checks TADR and not MADR, as
R74 and R162 write it, though D29 speaks of every start. -/
def startChannel (sd : Side) (c : Chan) (s : State) : Run :=
  let ch := s.chan sd c
  if c = (s.cfg.sif sd).sif2 then channelFault .unimplemented sd c s
  else if modeOf sd ch.chcr = 3 then channelFault .reservedMode sd c s
  else if unmodelledMode sd ch.chcr then channelFault .unimplemented sd c s
  else if chained s sd c ∧ toMem s sd c then channelFault .unimplemented sd c s
  else if ((produces s.cfg sd c).isSome ∧ toMem s sd c) ∨ ((consumes s.cfg sd c).isSome ∧ toMem s sd c = false) then
    channelFault .contradictoryControl sd c s
  else if chained s sd c = false then
    if zeroCount sd ch.chcr ch.cnt then channelFault .zeroCount sd c s
    else if offWord ch.madr ∨ (sd = .main ∧ fifoChannel s.cfg sd c = false ∧ offQuad ch.madr) then
      channelFault .misaligned sd c s
    else
      checkRunning sd c
        (s.setChan sd c { ch with rem := BitVec.ofNat 32 (startCount s.cfg sd ch.chcr ch.cnt), tagEnd := false })
  else if tagStartOff sd ch.tadr then channelFault .misaligned sd c s
  else checkRunning sd c (s.setChan sd c { ch with rem := 0, tagEnd := false })

/-- `EvalMaster(s, oldMF)` (R182): a rising master flag raises the engine's interrupt source. -/
def evalMaster (sd : Side) (oldMf : Bool) (s : State) : State :=
  if oldMf = false ∧ masterFlag s sd = true then raiseInt sd (s.cfg.dmaSrc sd) s else s

/-- `Complete(s, c)` (R180), with CNT tracked at completion (R36). -/
def complete (sd : Side) (c : Chan) (s : State) : State :=
  let ch := s.chan sd c
  let s1 := s.setChan sd c
    { ch with chcr := clearStr sd ch.chcr, cnt := trackCnt s.cfg sd ch.chcr ch.cnt ch.rem.toNat }
  evalMaster sd (masterFlag s sd)
    (s1.setDma sd { s1.dma sd with dintStat := (s1.dma sd).dintStat ||| ((1 : Word) <<< c.toNat) })

/-- `DmaEvent(s, c, late)` (R178); `late` is not used. -/
def dmaEvent (sd : Side) (c : Chan) (s : State) : Run :=
  if active s sd c = false then .ok s
  else if (s.chan sd c).rem = 0 ∧ (chained s sd c = false ∨ (s.chan sd c).tagEnd = true) then
    processPendingStarts (complete sd c s)
  else (if gate s sd c then burstStep sd c s else .ok s) >>= processPendingStarts

/-- ReEvaluate's loop over channels `c`, `c + 1`, ..., `n` of them (R186). -/
def reEvaluateFrom (sd : Side) : Nat → Nat → State → Run
  | _, 0, s => .ok s
  | c, n + 1, s =>
    let x := BitVec.ofNat 6 c
    if active s sd x = true ∧ running s sd x = false then
      match checkRunning sd x s with
      | .error t => .error t
      | .ok t => reEvaluateFrom sd (c + 1) n t
    else reEvaluateFrom sd (c + 1) n s

/-- `ReEvaluate(s)` (R186): every Waiting channel of the side, in ascending order. -/
def reEvaluate (sd : Side) (s : State) : Run := reEvaluateFrom sd 0 (s.cfg.nch sd) s

end Sys2Proof.Machine
end

