-- ==== Sys2Proof/Machine/DmaPort.lean ====
section
/-! DEFINITION. The DMA commands (42_dma.md R160, R164, R166, R185, R188). -/

namespace Sys2Proof.Machine

/-- A channel register select as a number of a fault record (R92). -/
def chanRegCode (reg : ChanReg) : DWord := (chanRegBits reg).setWidth 64

/-- The ChannelBusy diagnostic `[s, c, reg, v]` (R160, R272). -/
def busyInfo (sd : Side) (c : Chan) (reg : ChanReg) (v : Word) : List DWord :=
  [sideCode sd, c.setWidth 64, chanRegCode reg, v.setWidth 64]

/-- The read-only and invalid selects of a channel register write, which fault (R92, R160), with the record of each: for
the read-only selects `[CMD, v]` (R160) or `[CMD, A, B]` (R272), as the configuration says (log 9); for the invalid ones
`[CMD, A, B]` (R272). -/
def writeRefused (p : Params) (sd : Side) (c : Chan) (reg : ChanReg) (v : Word) : Option (List DWord) :=
  match reg with
  | .status | .rem =>
    some (infoOf p [(encode (.dmaWr sd c reg v)).cmd.setWidth 64, v.setWidth 64] (cmdInfo (encode (.dmaWr sd c reg v))))
  | .sel6 | .sel7 => some (cmdInfo (encode (.dmaWr sd c reg v)))
  | .chcr | .madr | .cnt | .tadr => none

/-- The channel with register `reg` written, masked (R160, R161). -/
def writeReg (sd : Side) (reg : ChanReg) (v : Word) (ch : Channel) : Channel :=
  match reg with
  | .chcr => { ch with chcr := v &&& chcrMask sd }
  | .madr => { ch with madr := v &&& addrMask sd }
  | .tadr => { ch with tadr := v &&& addrMask sd }
  | .cnt => { ch with cnt := v &&& cntMask sd }
  | .status | .rem | .sel6 | .sel7 => ch

/-- A CHCR write with STR 0 to a Waiting channel, which aborts it (R160, D24). -/
def abortChannel (sd : Side) (c : Chan) (v : Word) (s : State) : State :=
  s.setChan sd c { s.chan sd c with chcr := v &&& chcrMask sd, rem := 0, tagEnd := false }

/-- The register write of an Idle channel: a CHCR write with STR 1 starts the channel (R160). -/
def storeOrStart (sd : Side) (c : Chan) (reg : ChanReg) (v : Word) (s : State) : Run :=
  if reg = .chcr ∧ strOf sd v = true then
    startChannel sd c (s.setChan sd c (writeReg sd reg v (s.chan sd c)))
  else .ok (s.setChan sd c (writeReg sd reg v (s.chan sd c)))

/-- DMA.WR's rule (R160). DESIGN CHOICE (log 24): the invalid selects 6 and 7 fault where the read-only selects do, before
the channel is looked at; R92 gives their BadOperand no place in R160's order. -/
def writeChannel (sd : Side) (c : Chan) (reg : ChanReg) (v : Word) (s : State) : Run :=
  match writeRefused s.cfg sd c reg v with
  | some info => raiseFault .badOperand info s
  | none =>
    if active s sd c then
      if reg = .chcr ∧ strOf sd v = false ∧ running s sd c = false then .ok (abortChannel sd c v s)
      else raiseFault .channelBusy (busyInfo sd c reg v) s
    else storeOrStart sd c reg v s >>= processPendingStarts

/-- DMA.WR (R160). -/
def execDmaWr (sd : Side) (c : Chan) (reg : ChanReg) (v : Word) (s : State) : Host.Outcome State Fault Refusal :=
  .next (issue (.dmaWr sd c reg v) (writeChannel sd c reg v) s)

/-- DMA.RD's rule (R164). The record of BadOperand is `[CMD]` (R164) or `[CMD, A, B]` (R272), as the configuration says
(log 9). -/
def readChannel (sd : Side) (c : Chan) (reg : ChanReg) (s : State) : Run :=
  match reg with
  | .chcr => .ok (replyWord (s.chan sd c).chcr s)
  | .madr => .ok (replyWord (s.chan sd c).madr s)
  | .cnt => .ok (replyWord (s.chan sd c).cnt s)
  | .tadr => .ok (replyWord (s.chan sd c).tadr s)
  | .status => .ok (replyWord (statusWord s sd c) s)
  | .rem => .ok (replyWord (s.chan sd c).rem s)
  | .sel6 | .sel7 =>
    raiseFault .badOperand
      (infoOf s.cfg [(encode (.dmaRd sd c reg)).cmd.setWidth 64] (cmdInfo (encode (.dmaRd sd c reg)))) s

/-- DMA.RD (R164). -/
def execDmaRd (sd : Side) (c : Chan) (reg : ChanReg) (s : State) : Host.Outcome State Fault Refusal :=
  .next (issue (.dmaRd sd c reg) (readChannel sd c reg) s)

/-- An engine with register `reg` written: `m` is the mask of its channel bits (R38, R39, R185). -/
def writeEngReg (reg : EngReg) (v m : Word) (e : Engine) : Engine :=
  match reg with
  | .ctrl => { e with ctrl := v &&& 1 }
  | .pcr => { e with pcr := v &&& (0x80000000 ||| m) }
  | .dintStat => { e with dintStat := e.dintStat &&& ~~~(v &&& m) }
  | .dintCtl => { e with dintCtl := v &&& (0x80000000 ||| m) }

/-- The engine register write and what it sets off: a re-evaluation of the Waiting channels after CTRL and PCR, of the
master flag after the interrupt registers (R185). -/
def storeEngReg (sd : Side) (reg : EngReg) (v : Word) (s : State) : Run :=
  let t := s.setDma sd (writeEngReg reg v (channelBits s.cfg sd) (s.dma sd))
  match reg with
  | .ctrl | .pcr => reEvaluate sd t
  | .dintStat | .dintCtl => .ok (evalMaster sd (masterFlag s sd) t)

/-- DMA.WRE's rule (R185). -/
def writeEngine (sd : Side) (reg : EngReg) (v : Word) (s : State) : Run :=
  storeEngReg sd reg v s >>= processPendingStarts

/-- DMA.WRE (R185). -/
def execDmaWre (sd : Side) (reg : EngReg) (v : Word) (s : State) : Host.Outcome State Fault Refusal :=
  .next (issue (.dmaWre sd reg v) (writeEngine sd reg v) s)

/-- The value of an engine register (R188). -/
def engineReg (s : State) (sd : Side) (reg : EngReg) : Word :=
  match reg with
  | .ctrl => (s.dma sd).ctrl
  | .pcr => (s.dma sd).pcr
  | .dintStat => dintStatWord s sd
  | .dintCtl => (s.dma sd).dintCtl

/-- DMA.RDE (R188). -/
def execDmaRde (sd : Side) (reg : EngReg) (s : State) : Host.Outcome State Fault Refusal :=
  .next (issue (.dmaRde sd reg) (fun t => .ok (replyWord (engineReg t sd reg) t)) s)

/-- The line stored, and the transfer started on a rising edge of an enabled engine (R166). -/
def storeDrq (sd : Side) (c : Chan) (b : Bool) (s : State) : Run :=
  if (s.chan sd c).drq = false ∧ b = true ∧ engineEnabled s sd = true then
    checkRunning sd c (s.setChan sd c { s.chan sd c with drq := b })
  else .ok (s.setChan sd c { s.chan sd c with drq := b })

/-- DMA.DRQ's rule (R166, C6). -/
def setDrq (sd : Side) (c : Chan) (b : Bool) (s : State) : Run :=
  if sifChannel s.cfg sd c then
    raiseFault .contradictoryControl [sideCode sd, c.setWidth 64, (flagBit b).setWidth 64] s
  else storeDrq sd c b s >>= processPendingStarts

/-- DMA.DRQ (R166). -/
def execDmaDrq (sd : Side) (c : Chan) (b : Bool) (s : State) : Host.Outcome State Fault Refusal :=
  .next (issue (.dmaDrq sd c b) (setDrq sd c b) s)

end Sys2Proof.Machine
end

