-- ==== Sys2Proof/Machine/EventQueue.lean ====
section
/-! DEFINITION. The Event Queue commands (40_event_queue.md). -/

namespace Sys2Proof.Machine

/-- Fill the next slot of the handler table (R27, R111). -/
def addHandler (k : DWord) (s : State) : State :=
  { s with handlers := s.handlers.set s.nh (.external k), nh := s.nh + 1 }

/-- EQ.REG's rule (R111). -/
def registerHandler (k : DWord) (s : State) : Run :=
  if s.cfg.maxHandlers ≤ s.nh then raiseFault .handlerTableFull [k] s
  else .ok (reply (u64 s.nh) (addHandler k s))

/-- EQ.REG (R111). -/
def execEqReg (k : DWord) (s : State) : Host.Outcome State Fault Refusal :=
  .next (issue (.eqReg k) (registerHandler k) s)

/-- EQ.SCHED (R113). -/
def execEqSched (rep : Bool) (ch : Chan) (h : Handle) (delay period : DWord) (s : State) :
    Host.Outcome State Fault Refusal :=
  .next (issue (.eqSched rep ch h delay period) (schedule h ch delay.toInt rep period.toInt) s)

/-- A secondary-cycle operand below `2^32`, converted by ToMain, else BadOperand with the command's triple (R115, R142). -/
def toMainChecked (i : Instr) (d : DWord) (s : State) : Except State Nat :=
  if d.toNat < 2 ^ 32 then .ok (toMain s.cfg d.toNat) else raiseFault .badOperand (cmdInfo (encode i)) s

/-- The period of EQ.SCHEDSUB in main cycles: converted when the event repeats, else 0 (R115). -/
def periodChecked (i : Instr) (rep : Bool) (period : DWord) (s : State) : Except State Nat :=
  if rep then toMainChecked i period s else .ok 0

/-- EQ.SCHEDSUB's rule (R115), checks in the written order. DEDUCED (log 11): the ToMain range is checked where the
pseudocode calls ToMain, after the signs. -/
def scheduleSub (i : Instr) (rep : Bool) (ch : Chan) (h : Handle) (delay period : DWord) (s : State) : Run :=
  if delay.toInt < 0 then raiseFault .negativeDelay [h.setWidth 64, ch.setWidth 64, delay] s
  else if rep = true ∧ period.toInt ≤ 0 then raiseFault .badPeriod [h.setWidth 64, ch.setWidth 64, period] s
  else do
    let d ← toMainChecked i delay s
    let p ← periodChecked i rep period s
    schedule h ch d rep p s

/-- EQ.SCHEDSUB (R115). -/
def execEqSchedSub (rep : Bool) (ch : Chan) (h : Handle) (delay period : DWord) (s : State) :
    Host.Outcome State Fault Refusal :=
  .next (issue (.eqSchedSub rep ch h delay period)
    (scheduleSub (.eqSchedSub rep ch h delay period) rep ch h delay period) s)

/-- EQ.NOW (R116). -/
def execEqNow (s : State) : Host.Outcome State Fault Refusal :=
  .next (issue .eqNow (fun t => .ok (reply t.now t)) s)

/-- EQ.ADV (R117). -/
def execEqAdv (delta : DWord) (s : State) : Host.Outcome State Fault Refusal :=
  .next (issue (.eqAdv delta) (advance delta.toInt) s)

/-- EQ.DRAIN (R118): the drain begins; each step of the machine then fires one due event until none is due (log 1). -/
def execEqDrain (s : State) : Host.Outcome State Fault Refusal :=
  .next (issue .eqDrain (fun t => .ok (t.setAgenda (.drain :: t.agenda))) s)

/-- EQ.QUERY (R124). -/
def execEqQuery (ch : Chan) (h : Handle) (s : State) : Host.Outcome State Fault Refusal :=
  .next (issue (.eqQuery ch h) (fun t => .ok (reply (if queued h ch t then 1 else 0) t)) s)

end Sys2Proof.Machine
end

