-- ==== Sys2Proof/Machine/Interrupt.lean ====
section
/-! DEFINITION. The interrupt-controller commands (44_interrupt.md), and ILLEGAL (30_encoding.md R99). -/

namespace Sys2Proof.Machine

/-- INT.RAISE (R243). -/
def execIntRaise (sd : Side) (src : BitVec 5) (s : State) : Host.Outcome State Fault Refusal :=
  .next (issue (.intRaise sd src) (fun t => .ok (raiseInt sd src t)) s)

/-- The mask after a mask write: toggled on the main side (R245), Or or Store on the secondary side (R246). -/
def maskAfter (p : Params) (sd : Side) (old v : Word) : Word :=
  match sd with
  | .main => old ^^^ v
  | .sub =>
    match p.subMaskWrite with
    | .or => old ||| v
    | .store => v

/-- INT.WMASK (R244). -/
def execIntWmask (sd : Side) (v : Word) (s : State) : Host.Outcome State Fault Refusal :=
  .next (issue (.intWmask sd v)
    (fun t => .ok (t.setIntc sd { t.intc sd with mask := maskAfter t.cfg sd (t.intc sd).mask v })) s)

/-- INT.ACK (R247). -/
def execIntAck (sd : Side) (v : Word) (s : State) : Host.Outcome State Fault Refusal :=
  .next (issue (.intAck sd v)
    (fun t => .ok (t.setIntc sd { t.intc sd with stat := (t.intc sd).stat &&& ~~~v })) s)

/-- INT.RSTAT (R248). -/
def execIntRstat (sd : Side) (s : State) : Host.Outcome State Fault Refusal :=
  .next (issue (.intRstat sd) (fun t => .ok (replyWord (t.intc sd).stat t)) s)

/-- INT.RMASK (R249). -/
def execIntRmask (sd : Side) (s : State) : Host.Outcome State Fault Refusal :=
  .next (issue (.intRmask sd) (fun t => .ok (replyWord (t.intc sd).mask t)) s)

/-- Read-to-disable: the secondary side's master enable falls, the main side's stays (R250). -/
def disableOnRead (sd : Side) (s : State) : State :=
  match sd with
  | .main => s
  | .sub => s.setIntc .sub { s.intc .sub with master := false }

/-- INT.RCTRL (R250). -/
def execIntRctrl (sd : Side) (s : State) : Host.Outcome State Fault Refusal :=
  .next (issue (.intRctrl sd)
    (fun t => .ok (disableOnRead sd (reply ((flagBit (t.intc sd).master).setWidth 64) t))) s)

/-- INT.WCTRL (R251). -/
def execIntWctrl (sd : Side) (v : Word) (s : State) : Host.Outcome State Fault Refusal :=
  .next (issue (.intWctrl sd v)
    (fun t => .ok (t.setIntc sd { t.intc sd with master := v.getLsbD 0 })) s)

/-- INT.PEND (R252). -/
def execIntPend (sd : Side) (s : State) : Host.Outcome State Fault Refusal :=
  .next (issue (.intPend sd) (fun t => .ok (reply ((flagBit (pendingLine t sd)).setWidth 64) t)) s)

/-- ILLEGAL (R99): IllegalCommand, unless the block is Faulted (R100). -/
def execIllegal (a b : DWord) (s : State) : Host.Outcome State Fault Refusal :=
  .next (illegalCommand (encode (.illegal a b)) s)

end Sys2Proof.Machine
end

