-- ==== Sys2Proof/Machine/Sif.lean ====
section
/-! DEFINITION. The FIFO commands: the Host's debug port and the occupancy query (43_ipc_fifo.md R227 to R229). -/

namespace Sys2Proof.Machine

/-- SIF.PUSH's rule (R227). -/
def pushCommand (d : Dir) (w : Word) (s : State) : Run :=
  fifoPush d w s >>= processPendingStarts

/-- SIF.PUSH (R227). -/
def execSifPush (d : Dir) (w : Word) (s : State) : Host.Outcome State Fault Refusal :=
  .next (issue (.sifPush d w) (pushCommand d w) s)

/-- SIF.POP's rule (R228). -/
def popCommand (d : Dir) (s : State) : Run :=
  match fifoPop d s with
  | .error t => .error t
  | .ok (w, t) => processPendingStarts (replyWord w t)

/-- SIF.POP (R228). -/
def execSifPop (d : Dir) (s : State) : Host.Outcome State Fault Refusal :=
  .next (issue (.sifPop d) (popCommand d) s)

/-- SIF.OCC (R229). -/
def execSifOcc (d : Dir) (s : State) : Host.Outcome State Fault Refusal :=
  .next (issue (.sifOcc d) (fun t => .ok (reply (u64 (t.fifo d).length) t)) s)

end Sys2Proof.Machine
end

