-- ==== Sys2Proof/Machine/Dispatch.lean ====
section
/-! DEFINITION. One arm per command, each a call of its meaning (30_encoding.md R98). -/

namespace Sys2Proof.Machine

def exec (i : Instr) (s : State) : Host.Outcome State Fault Refusal :=
  match i with
  | .eqReg k => Sys2Proof.Machine.execEqReg k s
  | .eqSched rep ch h delay period => Sys2Proof.Machine.execEqSched rep ch h delay period s
  | .eqSchedSub rep ch h delay period => Sys2Proof.Machine.execEqSchedSub rep ch h delay period s
  | .eqNow => Sys2Proof.Machine.execEqNow s
  | .eqAdv delta => Sys2Proof.Machine.execEqAdv delta s
  | .eqDrain => Sys2Proof.Machine.execEqDrain s
  | .eqQuery ch h => Sys2Proof.Machine.execEqQuery ch h s
  | .clkConv m => Sys2Proof.Machine.execClkConv m s
  | .clkToMain d => Sys2Proof.Machine.execClkToMain d s
  | .drvStart => Sys2Proof.Machine.execDrvStart s
  | .drvTick n => Sys2Proof.Machine.execDrvTick n s
  | .drvHalt => Sys2Proof.Machine.execDrvHalt s
  | .dmaWr sd c reg v => Sys2Proof.Machine.execDmaWr sd c reg v s
  | .dmaRd sd c reg => Sys2Proof.Machine.execDmaRd sd c reg s
  | .dmaWre sd reg v => Sys2Proof.Machine.execDmaWre sd reg v s
  | .dmaRde sd reg => Sys2Proof.Machine.execDmaRde sd reg s
  | .dmaDrq sd c b => Sys2Proof.Machine.execDmaDrq sd c b s
  | .sifPush d w => Sys2Proof.Machine.execSifPush d w s
  | .sifPop d => Sys2Proof.Machine.execSifPop d s
  | .sifOcc d => Sys2Proof.Machine.execSifOcc d s
  | .intRaise sd src => Sys2Proof.Machine.execIntRaise sd src s
  | .intWmask sd v => Sys2Proof.Machine.execIntWmask sd v s
  | .intAck sd v => Sys2Proof.Machine.execIntAck sd v s
  | .intRstat sd => Sys2Proof.Machine.execIntRstat sd s
  | .intRmask sd => Sys2Proof.Machine.execIntRmask sd s
  | .intRctrl sd => Sys2Proof.Machine.execIntRctrl sd s
  | .intWctrl sd v => Sys2Proof.Machine.execIntWctrl sd v s
  | .intPend sd => Sys2Proof.Machine.execIntPend sd s
  | .illegal a b => Sys2Proof.Machine.execIllegal a b s

end Sys2Proof.Machine
end

