-- ==== Sys2Proof/Machine/Agents.lean ====
section
/-! DEFINITION. What one step of the machine does: present a command to the port (30_encoding.md R100), run one item of
the tick, drain or callback in progress (40_event_queue.md R118 to R121, 41_clock_driver.md R143 to R145), or take the
Host's next action. -/

namespace Sys2Proof.Machine

/-- A task ends: `rest` is what follows, and the answers of the commands inside it are gone, since a tick and a drain
answer nothing (R93, log 7). -/
def endTask (rest : List Task) (s : State) : State := { s with agenda := rest, answer := none }

/-- Present a triple at the command port (R90, R100): decode it and run its meaning, or take IllegalCommand. -/
def port (c : Command) (s : State) : Host.Outcome State Fault Refusal :=
  match decode c with
  | .ok i => exec i s
  | .error _ => .next (illegalCommand c s)

/-- An external agent's store to a memory space (R70). -/
def agentStore (sp : Space) (a : Word) (bytes : List Byte) (s : State) : State :=
  s.setMem (storeBytes sp (s.cfg.mask sp) a bytes s.mem)

/-- One access of a CPU inside its slice (R143, R144). -/
def cpuAct (x : CpuAct) (s : State) : Host.Outcome State Fault Refusal :=
  match x with
  | .bus c => port c s
  | .store sp a bytes => .next (agentStore sp a bytes s)

/-- The accesses of a CPU's next instruction: the next scripted ones, or a free value once the script has run out
(R143, R144, log 3). -/
def drawInstruction (sd : Side) (s : State) : List CpuAct × State :=
  match sd, s.agents.mainIn, s.agents.subIn with
  | .main, x :: rest, _ => (x, s.setAgents { s.agents with mainIn := rest })
  | .sub, _, x :: rest => (x, s.setAgents { s.agents with subIn := rest })
  | sd, _, _ =>
    (Config.cpuInstruction sd s.agents.draws, s.setAgents { s.agents with draws := s.agents.draws + 1 })

/-- The CPU consults its pending line at the top of an instruction step (R143, R144, R252, log 8). -/
def sampleLine (sd : Side) (s : State) : State :=
  match sd with
  | .main => s.setAgents { s.agents with sampledMain := pendingLine s .main }
  | .sub => s.setAgents { s.agents with sampledSub := pendingLine s .sub }

/-- A CPU begins its next instruction, `left` more to follow (R143, R144). -/
def beginInstruction (sd : Side) (left : Nat) (rest : List Task) (s : State) : State :=
  let (acts, t) := drawInstruction sd (sampleLine sd s)
  t.setAgenda (.slice sd left acts :: rest)

/-- The command list of callback `k`: the next scripted one, or a free value once the script has run out (R119, log 3).
The call is recorded. -/
def drawCallback (k : DWord) (ch : Chan) (late : Int) (s : State) : List Command × State :=
  match s.agents.callbackIn with
  | x :: rest =>
    (x, s.setAgents
      { s.agents with callbackIn := rest, callbackLog := s.agents.callbackLog ++ [⟨k, ch, late⟩] })
  | [] =>
    (Config.callbackCommands k ch late s.agents.draws, s.setAgents
      { s.agents with draws := s.agents.draws + 1, callbackLog := s.agents.callbackLog ++ [⟨k, ch, late⟩] })

/-- `Dispatch(h, ch, late)` (R119). A handle that names no filled slot has no callback (log 12). -/
def dispatch (h : Handle) (ch : Chan) (late : Int) (s : State) : Host.Outcome State Fault Refusal :=
  match s.handlers.getD h.toNat .empty with
  | .dmaMain => .next (runState (dmaEvent .main ch s))
  | .dmaSub => .next (runState (dmaEvent .sub ch s))
  | .external k =>
    let (cmds, t) := drawCallback k ch late s
    .next (t.setAgenda (.callback cmds :: t.agenda))
  | .empty => .fault (.unfilledHandle h)

/-- The due event that fires next: the first of the queue, if its deadline has come (R118, R120). -/
def firstDue (s : State) : Option Event :=
  match s.queue with
  | e :: _ => if e.deadline.toInt ≤ s.now.toInt then some e else none
  | [] => none

/-- Take the firing event `e` out of the queue, reinserted when it repeats (R118, R121). -/
def takeDue (e : Event) (s : State) : Run :=
  if e.rep then reinsert e (s.setQueue s.queue.tail) else .ok (s.setQueue s.queue.tail)

/-- One round of the drain's loop (R118): fire one due event, or end the drain. `rest` is what follows the drain. -/
def drainRound (rest : List Task) (s : State) : Host.Outcome State Fault Refusal :=
  match firstDue s with
  | none => .next (endTask rest s)
  | some e =>
    match takeDue e s with
    | .error t => .next t
    | .ok t => dispatch e.h e.ch (s.now.toInt - e.deadline.toInt) t

/-- One item of the work in progress: the first task `k`, `rest` after it. A tick's conversion checks no range (log 21). -/
def runTask (k : Task) (rest : List Task) (s : State) : Host.Outcome State Fault Refusal :=
  match k with
  | .slice sd left (x :: xs) => cpuAct x (s.setAgenda (.slice sd left xs :: rest))
  | .slice sd (n + 1) [] => .next (beginInstruction sd n rest s)
  | .slice _ 0 [] => .next (endTask rest s)
  | .convert m => .next ((convertState m s).setAgenda (.slice .sub (convertResult m s) [] :: rest))
  | .advance d => .next (runState (advance d (s.setAgenda rest)))
  | .drain => drainRound rest s
  | .callback (c :: cs) => port c (s.setAgenda (.callback cs :: rest))
  | .callback [] => .next (endTask rest s)
  | .tickEnd => .next { endTask rest s with tick := s.tick + 1 }

/-- The Host's next action (R90, R290), between ticks. -/
def hostAct (x : HostAct) (s : State) : Host.Outcome State Fault Refusal :=
  match x with
  | .command c => port c s
  | .store sp a bytes => .next (agentStore sp a bytes s)
  | .reset => .next (powerOnReset s)

/-- Take the Host's next action out of its list; with none left the run has ended and nothing changes (R148). -/
def runHost (s : State) : Host.Outcome State Fault Refusal :=
  match s.agents.host with
  | [] => .next s
  | x :: rest => hostAct x (s.setAgents { s.agents with host := rest })

/-- The state with command `c` as the Host's next action and no work in progress. -/
def presentNext (c : Command) (s : State) : State :=
  (s.setAgents { s.agents with host := .command c :: s.agents.host }).setAgenda []

end Sys2Proof.Machine
end

