-- ==== Sys2Proof/Machine/Step.lean ====
section
/-! DEFINITION. One step of the machine, and the placing of a command where the next step takes it. -/

namespace Sys2Proof.Machine

/-- One step: the first task of the work in progress, and between ticks the Host's next action (R80, R145). -/
def step (s : State) : Host.Outcome State Fault Refusal :=
  match s.agenda with
  | [] => runHost s
  | k :: rest => runTask k rest s

/-- The state whose next step runs the command of the low `nbits` bits of `w`: it is the Host's next action (log 13). -/
def State.withFetchWord (s : State) (nbits w : Nat) : State :=
  presentNext (Command.ofNat (w % 2 ^ nbits)) s

end Sys2Proof.Machine
end

