-- ==== Sys2Proof/Safety.lean ====
section
/-! DEFINITION. What a sound state is, in the terms the statements use: the invariants of 10_state.md R47 and of the rules
that name the fields, and when a command is accepted (30_encoding.md R95, R96). -/

namespace Sys2Proof.Safety

open Sys2Proof.Machine

/-- The command passes the checks of R95 and R96, so that its rule runs (R100). -/
abbrev Accepted (i : Instr) (s : State) : Prop := legal i s = true ∧ inRange i s = true

/-- The queue stands in key order (R28, R120). -/
abbrev QueueSorted (s : State) : Prop := s.queue.Pairwise fun e f => f.before e = false

/-- At most one record per handle and channel: R47 (a). -/
abbrev QueueDistinct (s : State) : Prop := s.queue.Pairwise fun e f => ¬(e.h = f.h ∧ e.ch = f.ch)

/-- What R28 says of one record: a filled handle, a channel up to MAX_CHAN, a deadline that is no negative number (R125), and
a period that is positive exactly when the event repeats. DESIGN CHOICE (log 26): the record of a DMA channel is held to
NCH[s] (`RunningOk`) and not to MAX_CHAN, which R7 lets a configuration set lower. -/
abbrev EventOk (s : State) (e : Event) : Prop :=
  e.h.toNat < s.nh ∧ (2 ≤ e.h.toNat → e.ch.toNat ≤ s.cfg.maxChan) ∧ 0 ≤ e.deadline.toInt ∧
  (e.rep = true → 0 < e.period.toInt) ∧ (e.rep = false → e.period = 0)

/-- Every record is as R28 says. -/
abbrev QueueOk (s : State) : Prop := QueueSorted s ∧ QueueDistinct s ∧ ∀ e ∈ s.queue, EventOk s e

/-- `Running(s, c)` implies `Active(s, c)`: R47 (b). A channel's record never repeats (R172). -/
abbrev RunningOk (s : State) : Prop :=
  ∀ e ∈ s.queue,
    (e.h = dmaHandle .main → e.rep = false ∧ e.ch.toNat < s.cfg.nchMain ∧ active s .main e.ch = true) ∧
    (e.h = dmaHandle .sub → e.rep = false ∧ e.ch.toNat < s.cfg.nchSub ∧ active s .sub e.ch = true)

/-- The FIFOs are within their capacity: R47 (c). -/
abbrev FifoOk (s : State) : Prop := s.sif0.length ≤ s.cfg.fifoCap ∧ s.sif1.length ≤ s.cfg.fifoCap

/-- No start is deferred between commands: R47 (d). A fault stops the rule that would have emptied the list (R271). -/
abbrev PendingOk (s : State) : Prop := s.phase ≠ .faulted → s.pendingStarts = []

/-- `rem` is a multiple of `GRAN[s]` for a channel not connected to a FIFO: R47 (e). -/
abbrev RemOk (s : State) : Prop :=
  ∀ sd ∈ [Side.main, Side.sub], ∀ c < s.cfg.nch sd, fifoChannel s.cfg sd (BitVec.ofNat 6 c) = false →
    (s.chan sd (BitVec.ofNat 6 c)).rem.toNat % s.cfg.gran sd = 0

/-- The handler table (R27): every slot below `nh` filled and the rest empty, the built-in handlers in slots 0 and 1 and
nowhere else. -/
abbrev HandlersOk (s : State) : Prop :=
  s.handlers.length = s.cfg.maxHandlers ∧ 2 ≤ s.nh ∧ s.nh ≤ s.cfg.maxHandlers ∧
  ∀ n < s.cfg.maxHandlers,
    (n = 0 → s.handlers.getD n .empty = .dmaMain) ∧ (n = 1 → s.handlers.getD n .empty = .dmaSub) ∧
    (2 ≤ n → n < s.nh → s.handlers.getD n .empty ≠ .empty ∧ s.handlers.getD n .empty ≠ .dmaMain ∧
      s.handlers.getD n .empty ≠ .dmaSub) ∧
    (s.nh ≤ n → s.handlers.getD n .empty = .empty)

/-- Reserved bits of a channel's registers read 0 (R31, R32, R34, R35, R161). -/
abbrev ChannelOk (sd : Side) (ch : Channel) : Prop :=
  ch.chcr &&& ~~~chcrMask sd = 0 ∧ ch.madr &&& ~~~addrMask sd = 0 ∧
  ch.tadr &&& ~~~addrMask sd = 0 ∧ ch.cnt &&& ~~~cntMask sd = 0

/-- One engine: `NCH[s]` channels (R30), reserved bits of every register 0 (R38, R39, R161). -/
abbrev EngineOk (s : State) (sd : Side) : Prop :=
  (s.dma sd).chans.length = s.cfg.nch sd ∧ (∀ ch ∈ (s.dma sd).chans, ChannelOk sd ch) ∧
  (s.dma sd).ctrl &&& ~~~1 = 0 ∧ (s.dma sd).pcr &&& ~~~(0x80000000 ||| channelBits s.cfg sd) = 0 ∧
  (s.dma sd).dintStat &&& ~~~channelBits s.cfg sd = 0 ∧
  (s.dma sd).dintCtl &&& ~~~(0x80000000 ||| channelBits s.cfg sd) = 0

/-- Both engines. -/
abbrev RegistersOk (s : State) : Prop := EngineOk s .main ∧ EngineOk s .sub

/-- A channel with words left to move stands at a word-aligned address (R74), and an Idle channel has none left. -/
abbrev AlignedOk (s : State) : Prop :=
  ∀ sd ∈ [Side.main, Side.sub], ∀ c < s.cfg.nch sd,
    (active s sd (BitVec.ofNat 6 c) = true → (s.chan sd (BitVec.ofNat 6 c)).rem ≠ 0 →
      offWord (s.chan sd (BitVec.ofNat 6 c)).madr = false) ∧
    (active s sd (BitVec.ofNat 6 c) = false → (s.chan sd (BitVec.ofNat 6 c)).rem = 0)

/-- Time is never negative (R125), and the converter's remainder stays below the divisor (R29). -/
abbrev ClockOk (s : State) : Prop := 0 ≤ s.now.toInt ∧ s.acc < s.cfg.iopDen

/-- The fault record is there exactly in phase Faulted (R24, R271), in which nothing is in progress; and work is in
progress only in phase Running (R96, R145). -/
abbrev PhaseOk (s : State) : Prop :=
  (s.phase = .faulted ↔ s.fault.isSome = true) ∧ (s.agenda ≠ [] → s.phase = .running)

/-- Memory is in its canonical form. -/
abbrev MemoryOk (s : State) : Prop := s.mem.wf = true

/-- A configuration that R7 allows. -/
abbrev ConfigOk (s : State) : Prop := s.cfg.Valid

/-- The invariant of the machine. -/
structure Inv (s : State) : Prop where
  config : ConfigOk s
  phase : PhaseOk s
  clock : ClockOk s
  handlers : HandlersOk s
  queue : QueueOk s
  running : RunningOk s
  fifo : FifoOk s
  pending : PendingOk s
  registers : RegistersOk s
  rem : RemOk s
  aligned : AlignedOk s
  memory : MemoryOk s

/-! ## What the next step does, read off the state -/

/-- The triple the next step presents at the port: a CPU's bus access, a callback's command, or the Host's (R91). -/
def presented (s : State) : Option Command :=
  match s.agenda with
  | .slice _ _ (.bus c :: _) :: _ => some c
  | .callback (c :: _) :: _ => some c
  | [] =>
    match s.agents.host with
    | .command c :: _ => some c
    | _ => none
  | _ => none

/-- The next step is the Host's reset (R290). -/
abbrev Resets (s : State) : Prop := s.agenda = [] ∧ s.agents.host.head? = some .reset

/-- The next step presents a command that decodes to `i` (R100). -/
abbrev Presents (s : State) (i : Instr) : Prop := ∃ c, presented s = some c ∧ decode c = .ok i

/-! ## A FIFO from outside -/

/-- Pushes (`some w`) and pops (`none`) of FIFO `d`, one after another, with the words popped in order (R222, R223). -/
def fifoSteps (d : Dir) : List (Option Word) → State → Except State (List Word × State)
  | [], s => .ok ([], s)
  | some w :: ops, s =>
    match fifoPush d w s with
    | .error t => .error t
    | .ok t => fifoSteps d ops t
  | none :: ops, s =>
    match fifoPop d s with
    | .error t => .error t
    | .ok (w, t) => (fifoSteps d ops t).map fun p => (w :: p.1, p.2)

/-! ## Starting a channel and moving a block, as the rules describe them -/

/-- The checks of R162 that a start passes, with `w` the CHCR value stored by the write. -/
abbrev StartChecks (sd : Side) (c : Chan) (w : Word) (s : State) : Prop :=
  let ch := s.chan sd c
  c ≠ (s.cfg.sif sd).sif2 ∧ modeOf sd w ≠ 3 ∧ unmodelledMode sd w = false ∧
  ¬(chainOf sd w = true ∧ toMemOf w = true) ∧
  ((produces s.cfg sd c).isSome = true → toMemOf w = false) ∧
  ((consumes s.cfg sd c).isSome = true → toMemOf w = true) ∧
  (chainOf sd w = false → zeroCount sd w ch.cnt = false ∧ offWord ch.madr = false ∧
    (sd = .main → fifoChannel s.cfg sd c = false → offQuad ch.madr = false)) ∧
  (chainOf sd w = true → tagStartOff sd ch.tadr = false)

/-- The state a start leaves before its first burst (R162, R163): CHCR stored, `rem` loaded, `tagEnd` 0. -/
def started (sd : Side) (c : Chan) (w : Word) (s : State) : State :=
  let ch := s.chan sd c
  s.setChan sd c
    { ch with
      chcr := w
      rem := if chainOf sd w then 0 else BitVec.ofNat 32 (startCount s.cfg sd w ch.cnt)
      tagEnd := false }

/-- MADR after `n` words (R75). -/
def advanceWords (sd : Side) : Word → Nat → Word
  | v, 0 => v
  | v, n + 1 => advanceWords sd (advanceAddr sd v 4) n

/-- The `n` words of memory that a channel at MADR `v` moves, in order (R174). -/
def wordsFrom (p : Params) (sd : Side) (m : Memory) : Word → Nat → List Word
  | _, 0 => []
  | v, n + 1 =>
    m.readWord (effectiveAddr p sd v).1 (effectiveAddr p sd v).2 :: wordsFrom p sd m (advanceAddr sd v 4) n

/-- Memory after a channel at MADR `v` has written the words `ws`, in order (R174). -/
def storeWords (p : Params) (sd : Side) : Word → List Word → Memory → Memory
  | _, [], m => m
  | v, w :: ws, m =>
    storeWords p sd (advanceAddr sd v 4) ws (m.writeWord (effectiveAddr p sd v).1 (effectiveAddr p sd v).2 w)

/-- The channel after a burst of `n` words: MADR advanced, `rem` down by `n`, CNT tracking it (R36, R75, R172). -/
def burstChannel (p : Params) (sd : Side) (n : Nat) (ch : Channel) : Channel :=
  { ch with
    madr := advanceWords sd ch.madr n
    rem := BitVec.ofNat 32 (ch.rem.toNat - n)
    cnt := trackCnt p sd ch.chcr ch.cnt (ch.rem.toNat - n) }

/-- A burst's counts and the event at its end, for a channel that had none queued (R172, R175). -/
def burstDone (sd : Side) (c : Chan) (n : Nat) (s : State) : State :=
  { s.setChan sd c (burstChannel s.cfg sd n (s.chan sd c)) with
    queue := insertEvent ⟨dmaHandle sd, c, i64 (s.now.toInt + burstCost s.cfg sd), false, 0, s.seq⟩ s.queue
    seq := s.seq + 1 }

/-- The state after a burst of `n` words from memory to a peripheral (R172 to R176). -/
def sentBurst (sd : Side) (c : Chan) (n : Nat) (s : State) : State :=
  (burstDone sd c n s).setAgents
    { s.agents with
      periphLog := s.agents.periphLog ++ (wordsFrom s.cfg sd s.mem (s.chan sd c).madr n).map (.write sd c) }

/-- The state after a burst that took the scripted words `ws` from a peripheral into memory (R172 to R176). -/
def takenBurst (sd : Side) (c : Chan) (ws rest : List Word) (s : State) : State :=
  ((burstDone sd c ws.length s).setMem (storeWords s.cfg sd (s.chan sd c).madr ws s.mem)).setAgents
    { s.agents with periphIn := rest, periphLog := s.agents.periphLog ++ ws.map (.read sd c) }

/-- The channel's own queued event taken out and run, as a drain does (R118, R178). -/
def fireChannel (sd : Side) (c : Chan) (s : State) : Run :=
  dmaEvent sd c { s with queue := removeEvent (dmaHandle sd) c s.queue }

/-- `k` events of one channel, one after another. -/
def fireChannelTimes (sd : Side) (c : Chan) : Nat → State → Run
  | 0, s => .ok s
  | k + 1, s => fireChannel sd c s >>= fireChannelTimes sd c k

end Sys2Proof.Safety
end

