-- ==== Sys2Proof/Certificates/Slice0/Obligations.lean ====
section
/-! DEFINITION. The statements about the machine, in the order of OBLIGATIONS.json. Each docstring names the rules of the
spec the statement rests on. Where the next state is written out, everything not named in it is unchanged. -/

open Sys2Proof Sys2Proof.Machine Sys2Proof.Safety

/-! ## Encoding (30_encoding.md) -/

/-- O1. Every well-formed command survives encoding and decoding (R92, R94, R97, R98). -/
def Obligations.DecodeOfEncode : Prop :=
  ∀ i : Instr, WellFormed i = true → decode (encode i) = .ok i

/-- O2. A triple that decodes is the one spelling of its command: no bit of it is ignored (R92, R94, R97). -/
def Obligations.EncodeOfDecode : Prop :=
  ∀ (c : Command) (i : Instr), decode c = .ok i → encode i = c ∧ WellFormed i = true

/-- O3. The worked encodings of R103, in both directions. -/
def Obligations.WorkedEncodings : Prop :=
  ∀ p ∈ ([
      (.eqSched false 0 2 100 0, ⟨0x02000002, 100, 0⟩),
      (.eqSched true 1 3 10 10, ⟨0x02410003, 10, 10⟩),
      (.eqDrain, ⟨0x06000000, 0, 0⟩),
      (.drvTick 100, ⟨0x13000000, 100, 0⟩),
      (.dmaWr .main 5 .chcr 0x100, ⟨0x20050000, 0x100, 0⟩),
      (.dmaWr .sub 9 .madr 0x1000, ⟨0x20890001, 0x1000, 0⟩),
      (.dmaWre .sub .dintCtl 0x80000200, ⟨0x22800003, 0x80000200, 0⟩),
      (.dmaDrq .sub 4 true, ⟨0x24840000, 1, 0⟩),
      (.sifOcc .sif1, ⟨0x32800000, 0, 0⟩),
      (.intRaise .sub 3, ⟨0x40800003, 0, 0⟩),
      (.intWmask .main 5, ⟨0x41000000, 5, 0⟩)] : List (Instr × Command)),
    decode p.2 = .ok p.1 ∧ encode p.1 = p.2

/-- O4. A triple with a reserved operation code, or with a must-be-zero bit of CMD, A or B set, faults at the port with
IllegalCommand and does nothing else: for every operation code of R98, the bits that its format (R92) and its operands (R94)
leave no meaning, and the period of an event that does not repeat (R92, R94, R97, R98, R271). -/
def Obligations.IllegalTriplesFault : Prop :=
  let all : DWord := 0xFFFFFFFFFFFFFFFF
  let high : DWord := 0xFFFFFFFF00000000
  let table : List (Nat × Word × DWord × DWord) := [
    (0x01, 0x00FFFFFF, 0, all), (0x02, 0x00800000, 0, 0), (0x03, 0x00800000, 0, 0), (0x04, 0x00FFFFFF, all, all),
    (0x05, 0x00FFFFFF, 0, all), (0x06, 0x00FFFFFF, all, all), (0x07, 0x00C00000, all, all),
    (0x10, 0x00FFFFFF, 0, all), (0x11, 0x00FFFFFF, 0, all), (0x12, 0x00FFFFFF, all, all),
    (0x13, 0x00FFFFFF, high, all), (0x14, 0x00FFFFFF, all, all),
    (0x20, 0x0040FFF8, high, all), (0x21, 0x0040FFF8, all, all), (0x22, 0x007FFFFC, high, all),
    (0x23, 0x007FFFFC, all, all), (0x24, 0x0040FFFF, 0xFFFFFFFFFFFFFFFE, all),
    (0x30, 0x007FFFFF, high, all), (0x31, 0x007FFFFF, all, all), (0x32, 0x007FFFFF, all, all),
    (0x40, 0x007FFFE0, all, all), (0x41, 0x007FFFFF, high, all), (0x42, 0x007FFFFF, high, all),
    (0x43, 0x007FFFFF, all, all), (0x44, 0x007FFFFF, all, all), (0x45, 0x007FFFFF, all, all),
    (0x46, 0x007FFFFF, high, all), (0x47, 0x007FFFFF, all, all)]
  ∀ (c : Command) (s : State), s.phase ≠ .faulted →
    let opc := (c.cmd.extractLsb' 24 8).toNat
    let stops := port c s = .next (takeFault .illegalCommand [c.cmd.setWidth 64, c.a, c.b] s)
    (opc ∉ table.map (·.1) → stops) ∧
    (∀ row ∈ table, opc = row.1 → c.cmd &&& row.2.1 ≠ 0 ∨ c.a &&& row.2.2.1 ≠ 0 ∨ c.b &&& row.2.2.2 ≠ 0 → stops) ∧
    (opc = 0x02 ∨ opc = 0x03 → c.cmd.getLsbD 22 = false → c.b ≠ 0 → stops)

/-! ## The command port (30_encoding.md R91, R95, R96, R100; 60_exceptions.md R271) -/

/-- O5. A step runs the decoded command: the Host's between ticks, a CPU's inside its slice, a callback's inside the
drain (R91, R100). -/
def Obligations.StepRunsPresentedCommand : Prop :=
  ∀ (s : State) (c : Command) (i : Instr), decode c = .ok i → WellFormed i = true →
    (∀ rest, s.agenda = [] → s.agents.host = .command c :: rest →
      step s = exec i (s.setAgents { s.agents with host := rest })) ∧
    (∀ sd left xs rest, s.agenda = .slice sd left (.bus c :: xs) :: rest →
      step s = exec i (s.setAgenda (.slice sd left xs :: rest))) ∧
    (∀ cs rest, s.agenda = .callback (c :: cs) :: rest →
      step s = exec i (s.setAgenda (.callback cs :: rest)))

/-- O6. In phase Faulted no command has any effect and every command answers none (R96, R100, R271). -/
def Obligations.FaultedCommandsDoNothing : Prop :=
  ∀ (i : Instr) (s : State), s.phase = .faulted → exec i s = .next { s with answer := none }

/-- O7. The table of R96: in which phases and for which issuers each command is legal. -/
def Obligations.LegalityTable : Prop :=
  ∀ (s : State) (sd : Side) (c : Chan) (h : Handle) (rep : Bool) (r : ChanReg) (e : EngReg) (w : Word) (v u : DWord)
    (d : Dir) (b : Bool) (src : BitVec 5),
    let early := s.phase = .init ∨ s.phase = .running
    let notFaulted := s.phase = .init ∨ s.phase = .running ∨ s.phase = .halted
    let host := s.issuer = .host
    let device := s.issuer = .host ∨ s.issuer = .callback
    let reg := device ∨ (s.issuer = .cpuMain ∧ sd = .main) ∨ (s.issuer = .cpuSub ∧ sd = .sub)
    (legal (.eqReg v) s = true ↔ s.phase = .init ∧ host) ∧
    (legal .drvStart s = true ↔ s.phase = .init ∧ host) ∧
    (legal (.drvTick w) s = true ↔ s.phase = .running ∧ host) ∧
    (legal .drvHalt s = true ↔ s.phase = .running ∧ host) ∧
    (legal (.eqAdv v) s = true ↔ s.phase = .running ∧ host) ∧
    (legal .eqDrain s = true ↔ s.phase = .running ∧ host) ∧
    (legal (.clkConv v) s = true ↔ s.phase = .running ∧ host) ∧
    (legal (.sifPush d w) s = true ↔ s.phase = .running ∧ host) ∧
    (legal (.sifPop d) s = true ↔ s.phase = .running ∧ host) ∧
    (legal (.eqSched rep c h v u) s = true ↔ early ∧ device) ∧
    (legal (.eqSchedSub rep c h v u) s = true ↔ early ∧ device) ∧
    (legal (.dmaDrq sd c b) s = true ↔ early ∧ device) ∧
    (legal (.intRaise sd src) s = true ↔ early ∧ device) ∧
    (legal (.clkToMain v) s = true ↔ notFaulted) ∧
    (legal .eqNow s = true ↔ notFaulted) ∧
    (legal (.eqQuery c h) s = true ↔ notFaulted) ∧
    (legal (.sifOcc d) s = true ↔ notFaulted) ∧
    (legal (.dmaWr sd c r w) s = true ↔ early ∧ reg) ∧
    (legal (.dmaWre sd e w) s = true ↔ early ∧ reg) ∧
    (legal (.intWmask sd w) s = true ↔ early ∧ reg) ∧
    (legal (.intAck sd w) s = true ↔ early ∧ reg) ∧
    (legal (.intRctrl sd) s = true ↔ early ∧ reg) ∧
    (legal (.intWctrl sd w) s = true ↔ early ∧ reg) ∧
    (legal (.dmaRd sd c r) s = true ↔ notFaulted ∧ reg) ∧
    (legal (.dmaRde sd e) s = true ↔ notFaulted ∧ reg) ∧
    (legal (.intRstat sd) s = true ↔ notFaulted ∧ reg) ∧
    (legal (.intRmask sd) s = true ↔ notFaulted ∧ reg) ∧
    (legal (.intPend sd) s = true ↔ notFaulted ∧ reg)

/-- O8. A command outside its phases or issuers faults with PhaseViolation and does nothing else (R96, R271). The number
that stands for the issuer is the model's choice (log 6). -/
def Obligations.IllegalPhaseOrIssuerFaults : Prop :=
  ∀ (i : Instr) (s : State), (∀ a b, i ≠ .illegal a b) → s.phase ≠ .faulted → legal i s = false →
    exec i s = .next (takeFault .phaseViolation [(encode i).cmd.setWidth 64, issuerCode s.cfg s.issuer] s)

/-- O9. A legal command with an operand out of range faults with BadOperand and does nothing else: a channel with no
record, an event channel above MAX_CHAN, an unfilled handle, a built-in handle in EQ.SCHED or EQ.SCHEDSUB (R95, R113,
R271). -/
def Obligations.OutOfRangeOperandFaults : Prop :=
  ∀ (s : State) (sd : Side) (c : Chan) (h : Handle) (rep : Bool) (r : ChanReg) (w : Word) (v u : DWord) (b : Bool),
    let bad (i : Instr) : Prop := legal i s = true →
      exec i s = .next (takeFault .badOperand [(encode i).cmd.setWidth 64, (encode i).a, (encode i).b] s)
    (s.cfg.nch sd ≤ c.toNat → bad (.dmaWr sd c r w) ∧ bad (.dmaRd sd c r) ∧ bad (.dmaDrq sd c b)) ∧
    (s.cfg.maxChan < c.toNat ∨ s.nh ≤ h.toNat →
      bad (.eqQuery c h) ∧ bad (.eqSched rep c h v u) ∧ bad (.eqSchedSub rep c h v u)) ∧
    (h.toNat < 2 → bad (.eqSched rep c h v u) ∧ bad (.eqSchedSub rep c h v u))

/-- O10. ILLEGAL takes the fault entry: the record is written, the phase is Faulted, what was in progress is abandoned
and nothing is answered; a record already there would stay (R99, R271, R273). -/
def Obligations.IllegalTakesFaultEntry : Prop :=
  ∀ (a b : DWord) (s : State), s.phase ≠ .faulted →
    exec (.illegal a b) s = .next
      { s with
        fault := (match s.fault with
          | none => some ⟨.illegalCommand, [0, a, b]⟩
          | some f => some f)
        phase := .faulted
        agenda := []
        answer := none }

/-- O11. The fault record is written once, by the fault entry, and cleared by the reset alone (R24); and in phase Faulted a
step changes nothing of the block: only external memory and the agents' own state may move (R271, R274). -/
def Obligations.FaultedMachineIsFrozen : Prop :=
  ∀ s t : State, step s = .next t →
    (Resets s → t.fault = none) ∧
    (¬Resets s →
      (∀ f, s.fault = some f → t.fault = some f) ∧
      (t.fault ≠ s.fault → s.fault = none ∧ t.phase = .faulted) ∧
      (s.phase = .faulted → s.agenda = [] → t = { s with mem := t.mem, agents := t.agents, answer := t.answer }))

/-! ## The whole machine -/

/-- O12. The phases change as R22 says and in no other way: Init to Running by DRV.START, Running to Halted by DRV.HALT, any
phase to Faulted by a fault, and back to Init by the reset alone. -/
def Obligations.PhaseTransitions : Prop :=
  ∀ s t : State, step s = .next t →
    (t.phase = s.phase ∨
      (s.phase = .init ∧ t.phase = .running ∧ Presents s .drvStart) ∨
      (s.phase = .running ∧ t.phase = .halted ∧ Presents s .drvHalt) ∨
      (t.phase = .faulted ∧ t.fault.isSome = true) ∨
      (Resets s ∧ t.phase = .init)) ∧
    (s.phase = .init → s.agenda = [] → Presents s .drvStart → t.phase = .running) ∧
    (s.phase = .running → s.agenda = [] → Presents s .drvHalt → t.phase = .halted) ∧
    (t.fault ≠ s.fault → ¬Resets s → t.phase = .faulted) ∧
    (Resets s → t.phase = .init)

/-- O13. The reset sets every element of the block to its value in R48 and touches nothing else: external memory, the
configuration and the agents stay (R48, R290, R291). -/
def Obligations.ResetSetsEveryElement : Prop :=
  ∀ (s : State) (rest : List HostAct), s.cfg.Valid → s.agenda = [] → s.agents.host = .reset :: rest →
    ∃ t, step s = .next t ∧
      t.phase = .init ∧ t.tick = 0 ∧ t.fault = none ∧ t.now = 0 ∧ t.seq = 0 ∧ t.acc = 0 ∧ t.queue = [] ∧
      t.nh = 2 ∧ t.handlers.length = s.cfg.maxHandlers ∧
      t.handlers.getD 0 .empty = .dmaMain ∧ t.handlers.getD 1 .empty = .dmaSub ∧
      (∀ n, 2 ≤ n → t.handlers.getD n .empty = .empty) ∧
      t.pendingStarts = [] ∧ t.sif0 = [] ∧ t.sif1 = [] ∧
      (∀ sd, (t.dma sd).chans.length = s.cfg.nch sd ∧
        (t.dma sd).ctrl = 0 ∧ (t.dma sd).pcr = 0 ∧ (t.dma sd).dintStat = 0 ∧ (t.dma sd).dintCtl = 0 ∧
        (t.intc sd).stat = 0 ∧ (t.intc sd).mask = s.cfg.maskReset sd ∧ (t.intc sd).master = s.cfg.masterReset sd ∧
        ∀ c : Chan, c.toNat < s.cfg.nch sd →
          (t.chan sd c).chcr = 0 ∧ (t.chan sd c).madr = 0 ∧ (t.chan sd c).tadr = 0 ∧ (t.chan sd c).cnt = 0 ∧
          (t.chan sd c).tagEnd = false ∧ (t.chan sd c).rem = 0 ∧
          drq t sd c =
            if c = (s.cfg.sif sd).sif2 then false
            else if (produces s.cfg sd c).isSome then true
            else if (consumes s.cfg sd c).isSome then false
            else (s.cfg.drqReset sd).getLsbD c.toNat) ∧
      t.mem = s.mem ∧ t.cfg = s.cfg ∧ t.agents = { s.agents with host := rest }

/-- O14. The state after reset meets the invariant, in every configuration R7 allows, with the widths of log 25 (R7, R47,
R48). -/
def Obligations.ResetMeetsInvariant : Prop :=
  ∀ (p : Params) (m : Memory) (g : Agents), p.Valid → m.wf = true → Inv (State.initial p m g)

/-- O15. Every step keeps the invariant: what R7, R24, R27 to R29, R31 to R39 and R125 say of the fields, and R47 (a), (b),
(c) and (e). It asks for R47 (d), that no start is deferred, outside phase Faulted only, which is the model's choice (log
20); memory's canonical form is the model's own too (log 5), as are the widths that a configuration pins (log 25) and that a
DMA channel's record is not held to MAX_CHAN (log 26). -/
def Obligations.StepKeepsInvariant : Prop :=
  ∀ s t : State, Inv s → step s = .next t → Inv t

/-- O16. No state that meets the invariant stops the model: every step has a next state (R119, R271; log 12). -/
def Obligations.ModelNeverStops : Prop :=
  ∀ s : State, Inv s → ∃ t, step s = .next t

/-- O17. Memory keeps its canonical form, whoever writes it. The form is the model's own representation of memory (log 5,
`Memory.wf`): no rule of the spec speaks of it. -/
def Obligations.MemoryFormKept : Prop :=
  ∀ s t : State, MemoryOk s → step s = .next t → MemoryOk t

/-- O18. No FIFO ever holds more than FIFO_CAP words: R47 (c) (R41, R47, R222). -/
def Obligations.FifoCapacityKept : Prop :=
  ∀ s t : State, FifoOk s → step s = .next t → FifoOk t

/-- O19. The queue stays in (deadline, seq) order with at most one entry per handle and channel: R47 (a) (R28, R47, R114,
R120, R121). -/
def Obligations.QueueOrderKept : Prop :=
  ∀ s t : State, QueueSorted s → QueueDistinct s → step s = .next t → QueueSorted t ∧ QueueDistinct t

/-- O20. The handler table is as R27 says: its slots below `nh` are filled and the rest empty, with the built-in handlers in
slots 0 and 1; the reset empties the others; only EQ.REG in phase Init writes it, and answers the index of the slot it
fills; and a filled slot never changes. And no step changes the configuration. -/
def Obligations.HandlersNeverChange : Prop :=
  ∀ s t : State, step s = .next t →
    t.cfg = s.cfg ∧
    (HandlersOk s → HandlersOk t) ∧
    (Resets s → s.cfg.Valid → t.nh = 2 ∧ HandlersOk t) ∧
    (∀ k, HandlersOk s → Presents s (.eqReg k) → t.nh ≠ s.nh →
      t.handlers.getD s.nh .empty = .external k ∧ t.answer = some (BitVec.ofNat 64 s.nh)) ∧
    (¬Resets s → s.nh ≤ t.nh ∧ (∀ n < s.nh, t.handlers.getD n .empty = s.handlers.getD n .empty) ∧
      (t.handlers ≠ s.handlers ∨ t.nh ≠ s.nh → s.phase = .init ∧ ∃ k, Presents s (.eqReg k)))

/-- O21. The tick count is written only at the end of a tick, where it goes up by 1 and wraps (R23); time moves forward and
only by an advance, the converter's remainder only by a conversion; the reset sets all three to 0. -/
def Obligations.TimeMovesOnlyByAdvance : Prop :=
  ∀ s t : State, step s = .next t →
    (Resets s → t.tick = 0 ∧ t.now = 0 ∧ t.acc = 0) ∧
    (∀ rest, s.agenda = .tickEnd :: rest → t.tick = s.tick + 1) ∧
    (¬Resets s →
      s.now.toInt ≤ t.now.toInt ∧
      (t.now ≠ s.now → (∃ d, Presents s (.eqAdv d)) ∨ ∃ d rest, s.agenda = .advance d :: rest) ∧
      (t.tick ≠ s.tick → t.tick = s.tick + 1 ∧ ∃ rest, s.agenda = .tickEnd :: rest) ∧
      (t.acc ≠ s.acc → (∃ m, Presents s (.clkConv m)) ∨ ∃ m rest, s.agenda = .convert m :: rest))

/-- O22. A latched interrupt bit is cleared only by an acknowledgement that names it, the reset aside (R241, R247). -/
def Obligations.StatusBitsClearedOnlyByAck : Prop :=
  ∀ (s t : State) (sd : Side) (n : Nat), step s = .next t → ¬Resets s →
    (s.intc sd).stat.getLsbD n = true → (t.intc sd).stat.getLsbD n = false →
    ∃ v, Presents s (.intAck sd v) ∧ v.getLsbD n = true

/-- O23. DMA traffic never overflows or underflows a FIFO: those faults come only from the debug port (R225). -/
def Obligations.FifoFaultsOnlyFromDebugPort : Prop :=
  ∀ s t : State, s.cfg.Valid → step s = .next t → s.fault = none →
    (∀ info, t.fault = some ⟨.fifoOverflow, info⟩ → ∃ d w, Presents s (.sifPush d w)) ∧
    (∀ info, t.fault = some ⟨.fifoUnderflow, info⟩ → ∃ d, Presents s (.sifPop d))

/-- O24. A burst of one side writes no byte of the other side's memory, whether it ends or faults at its tag, at a word or at
its event (R70, R231). -/
def Obligations.BurstStaysOnItsSide : Prop :=
  ∀ (c : Chan) (s t : State),
    (burstStep .main c s = .ok t ∨ burstStep .main c s = .error t → t.mem.subRam = s.mem.subRam) ∧
    (burstStep .sub c s = .ok t ∨ burstStep .sub c s = .error t →
      t.mem.mainRam = s.mem.mainRam ∧ t.mem.mainSpr = s.mem.mainSpr)

/-! ## The event queue (40_event_queue.md) -/

/-- O25. EQ.REG fills the next slot and answers its number; with the table full it faults (R111). -/
def Obligations.RegisterFillsNextSlot : Prop :=
  ∀ (k : DWord) (s : State), Accepted (.eqReg k) s →
    (s.nh < s.cfg.maxHandlers → exec (.eqReg k) s = .next
      { s with handlers := s.handlers.set s.nh (.external k), nh := s.nh + 1, answer := some (BitVec.ofNat 64 s.nh) }) ∧
    (s.nh = s.cfg.maxHandlers → exec (.eqReg k) s = .next (takeFault .handlerTableFull [k] s))

/-- O26. EQ.SCHED inserts the event at now + delay in place of any entry of its handle and channel, or faults on a
negative delay, on a repetition without a positive period, on a deadline beyond i64, in this order (R113, R114, R125). -/
def Obligations.ScheduleInsertsEvent : Prop :=
  ∀ (rep : Bool) (ch : Chan) (h : Handle) (delay period : DWord) (s : State),
    let i := Instr.eqSched rep ch h delay period
    Accepted i s →
    (delay.toInt < 0 →
      exec i s = .next (takeFault .negativeDelay [h.setWidth 64, ch.setWidth 64, delay] s)) ∧
    (0 ≤ delay.toInt → rep = true → period.toInt ≤ 0 →
      exec i s = .next (takeFault .badPeriod [h.setWidth 64, ch.setWidth 64, period] s)) ∧
    (0 ≤ delay.toInt → (rep = true → 0 < period.toInt) → 2 ^ 63 - 1 < s.now.toInt + delay.toInt →
      exec i s = .next (takeFault .timeOverflow [h.setWidth 64, ch.setWidth 64, delay] s)) ∧
    (0 ≤ delay.toInt → (rep = true → 0 < period.toInt) → s.now.toInt + delay.toInt ≤ 2 ^ 63 - 1 →
      exec i s = .next
        { s with
          queue := insertEvent ⟨h, ch, s.now + delay, rep, if rep then period else 0, s.seq⟩
            (s.queue.filter fun e => !(e.h == h && e.ch == ch))
          seq := s.seq + 1
          answer := none })

/-- O27. EQ.SCHEDSUB inserts the event at now + ToMain(delay), with the period converted, or faults: on a negative delay, on
a repetition without a positive period, on an operand of `2 ^ 32` or more (this order of the range check is the model's, log
11), on a deadline beyond i64, and on a converted period beyond i64 (the model's reading, log 14); the record of that
overflow holds the converted delay, a free value from `2 ^ 64` on (log 23) (R113 to R115, R125, R142). -/
def Obligations.ScheduleSubInsertsEvent : Prop :=
  ∀ (rep : Bool) (ch : Chan) (h : Handle) (delay period : DWord) (s : State),
    let i := Instr.eqSchedSub rep ch h delay period
    let d := toMain s.cfg delay.toNat
    let p := toMain s.cfg period.toNat
    Accepted i s → s.cfg.Valid →
    (delay.toInt < 0 →
      exec i s = .next (takeFault .negativeDelay [h.setWidth 64, ch.setWidth 64, delay] s)) ∧
    (0 ≤ delay.toInt → rep = true → period.toInt ≤ 0 →
      exec i s = .next (takeFault .badPeriod [h.setWidth 64, ch.setWidth 64, period] s)) ∧
    (0 ≤ delay.toInt → (rep = true → 0 < period.toInt) →
      2 ^ 32 ≤ delay.toNat ∨ (rep = true ∧ 2 ^ 32 ≤ period.toNat) →
      exec i s = .next (takeFault .badOperand [(encode i).cmd.setWidth 64, delay, period] s)) ∧
    (delay.toNat < 2 ^ 32 → (rep = true → 0 < period.toNat ∧ period.toNat < 2 ^ 32) →
      2 ^ 63 - 1 < s.now.toInt + d ∨ (rep = true ∧ 2 ^ 63 - 1 < p) →
      ∃ x, exec i s = .next (takeFault .timeOverflow [h.setWidth 64, ch.setWidth 64, x] s) ∧
        (d < 2 ^ 64 → x = BitVec.ofNat 64 d)) ∧
    (delay.toNat < 2 ^ 32 → (rep = true → 0 < period.toNat ∧ period.toNat < 2 ^ 32 ∧ p ≤ 2 ^ 63 - 1) →
      s.now.toInt + d ≤ 2 ^ 63 - 1 →
      exec i s = .next
        { s with
          queue := insertEvent
            ⟨h, ch, BitVec.ofInt 64 (s.now.toInt + d), rep, if rep then BitVec.ofNat 64 p else 0, s.seq⟩
            (s.queue.filter fun e => !(e.h == h && e.ch == ch))
          seq := s.seq + 1
          answer := none })

/-- O28. EQ.NOW, EQ.QUERY, CLK.TOMAIN and SIF.OCC answer and change nothing else; a CLK.TOMAIN result of `2 ^ 64` or more is
answered by a free value (log 23), any other exactly (R116, R124, R142, R229). -/
def Obligations.QueriesAnswerOnly : Prop :=
  ∀ (s : State) (ch : Chan) (h : Handle) (v : DWord) (d : Dir),
    (Accepted .eqNow s → exec .eqNow s = .next { s with answer := some s.now }) ∧
    (Accepted (.eqQuery ch h) s → exec (.eqQuery ch h) s = .next
      { s with answer := some (if ∃ e ∈ s.queue, e.h = h ∧ e.ch = ch then 1 else 0) }) ∧
    (Accepted (.clkToMain v) s → v.toNat < 2 ^ 32 → ∃ a, exec (.clkToMain v) s = .next { s with answer := some a } ∧
      (ceilDiv (v.toNat * s.cfg.iopDen) s.cfg.iopNum < 2 ^ 64 →
        a = BitVec.ofNat 64 (ceilDiv (v.toNat * s.cfg.iopDen) s.cfg.iopNum))) ∧
    (Accepted (.clkToMain v) s → 2 ^ 32 ≤ v.toNat → exec (.clkToMain v) s = .next
      (takeFault .badOperand [0x11000000, v, 0] s)) ∧
    (Accepted (.sifOcc d) s → exec (.sifOcc d) s = .next
      { s with answer := some (BitVec.ofNat 64 (s.fifo d).length) })

/-- O29. EQ.ADV moves `now` and nothing else, so no event fires; it faults on a negative delta and beyond i64, with
the record of R117 or that of R272, as the configuration says (R110, R117; the model's own: the configuration's say, and the
free values that stand for the operands EQ.ADV does not have, log 9). -/
def Obligations.AdvanceMovesNowOnly : Prop :=
  ∀ (delta : DWord) (s : State), Accepted (.eqAdv delta) s →
    let info : List DWord := match s.cfg.faultInfo with
      | .byRule => [delta]
      | .byTable => [Config.absentHandle delta, Config.absentChannel delta, delta]
    (delta.toInt < 0 → exec (.eqAdv delta) s = .next (takeFault .negativeDelay info s)) ∧
    (0 ≤ delta.toInt → 2 ^ 63 - 1 < s.now.toInt + delta.toInt →
      exec (.eqAdv delta) s = .next (takeFault .timeOverflow info s)) ∧
    (0 ≤ delta.toInt → s.now.toInt + delta.toInt ≤ 2 ^ 63 - 1 →
      exec (.eqAdv delta) s = .next { s with now := s.now + delta, answer := none })

/-- O30. EQ.DRAIN begins a drain, DRV.TICK lays out the tick in the order of R145, DRV.START and DRV.HALT set the phase;
nothing else changes (R118, R145 to R147). That a tick and a drain then run one item per step is the model's choice
(log 1). -/
def Obligations.DriverCommands : Prop :=
  ∀ (s : State) (n : Word),
    (Accepted .eqDrain s → exec .eqDrain s = .next { s with agenda := .drain :: s.agenda, answer := none }) ∧
    (Accepted (.drvTick n) s → exec (.drvTick n) s = .next
      { s with
        agenda := .slice .main n.toNat [] :: .convert (n.toNat * s.cfg.mainCpi) ::
          .advance (n.toNat * s.cfg.mainCpi) :: .drain :: .tickEnd :: s.agenda
        answer := none }) ∧
    (Accepted .drvStart s → exec .drvStart s = .next { s with phase := .running, answer := none }) ∧
    (Accepted .drvHalt s → exec .drvHalt s = .next { s with phase := .halted, answer := none })

/-- O31. The event that fires next is due, and no due event has a smaller deadline, or the same deadline and a smaller
sequence number; and when none fires none is due (R118, R120). -/
def Obligations.DrainSelectsLeastDue : Prop :=
  ∀ s : State, QueueSorted s →
    (firstDue s = none → ∀ f ∈ s.queue, s.now.toInt < f.deadline.toInt) ∧
    (∀ e, firstDue s = some e → e ∈ s.queue ∧ e.deadline.toInt ≤ s.now.toInt ∧
      ∀ f ∈ s.queue, f.deadline.toInt ≤ s.now.toInt →
        e.deadline.toInt < f.deadline.toInt ∨ (e.deadline = f.deadline ∧ e.seq.toNat ≤ f.seq.toNat))

/-- O32. One step of a drain: it ends when nothing is due; else it takes the first event out, reinserts it one period later
when it repeats, and runs its callback, a DMA event at once and an external one as the list of its commands, with the
lateness measured from the deadline it was selected by (R118, R119, R121, R122, R178). -/
def Obligations.DrainFiresFirstDue : Prop :=
  ∀ (s : State) (rest : List Task), s.agenda = .drain :: rest →
    (firstDue s = none → step s = .next { s with agenda := rest, answer := none }) ∧
    (∀ e tail sd, s.queue = e :: tail → e.deadline.toInt ≤ s.now.toInt → e.rep = false →
      s.handlers.getD e.h.toNat .empty = (match sd with | .main => .dmaMain | .sub => .dmaSub) →
      step s = .next (runState (dmaEvent sd e.ch { s with queue := tail }))) ∧
    (∀ e tail k cmds more, s.queue = e :: tail → e.deadline.toInt ≤ s.now.toInt →
      s.handlers.getD e.h.toNat .empty = .external k → s.agents.callbackIn = cmds :: more →
      (e.rep = true → e.deadline.toInt + e.period.toInt ≤ 2 ^ 63 - 1) →
      step s = .next
        { s with
          queue := if e.rep then insertEvent { e with deadline := e.deadline + e.period, seq := s.seq } tail else tail
          seq := if e.rep then s.seq + 1 else s.seq
          agenda := .callback cmds :: .drain :: rest
          agents := { s.agents with
            callbackIn := more
            callbackLog := s.agents.callbackLog ++ [⟨k, e.ch, s.now.toInt - e.deadline.toInt⟩] } }) ∧
    (∀ e tail, s.queue = e :: tail → e.deadline.toInt ≤ s.now.toInt → e.rep = true →
      2 ^ 63 - 1 < e.deadline.toInt + e.period.toInt →
      ∃ info, step s = .next (takeFault .timeOverflow info { s with queue := tail }))

/-- O33. A repeating event never drifts, however late the drain: `count` firings of it take it from deadline `d` to
exactly `d + count * period`, each call `now - (d + j * period)` cycles late (R118, R121, R122). The queue holds it alone and
its callback issues no command. That a drain fires one event per step is the model's choice (log 1). -/
def Obligations.RepeatingEventNeverDrifts : Prop :=
  ∀ (s : State) (e : Event) (k : DWord) (count : Nat) (rest : List Task) (more : List (List Command)),
    s.agenda = .drain :: rest → s.queue = [e] → e.rep = true → 0 < e.period.toInt → 0 ≤ e.deadline.toInt →
    s.handlers.getD e.h.toNat .empty = .external k → s.agents.callbackIn = List.replicate count [] ++ more →
    (∀ j < count, e.deadline.toInt + j * e.period.toInt ≤ s.now.toInt) →
    e.deadline.toInt + count * e.period.toInt ≤ 2 ^ 63 - 1 →
    1 ≤ count →
    Host.Core.run Sys2Proof.core (2 * count) s = .next
      { s with
        queue := [{ e with
          deadline := BitVec.ofInt 64 (e.deadline.toInt + count * e.period.toInt)
          seq := s.seq + BitVec.ofNat 64 (count - 1) }]
        seq := s.seq + BitVec.ofNat 64 count
        answer := none
        agents := { s.agents with
          callbackIn := more
          callbackLog := s.agents.callbackLog ++ (List.range count).map fun j =>
            ⟨k, e.ch, s.now.toInt - (e.deadline.toInt + j * e.period.toInt)⟩ } }

/-! ## The clock converter and the driver (41_clock_driver.md) -/

/-- O34. CLK.CONV answers the whole secondary cycles and carries the remainder; it faults from `2 ^ 32` on (R141). -/
def Obligations.ConvertCarriesRemainder : Prop :=
  ∀ (m : DWord) (s : State), Accepted (.clkConv m) s →
    (m.toNat < 2 ^ 32 → exec (.clkConv m) s = .next
      { s with
        acc := (s.acc + m.toNat * s.cfg.iopNum) % s.cfg.iopDen
        answer := some (BitVec.ofNat 64 ((s.acc + m.toNat * s.cfg.iopNum) / s.cfg.iopDen)) }) ∧
    (2 ^ 32 ≤ m.toNat → exec (.clkConv m) s = .next (takeFault .badOperand [0x10000000, m, 0] s))

/-- O35. No cycle is lost over any sequence of conversions: the results add up to the whole sum's, and the remainder stays
below the divisor (R29, R141). -/
def Obligations.ConversionExactOverSequence : Prop :=
  ∀ (ms : List Nat) (s : State), s.cfg.Valid → s.acc < s.cfg.iopDen →
    let run := ms.foldl
      (fun (p : Nat × State) m => (p.1 + convertResult m p.2, convertState m p.2)) (0, s)
    run.1 = (s.acc + ms.sum * s.cfg.iopNum) / s.cfg.iopDen ∧
    run.2 = { s with acc := (s.acc + ms.sum * s.cfg.iopNum) % s.cfg.iopDen } ∧
    run.2.acc < s.cfg.iopDen

/-- O36. ToMain is the least number of main cycles that lasts as long: never early, never a cycle more than rounding up
takes, and 0 stays 0 (R8, R142). -/
def Obligations.ToMainNeverEarly : Prop :=
  ∀ (p : Params) (d : Nat), p.Valid →
    d * p.iopDen ≤ toMain p d * p.iopNum ∧ (∀ n, d * p.iopDen ≤ n * p.iopNum → toMain p d ≤ n) ∧ toMain p 0 = 0

/-- O37. A whole tick in which the CPUs issue nothing and nothing falls due: `n` main instructions, the converted number of
secondary instructions, the advance, the drain, the count, in the machine's own steps (R143 to R145). How a tick falls into
steps is the model's choice (log 1), and so is that a tick of `2 ^ 32` main cycles or more, which MAIN_CPI above 1 can make, is
converted unchecked (log 21). -/
def Obligations.QuietTickRuns : Prop :=
  ∀ (s : State) (n : Word) (rest : List HostAct) (mains subs : List (List CpuAct)),
    let cycles := n.toNat * s.cfg.mainCpi
    let m := (s.acc + cycles * s.cfg.iopNum) / s.cfg.iopDen
    s.phase = .running → s.agenda = [] → s.agents.host = .command (encode (.drvTick n)) :: rest →
    s.agents.mainIn = List.replicate n.toNat [] ++ mains → s.agents.subIn = List.replicate m [] ++ subs →
    s.now.toInt + cycles ≤ 2 ^ 63 - 1 → (∀ e ∈ s.queue, s.now.toInt + cycles < e.deadline.toInt) →
    Host.Core.run Sys2Proof.core (n.toNat + m + 7) s = .next
      { s with
        now := BitVec.ofInt 64 (s.now.toInt + cycles)
        acc := (s.acc + cycles * s.cfg.iopNum) % s.cfg.iopDen
        tick := s.tick + 1
        answer := none
        agents := { s.agents with
          host := rest
          mainIn := mains
          subIn := subs
          sampledMain := if n = 0 then s.agents.sampledMain else pendingLine s .main
          sampledSub := if m = 0 then s.agents.sampledSub else pendingLine s .sub } }

/-! ## The DMA engines (42_dma.md) -/

/-- O38. A write to an Idle channel's register stores the value under its side's mask and changes nothing else; a CHCR
write does so when it leaves STR 0 (R160, R161). -/
def Obligations.IdleChannelRegisterWrites : Prop :=
  ∀ (sd : Side) (c : Chan) (v : Word) (s : State), active s sd c = false → s.pendingStarts = [] →
    let ch := s.chan sd c
    let next (ch : Channel) : Host.Outcome State Machine.Fault Refusal :=
      .next { s.setChan sd c ch with answer := none }
    let chcrBits : Word := match sd with | .main => 0xFFFF01FF | .sub => 0x11770703
    let addrBits : Word := match sd with | .main => 0xFFFFFFFF | .sub => 0x00FFFFFF
    let cntBits : Word := match sd with | .main => 0x0000FFFF | .sub => 0xFFFFFFFF
    (Accepted (.dmaWr sd c .madr v) s → exec (.dmaWr sd c .madr v) s = next { ch with madr := v &&& addrBits }) ∧
    (Accepted (.dmaWr sd c .tadr v) s → exec (.dmaWr sd c .tadr v) s = next { ch with tadr := v &&& addrBits }) ∧
    (Accepted (.dmaWr sd c .cnt v) s → exec (.dmaWr sd c .cnt v) s = next { ch with cnt := v &&& cntBits }) ∧
    (Accepted (.dmaWr sd c .chcr v) s → strOf sd v = false →
      exec (.dmaWr sd c .chcr v) s = next { ch with chcr := v &&& chcrBits })

/-- O39. An Active channel refuses a register write with ChannelBusy, but for the CHCR write with STR 0 that aborts a
Waiting channel; and the read-only and invalid selects fault first (R92, R160, R296), a read-only one with the record of
R160 or that of R272, as the configuration says. The model's own: that the invalid selects stand beside the read-only ones in
this order (log 24), the configuration's say over the record (log 9), and the numbers in the record of ChannelBusy (log 17). -/
def Obligations.BusyChannelRefusesWrites : Prop :=
  ∀ (sd : Side) (c : Chan) (reg : ChanReg) (v : Word) (s : State), Accepted (.dmaWr sd c reg v) s →
    let writable := reg = .chcr ∨ reg = .madr ∨ reg = .cnt ∨ reg = .tadr
    let aborts := reg = .chcr ∧ strOf sd v = false ∧ running s sd c = false
    let cmd : DWord := (encode (.dmaWr sd c reg v)).cmd.setWidth 64
    (reg = .status ∨ reg = .rem → exec (.dmaWr sd c reg v) s = .next
      (takeFault .badOperand (match s.cfg.faultInfo with
        | .byRule => [cmd, v.setWidth 64]
        | .byTable => [cmd, v.setWidth 64, 0]) s)) ∧
    (reg = .sel6 ∨ reg = .sel7 → exec (.dmaWr sd c reg v) s = .next
      (takeFault .badOperand [cmd, v.setWidth 64, 0] s)) ∧
    (writable → active s sd c = true → ¬aborts → exec (.dmaWr sd c reg v) s = .next
      (takeFault .channelBusy
        [sideCode sd, c.setWidth 64, (chanRegBits reg).setWidth 64, v.setWidth 64] s)) ∧
    (active s sd c = true → aborts → exec (.dmaWr sd c reg v) s = .next
      { s.setChan sd c { s.chan sd c with chcr := v &&& chcrMask sd, rem := 0, tagEnd := false } with answer := none })

/-- O40. The checks of a channel start, in the order of R162: each names its fault when the ones before it pass, the
channel's registers are the diagnostic, and CHCR stays as written (R162, R274). The model's own: the side number in the
record (log 17), and that its CHCR is the value just stored (log 18). -/
def Obligations.StartChecksInOrder : Prop :=
  ∀ (sd : Side) (c : Chan) (v : Word) (s : State),
    Accepted (.dmaWr sd c .chcr v) s → active s sd c = false → strOf sd v = true →
    (s.dma sd).chans.length = s.cfg.nch sd →
    let w := v &&& chcrMask sd
    let ch := s.chan sd c
    let sif2 := c = (s.cfg.sif sd).sif2
    let contradictory :=
      ((produces s.cfg sd c).isSome = true ∧ toMemOf w = true) ∨
        ((consumes s.cfg sd c).isSome = true ∧ toMemOf w = false)
    let offAddress := offWord ch.madr = true ∨
      (sd = .main ∧ fifoChannel s.cfg sd c = false ∧ offQuad ch.madr = true)
    let stops (k : FaultKind) : Prop := exec (.dmaWr sd c .chcr v) s = .next
      (takeFault k [sideCode sd, c.setWidth 64, w.setWidth 64, ch.madr.setWidth 64, ch.tadr.setWidth 64,
        ch.cnt.setWidth 64] (s.setChan sd c { ch with chcr := w }))
    (sif2 → stops .unimplemented) ∧
    (¬sif2 → modeOf sd w = 3 → stops .reservedMode) ∧
    (¬sif2 → modeOf sd w ≠ 3 → unmodelledMode sd w = true → stops .unimplemented) ∧
    (¬sif2 → modeOf sd w ≠ 3 → unmodelledMode sd w = false → chainOf sd w = true → toMemOf w = true →
      stops .unimplemented) ∧
    (¬sif2 → modeOf sd w ≠ 3 → unmodelledMode sd w = false → ¬(chainOf sd w = true ∧ toMemOf w = true) →
      contradictory → stops .contradictoryControl) ∧
    (¬sif2 → modeOf sd w ≠ 3 → unmodelledMode sd w = false → ¬contradictory → chainOf sd w = false →
      zeroCount sd w ch.cnt = true → stops .zeroCount) ∧
    (¬sif2 → modeOf sd w ≠ 3 → unmodelledMode sd w = false → ¬contradictory → chainOf sd w = false →
      zeroCount sd w ch.cnt = false → offAddress → stops .misaligned) ∧
    (¬sif2 → modeOf sd w ≠ 3 → unmodelledMode sd w = false → toMemOf w = false → ¬contradictory →
      chainOf sd w = true → tagStartOff sd ch.tadr = true → stops .misaligned)

/-- O41. A start whose gate is closed leaves the channel Waiting, its count loaded, and moves nothing (R160, R162, R163,
R170, R171). That the start of a chain looks at TADR and not at MADR is the reading of log 27. -/
def Obligations.StartLeavesChannelWaiting : Prop :=
  ∀ (sd : Side) (c : Chan) (v : Word) (s : State),
    let w := v &&& chcrMask sd
    Accepted (.dmaWr sd c .chcr v) s → active s sd c = false → strOf sd v = true →
    (s.dma sd).chans.length = s.cfg.nch sd → s.pendingStarts = [] →
    StartChecks sd c w s → gate (started sd c w s) sd c = false →
    exec (.dmaWr sd c .chcr v) s = .next { started sd c w s with answer := none }

/-- O42. A normal-mode start whose gate is open moves its first burst at once, in address order, from memory to the
peripheral or from the peripheral into memory, and schedules one event at now + Cost; the words are counted as R163 says. A
DMA_COST[SUB] of `2 ^ 32` or more is the model's to convert (log 22) (R160, R162, R163, R172 to R175). -/
def Obligations.StartMovesFirstBurst : Prop :=
  ∀ (sd : Side) (c : Chan) (v : Word) (s : State), s.cfg.Valid →
    let w := v &&& chcrMask sd
    let u := started sd c w s
    let low := ((s.chan sd c).cnt.extractLsb' 0 16).toNat
    let high := ((s.chan sd c).cnt.extractLsb' 16 16).toNat
    let count := match sd with
      | .main => 4 * low
      | .sub => if modeOf .sub w = 0 then low else low * high
    let n := min s.cfg.burstCap count
    Accepted (.dmaWr sd c .chcr v) s → active s sd c = false → strOf sd v = true →
    (s.dma sd).chans.length = s.cfg.nch sd → s.pendingStarts = [] →
    StartChecks sd c w s → chainOf sd w = false → fifoChannel s.cfg sd c = false →
    gate u sd c = true → running s sd c = false → s.now.toInt + burstCost s.cfg sd ≤ 2 ^ 63 - 1 →
    (toMemOf w = false → exec (.dmaWr sd c .chcr v) s = .next { sentBurst sd c n u with answer := none }) ∧
    (∀ ws rest, toMemOf w = true → s.agents.periphIn = ws ++ rest → ws.length = n →
      exec (.dmaWr sd c .chcr v) s = .next { takenBurst sd c ws rest u with answer := none })

/-- O43. A rising edge of the request line of a Waiting channel takes one burst from its peripheral into memory, in
address order, and schedules one event at now + Cost, a DMA_COST[SUB] of `2 ^ 32` or more being the model's to convert (log
22) (R166, R170, R172 to R175). -/
def Obligations.RequestEdgeTakesBurst : Prop :=
  ∀ (sd : Side) (c : Chan) (s : State) (ws rest : List Word),
    let u := s.setChan sd c { s.chan sd c with drq := true }
    Accepted (.dmaDrq sd c true) s → (s.dma sd).chans.length = s.cfg.nch sd → s.pendingStarts = [] →
    sifChannel s.cfg sd c = false → (s.chan sd c).drq = false → gate u sd c = true → running s sd c = false →
    chained s sd c = false → toMem s sd c = true →
    s.agents.periphIn = ws ++ rest → ws.length = min s.cfg.burstCap (s.chan sd c).rem.toNat →
    s.now.toInt + burstCost s.cfg sd ≤ 2 ^ 63 - 1 →
    exec (.dmaDrq sd c true) s = .next { takenBurst sd c ws rest u with answer := none }

/-- O44. DMA.DRQ stores the line, and only that, on a falling or repeated level, with the engine disabled, or with the gate
closed otherwise; on a SIF channel it faults, with the model's side number in the record (log 17) (R166). -/
def Obligations.RequestLineWrites : Prop :=
  ∀ (sd : Side) (c : Chan) (b : Bool) (s : State), Accepted (.dmaDrq sd c b) s →
    let u := s.setChan sd c { s.chan sd c with drq := b }
    (sifChannel s.cfg sd c = true → exec (.dmaDrq sd c b) s = .next
      (takeFault .contradictoryControl [sideCode sd, c.setWidth 64, if b then 1 else 0] s)) ∧
    (sifChannel s.cfg sd c = false → s.pendingStarts = [] →
      b = false ∨ (s.chan sd c).drq = true ∨ engineEnabled s sd = false ∨ gate u sd c = false ∨
        running s sd c = true →
      exec (.dmaDrq sd c b) s = .next { u with answer := none })

/-- O45. DMA.RD answers the selected register, zero-extended, and changes nothing else; STATUS is DRQ, tagEnd and Running;
the invalid selects fault, with the record of R164 or that of R272, as the configuration says (R37, R93, R164; the model's
own: the configuration's say, log 9). -/
def Obligations.ChannelReads : Prop :=
  ∀ (sd : Side) (c : Chan) (s : State),
    let ch := s.chan sd c
    let gives (reg : ChanReg) (v : DWord) : Prop :=
      Accepted (.dmaRd sd c reg) s → exec (.dmaRd sd c reg) s = .next { s with answer := some v }
    let bit (b : Bool) : DWord := if b then 1 else 0
    gives .chcr (ch.chcr.setWidth 64) ∧ gives .madr (ch.madr.setWidth 64) ∧ gives .cnt (ch.cnt.setWidth 64) ∧
    gives .tadr (ch.tadr.setWidth 64) ∧ gives .rem (ch.rem.setWidth 64) ∧
    gives .status (bit (drq s sd c) + 2 * bit ch.tagEnd + 4 * bit (running s sd c)) ∧
    (∀ reg, reg = .sel6 ∨ reg = .sel7 → Accepted (.dmaRd sd c reg) s →
      let cmd : DWord := (encode (.dmaRd sd c reg)).cmd.setWidth 64
      exec (.dmaRd sd c reg) s = .next
        (takeFault .badOperand (match s.cfg.faultInfo with | .byRule => [cmd] | .byTable => [cmd, 0, 0]) s))

/-- O46. DMA.RDE answers the selected engine register and changes nothing else; DINT_STAT shows the pending bits below
NCH and the master flag, computed, in bit 31 (R38, R39, R188). -/
def Obligations.EngineReads : Prop :=
  ∀ (sd : Side) (s : State), s.cfg.Valid →
    (∀ reg, Accepted (.dmaRde sd reg) s → ∃ w : Word,
      exec (.dmaRde sd reg) s = .next { s with answer := some (w.setWidth 64) } ∧
      (reg = .ctrl → w = (s.dma sd).ctrl) ∧ (reg = .pcr → w = (s.dma sd).pcr) ∧
      (reg = .dintCtl → w = (s.dma sd).dintCtl) ∧
      (reg = .dintStat →
        (∀ n < s.cfg.nch sd, w.getLsbD n = (s.dma sd).dintStat.getLsbD n) ∧
        (∀ n, s.cfg.nch sd ≤ n → n ≠ 31 → w.getLsbD n = false) ∧
        (w.getLsbD 31 = true ↔ (s.dma sd).dintCtl.getLsbD 31 = true ∧
          ∃ n < s.cfg.nch sd, (s.dma sd).dintStat.getLsbD n = true ∧ (s.dma sd).dintCtl.getLsbD n = true)))

/-- O47. DMA.WRE stores the register under its mask, clears pending bits where 1 is written to DINT_STAT, and raises the
engine's source exactly when the master flag rises. After a CTRL or PCR write: when no Waiting channel's gate is open,
nothing else changes; when one Waiting channel's is, a normal-mode channel sends or takes its burst at once, in address
order, with one event at now + Cost, a DMA_COST[SUB] of `2 ^ 32` or more being the model's to convert (log 22) (R38, R39, R172
to R175, R182, R185, R186). -/
def Obligations.EngineWrites : Prop :=
  ∀ (sd : Side) (reg : EngReg) (v : Word) (s : State), s.cfg.Valid → Accepted (.dmaWre sd reg v) s →
    s.pendingStarts = [] →
    let e := s.dma sd
    let m : Word := BitVec.ofNat 32 (2 ^ s.cfg.nch sd - 1)
    let stored (e : Engine) : State := { s.setDma sd e with answer := none }
    let raised (e : Engine) : State :=
      if masterFlag s sd = false ∧ masterFlag (stored e) sd = true then
        (stored e).setIntc sd { s.intc sd with stat := (s.intc sd).stat ||| ((1 : Word) <<< (s.cfg.dmaSrc sd).toNat) }
      else stored e
    let still (t : State) (c : Chan) : Prop := running t sd c = true ∨ gate t sd c = false
    let ends (t : State) : Prop := exec (.dmaWre sd reg v) s = .next t
    (∀ t, (reg = .ctrl ∧ t = stored { e with ctrl := v &&& 1 }) ∨
        (reg = .pcr ∧ t = stored { e with pcr := v &&& (0x80000000 ||| m) }) →
      ((∀ c : Chan, c.toNat < s.cfg.nch sd → still t c) → ends t) ∧
      (∀ c : Chan, c.toNat < s.cfg.nch sd → running t sd c = false → gate t sd c = true →
        (∀ c' : Chan, c'.toNat < s.cfg.nch sd → c' ≠ c → still t c') →
        chained t sd c = false → fifoChannel s.cfg sd c = false → s.now.toInt + burstCost s.cfg sd ≤ 2 ^ 63 - 1 →
        (toMem t sd c = false → ends (sentBurst sd c (min s.cfg.burstCap (t.chan sd c).rem.toNat) t)) ∧
        (∀ ws rest, toMem t sd c = true → s.agents.periphIn = ws ++ rest →
          ws.length = min s.cfg.burstCap (t.chan sd c).rem.toNat → ends (takenBurst sd c ws rest t)))) ∧
    (reg = .dintStat → ends (raised { e with dintStat := e.dintStat &&& ~~~(v &&& m) })) ∧
    (reg = .dintCtl → ends (raised { e with dintCtl := v &&& (0x80000000 ||| m) }))

/-- O48. A main-side tag is followed as R176 says: the five ids give MADR, TADR and the end flag, TIE and IRQ end the
chain, CHCR and CNT take the tag's fields. The other ids fault as unimplemented; a TADR that is no quadword's, and then a
data address that is not aligned for the channel, as misaligned: what the rule stored before the fault stays, and the
channel's registers are the record, with the model's side number (log 17). That the record holds CHCR, CNT, MADR and TADR as the
tag has just stored them is the model's reading (log 18) (R74, R176, R271, R272). -/
def Obligations.MainTagIsFollowed : Prop :=
  ∀ (c : Chan) (s : State), s.cfg.Valid →
    let ch := s.chan .main c
    let ea := effectiveAddr s.cfg .main ch.tadr
    let lo := s.mem.readWord ea.1 ea.2
    let hi := s.mem.readWord ea.1 (ea.2 + 4)
    let qwc := (lo.extractLsb' 0 16).toNat
    let id := (lo.extractLsb' 28 3).toNat
    let data := advanceAddr .main ch.tadr 16
    let madr := if id = 0 ∨ id = 3 then hi else data
    let tadr := if id = 0 ∨ id = 3 then data else if id = 2 then hi else advanceAddr .main ch.tadr (16 + 16 * qwc)
    let last := decide (id = 0 ∨ id = 7) || (lo.getLsbD 31 && ch.chcr.getLsbD 7)
    let read := { ch with chcr := (lo &&& 0xFFFF0000) ||| (ch.chcr &&& 0x0000FFFF), cnt := BitVec.ofNat 32 qwc }
    let followed := { read with madr := madr, tadr := tadr }
    let known := id = 0 ∨ id = 1 ∨ id = 2 ∨ id = 3 ∨ id = 7
    let dataOff := if fifoChannel s.cfg .main c then offWord madr else offQuad madr
    let stops (k : FaultKind) (x : Channel) : Prop := c.toNat < (s.dma .main).chans.length →
      tagFetch .main c s = .error (takeFault k
        [0, c.setWidth 64, x.chcr.setWidth 64, x.madr.setWidth 64, x.tadr.setWidth 64, x.cnt.setWidth 64]
        (s.setChan .main c x))
    (offQuad ch.tadr = true → stops .misaligned ch) ∧
    (offQuad ch.tadr = false → id = 4 ∨ id = 5 ∨ id = 6 → stops .unimplemented read) ∧
    (offQuad ch.tadr = false → known → dataOff = true → stops .misaligned followed) ∧
    (offQuad ch.tadr = false → known → dataOff = false →
      tagFetch .main c s = .ok (s.setChan .main c
        { followed with rem := BitVec.ofNat 32 (4 * qwc), tagEnd := last }))

/-- O49. A secondary-side tag is followed as R177 says; a misaligned TADR, and then a misaligned data address, faults with
nothing stored (the side number in the record, log 17, and the moment of its registers, log 18, are the model's). And a
chain's burst fetches a tag exactly when the one before is used up without the end flag, so the first burst of a chain does:
then the burst goes on from the state the fetch leaves, or ends with the fetch's fault; any other burst goes on from where it
stands. From memory to a peripheral it sends the words of the tag, with its own event at now + Cost; and an event of such a
channel whose gate is open runs that burst. A DMA_COST[SUB] of `2 ^ 32` or more is the model's to convert (log 22) (R74, R172
to R179). -/
def Obligations.SubTagIsFollowed : Prop :=
  ∀ (c : Chan) (s : State), s.cfg.Valid →
    let ch := s.chan .sub c
    let word (v : Word) : Word := s.mem.readWord .subRam (v &&& s.cfg.subRamMask).toNat
    let w0 := word ch.tadr
    let w1 := word ((ch.tadr + 4) &&& 0x00FFFFFF)
    let stops : Prop := tagFetch .sub c s = .error (takeFault .misaligned
      [1, c.setWidth 64, ch.chcr.setWidth 64, ch.madr.setWidth 64, ch.tadr.setWidth 64, ch.cnt.setWidth 64] s)
    (offWord ch.tadr = true → stops) ∧
    (offWord ch.tadr = false → offWord w0 = true → stops) ∧
    (offWord ch.tadr = false → offWord w0 = false →
      tagFetch .sub c s = .ok (s.setChan .sub c
        { ch with
          madr := w0 &&& 0x00FFFFFF, tadr := (ch.tadr + 8) &&& 0x00FFFFFF, rem := w1 &&& 0x00FFFFFF
          tagEnd := w0.getLsbD 31 })) ∧
    (∀ sd,
      let due := chained s sd c = true ∧ (s.chan sd c).rem = 0 ∧ (s.chan sd c).tagEnd = false
      (∀ t, due → tagFetch sd c s = .error t → burstStep sd c s = .error t) ∧
      (∀ u, (due ∧ tagFetch sd c s = .ok u) ∨ (¬due ∧ u = s) →
        burstStep sd c s = burstBody sd c u ∧
        (c.toNat < (s.dma sd).chans.length → running s sd c = false → toMem u sd c = false →
          fifoChannel s.cfg sd c = false → s.now.toInt + burstCost s.cfg sd ≤ 2 ^ 63 - 1 →
          burstStep sd c s = .ok (sentBurst sd c (min s.cfg.burstCap (u.chan sd c).rem.toNat) u) ∧
          (s.pendingStarts = [] → gate s sd c = true →
            ¬((s.chan sd c).rem = 0 ∧ (chained s sd c = false ∨ (s.chan sd c).tagEnd = true)) →
            dmaEvent sd c s = .ok (sentBurst sd c (min s.cfg.burstCap (u.chan sd c).rem.toNat) u)))))

/-- O50. The event of a channel with nothing left completes it: STR falls, CNT ends at 0 where it tracks the transfer, the
other channel registers stay, its pending bit is set, the engine's source is raised exactly when the master flag rises, and
no memory, FIFO, queue, or other channel changes (R36, R178, R180, R182). That a SYNC 1 transfer ends with the block count 0
and the block size kept is the model's reading of R36 against R164 (log 16). -/
def Obligations.CompletionEvent : Prop :=
  ∀ (sd : Side) (c : Chan) (s : State), s.cfg.Valid → (s.dma sd).chans.length = s.cfg.nch sd →
    c.toNat < s.cfg.nch sd → s.pendingStarts = [] → active s sd c = true → (s.chan sd c).rem = 0 →
    chained s sd c = false ∨ (s.chan sd c).tagEnd = true →
    let ch := s.chan sd c
    let cnt := match sd with
      | .main => ch.cnt &&& 0xFFFF0000
      | .sub =>
        if chained s .sub c then ch.cnt
        else if modeOf .sub ch.chcr = 0 then ch.cnt &&& 0xFFFF0000 else ch.cnt &&& 0x0000FFFF
    ∃ t, dmaEvent sd c s = .ok t ∧
      active t sd c = false ∧
      t.chan sd c = { ch with chcr := (t.chan sd c).chcr, cnt := cnt } ∧
      (∀ n, n ≠ (match sd with | .main => 8 | .sub => 24) → (t.chan sd c).chcr.getLsbD n = ch.chcr.getLsbD n) ∧
      (∀ sd' c', (sd', c') ≠ (sd, c) → t.chan sd' c' = s.chan sd' c') ∧
      (∀ n, (t.dma sd).dintStat.getLsbD n = ((s.dma sd).dintStat.getLsbD n || n == c.toNat)) ∧
      (t.dma sd).dintCtl = (s.dma sd).dintCtl ∧ (t.dma sd).ctrl = (s.dma sd).ctrl ∧ (t.dma sd).pcr = (s.dma sd).pcr ∧
      (t.intc sd).stat =
        (if masterFlag s sd = false ∧ masterFlag t sd = true then
          (s.intc sd).stat ||| ((1 : Word) <<< (s.cfg.dmaSrc sd).toNat) else (s.intc sd).stat) ∧
      (t.intc sd).mask = (s.intc sd).mask ∧ (t.intc sd).master = (s.intc sd).master ∧
      t.mem = s.mem ∧ t.queue = s.queue ∧ t.sif0 = s.sif0 ∧ t.sif1 = s.sif1 ∧ t.agents = s.agents ∧
      t.now = s.now ∧ t.phase = s.phase ∧ t.pendingStarts = []

/-- O51. An event of an unfinished channel whose gate is closed leaves it Waiting and changes nothing. The rising request
edge that opens its gate continues it with a burst, and so does the CTRL or PCR write that opens it, which checks every
channel of the side in ascending order; the starts that the burst defers follow (R166, R171, R178, R184 to R186, R225). -/
def Obligations.ClosedGateWaits : Prop :=
  ∀ (sd : Side) (c : Chan) (s : State), s.cfg.Valid →
    let continues (t : State) : Host.Outcome State Machine.Fault Refusal :=
      .next (runState (burstStep sd c { t with answer := none } >>= processPendingStarts))
    (s.pendingStarts = [] → active s sd c = true → gate s sd c = false →
      ¬((s.chan sd c).rem = 0 ∧ (chained s sd c = false ∨ (s.chan sd c).tagEnd = true)) →
      dmaEvent sd c s = .ok s ∧ checkRunning sd c s = .ok s) ∧
    (Accepted (.dmaDrq sd c true) s → sifChannel s.cfg sd c = false → (s.chan sd c).drq = false →
      running s sd c = false →
      let t := s.setChan sd c { s.chan sd c with drq := true }
      gate t sd c = true → exec (.dmaDrq sd c true) s = continues t) ∧
    (∀ reg v t, Accepted (.dmaWre sd reg v) s →
      (reg = .ctrl ∧ t = s.setDma sd { s.dma sd with ctrl := v &&& 1 }) ∨
        (reg = .pcr ∧ t = s.setDma sd { s.dma sd with
          pcr := v &&& (0x80000000 ||| BitVec.ofNat 32 (2 ^ s.cfg.nch sd - 1)) }) →
      exec (.dmaWre sd reg v) s = .next (runState
        ((List.range (s.cfg.nch sd)).foldlM (fun u n => checkRunning sd (BitVec.ofNat 6 n) u) { t with answer := none }
          >>= processPendingStarts)) ∧
      (c.toNat < s.cfg.nch sd → running s sd c = false → gate t sd c = true →
        (∀ c' : Chan, c'.toNat < s.cfg.nch sd → c' ≠ c → running t sd c' = true ∨ gate t sd c' = false) →
        exec (.dmaWre sd reg v) s = continues t))

/-- O52. A normal-mode transfer of `L` words to or from a peripheral takes exactly `ceil(L / BURST_CAP)` bursts, one event
each, and is a block copy: after `k` events `k * BURST_CAP` words have moved in address order, given out of memory or taken
from the peripheral's script into it, and after `ceil(L / BURST_CAP)` events the channel has nothing left and is still Active,
its last event queued. A DMA_COST[SUB] of `2 ^ 32` or more is the model's to convert (log 22) (R172 to R175, R178, R181). -/
def Obligations.TransferTakesCeilBursts : Prop :=
  ∀ (sd : Side) (c : Chan) (s : State) (k : Nat),
    let ch := s.chan sd c
    let moved := min ch.rem.toNat (k * s.cfg.burstCap)
    let ends (t : State) : Prop := fireChannelTimes sd c k s = .ok t ∧
      (t.chan sd c).rem.toNat = ch.rem.toNat - k * s.cfg.burstCap ∧
      active t sd c = true ∧ running t sd c = true ∧ t.seq = s.seq + BitVec.ofNat 64 k
    s.cfg.Valid → (s.dma sd).chans.length = s.cfg.nch sd → s.pendingStarts = [] → gate s sd c = true →
    chained s sd c = false → fifoChannel s.cfg sd c = false →
    s.now.toInt + burstCost s.cfg sd ≤ 2 ^ 63 - 1 → 1 ≤ k → k ≤ ceilDiv ch.rem.toNat s.cfg.burstCap →
    (toMem s sd c = false → ∃ t, ends t ∧ t.mem = s.mem ∧
      t.agents.periphLog =
        s.agents.periphLog ++ (wordsFrom s.cfg sd s.mem ch.madr moved).map (.write sd c)) ∧
    (∀ ws rest, toMem s sd c = true → s.agents.periphIn = ws ++ rest → ws.length = moved →
      ∃ t, ends t ∧ t.mem = storeWords s.cfg sd ch.madr ws s.mem ∧ t.agents.periphIn = rest ∧
        t.agents.periphLog = s.agents.periphLog ++ ws.map (.read sd c))

/-- O53. The deferred starts run out: ProcessPendingStarts ends with none left, whatever the bursts it runs append, unless it
faults (R184). -/
def Obligations.DeferredStartsRunOut : Prop :=
  ∀ s t : State, processPendingStarts s = .ok t → t.pendingStarts = []

/-! ## The IPC FIFOs (43_ipc_fifo.md) -/

/-- O54. SIF.PUSH appends the word and SIF.POP takes and answers the oldest. Nothing else changes when the channel at the
other end does not start; a Waiting normal-mode channel whose line the command raises runs its burst at once: the word pushed
goes through the empty FIFO to the consumer's memory, and the producer fills the room. A full FIFO refuses the push and an
empty one the pop, with the model's FIFO number in the record (log 17). A DMA_COST[SUB] of `2 ^ 32` or more is the model's to
convert (log 22) (R167, R172 to R175, R184, R222, R223, R226 to
R228). -/
def Obligations.DebugPortPushesAndPops : Prop :=
  ∀ (d : Dir) (w : Word) (s : State), s.cfg.Valid → s.pendingStarts = [] →
    let asleep (p : Side × Chan) (t : State) : Prop := running t p.1 p.2 = true ∨ gate t p.1 p.2 = false
    let p := producerOf s.cfg d
    let q := consumerOf s.cfg d
    let ready (p : Side × Chan) (toMemory : Bool) : Prop :=
      active s p.1 p.2 = true ∧ running s p.1 p.2 = false ∧ engineEnabled s p.1 = true ∧
      priorityAllows s p.1 p.2 = true ∧ chained s p.1 p.2 = false ∧ toMem s p.1 p.2 = toMemory ∧
      (s.chan p.1 p.2).rem ≠ 0 ∧ s.now.toInt + burstCost s.cfg p.1 ≤ 2 ^ 63 - 1
    (Accepted (.sifPush d w) s → (s.fifo d).length < s.cfg.fifoCap → asleep q (s.setFifo d (s.fifo d ++ [w])) →
      exec (.sifPush d w) s = .next { s.setFifo d (s.fifo d ++ [w]) with answer := none }) ∧
    (Accepted (.sifPush d w) s → s.fifo d = [] → ready q true → asleep p s →
      let ea := effectiveAddr s.cfg q.1 (s.chan q.1 q.2).madr
      exec (.sifPush d w) s = .next
        { burstDone q.1 q.2 1 (s.setMem (s.mem.writeWord ea.1 ea.2 w)) with answer := none }) ∧
    (Accepted (.sifPush d w) s → (s.fifo d).length = s.cfg.fifoCap →
      exec (.sifPush d w) s = .next (takeFault .fifoOverflow [dirCode d, w.setWidth 64] s)) ∧
    (∀ x rest, Accepted (.sifPop d) s → s.fifo d = x :: rest → asleep p (s.setFifo d rest) →
      exec (.sifPop d) s = .next { s.setFifo d rest with answer := some (x.setWidth 64) }) ∧
    (∀ x rest, Accepted (.sifPop d) s → s.fifo d = x :: rest → rest.length + 1 = s.cfg.lwm → ready p false →
      let n := min s.cfg.burstCap (min (s.chan p.1 p.2).rem.toNat (s.cfg.fifoCap - rest.length))
      let full := rest ++ wordsFrom s.cfg p.1 s.mem (s.chan p.1 p.2).madr n
      asleep q (s.setFifo d full) →
      exec (.sifPop d) s = .next { burstDone p.1 p.2 n (s.setFifo d full) with answer := some (x.setWidth 64) }) ∧
    (Accepted (.sifPop d) s → s.fifo d = [] →
      exec (.sifPop d) s = .next (takeFault .fifoUnderflow [dirCode d] s))

/-- O55. A FIFO keeps order and values, and drops, doubles and merges nothing (R224): over any sequence of pushes and pops,
the words that left and then those still there are the words that were there and then those pushed, and the other FIFO does
not change. And with room for them, `ws` can all be pushed and everything then popped. -/
def Obligations.FifoKeepsOrder : Prop :=
  ∀ (d : Dir) (s : State), s.cfg.Valid →
    (∀ (ops : List (Option Word)) (t : State) (out : List Word), fifoSteps d ops s = .ok (out, t) →
      out ++ t.fifo d = s.fifo d ++ ops.filterMap id ∧ ∀ d', d' ≠ d → t.fifo d' = s.fifo d') ∧
    (∀ ws : List Word, (s.fifo d).length + ws.length ≤ s.cfg.fifoCap →
      ∃ t, fifoSteps d (ws.map some ++ List.replicate ((s.fifo d).length + ws.length) none) s = .ok (s.fifo d ++ ws, t))

/-- O56. Starting a FIFO's producer delivers a block that fits one burst and the empty FIFO: the Waiting consumer at the other
end takes every word, in order, into its side's memory, and the FIFO ends empty. A DMA_COST[SUB] of `2 ^ 32` or more is the
model's to convert (log 22) (R167, R172 to R175, R184, R226, R230). -/
def Obligations.ProducerStartDeliversBlock : Prop :=
  ∀ (d : Dir) (v : Word) (s : State),
    let p := producerOf s.cfg d
    let q := consumerOf s.cfg d
    let w := v &&& chcrMask p.1
    let n := startCount s.cfg p.1 w (s.chan p.1 p.2).cnt
    let u := started p.1 p.2 w s
    s.cfg.Valid → (∀ sd, (s.dma sd).chans.length = s.cfg.nch sd) → s.pendingStarts = [] → s.fifo d = [] →
    Accepted (.dmaWr p.1 p.2 .chcr v) s → active s p.1 p.2 = false → strOf p.1 v = true →
    StartChecks p.1 p.2 w s → chainOf p.1 w = false →
    n ≤ s.cfg.burstCap → n ≤ s.cfg.fifoCap →
    engineEnabled s p.1 = true → priorityAllows s p.1 p.2 = true → running s p.1 p.2 = false →
    active s q.1 q.2 = true → chained s q.1 q.2 = false → toMem s q.1 q.2 = true →
    engineEnabled s q.1 = true → priorityAllows s q.1 q.2 = true → running s q.1 q.2 = false →
    n ≤ (s.chan q.1 q.2).rem.toNat →
    s.now.toInt + burstCost s.cfg .main ≤ 2 ^ 63 - 1 → s.now.toInt + burstCost s.cfg .sub ≤ 2 ^ 63 - 1 →
    ∃ t, exec (.dmaWr p.1 p.2 .chcr v) s = .next t ∧ t.phase = s.phase ∧
      t.fifo d = [] ∧ t.pendingStarts = [] ∧
      t.mem = storeWords s.cfg q.1 (s.chan q.1 q.2).madr (wordsFrom s.cfg p.1 s.mem (s.chan p.1 p.2).madr n) s.mem ∧
      t.chan p.1 p.2 = burstChannel s.cfg p.1 n (u.chan p.1 p.2) ∧
      t.chan q.1 q.2 = burstChannel s.cfg q.1 n (s.chan q.1 q.2) ∧
      running t p.1 p.2 = true ∧ running t q.1 q.2 = true

/-! ## The interrupt controllers (44_interrupt.md) -/

/-- O57. INT.RAISE, INT.ACK, INT.WMASK, INT.WCTRL and INT.RCTRL change the one field their rule names; INT.RCTRL answers
the master enable and clears it on the secondary side only (R243 to R247, R250, R251). -/
def Obligations.InterruptWrites : Prop :=
  ∀ (sd : Side) (src : BitVec 5) (v : Word) (s : State),
    let q := s.intc sd
    let ends (i : Instr) (q : IntCtl) (a : Option DWord) : Prop :=
      Accepted i s → exec i s = .next { s.setIntc sd q with answer := a }
    ends (.intRaise sd src) { q with stat := q.stat ||| ((1 : Word) <<< src.toNat) } none ∧
    ends (.intAck sd v) { q with stat := q.stat &&& ~~~v } none ∧
    ends (.intWctrl sd v) { q with master := v.getLsbD 0 } none ∧
    ends (.intRctrl sd) { q with master := q.master && (sd == .main) } (some (if q.master then 1 else 0)) ∧
    (sd = .main → ends (.intWmask sd v) { q with mask := q.mask ^^^ v } none) ∧
    (sd = .sub → s.cfg.subMaskWrite = .or → ends (.intWmask sd v) { q with mask := q.mask ||| v } none) ∧
    (sd = .sub → s.cfg.subMaskWrite = .store → ends (.intWmask sd v) { q with mask := v } none)

/-- O58. INT.RSTAT, INT.RMASK and INT.PEND answer and change nothing else; the pending line is the level of R43 (R43,
R248, R249, R252). -/
def Obligations.InterruptReads : Prop :=
  ∀ (sd : Side) (s : State),
    let q := s.intc sd
    (Accepted (.intRstat sd) s → exec (.intRstat sd) s = .next { s with answer := some (q.stat.setWidth 64) }) ∧
    (Accepted (.intRmask sd) s → exec (.intRmask sd) s = .next { s with answer := some (q.mask.setWidth 64) }) ∧
    (Accepted (.intPend sd) s → exec (.intPend sd) s = .next
      { s with answer := some (if (q.stat &&& q.mask) ≠ 0 ∧ q.master = true then 1 else 0) })

/-- O59. The main-side mask write toggles, so two identical writes cancel and writing 0 changes nothing (R245). -/
def Obligations.MainMaskWriteToggles : Prop :=
  ∀ (v : Word) (s : State), Accepted (.intWmask .main v) s →
    ∃ t, exec (.intWmask .main v) s = .next t ∧ t.intMain = { s.intMain with mask := s.intMain.mask ^^^ v } ∧
      exec (.intWmask .main v) t = .next { s with answer := none } ∧
      (v = 0 → t = { s with answer := none })

/-! ## Memory (20_memory.md) -/

/-- O60. A word is four bytes, the least significant at the lowest address: a word written reads back, byte `j` of it
stands at `a + j`, and every other byte of every space reads after the write as it read before. A channel's address reaches its
space masked, with bit 31 choosing the scratchpad on the main side, and advances within its stored field: bit 31 kept and 31
bits wrapping on the main side, 24 bits on the secondary side (R33, R34, R72, R73, R75). -/
def Obligations.MemoryWordsAndAddresses : Prop :=
  (∀ (before : Memory) (sp : Space) (a : Nat) (w : Word), before.wf = true →
    let after := before.writeWord sp a w
    after.wf = true ∧ after.readWord sp a = w ∧
    (∀ j < 4, after.readByte sp (a + j) = w.extractLsb' (8 * j) 8) ∧
    (∀ sp' b, sp' ≠ sp ∨ b < a ∨ a + 4 ≤ b → after.readByte sp' b = before.readByte sp' b)) ∧
  (∀ (p : Params) (v : Word) (k : Nat),
    effectiveAddr p .main v = (if 2 ^ 31 ≤ v.toNat then (.mainSpr, v.toNat % 2 ^ 31 &&& p.sprMask.toNat)
      else (.mainRam, v.toNat % 2 ^ 31 &&& p.mainRamMask.toNat)) ∧
    effectiveAddr p .sub v = (.subRam, v.toNat &&& p.subRamMask.toNat) ∧
    (advanceAddr .main v k).toNat = v.toNat / 2 ^ 31 * 2 ^ 31 + (v.toNat % 2 ^ 31 + k) % 2 ^ 31 ∧
    (advanceAddr .sub v k).toNat = (v.toNat + k) % 2 ^ 24)
end

