-- ==== Sys2Proof/Laws/State.lean ====
section
/-! SUPPORT. One lemma per field per named update of the state, true by `rfl` and tagged `@[simp]`, and what the indexed
reads give after an indexed write. No later proof unfolds a record update. -/

namespace Sys2Proof.Machine

variable (s : State)

/-! ## setDma -/

@[simp] theorem setDma_cfg (sd : Side) (e : Engine) : (s.setDma sd e).cfg = s.cfg := rfl
@[simp] theorem setDma_phase (sd : Side) (e : Engine) : (s.setDma sd e).phase = s.phase := rfl
@[simp] theorem setDma_tick (sd : Side) (e : Engine) : (s.setDma sd e).tick = s.tick := rfl
@[simp] theorem setDma_fault (sd : Side) (e : Engine) : (s.setDma sd e).fault = s.fault := rfl
@[simp] theorem setDma_now (sd : Side) (e : Engine) : (s.setDma sd e).now = s.now := rfl
@[simp] theorem setDma_seq (sd : Side) (e : Engine) : (s.setDma sd e).seq = s.seq := rfl
@[simp] theorem setDma_handlers (sd : Side) (e : Engine) : (s.setDma sd e).handlers = s.handlers := rfl
@[simp] theorem setDma_nh (sd : Side) (e : Engine) : (s.setDma sd e).nh = s.nh := rfl
@[simp] theorem setDma_queue (sd : Side) (e : Engine) : (s.setDma sd e).queue = s.queue := rfl
@[simp] theorem setDma_acc (sd : Side) (e : Engine) : (s.setDma sd e).acc = s.acc := rfl
@[simp] theorem setDma_pendingStarts (sd : Side) (e : Engine) : (s.setDma sd e).pendingStarts = s.pendingStarts := rfl
@[simp] theorem setDma_sif0 (sd : Side) (e : Engine) : (s.setDma sd e).sif0 = s.sif0 := rfl
@[simp] theorem setDma_sif1 (sd : Side) (e : Engine) : (s.setDma sd e).sif1 = s.sif1 := rfl
@[simp] theorem setDma_intMain (sd : Side) (e : Engine) : (s.setDma sd e).intMain = s.intMain := rfl
@[simp] theorem setDma_intSub (sd : Side) (e : Engine) : (s.setDma sd e).intSub = s.intSub := rfl
@[simp] theorem setDma_mem (sd : Side) (e : Engine) : (s.setDma sd e).mem = s.mem := rfl
@[simp] theorem setDma_answer (sd : Side) (e : Engine) : (s.setDma sd e).answer = s.answer := rfl
@[simp] theorem setDma_agenda (sd : Side) (e : Engine) : (s.setDma sd e).agenda = s.agenda := rfl
@[simp] theorem setDma_agents (sd : Side) (e : Engine) : (s.setDma sd e).agents = s.agents := rfl
@[simp] theorem setDma_intc (sd : Side) (e : Engine) (x : Side) : (s.setDma sd e).intc x = s.intc x := by cases x <;> rfl
@[simp] theorem setDma_fifo (sd : Side) (e : Engine) (x : Dir) : (s.setDma sd e).fifo x = s.fifo x := by cases x <;> rfl

/-! ## setChan -/

@[simp] theorem setChan_cfg (sd : Side) (c : Chan) (ch : Channel) : (s.setChan sd c ch).cfg = s.cfg := rfl
@[simp] theorem setChan_phase (sd : Side) (c : Chan) (ch : Channel) : (s.setChan sd c ch).phase = s.phase := rfl
@[simp] theorem setChan_tick (sd : Side) (c : Chan) (ch : Channel) : (s.setChan sd c ch).tick = s.tick := rfl
@[simp] theorem setChan_fault (sd : Side) (c : Chan) (ch : Channel) : (s.setChan sd c ch).fault = s.fault := rfl
@[simp] theorem setChan_now (sd : Side) (c : Chan) (ch : Channel) : (s.setChan sd c ch).now = s.now := rfl
@[simp] theorem setChan_seq (sd : Side) (c : Chan) (ch : Channel) : (s.setChan sd c ch).seq = s.seq := rfl
@[simp] theorem setChan_handlers (sd : Side) (c : Chan) (ch : Channel) : (s.setChan sd c ch).handlers = s.handlers := rfl
@[simp] theorem setChan_nh (sd : Side) (c : Chan) (ch : Channel) : (s.setChan sd c ch).nh = s.nh := rfl
@[simp] theorem setChan_queue (sd : Side) (c : Chan) (ch : Channel) : (s.setChan sd c ch).queue = s.queue := rfl
@[simp] theorem setChan_acc (sd : Side) (c : Chan) (ch : Channel) : (s.setChan sd c ch).acc = s.acc := rfl
@[simp] theorem setChan_pendingStarts (sd : Side) (c : Chan) (ch : Channel) : (s.setChan sd c ch).pendingStarts = s.pendingStarts := rfl
@[simp] theorem setChan_sif0 (sd : Side) (c : Chan) (ch : Channel) : (s.setChan sd c ch).sif0 = s.sif0 := rfl
@[simp] theorem setChan_sif1 (sd : Side) (c : Chan) (ch : Channel) : (s.setChan sd c ch).sif1 = s.sif1 := rfl
@[simp] theorem setChan_intMain (sd : Side) (c : Chan) (ch : Channel) : (s.setChan sd c ch).intMain = s.intMain := rfl
@[simp] theorem setChan_intSub (sd : Side) (c : Chan) (ch : Channel) : (s.setChan sd c ch).intSub = s.intSub := rfl
@[simp] theorem setChan_mem (sd : Side) (c : Chan) (ch : Channel) : (s.setChan sd c ch).mem = s.mem := rfl
@[simp] theorem setChan_answer (sd : Side) (c : Chan) (ch : Channel) : (s.setChan sd c ch).answer = s.answer := rfl
@[simp] theorem setChan_agenda (sd : Side) (c : Chan) (ch : Channel) : (s.setChan sd c ch).agenda = s.agenda := rfl
@[simp] theorem setChan_agents (sd : Side) (c : Chan) (ch : Channel) : (s.setChan sd c ch).agents = s.agents := rfl
@[simp] theorem setChan_intc (sd : Side) (c : Chan) (ch : Channel) (x : Side) : (s.setChan sd c ch).intc x = s.intc x := by cases x <;> rfl
@[simp] theorem setChan_fifo (sd : Side) (c : Chan) (ch : Channel) (x : Dir) : (s.setChan sd c ch).fifo x = s.fifo x := by cases x <;> rfl

/-! ## setIntc -/

@[simp] theorem setIntc_cfg (sd : Side) (q : IntCtl) : (s.setIntc sd q).cfg = s.cfg := rfl
@[simp] theorem setIntc_phase (sd : Side) (q : IntCtl) : (s.setIntc sd q).phase = s.phase := rfl
@[simp] theorem setIntc_tick (sd : Side) (q : IntCtl) : (s.setIntc sd q).tick = s.tick := rfl
@[simp] theorem setIntc_fault (sd : Side) (q : IntCtl) : (s.setIntc sd q).fault = s.fault := rfl
@[simp] theorem setIntc_now (sd : Side) (q : IntCtl) : (s.setIntc sd q).now = s.now := rfl
@[simp] theorem setIntc_seq (sd : Side) (q : IntCtl) : (s.setIntc sd q).seq = s.seq := rfl
@[simp] theorem setIntc_handlers (sd : Side) (q : IntCtl) : (s.setIntc sd q).handlers = s.handlers := rfl
@[simp] theorem setIntc_nh (sd : Side) (q : IntCtl) : (s.setIntc sd q).nh = s.nh := rfl
@[simp] theorem setIntc_queue (sd : Side) (q : IntCtl) : (s.setIntc sd q).queue = s.queue := rfl
@[simp] theorem setIntc_acc (sd : Side) (q : IntCtl) : (s.setIntc sd q).acc = s.acc := rfl
@[simp] theorem setIntc_dmaMain (sd : Side) (q : IntCtl) : (s.setIntc sd q).dmaMain = s.dmaMain := rfl
@[simp] theorem setIntc_dmaSub (sd : Side) (q : IntCtl) : (s.setIntc sd q).dmaSub = s.dmaSub := rfl
@[simp] theorem setIntc_pendingStarts (sd : Side) (q : IntCtl) : (s.setIntc sd q).pendingStarts = s.pendingStarts := rfl
@[simp] theorem setIntc_sif0 (sd : Side) (q : IntCtl) : (s.setIntc sd q).sif0 = s.sif0 := rfl
@[simp] theorem setIntc_sif1 (sd : Side) (q : IntCtl) : (s.setIntc sd q).sif1 = s.sif1 := rfl
@[simp] theorem setIntc_mem (sd : Side) (q : IntCtl) : (s.setIntc sd q).mem = s.mem := rfl
@[simp] theorem setIntc_answer (sd : Side) (q : IntCtl) : (s.setIntc sd q).answer = s.answer := rfl
@[simp] theorem setIntc_agenda (sd : Side) (q : IntCtl) : (s.setIntc sd q).agenda = s.agenda := rfl
@[simp] theorem setIntc_agents (sd : Side) (q : IntCtl) : (s.setIntc sd q).agents = s.agents := rfl
@[simp] theorem setIntc_dma (sd : Side) (q : IntCtl) (x : Side) : (s.setIntc sd q).dma x = s.dma x := by cases x <;> rfl
@[simp] theorem setIntc_fifo (sd : Side) (q : IntCtl) (x : Dir) : (s.setIntc sd q).fifo x = s.fifo x := by cases x <;> rfl
@[simp] theorem setIntc_chan (sd : Side) (q : IntCtl) (x : Side) (n : Chan) : (s.setIntc sd q).chan x n = s.chan x n := by cases x <;> rfl

/-! ## setFifo -/

@[simp] theorem setFifo_cfg (d : Dir) (q : List Word) : (s.setFifo d q).cfg = s.cfg := rfl
@[simp] theorem setFifo_phase (d : Dir) (q : List Word) : (s.setFifo d q).phase = s.phase := rfl
@[simp] theorem setFifo_tick (d : Dir) (q : List Word) : (s.setFifo d q).tick = s.tick := rfl
@[simp] theorem setFifo_fault (d : Dir) (q : List Word) : (s.setFifo d q).fault = s.fault := rfl
@[simp] theorem setFifo_now (d : Dir) (q : List Word) : (s.setFifo d q).now = s.now := rfl
@[simp] theorem setFifo_seq (d : Dir) (q : List Word) : (s.setFifo d q).seq = s.seq := rfl
@[simp] theorem setFifo_handlers (d : Dir) (q : List Word) : (s.setFifo d q).handlers = s.handlers := rfl
@[simp] theorem setFifo_nh (d : Dir) (q : List Word) : (s.setFifo d q).nh = s.nh := rfl
@[simp] theorem setFifo_queue (d : Dir) (q : List Word) : (s.setFifo d q).queue = s.queue := rfl
@[simp] theorem setFifo_acc (d : Dir) (q : List Word) : (s.setFifo d q).acc = s.acc := rfl
@[simp] theorem setFifo_dmaMain (d : Dir) (q : List Word) : (s.setFifo d q).dmaMain = s.dmaMain := rfl
@[simp] theorem setFifo_dmaSub (d : Dir) (q : List Word) : (s.setFifo d q).dmaSub = s.dmaSub := rfl
@[simp] theorem setFifo_pendingStarts (d : Dir) (q : List Word) : (s.setFifo d q).pendingStarts = s.pendingStarts := rfl
@[simp] theorem setFifo_intMain (d : Dir) (q : List Word) : (s.setFifo d q).intMain = s.intMain := rfl
@[simp] theorem setFifo_intSub (d : Dir) (q : List Word) : (s.setFifo d q).intSub = s.intSub := rfl
@[simp] theorem setFifo_mem (d : Dir) (q : List Word) : (s.setFifo d q).mem = s.mem := rfl
@[simp] theorem setFifo_answer (d : Dir) (q : List Word) : (s.setFifo d q).answer = s.answer := rfl
@[simp] theorem setFifo_agenda (d : Dir) (q : List Word) : (s.setFifo d q).agenda = s.agenda := rfl
@[simp] theorem setFifo_agents (d : Dir) (q : List Word) : (s.setFifo d q).agents = s.agents := rfl
@[simp] theorem setFifo_dma (d : Dir) (q : List Word) (x : Side) : (s.setFifo d q).dma x = s.dma x := by cases x <;> rfl
@[simp] theorem setFifo_intc (d : Dir) (q : List Word) (x : Side) : (s.setFifo d q).intc x = s.intc x := by cases x <;> rfl
@[simp] theorem setFifo_chan (d : Dir) (q : List Word) (x : Side) (n : Chan) : (s.setFifo d q).chan x n = s.chan x n := by cases x <;> rfl

/-! ## setMem -/

@[simp] theorem setMem_cfg (m : Memory) : (s.setMem m).cfg = s.cfg := rfl
@[simp] theorem setMem_phase (m : Memory) : (s.setMem m).phase = s.phase := rfl
@[simp] theorem setMem_tick (m : Memory) : (s.setMem m).tick = s.tick := rfl
@[simp] theorem setMem_fault (m : Memory) : (s.setMem m).fault = s.fault := rfl
@[simp] theorem setMem_now (m : Memory) : (s.setMem m).now = s.now := rfl
@[simp] theorem setMem_seq (m : Memory) : (s.setMem m).seq = s.seq := rfl
@[simp] theorem setMem_handlers (m : Memory) : (s.setMem m).handlers = s.handlers := rfl
@[simp] theorem setMem_nh (m : Memory) : (s.setMem m).nh = s.nh := rfl
@[simp] theorem setMem_queue (m : Memory) : (s.setMem m).queue = s.queue := rfl
@[simp] theorem setMem_acc (m : Memory) : (s.setMem m).acc = s.acc := rfl
@[simp] theorem setMem_dmaMain (m : Memory) : (s.setMem m).dmaMain = s.dmaMain := rfl
@[simp] theorem setMem_dmaSub (m : Memory) : (s.setMem m).dmaSub = s.dmaSub := rfl
@[simp] theorem setMem_pendingStarts (m : Memory) : (s.setMem m).pendingStarts = s.pendingStarts := rfl
@[simp] theorem setMem_sif0 (m : Memory) : (s.setMem m).sif0 = s.sif0 := rfl
@[simp] theorem setMem_sif1 (m : Memory) : (s.setMem m).sif1 = s.sif1 := rfl
@[simp] theorem setMem_intMain (m : Memory) : (s.setMem m).intMain = s.intMain := rfl
@[simp] theorem setMem_intSub (m : Memory) : (s.setMem m).intSub = s.intSub := rfl
@[simp] theorem setMem_answer (m : Memory) : (s.setMem m).answer = s.answer := rfl
@[simp] theorem setMem_agenda (m : Memory) : (s.setMem m).agenda = s.agenda := rfl
@[simp] theorem setMem_agents (m : Memory) : (s.setMem m).agents = s.agents := rfl
@[simp] theorem setMem_dma (m : Memory) (x : Side) : (s.setMem m).dma x = s.dma x := by cases x <;> rfl
@[simp] theorem setMem_intc (m : Memory) (x : Side) : (s.setMem m).intc x = s.intc x := by cases x <;> rfl
@[simp] theorem setMem_fifo (m : Memory) (x : Dir) : (s.setMem m).fifo x = s.fifo x := by cases x <;> rfl
@[simp] theorem setMem_chan (m : Memory) (x : Side) (n : Chan) : (s.setMem m).chan x n = s.chan x n := by cases x <;> rfl
@[simp] theorem setMem_mem (m : Memory) : (s.setMem m).mem = m := rfl

/-! ## setAgents -/

@[simp] theorem setAgents_cfg (g : Agents) : (s.setAgents g).cfg = s.cfg := rfl
@[simp] theorem setAgents_phase (g : Agents) : (s.setAgents g).phase = s.phase := rfl
@[simp] theorem setAgents_tick (g : Agents) : (s.setAgents g).tick = s.tick := rfl
@[simp] theorem setAgents_fault (g : Agents) : (s.setAgents g).fault = s.fault := rfl
@[simp] theorem setAgents_now (g : Agents) : (s.setAgents g).now = s.now := rfl
@[simp] theorem setAgents_seq (g : Agents) : (s.setAgents g).seq = s.seq := rfl
@[simp] theorem setAgents_handlers (g : Agents) : (s.setAgents g).handlers = s.handlers := rfl
@[simp] theorem setAgents_nh (g : Agents) : (s.setAgents g).nh = s.nh := rfl
@[simp] theorem setAgents_queue (g : Agents) : (s.setAgents g).queue = s.queue := rfl
@[simp] theorem setAgents_acc (g : Agents) : (s.setAgents g).acc = s.acc := rfl
@[simp] theorem setAgents_dmaMain (g : Agents) : (s.setAgents g).dmaMain = s.dmaMain := rfl
@[simp] theorem setAgents_dmaSub (g : Agents) : (s.setAgents g).dmaSub = s.dmaSub := rfl
@[simp] theorem setAgents_pendingStarts (g : Agents) : (s.setAgents g).pendingStarts = s.pendingStarts := rfl
@[simp] theorem setAgents_sif0 (g : Agents) : (s.setAgents g).sif0 = s.sif0 := rfl
@[simp] theorem setAgents_sif1 (g : Agents) : (s.setAgents g).sif1 = s.sif1 := rfl
@[simp] theorem setAgents_intMain (g : Agents) : (s.setAgents g).intMain = s.intMain := rfl
@[simp] theorem setAgents_intSub (g : Agents) : (s.setAgents g).intSub = s.intSub := rfl
@[simp] theorem setAgents_mem (g : Agents) : (s.setAgents g).mem = s.mem := rfl
@[simp] theorem setAgents_answer (g : Agents) : (s.setAgents g).answer = s.answer := rfl
@[simp] theorem setAgents_agenda (g : Agents) : (s.setAgents g).agenda = s.agenda := rfl
@[simp] theorem setAgents_dma (g : Agents) (x : Side) : (s.setAgents g).dma x = s.dma x := by cases x <;> rfl
@[simp] theorem setAgents_intc (g : Agents) (x : Side) : (s.setAgents g).intc x = s.intc x := by cases x <;> rfl
@[simp] theorem setAgents_fifo (g : Agents) (x : Dir) : (s.setAgents g).fifo x = s.fifo x := by cases x <;> rfl
@[simp] theorem setAgents_chan (g : Agents) (x : Side) (n : Chan) : (s.setAgents g).chan x n = s.chan x n := by cases x <;> rfl
@[simp] theorem setAgents_agents (g : Agents) : (s.setAgents g).agents = g := rfl

/-! ## setAgenda -/

@[simp] theorem setAgenda_cfg (ts : List Task) : (s.setAgenda ts).cfg = s.cfg := rfl
@[simp] theorem setAgenda_phase (ts : List Task) : (s.setAgenda ts).phase = s.phase := rfl
@[simp] theorem setAgenda_tick (ts : List Task) : (s.setAgenda ts).tick = s.tick := rfl
@[simp] theorem setAgenda_fault (ts : List Task) : (s.setAgenda ts).fault = s.fault := rfl
@[simp] theorem setAgenda_now (ts : List Task) : (s.setAgenda ts).now = s.now := rfl
@[simp] theorem setAgenda_seq (ts : List Task) : (s.setAgenda ts).seq = s.seq := rfl
@[simp] theorem setAgenda_handlers (ts : List Task) : (s.setAgenda ts).handlers = s.handlers := rfl
@[simp] theorem setAgenda_nh (ts : List Task) : (s.setAgenda ts).nh = s.nh := rfl
@[simp] theorem setAgenda_queue (ts : List Task) : (s.setAgenda ts).queue = s.queue := rfl
@[simp] theorem setAgenda_acc (ts : List Task) : (s.setAgenda ts).acc = s.acc := rfl
@[simp] theorem setAgenda_dmaMain (ts : List Task) : (s.setAgenda ts).dmaMain = s.dmaMain := rfl
@[simp] theorem setAgenda_dmaSub (ts : List Task) : (s.setAgenda ts).dmaSub = s.dmaSub := rfl
@[simp] theorem setAgenda_pendingStarts (ts : List Task) : (s.setAgenda ts).pendingStarts = s.pendingStarts := rfl
@[simp] theorem setAgenda_sif0 (ts : List Task) : (s.setAgenda ts).sif0 = s.sif0 := rfl
@[simp] theorem setAgenda_sif1 (ts : List Task) : (s.setAgenda ts).sif1 = s.sif1 := rfl
@[simp] theorem setAgenda_intMain (ts : List Task) : (s.setAgenda ts).intMain = s.intMain := rfl
@[simp] theorem setAgenda_intSub (ts : List Task) : (s.setAgenda ts).intSub = s.intSub := rfl
@[simp] theorem setAgenda_mem (ts : List Task) : (s.setAgenda ts).mem = s.mem := rfl
@[simp] theorem setAgenda_answer (ts : List Task) : (s.setAgenda ts).answer = s.answer := rfl
@[simp] theorem setAgenda_agents (ts : List Task) : (s.setAgenda ts).agents = s.agents := rfl
@[simp] theorem setAgenda_dma (ts : List Task) (x : Side) : (s.setAgenda ts).dma x = s.dma x := by cases x <;> rfl
@[simp] theorem setAgenda_intc (ts : List Task) (x : Side) : (s.setAgenda ts).intc x = s.intc x := by cases x <;> rfl
@[simp] theorem setAgenda_fifo (ts : List Task) (x : Dir) : (s.setAgenda ts).fifo x = s.fifo x := by cases x <;> rfl
@[simp] theorem setAgenda_chan (ts : List Task) (x : Side) (n : Chan) : (s.setAgenda ts).chan x n = s.chan x n := by cases x <;> rfl
@[simp] theorem setAgenda_agenda (ts : List Task) : (s.setAgenda ts).agenda = ts := rfl

/-! ## reply -/

@[simp] theorem reply_cfg (v : DWord) : (reply v s).cfg = s.cfg := rfl
@[simp] theorem reply_phase (v : DWord) : (reply v s).phase = s.phase := rfl
@[simp] theorem reply_tick (v : DWord) : (reply v s).tick = s.tick := rfl
@[simp] theorem reply_fault (v : DWord) : (reply v s).fault = s.fault := rfl
@[simp] theorem reply_now (v : DWord) : (reply v s).now = s.now := rfl
@[simp] theorem reply_seq (v : DWord) : (reply v s).seq = s.seq := rfl
@[simp] theorem reply_handlers (v : DWord) : (reply v s).handlers = s.handlers := rfl
@[simp] theorem reply_nh (v : DWord) : (reply v s).nh = s.nh := rfl
@[simp] theorem reply_queue (v : DWord) : (reply v s).queue = s.queue := rfl
@[simp] theorem reply_acc (v : DWord) : (reply v s).acc = s.acc := rfl
@[simp] theorem reply_dmaMain (v : DWord) : (reply v s).dmaMain = s.dmaMain := rfl
@[simp] theorem reply_dmaSub (v : DWord) : (reply v s).dmaSub = s.dmaSub := rfl
@[simp] theorem reply_pendingStarts (v : DWord) : (reply v s).pendingStarts = s.pendingStarts := rfl
@[simp] theorem reply_sif0 (v : DWord) : (reply v s).sif0 = s.sif0 := rfl
@[simp] theorem reply_sif1 (v : DWord) : (reply v s).sif1 = s.sif1 := rfl
@[simp] theorem reply_intMain (v : DWord) : (reply v s).intMain = s.intMain := rfl
@[simp] theorem reply_intSub (v : DWord) : (reply v s).intSub = s.intSub := rfl
@[simp] theorem reply_mem (v : DWord) : (reply v s).mem = s.mem := rfl
@[simp] theorem reply_agenda (v : DWord) : (reply v s).agenda = s.agenda := rfl
@[simp] theorem reply_agents (v : DWord) : (reply v s).agents = s.agents := rfl
@[simp] theorem reply_dma (v : DWord) (x : Side) : (reply v s).dma x = s.dma x := by cases x <;> rfl
@[simp] theorem reply_intc (v : DWord) (x : Side) : (reply v s).intc x = s.intc x := by cases x <;> rfl
@[simp] theorem reply_fifo (v : DWord) (x : Dir) : (reply v s).fifo x = s.fifo x := by cases x <;> rfl
@[simp] theorem reply_chan (v : DWord) (x : Side) (n : Chan) : (reply v s).chan x n = s.chan x n := by cases x <;> rfl
@[simp] theorem reply_answer (v : DWord) : (reply v s).answer = some v := rfl

/-! ## replyWord -/

@[simp] theorem replyWord_cfg (w : Word) : (replyWord w s).cfg = s.cfg := rfl
@[simp] theorem replyWord_phase (w : Word) : (replyWord w s).phase = s.phase := rfl
@[simp] theorem replyWord_tick (w : Word) : (replyWord w s).tick = s.tick := rfl
@[simp] theorem replyWord_fault (w : Word) : (replyWord w s).fault = s.fault := rfl
@[simp] theorem replyWord_now (w : Word) : (replyWord w s).now = s.now := rfl
@[simp] theorem replyWord_seq (w : Word) : (replyWord w s).seq = s.seq := rfl
@[simp] theorem replyWord_handlers (w : Word) : (replyWord w s).handlers = s.handlers := rfl
@[simp] theorem replyWord_nh (w : Word) : (replyWord w s).nh = s.nh := rfl
@[simp] theorem replyWord_queue (w : Word) : (replyWord w s).queue = s.queue := rfl
@[simp] theorem replyWord_acc (w : Word) : (replyWord w s).acc = s.acc := rfl
@[simp] theorem replyWord_dmaMain (w : Word) : (replyWord w s).dmaMain = s.dmaMain := rfl
@[simp] theorem replyWord_dmaSub (w : Word) : (replyWord w s).dmaSub = s.dmaSub := rfl
@[simp] theorem replyWord_pendingStarts (w : Word) : (replyWord w s).pendingStarts = s.pendingStarts := rfl
@[simp] theorem replyWord_sif0 (w : Word) : (replyWord w s).sif0 = s.sif0 := rfl
@[simp] theorem replyWord_sif1 (w : Word) : (replyWord w s).sif1 = s.sif1 := rfl
@[simp] theorem replyWord_intMain (w : Word) : (replyWord w s).intMain = s.intMain := rfl
@[simp] theorem replyWord_intSub (w : Word) : (replyWord w s).intSub = s.intSub := rfl
@[simp] theorem replyWord_mem (w : Word) : (replyWord w s).mem = s.mem := rfl
@[simp] theorem replyWord_agenda (w : Word) : (replyWord w s).agenda = s.agenda := rfl
@[simp] theorem replyWord_agents (w : Word) : (replyWord w s).agents = s.agents := rfl
@[simp] theorem replyWord_dma (w : Word) (x : Side) : (replyWord w s).dma x = s.dma x := by cases x <;> rfl
@[simp] theorem replyWord_intc (w : Word) (x : Side) : (replyWord w s).intc x = s.intc x := by cases x <;> rfl
@[simp] theorem replyWord_fifo (w : Word) (x : Dir) : (replyWord w s).fifo x = s.fifo x := by cases x <;> rfl
@[simp] theorem replyWord_chan (w : Word) (x : Side) (n : Chan) : (replyWord w s).chan x n = s.chan x n := by cases x <;> rfl
@[simp] theorem replyWord_answer (w : Word) : (replyWord w s).answer = some (w.setWidth 64) := rfl

/-! ## takeFault -/

@[simp] theorem takeFault_cfg (k : FaultKind) (info : List DWord) : (takeFault k info s).cfg = s.cfg := rfl
@[simp] theorem takeFault_tick (k : FaultKind) (info : List DWord) : (takeFault k info s).tick = s.tick := rfl
@[simp] theorem takeFault_now (k : FaultKind) (info : List DWord) : (takeFault k info s).now = s.now := rfl
@[simp] theorem takeFault_seq (k : FaultKind) (info : List DWord) : (takeFault k info s).seq = s.seq := rfl
@[simp] theorem takeFault_handlers (k : FaultKind) (info : List DWord) : (takeFault k info s).handlers = s.handlers := rfl
@[simp] theorem takeFault_nh (k : FaultKind) (info : List DWord) : (takeFault k info s).nh = s.nh := rfl
@[simp] theorem takeFault_queue (k : FaultKind) (info : List DWord) : (takeFault k info s).queue = s.queue := rfl
@[simp] theorem takeFault_acc (k : FaultKind) (info : List DWord) : (takeFault k info s).acc = s.acc := rfl
@[simp] theorem takeFault_dmaMain (k : FaultKind) (info : List DWord) : (takeFault k info s).dmaMain = s.dmaMain := rfl
@[simp] theorem takeFault_dmaSub (k : FaultKind) (info : List DWord) : (takeFault k info s).dmaSub = s.dmaSub := rfl
@[simp] theorem takeFault_pendingStarts (k : FaultKind) (info : List DWord) : (takeFault k info s).pendingStarts = s.pendingStarts := rfl
@[simp] theorem takeFault_sif0 (k : FaultKind) (info : List DWord) : (takeFault k info s).sif0 = s.sif0 := rfl
@[simp] theorem takeFault_sif1 (k : FaultKind) (info : List DWord) : (takeFault k info s).sif1 = s.sif1 := rfl
@[simp] theorem takeFault_intMain (k : FaultKind) (info : List DWord) : (takeFault k info s).intMain = s.intMain := rfl
@[simp] theorem takeFault_intSub (k : FaultKind) (info : List DWord) : (takeFault k info s).intSub = s.intSub := rfl
@[simp] theorem takeFault_mem (k : FaultKind) (info : List DWord) : (takeFault k info s).mem = s.mem := rfl
@[simp] theorem takeFault_agents (k : FaultKind) (info : List DWord) : (takeFault k info s).agents = s.agents := rfl
@[simp] theorem takeFault_dma (k : FaultKind) (info : List DWord) (x : Side) : (takeFault k info s).dma x = s.dma x := by cases x <;> rfl
@[simp] theorem takeFault_intc (k : FaultKind) (info : List DWord) (x : Side) : (takeFault k info s).intc x = s.intc x := by cases x <;> rfl
@[simp] theorem takeFault_fifo (k : FaultKind) (info : List DWord) (x : Dir) : (takeFault k info s).fifo x = s.fifo x := by cases x <;> rfl
@[simp] theorem takeFault_chan (k : FaultKind) (info : List DWord) (x : Side) (n : Chan) : (takeFault k info s).chan x n = s.chan x n := by cases x <;> rfl

/-! ## endTask -/

@[simp] theorem endTask_cfg (ts : List Task) : (endTask ts s).cfg = s.cfg := rfl
@[simp] theorem endTask_phase (ts : List Task) : (endTask ts s).phase = s.phase := rfl
@[simp] theorem endTask_tick (ts : List Task) : (endTask ts s).tick = s.tick := rfl
@[simp] theorem endTask_fault (ts : List Task) : (endTask ts s).fault = s.fault := rfl
@[simp] theorem endTask_now (ts : List Task) : (endTask ts s).now = s.now := rfl
@[simp] theorem endTask_seq (ts : List Task) : (endTask ts s).seq = s.seq := rfl
@[simp] theorem endTask_handlers (ts : List Task) : (endTask ts s).handlers = s.handlers := rfl
@[simp] theorem endTask_nh (ts : List Task) : (endTask ts s).nh = s.nh := rfl
@[simp] theorem endTask_queue (ts : List Task) : (endTask ts s).queue = s.queue := rfl
@[simp] theorem endTask_acc (ts : List Task) : (endTask ts s).acc = s.acc := rfl
@[simp] theorem endTask_dmaMain (ts : List Task) : (endTask ts s).dmaMain = s.dmaMain := rfl
@[simp] theorem endTask_dmaSub (ts : List Task) : (endTask ts s).dmaSub = s.dmaSub := rfl
@[simp] theorem endTask_pendingStarts (ts : List Task) : (endTask ts s).pendingStarts = s.pendingStarts := rfl
@[simp] theorem endTask_sif0 (ts : List Task) : (endTask ts s).sif0 = s.sif0 := rfl
@[simp] theorem endTask_sif1 (ts : List Task) : (endTask ts s).sif1 = s.sif1 := rfl
@[simp] theorem endTask_intMain (ts : List Task) : (endTask ts s).intMain = s.intMain := rfl
@[simp] theorem endTask_intSub (ts : List Task) : (endTask ts s).intSub = s.intSub := rfl
@[simp] theorem endTask_mem (ts : List Task) : (endTask ts s).mem = s.mem := rfl
@[simp] theorem endTask_agents (ts : List Task) : (endTask ts s).agents = s.agents := rfl
@[simp] theorem endTask_dma (ts : List Task) (x : Side) : (endTask ts s).dma x = s.dma x := by cases x <;> rfl
@[simp] theorem endTask_intc (ts : List Task) (x : Side) : (endTask ts s).intc x = s.intc x := by cases x <;> rfl
@[simp] theorem endTask_fifo (ts : List Task) (x : Dir) : (endTask ts s).fifo x = s.fifo x := by cases x <;> rfl
@[simp] theorem endTask_chan (ts : List Task) (x : Side) (n : Chan) : (endTask ts s).chan x n = s.chan x n := by cases x <;> rfl

/-! ## clearAnswer -/

@[simp] theorem clearAnswer_cfg : (clearAnswer s).cfg = s.cfg := rfl
@[simp] theorem clearAnswer_phase : (clearAnswer s).phase = s.phase := rfl
@[simp] theorem clearAnswer_tick : (clearAnswer s).tick = s.tick := rfl
@[simp] theorem clearAnswer_fault : (clearAnswer s).fault = s.fault := rfl
@[simp] theorem clearAnswer_now : (clearAnswer s).now = s.now := rfl
@[simp] theorem clearAnswer_seq : (clearAnswer s).seq = s.seq := rfl
@[simp] theorem clearAnswer_handlers : (clearAnswer s).handlers = s.handlers := rfl
@[simp] theorem clearAnswer_nh : (clearAnswer s).nh = s.nh := rfl
@[simp] theorem clearAnswer_queue : (clearAnswer s).queue = s.queue := rfl
@[simp] theorem clearAnswer_acc : (clearAnswer s).acc = s.acc := rfl
@[simp] theorem clearAnswer_dmaMain : (clearAnswer s).dmaMain = s.dmaMain := rfl
@[simp] theorem clearAnswer_dmaSub : (clearAnswer s).dmaSub = s.dmaSub := rfl
@[simp] theorem clearAnswer_pendingStarts : (clearAnswer s).pendingStarts = s.pendingStarts := rfl
@[simp] theorem clearAnswer_sif0 : (clearAnswer s).sif0 = s.sif0 := rfl
@[simp] theorem clearAnswer_sif1 : (clearAnswer s).sif1 = s.sif1 := rfl
@[simp] theorem clearAnswer_intMain : (clearAnswer s).intMain = s.intMain := rfl
@[simp] theorem clearAnswer_intSub : (clearAnswer s).intSub = s.intSub := rfl
@[simp] theorem clearAnswer_mem : (clearAnswer s).mem = s.mem := rfl
@[simp] theorem clearAnswer_agenda : (clearAnswer s).agenda = s.agenda := rfl
@[simp] theorem clearAnswer_agents : (clearAnswer s).agents = s.agents := rfl
@[simp] theorem clearAnswer_dma (x : Side) : (clearAnswer s).dma x = s.dma x := by cases x <;> rfl
@[simp] theorem clearAnswer_chan (x : Side) (n : Chan) : (clearAnswer s).chan x n = s.chan x n := by cases x <;> rfl
@[simp] theorem clearAnswer_intc (x : Side) : (clearAnswer s).intc x = s.intc x := by cases x <;> rfl
@[simp] theorem clearAnswer_fifo (x : Dir) : (clearAnswer s).fifo x = s.fifo x := by cases x <;> rfl

/-! ## setPending -/

@[simp] theorem setPending_cfg (l : List (Side × Chan)) : (s.setPending l).cfg = s.cfg := rfl
@[simp] theorem setPending_phase (l : List (Side × Chan)) : (s.setPending l).phase = s.phase := rfl
@[simp] theorem setPending_tick (l : List (Side × Chan)) : (s.setPending l).tick = s.tick := rfl
@[simp] theorem setPending_fault (l : List (Side × Chan)) : (s.setPending l).fault = s.fault := rfl
@[simp] theorem setPending_now (l : List (Side × Chan)) : (s.setPending l).now = s.now := rfl
@[simp] theorem setPending_seq (l : List (Side × Chan)) : (s.setPending l).seq = s.seq := rfl
@[simp] theorem setPending_handlers (l : List (Side × Chan)) : (s.setPending l).handlers = s.handlers := rfl
@[simp] theorem setPending_nh (l : List (Side × Chan)) : (s.setPending l).nh = s.nh := rfl
@[simp] theorem setPending_queue (l : List (Side × Chan)) : (s.setPending l).queue = s.queue := rfl
@[simp] theorem setPending_acc (l : List (Side × Chan)) : (s.setPending l).acc = s.acc := rfl
@[simp] theorem setPending_dmaMain (l : List (Side × Chan)) : (s.setPending l).dmaMain = s.dmaMain := rfl
@[simp] theorem setPending_dmaSub (l : List (Side × Chan)) : (s.setPending l).dmaSub = s.dmaSub := rfl
@[simp] theorem setPending_sif0 (l : List (Side × Chan)) : (s.setPending l).sif0 = s.sif0 := rfl
@[simp] theorem setPending_sif1 (l : List (Side × Chan)) : (s.setPending l).sif1 = s.sif1 := rfl
@[simp] theorem setPending_intMain (l : List (Side × Chan)) : (s.setPending l).intMain = s.intMain := rfl
@[simp] theorem setPending_intSub (l : List (Side × Chan)) : (s.setPending l).intSub = s.intSub := rfl
@[simp] theorem setPending_mem (l : List (Side × Chan)) : (s.setPending l).mem = s.mem := rfl
@[simp] theorem setPending_answer (l : List (Side × Chan)) : (s.setPending l).answer = s.answer := rfl
@[simp] theorem setPending_agenda (l : List (Side × Chan)) : (s.setPending l).agenda = s.agenda := rfl
@[simp] theorem setPending_agents (l : List (Side × Chan)) : (s.setPending l).agents = s.agents := rfl
@[simp] theorem setPending_dma (l : List (Side × Chan)) (x : Side) : (s.setPending l).dma x = s.dma x := by cases x <;> rfl
@[simp] theorem setPending_chan (l : List (Side × Chan)) (x : Side) (n : Chan) : (s.setPending l).chan x n = s.chan x n := by cases x <;> rfl
@[simp] theorem setPending_intc (l : List (Side × Chan)) (x : Side) : (s.setPending l).intc x = s.intc x := by cases x <;> rfl
@[simp] theorem setPending_fifo (l : List (Side × Chan)) (x : Dir) : (s.setPending l).fifo x = s.fifo x := by cases x <;> rfl

/-! ## setQueue -/

@[simp] theorem setQueue_cfg (q : List Event) : (s.setQueue q).cfg = s.cfg := rfl
@[simp] theorem setQueue_phase (q : List Event) : (s.setQueue q).phase = s.phase := rfl
@[simp] theorem setQueue_tick (q : List Event) : (s.setQueue q).tick = s.tick := rfl
@[simp] theorem setQueue_fault (q : List Event) : (s.setQueue q).fault = s.fault := rfl
@[simp] theorem setQueue_now (q : List Event) : (s.setQueue q).now = s.now := rfl
@[simp] theorem setQueue_seq (q : List Event) : (s.setQueue q).seq = s.seq := rfl
@[simp] theorem setQueue_handlers (q : List Event) : (s.setQueue q).handlers = s.handlers := rfl
@[simp] theorem setQueue_nh (q : List Event) : (s.setQueue q).nh = s.nh := rfl
@[simp] theorem setQueue_acc (q : List Event) : (s.setQueue q).acc = s.acc := rfl
@[simp] theorem setQueue_dmaMain (q : List Event) : (s.setQueue q).dmaMain = s.dmaMain := rfl
@[simp] theorem setQueue_dmaSub (q : List Event) : (s.setQueue q).dmaSub = s.dmaSub := rfl
@[simp] theorem setQueue_pendingStarts (q : List Event) : (s.setQueue q).pendingStarts = s.pendingStarts := rfl
@[simp] theorem setQueue_sif0 (q : List Event) : (s.setQueue q).sif0 = s.sif0 := rfl
@[simp] theorem setQueue_sif1 (q : List Event) : (s.setQueue q).sif1 = s.sif1 := rfl
@[simp] theorem setQueue_intMain (q : List Event) : (s.setQueue q).intMain = s.intMain := rfl
@[simp] theorem setQueue_intSub (q : List Event) : (s.setQueue q).intSub = s.intSub := rfl
@[simp] theorem setQueue_mem (q : List Event) : (s.setQueue q).mem = s.mem := rfl
@[simp] theorem setQueue_answer (q : List Event) : (s.setQueue q).answer = s.answer := rfl
@[simp] theorem setQueue_agenda (q : List Event) : (s.setQueue q).agenda = s.agenda := rfl
@[simp] theorem setQueue_agents (q : List Event) : (s.setQueue q).agents = s.agents := rfl
@[simp] theorem setQueue_dma (q : List Event) (x : Side) : (s.setQueue q).dma x = s.dma x := by cases x <;> rfl
@[simp] theorem setQueue_chan (q : List Event) (x : Side) (n : Chan) : (s.setQueue q).chan x n = s.chan x n := by cases x <;> rfl
@[simp] theorem setQueue_intc (q : List Event) (x : Side) : (s.setQueue q).intc x = s.intc x := by cases x <;> rfl
@[simp] theorem setQueue_fifo (q : List Event) (x : Dir) : (s.setQueue q).fifo x = s.fifo x := by cases x <;> rfl

/-! ## putEvent -/

@[simp] theorem putEvent_cfg (e : Event) (q : List Event) : (putEvent e q s).cfg = s.cfg := rfl
@[simp] theorem putEvent_phase (e : Event) (q : List Event) : (putEvent e q s).phase = s.phase := rfl
@[simp] theorem putEvent_tick (e : Event) (q : List Event) : (putEvent e q s).tick = s.tick := rfl
@[simp] theorem putEvent_fault (e : Event) (q : List Event) : (putEvent e q s).fault = s.fault := rfl
@[simp] theorem putEvent_now (e : Event) (q : List Event) : (putEvent e q s).now = s.now := rfl
@[simp] theorem putEvent_handlers (e : Event) (q : List Event) : (putEvent e q s).handlers = s.handlers := rfl
@[simp] theorem putEvent_nh (e : Event) (q : List Event) : (putEvent e q s).nh = s.nh := rfl
@[simp] theorem putEvent_acc (e : Event) (q : List Event) : (putEvent e q s).acc = s.acc := rfl
@[simp] theorem putEvent_dmaMain (e : Event) (q : List Event) : (putEvent e q s).dmaMain = s.dmaMain := rfl
@[simp] theorem putEvent_dmaSub (e : Event) (q : List Event) : (putEvent e q s).dmaSub = s.dmaSub := rfl
@[simp] theorem putEvent_pendingStarts (e : Event) (q : List Event) : (putEvent e q s).pendingStarts = s.pendingStarts := rfl
@[simp] theorem putEvent_sif0 (e : Event) (q : List Event) : (putEvent e q s).sif0 = s.sif0 := rfl
@[simp] theorem putEvent_sif1 (e : Event) (q : List Event) : (putEvent e q s).sif1 = s.sif1 := rfl
@[simp] theorem putEvent_intMain (e : Event) (q : List Event) : (putEvent e q s).intMain = s.intMain := rfl
@[simp] theorem putEvent_intSub (e : Event) (q : List Event) : (putEvent e q s).intSub = s.intSub := rfl
@[simp] theorem putEvent_mem (e : Event) (q : List Event) : (putEvent e q s).mem = s.mem := rfl
@[simp] theorem putEvent_answer (e : Event) (q : List Event) : (putEvent e q s).answer = s.answer := rfl
@[simp] theorem putEvent_agenda (e : Event) (q : List Event) : (putEvent e q s).agenda = s.agenda := rfl
@[simp] theorem putEvent_agents (e : Event) (q : List Event) : (putEvent e q s).agents = s.agents := rfl
@[simp] theorem putEvent_dma (e : Event) (q : List Event) (x : Side) : (putEvent e q s).dma x = s.dma x := by cases x <;> rfl
@[simp] theorem putEvent_chan (e : Event) (q : List Event) (x : Side) (n : Chan) : (putEvent e q s).chan x n = s.chan x n := by cases x <;> rfl
@[simp] theorem putEvent_intc (e : Event) (q : List Event) (x : Side) : (putEvent e q s).intc x = s.intc x := by cases x <;> rfl
@[simp] theorem putEvent_fifo (e : Event) (q : List Event) (x : Dir) : (putEvent e q s).fifo x = s.fifo x := by cases x <;> rfl

/-! ## setNow -/

@[simp] theorem setNow_cfg (v : DWord) : (s.setNow v).cfg = s.cfg := rfl
@[simp] theorem setNow_phase (v : DWord) : (s.setNow v).phase = s.phase := rfl
@[simp] theorem setNow_tick (v : DWord) : (s.setNow v).tick = s.tick := rfl
@[simp] theorem setNow_fault (v : DWord) : (s.setNow v).fault = s.fault := rfl
@[simp] theorem setNow_seq (v : DWord) : (s.setNow v).seq = s.seq := rfl
@[simp] theorem setNow_handlers (v : DWord) : (s.setNow v).handlers = s.handlers := rfl
@[simp] theorem setNow_nh (v : DWord) : (s.setNow v).nh = s.nh := rfl
@[simp] theorem setNow_queue (v : DWord) : (s.setNow v).queue = s.queue := rfl
@[simp] theorem setNow_acc (v : DWord) : (s.setNow v).acc = s.acc := rfl
@[simp] theorem setNow_dmaMain (v : DWord) : (s.setNow v).dmaMain = s.dmaMain := rfl
@[simp] theorem setNow_dmaSub (v : DWord) : (s.setNow v).dmaSub = s.dmaSub := rfl
@[simp] theorem setNow_pendingStarts (v : DWord) : (s.setNow v).pendingStarts = s.pendingStarts := rfl
@[simp] theorem setNow_sif0 (v : DWord) : (s.setNow v).sif0 = s.sif0 := rfl
@[simp] theorem setNow_sif1 (v : DWord) : (s.setNow v).sif1 = s.sif1 := rfl
@[simp] theorem setNow_intMain (v : DWord) : (s.setNow v).intMain = s.intMain := rfl
@[simp] theorem setNow_intSub (v : DWord) : (s.setNow v).intSub = s.intSub := rfl
@[simp] theorem setNow_mem (v : DWord) : (s.setNow v).mem = s.mem := rfl
@[simp] theorem setNow_answer (v : DWord) : (s.setNow v).answer = s.answer := rfl
@[simp] theorem setNow_agenda (v : DWord) : (s.setNow v).agenda = s.agenda := rfl
@[simp] theorem setNow_agents (v : DWord) : (s.setNow v).agents = s.agents := rfl
@[simp] theorem setNow_dma (v : DWord) (x : Side) : (s.setNow v).dma x = s.dma x := by cases x <;> rfl
@[simp] theorem setNow_chan (v : DWord) (x : Side) (n : Chan) : (s.setNow v).chan x n = s.chan x n := by cases x <;> rfl
@[simp] theorem setNow_intc (v : DWord) (x : Side) : (s.setNow v).intc x = s.intc x := by cases x <;> rfl
@[simp] theorem setNow_fifo (v : DWord) (x : Dir) : (s.setNow v).fifo x = s.fifo x := by cases x <;> rfl

/-! ## setAcc -/

@[simp] theorem setAcc_cfg (r : Nat) : (s.setAcc r).cfg = s.cfg := rfl
@[simp] theorem setAcc_phase (r : Nat) : (s.setAcc r).phase = s.phase := rfl
@[simp] theorem setAcc_tick (r : Nat) : (s.setAcc r).tick = s.tick := rfl
@[simp] theorem setAcc_fault (r : Nat) : (s.setAcc r).fault = s.fault := rfl
@[simp] theorem setAcc_now (r : Nat) : (s.setAcc r).now = s.now := rfl
@[simp] theorem setAcc_seq (r : Nat) : (s.setAcc r).seq = s.seq := rfl
@[simp] theorem setAcc_handlers (r : Nat) : (s.setAcc r).handlers = s.handlers := rfl
@[simp] theorem setAcc_nh (r : Nat) : (s.setAcc r).nh = s.nh := rfl
@[simp] theorem setAcc_queue (r : Nat) : (s.setAcc r).queue = s.queue := rfl
@[simp] theorem setAcc_dmaMain (r : Nat) : (s.setAcc r).dmaMain = s.dmaMain := rfl
@[simp] theorem setAcc_dmaSub (r : Nat) : (s.setAcc r).dmaSub = s.dmaSub := rfl
@[simp] theorem setAcc_pendingStarts (r : Nat) : (s.setAcc r).pendingStarts = s.pendingStarts := rfl
@[simp] theorem setAcc_sif0 (r : Nat) : (s.setAcc r).sif0 = s.sif0 := rfl
@[simp] theorem setAcc_sif1 (r : Nat) : (s.setAcc r).sif1 = s.sif1 := rfl
@[simp] theorem setAcc_intMain (r : Nat) : (s.setAcc r).intMain = s.intMain := rfl
@[simp] theorem setAcc_intSub (r : Nat) : (s.setAcc r).intSub = s.intSub := rfl
@[simp] theorem setAcc_mem (r : Nat) : (s.setAcc r).mem = s.mem := rfl
@[simp] theorem setAcc_answer (r : Nat) : (s.setAcc r).answer = s.answer := rfl
@[simp] theorem setAcc_agenda (r : Nat) : (s.setAcc r).agenda = s.agenda := rfl
@[simp] theorem setAcc_agents (r : Nat) : (s.setAcc r).agents = s.agents := rfl
@[simp] theorem setAcc_dma (r : Nat) (x : Side) : (s.setAcc r).dma x = s.dma x := by cases x <;> rfl
@[simp] theorem setAcc_chan (r : Nat) (x : Side) (n : Chan) : (s.setAcc r).chan x n = s.chan x n := by cases x <;> rfl
@[simp] theorem setAcc_intc (r : Nat) (x : Side) : (s.setAcc r).intc x = s.intc x := by cases x <;> rfl
@[simp] theorem setAcc_fifo (r : Nat) (x : Dir) : (s.setAcc r).fifo x = s.fifo x := by cases x <;> rfl

/-! ## setPhase -/

@[simp] theorem setPhase_cfg (p : Phase) : (s.setPhase p).cfg = s.cfg := rfl
@[simp] theorem setPhase_tick (p : Phase) : (s.setPhase p).tick = s.tick := rfl
@[simp] theorem setPhase_fault (p : Phase) : (s.setPhase p).fault = s.fault := rfl
@[simp] theorem setPhase_now (p : Phase) : (s.setPhase p).now = s.now := rfl
@[simp] theorem setPhase_seq (p : Phase) : (s.setPhase p).seq = s.seq := rfl
@[simp] theorem setPhase_handlers (p : Phase) : (s.setPhase p).handlers = s.handlers := rfl
@[simp] theorem setPhase_nh (p : Phase) : (s.setPhase p).nh = s.nh := rfl
@[simp] theorem setPhase_queue (p : Phase) : (s.setPhase p).queue = s.queue := rfl
@[simp] theorem setPhase_acc (p : Phase) : (s.setPhase p).acc = s.acc := rfl
@[simp] theorem setPhase_dmaMain (p : Phase) : (s.setPhase p).dmaMain = s.dmaMain := rfl
@[simp] theorem setPhase_dmaSub (p : Phase) : (s.setPhase p).dmaSub = s.dmaSub := rfl
@[simp] theorem setPhase_pendingStarts (p : Phase) : (s.setPhase p).pendingStarts = s.pendingStarts := rfl
@[simp] theorem setPhase_sif0 (p : Phase) : (s.setPhase p).sif0 = s.sif0 := rfl
@[simp] theorem setPhase_sif1 (p : Phase) : (s.setPhase p).sif1 = s.sif1 := rfl
@[simp] theorem setPhase_intMain (p : Phase) : (s.setPhase p).intMain = s.intMain := rfl
@[simp] theorem setPhase_intSub (p : Phase) : (s.setPhase p).intSub = s.intSub := rfl
@[simp] theorem setPhase_mem (p : Phase) : (s.setPhase p).mem = s.mem := rfl
@[simp] theorem setPhase_answer (p : Phase) : (s.setPhase p).answer = s.answer := rfl
@[simp] theorem setPhase_agenda (p : Phase) : (s.setPhase p).agenda = s.agenda := rfl
@[simp] theorem setPhase_agents (p : Phase) : (s.setPhase p).agents = s.agents := rfl
@[simp] theorem setPhase_dma (p : Phase) (x : Side) : (s.setPhase p).dma x = s.dma x := by cases x <;> rfl
@[simp] theorem setPhase_chan (p : Phase) (x : Side) (n : Chan) : (s.setPhase p).chan x n = s.chan x n := by cases x <;> rfl
@[simp] theorem setPhase_intc (p : Phase) (x : Side) : (s.setPhase p).intc x = s.intc x := by cases x <;> rfl
@[simp] theorem setPhase_fifo (p : Phase) (x : Dir) : (s.setPhase p).fifo x = s.fifo x := by cases x <;> rfl

/-! ## addHandler -/

@[simp] theorem addHandler_cfg (k : DWord) : (addHandler k s).cfg = s.cfg := rfl
@[simp] theorem addHandler_phase (k : DWord) : (addHandler k s).phase = s.phase := rfl
@[simp] theorem addHandler_tick (k : DWord) : (addHandler k s).tick = s.tick := rfl
@[simp] theorem addHandler_fault (k : DWord) : (addHandler k s).fault = s.fault := rfl
@[simp] theorem addHandler_now (k : DWord) : (addHandler k s).now = s.now := rfl
@[simp] theorem addHandler_seq (k : DWord) : (addHandler k s).seq = s.seq := rfl
@[simp] theorem addHandler_queue (k : DWord) : (addHandler k s).queue = s.queue := rfl
@[simp] theorem addHandler_acc (k : DWord) : (addHandler k s).acc = s.acc := rfl
@[simp] theorem addHandler_dmaMain (k : DWord) : (addHandler k s).dmaMain = s.dmaMain := rfl
@[simp] theorem addHandler_dmaSub (k : DWord) : (addHandler k s).dmaSub = s.dmaSub := rfl
@[simp] theorem addHandler_pendingStarts (k : DWord) : (addHandler k s).pendingStarts = s.pendingStarts := rfl
@[simp] theorem addHandler_sif0 (k : DWord) : (addHandler k s).sif0 = s.sif0 := rfl
@[simp] theorem addHandler_sif1 (k : DWord) : (addHandler k s).sif1 = s.sif1 := rfl
@[simp] theorem addHandler_intMain (k : DWord) : (addHandler k s).intMain = s.intMain := rfl
@[simp] theorem addHandler_intSub (k : DWord) : (addHandler k s).intSub = s.intSub := rfl
@[simp] theorem addHandler_mem (k : DWord) : (addHandler k s).mem = s.mem := rfl
@[simp] theorem addHandler_answer (k : DWord) : (addHandler k s).answer = s.answer := rfl
@[simp] theorem addHandler_agenda (k : DWord) : (addHandler k s).agenda = s.agenda := rfl
@[simp] theorem addHandler_agents (k : DWord) : (addHandler k s).agents = s.agents := rfl
@[simp] theorem addHandler_dma (k : DWord) (x : Side) : (addHandler k s).dma x = s.dma x := by cases x <;> rfl
@[simp] theorem addHandler_chan (k : DWord) (x : Side) (n : Chan) : (addHandler k s).chan x n = s.chan x n := by cases x <;> rfl
@[simp] theorem addHandler_intc (k : DWord) (x : Side) : (addHandler k s).intc x = s.intc x := by cases x <;> rfl
@[simp] theorem addHandler_fifo (k : DWord) (x : Dir) : (addHandler k s).fifo x = s.fifo x := by cases x <;> rfl

/-! ## setFifoDrq -/

@[simp] theorem setFifoDrq_cfg (d : Dir) (q : List Word) : (setFifoDrq d q s).cfg = s.cfg := rfl
@[simp] theorem setFifoDrq_phase (d : Dir) (q : List Word) : (setFifoDrq d q s).phase = s.phase := rfl
@[simp] theorem setFifoDrq_tick (d : Dir) (q : List Word) : (setFifoDrq d q s).tick = s.tick := rfl
@[simp] theorem setFifoDrq_fault (d : Dir) (q : List Word) : (setFifoDrq d q s).fault = s.fault := rfl
@[simp] theorem setFifoDrq_now (d : Dir) (q : List Word) : (setFifoDrq d q s).now = s.now := rfl
@[simp] theorem setFifoDrq_seq (d : Dir) (q : List Word) : (setFifoDrq d q s).seq = s.seq := rfl
@[simp] theorem setFifoDrq_handlers (d : Dir) (q : List Word) : (setFifoDrq d q s).handlers = s.handlers := rfl
@[simp] theorem setFifoDrq_nh (d : Dir) (q : List Word) : (setFifoDrq d q s).nh = s.nh := rfl
@[simp] theorem setFifoDrq_queue (d : Dir) (q : List Word) : (setFifoDrq d q s).queue = s.queue := rfl
@[simp] theorem setFifoDrq_acc (d : Dir) (q : List Word) : (setFifoDrq d q s).acc = s.acc := rfl
@[simp] theorem setFifoDrq_dmaMain (d : Dir) (q : List Word) : (setFifoDrq d q s).dmaMain = s.dmaMain := rfl
@[simp] theorem setFifoDrq_dmaSub (d : Dir) (q : List Word) : (setFifoDrq d q s).dmaSub = s.dmaSub := rfl
@[simp] theorem setFifoDrq_intMain (d : Dir) (q : List Word) : (setFifoDrq d q s).intMain = s.intMain := rfl
@[simp] theorem setFifoDrq_intSub (d : Dir) (q : List Word) : (setFifoDrq d q s).intSub = s.intSub := rfl
@[simp] theorem setFifoDrq_mem (d : Dir) (q : List Word) : (setFifoDrq d q s).mem = s.mem := rfl
@[simp] theorem setFifoDrq_answer (d : Dir) (q : List Word) : (setFifoDrq d q s).answer = s.answer := rfl
@[simp] theorem setFifoDrq_agenda (d : Dir) (q : List Word) : (setFifoDrq d q s).agenda = s.agenda := rfl
@[simp] theorem setFifoDrq_agents (d : Dir) (q : List Word) : (setFifoDrq d q s).agents = s.agents := rfl
@[simp] theorem setFifoDrq_dma (d : Dir) (q : List Word) (x : Side) : (setFifoDrq d q s).dma x = s.dma x := by cases x <;> rfl
@[simp] theorem setFifoDrq_chan (d : Dir) (q : List Word) (x : Side) (n : Chan) : (setFifoDrq d q s).chan x n = s.chan x n := by cases x <;> rfl
@[simp] theorem setFifoDrq_intc (d : Dir) (q : List Word) (x : Side) : (setFifoDrq d q s).intc x = s.intc x := by cases x <;> rfl

/-! ## What an update writes -/

/-- The record form of `clearAnswer`. -/
theorem clearAnswer_eq : clearAnswer s = { s with answer := none } := rfl

@[simp] theorem clearAnswer_answer : (clearAnswer s).answer = none := rfl
/-- An update of a channel commutes with clearing the answer. -/
theorem setChan_clearAnswer (sd : Side) (c : Chan) (ch : Channel) :
    (clearAnswer s).setChan sd c ch = clearAnswer (s.setChan sd c ch) := by cases sd <;> rfl

@[simp] theorem setPending_pendingStarts (l : List (Side × Chan)) : (s.setPending l).pendingStarts = l := rfl
@[simp] theorem setQueue_queue (q : List Event) : (s.setQueue q).queue = q := rfl
@[simp] theorem putEvent_queue (e : Event) (q : List Event) : (putEvent e q s).queue = insertEvent e q := rfl
@[simp] theorem putEvent_seq (e : Event) (q : List Event) : (putEvent e q s).seq = s.seq + 1 := rfl
@[simp] theorem setNow_now (v : DWord) : (s.setNow v).now = v := rfl
@[simp] theorem setAcc_acc (r : Nat) : (s.setAcc r).acc = r := rfl
@[simp] theorem setPhase_phase (p : Phase) : (s.setPhase p).phase = p := rfl
@[simp] theorem addHandler_handlers (k : DWord) : (addHandler k s).handlers = s.handlers.set s.nh (.external k) := rfl
@[simp] theorem addHandler_nh (k : DWord) : (addHandler k s).nh = s.nh + 1 := rfl
@[simp] theorem setFifoDrq_pendingStarts (d : Dir) (q : List Word) :
    (setFifoDrq d q s).pendingStarts = s.pendingStarts ++ risenDrqs s (s.setFifo d q) d := rfl
@[simp] theorem setFifoDrq_fifo (d : Dir) (q : List Word) (x : Dir) :
    (setFifoDrq d q s).fifo x = (s.setFifo d q).fifo x := by cases x <;> rfl
@[simp] theorem takeFault_clearAnswer (k : FaultKind) (info : List DWord) :
    takeFault k info (clearAnswer s) = takeFault k info s := rfl
@[simp] theorem takeFault_phase (k : FaultKind) (info : List DWord) : (takeFault k info s).phase = .faulted := rfl
@[simp] theorem takeFault_agenda (k : FaultKind) (info : List DWord) : (takeFault k info s).agenda = [] := rfl
@[simp] theorem takeFault_answer (k : FaultKind) (info : List DWord) : (takeFault k info s).answer = none := rfl
@[simp] theorem endTask_agenda (ts : List Task) : (endTask ts s).agenda = ts := rfl
@[simp] theorem endTask_answer (ts : List Task) : (endTask ts s).answer = none := rfl

/-- The record is written once: a fault in a state without one leaves the given record (R271). -/
theorem takeFault_fault_of_none (k : FaultKind) (info : List DWord) (h : s.fault = none) :
    (takeFault k info s).fault = some ⟨k, info⟩ := by
  simp [takeFault, h]

/-- The record is never replaced (R271). -/
theorem takeFault_fault_of_some (k : FaultKind) (info : List DWord) (f : FaultRecord) (h : s.fault = some f) :
    (takeFault k info s).fault = some f := by
  simp [takeFault, h]

/-- After a fault there is a record. -/
@[simp] theorem takeFault_fault_isSome (k : FaultKind) (info : List DWord) :
    (takeFault k info s).fault.isSome = true := by
  unfold takeFault; cases s.fault <;> rfl

/-! ## Indexed reads after indexed writes -/

@[simp] theorem dma_setDma_self (sd : Side) (e : Engine) : (s.setDma sd e).dma sd = e := by cases sd <;> rfl

theorem dma_setDma_ne (sd x : Side) (e : Engine) (h : x ≠ sd) : (s.setDma sd e).dma x = s.dma x := by
  cases sd <;> cases x <;> first | rfl | exact absurd rfl h

@[simp] theorem intc_setIntc_self (sd : Side) (q : IntCtl) : (s.setIntc sd q).intc sd = q := by cases sd <;> rfl

theorem intc_setIntc_ne (sd x : Side) (q : IntCtl) (h : x ≠ sd) : (s.setIntc sd q).intc x = s.intc x := by
  cases sd <;> cases x <;> first | rfl | exact absurd rfl h

@[simp] theorem fifo_setFifo_self (d : Dir) (q : List Word) : (s.setFifo d q).fifo d = q := by cases d <;> rfl

theorem fifo_setFifo_ne (d x : Dir) (q : List Word) (h : x ≠ d) : (s.setFifo d q).fifo x = s.fifo x := by
  cases d <;> cases x <;> first | rfl | exact absurd rfl h

/-- Writing a channel of one side leaves the other side's engine. -/
theorem dma_setChan_ne (sd x : Side) (c : Chan) (ch : Channel) (h : x ≠ sd) :
    (s.setChan sd c ch).dma x = s.dma x := dma_setDma_ne s sd x _ h

/-- Writing a channel leaves the engine's own registers. -/
@[simp] theorem dma_setChan_ctrl (sd x : Side) (c : Chan) (ch : Channel) :
    ((s.setChan sd c ch).dma x).ctrl = (s.dma x).ctrl := by cases sd <;> cases x <;> rfl

@[simp] theorem dma_setChan_pcr (sd x : Side) (c : Chan) (ch : Channel) :
    ((s.setChan sd c ch).dma x).pcr = (s.dma x).pcr := by cases sd <;> cases x <;> rfl

@[simp] theorem dma_setChan_dintStat (sd x : Side) (c : Chan) (ch : Channel) :
    ((s.setChan sd c ch).dma x).dintStat = (s.dma x).dintStat := by cases sd <;> cases x <;> rfl

@[simp] theorem dma_setChan_dintCtl (sd x : Side) (c : Chan) (ch : Channel) :
    ((s.setChan sd c ch).dma x).dintCtl = (s.dma x).dintCtl := by cases sd <;> cases x <;> rfl

/-- Writing a channel keeps the number of channels. -/
@[simp] theorem dma_setChan_length (sd x : Side) (c : Chan) (ch : Channel) :
    ((s.setChan sd c ch).dma x).chans.length = (s.dma x).chans.length := by
  cases sd <;> cases x <;> simp [State.setChan, State.setDma, State.dma]

/-- A channel that exists reads back as written. -/
theorem chan_setChan_self (sd : Side) (c : Chan) (ch : Channel) (h : c.toNat < (s.dma sd).chans.length) :
    (s.setChan sd c ch).chan sd c = ch := by
  simp [State.chan, State.setChan, List.getD, h]

/-- Every other channel of the side is as before. -/
theorem chan_setChan_ne (sd : Side) (c n : Chan) (ch : Channel) (h : n ≠ c) :
    (s.setChan sd c ch).chan sd n = s.chan sd n := by
  have hn : c.toNat ≠ n.toNat := fun e => h (BitVec.eq_of_toNat_eq e.symm)
  simp [State.chan, State.setChan, List.getD, List.getElem?_set_ne hn]

/-- Every channel of the other side is as before. -/
theorem chan_setChan_side (sd x : Side) (c n : Chan) (ch : Channel) (h : x ≠ sd) :
    (s.setChan sd c ch).chan x n = s.chan x n := by
  simp [State.chan, dma_setChan_ne s sd x c ch h]

/-- A channel read that is not the channel of zeros comes from a channel that exists. -/
theorem chan_exists_of_active (sd : Side) (c : Chan) (h : active s sd c = true) :
    c.toNat < (s.dma sd).chans.length := by
  by_contra hc
  have : (s.dma sd).chans[c.toNat]? = none := List.getElem?_eq_none (Nat.le_of_not_lt hc)
  cases sd <;> simp [active, State.chan, List.getD, this, strOf] at h

/-! ## What the block's predicates do not depend on -/

@[simp] theorem active_clearAnswer (sd : Side) (c : Chan) : active (clearAnswer s) sd c = active s sd c := by cases sd <;> rfl
@[simp] theorem running_clearAnswer (sd : Side) (c : Chan) : running (clearAnswer s) sd c = running s sd c := by cases sd <;> rfl
@[simp] theorem chained_clearAnswer (sd : Side) (c : Chan) : chained (clearAnswer s) sd c = chained s sd c := by cases sd <;> rfl
@[simp] theorem toMem_clearAnswer (sd : Side) (c : Chan) : toMem (clearAnswer s) sd c = toMem s sd c := by cases sd <;> rfl
@[simp] theorem drq_clearAnswer (sd : Side) (c : Chan) : drq (clearAnswer s) sd c = drq s sd c := by cases sd <;> rfl
@[simp] theorem gate_clearAnswer (sd : Side) (c : Chan) : gate (clearAnswer s) sd c = gate s sd c := by cases sd <;> rfl
@[simp] theorem engineEnabled_clearAnswer (sd : Side) : engineEnabled (clearAnswer s) sd = engineEnabled s sd := by cases sd <;> rfl
@[simp] theorem priorityAllows_clearAnswer (sd : Side) (c : Chan) : priorityAllows (clearAnswer s) sd c = priorityAllows s sd c := by cases sd <;> rfl
@[simp] theorem masterFlag_clearAnswer (sd : Side) : masterFlag (clearAnswer s) sd = masterFlag s sd := by cases sd <;> rfl
@[simp] theorem pendingLine_clearAnswer (sd : Side) : pendingLine (clearAnswer s) sd = pendingLine s sd := by cases sd <;> rfl
@[simp] theorem statusWord_clearAnswer (sd : Side) (c : Chan) : statusWord (clearAnswer s) sd c = statusWord s sd c := by cases sd <;> rfl
@[simp] theorem active_setAgents (g : Agents) (sd : Side) (c : Chan) : active (s.setAgents g) sd c = active s sd c := by cases sd <;> rfl
@[simp] theorem running_setAgents (g : Agents) (sd : Side) (c : Chan) : running (s.setAgents g) sd c = running s sd c := by cases sd <;> rfl
@[simp] theorem chained_setAgents (g : Agents) (sd : Side) (c : Chan) : chained (s.setAgents g) sd c = chained s sd c := by cases sd <;> rfl
@[simp] theorem toMem_setAgents (g : Agents) (sd : Side) (c : Chan) : toMem (s.setAgents g) sd c = toMem s sd c := by cases sd <;> rfl
@[simp] theorem drq_setAgents (g : Agents) (sd : Side) (c : Chan) : drq (s.setAgents g) sd c = drq s sd c := by cases sd <;> rfl
@[simp] theorem gate_setAgents (g : Agents) (sd : Side) (c : Chan) : gate (s.setAgents g) sd c = gate s sd c := by cases sd <;> rfl
@[simp] theorem engineEnabled_setAgents (g : Agents) (sd : Side) : engineEnabled (s.setAgents g) sd = engineEnabled s sd := by cases sd <;> rfl
@[simp] theorem priorityAllows_setAgents (g : Agents) (sd : Side) (c : Chan) : priorityAllows (s.setAgents g) sd c = priorityAllows s sd c := by cases sd <;> rfl
@[simp] theorem masterFlag_setAgents (g : Agents) (sd : Side) : masterFlag (s.setAgents g) sd = masterFlag s sd := by cases sd <;> rfl
@[simp] theorem pendingLine_setAgents (g : Agents) (sd : Side) : pendingLine (s.setAgents g) sd = pendingLine s sd := by cases sd <;> rfl
@[simp] theorem statusWord_setAgents (g : Agents) (sd : Side) (c : Chan) : statusWord (s.setAgents g) sd c = statusWord s sd c := by cases sd <;> rfl
@[simp] theorem active_setMem (m : Memory) (sd : Side) (c : Chan) : active (s.setMem m) sd c = active s sd c := by cases sd <;> rfl
@[simp] theorem running_setMem (m : Memory) (sd : Side) (c : Chan) : running (s.setMem m) sd c = running s sd c := by cases sd <;> rfl
@[simp] theorem chained_setMem (m : Memory) (sd : Side) (c : Chan) : chained (s.setMem m) sd c = chained s sd c := by cases sd <;> rfl
@[simp] theorem toMem_setMem (m : Memory) (sd : Side) (c : Chan) : toMem (s.setMem m) sd c = toMem s sd c := by cases sd <;> rfl
@[simp] theorem drq_setMem (m : Memory) (sd : Side) (c : Chan) : drq (s.setMem m) sd c = drq s sd c := by cases sd <;> rfl
@[simp] theorem gate_setMem (m : Memory) (sd : Side) (c : Chan) : gate (s.setMem m) sd c = gate s sd c := by cases sd <;> rfl
@[simp] theorem engineEnabled_setMem (m : Memory) (sd : Side) : engineEnabled (s.setMem m) sd = engineEnabled s sd := by cases sd <;> rfl
@[simp] theorem priorityAllows_setMem (m : Memory) (sd : Side) (c : Chan) : priorityAllows (s.setMem m) sd c = priorityAllows s sd c := by cases sd <;> rfl
@[simp] theorem masterFlag_setMem (m : Memory) (sd : Side) : masterFlag (s.setMem m) sd = masterFlag s sd := by cases sd <;> rfl
@[simp] theorem pendingLine_setMem (m : Memory) (sd : Side) : pendingLine (s.setMem m) sd = pendingLine s sd := by cases sd <;> rfl
@[simp] theorem statusWord_setMem (m : Memory) (sd : Side) (c : Chan) : statusWord (s.setMem m) sd c = statusWord s sd c := by cases sd <;> rfl
@[simp] theorem active_setPending (l : List (Side × Chan)) (sd : Side) (c : Chan) : active (s.setPending l) sd c = active s sd c := by cases sd <;> rfl
@[simp] theorem running_setPending (l : List (Side × Chan)) (sd : Side) (c : Chan) : running (s.setPending l) sd c = running s sd c := by cases sd <;> rfl
@[simp] theorem chained_setPending (l : List (Side × Chan)) (sd : Side) (c : Chan) : chained (s.setPending l) sd c = chained s sd c := by cases sd <;> rfl
@[simp] theorem toMem_setPending (l : List (Side × Chan)) (sd : Side) (c : Chan) : toMem (s.setPending l) sd c = toMem s sd c := by cases sd <;> rfl
@[simp] theorem drq_setPending (l : List (Side × Chan)) (sd : Side) (c : Chan) : drq (s.setPending l) sd c = drq s sd c := by cases sd <;> rfl
@[simp] theorem gate_setPending (l : List (Side × Chan)) (sd : Side) (c : Chan) : gate (s.setPending l) sd c = gate s sd c := by cases sd <;> rfl
@[simp] theorem engineEnabled_setPending (l : List (Side × Chan)) (sd : Side) : engineEnabled (s.setPending l) sd = engineEnabled s sd := by cases sd <;> rfl
@[simp] theorem priorityAllows_setPending (l : List (Side × Chan)) (sd : Side) (c : Chan) : priorityAllows (s.setPending l) sd c = priorityAllows s sd c := by cases sd <;> rfl
@[simp] theorem masterFlag_setPending (l : List (Side × Chan)) (sd : Side) : masterFlag (s.setPending l) sd = masterFlag s sd := by cases sd <;> rfl
@[simp] theorem pendingLine_setPending (l : List (Side × Chan)) (sd : Side) : pendingLine (s.setPending l) sd = pendingLine s sd := by cases sd <;> rfl
@[simp] theorem statusWord_setPending (l : List (Side × Chan)) (sd : Side) (c : Chan) : statusWord (s.setPending l) sd c = statusWord s sd c := by cases sd <;> rfl
@[simp] theorem active_setAgenda (ts : List Task) (sd : Side) (c : Chan) : active (s.setAgenda ts) sd c = active s sd c := by cases sd <;> rfl
@[simp] theorem running_setAgenda (ts : List Task) (sd : Side) (c : Chan) : running (s.setAgenda ts) sd c = running s sd c := by cases sd <;> rfl
@[simp] theorem chained_setAgenda (ts : List Task) (sd : Side) (c : Chan) : chained (s.setAgenda ts) sd c = chained s sd c := by cases sd <;> rfl
@[simp] theorem toMem_setAgenda (ts : List Task) (sd : Side) (c : Chan) : toMem (s.setAgenda ts) sd c = toMem s sd c := by cases sd <;> rfl
@[simp] theorem drq_setAgenda (ts : List Task) (sd : Side) (c : Chan) : drq (s.setAgenda ts) sd c = drq s sd c := by cases sd <;> rfl
@[simp] theorem gate_setAgenda (ts : List Task) (sd : Side) (c : Chan) : gate (s.setAgenda ts) sd c = gate s sd c := by cases sd <;> rfl
@[simp] theorem engineEnabled_setAgenda (ts : List Task) (sd : Side) : engineEnabled (s.setAgenda ts) sd = engineEnabled s sd := by cases sd <;> rfl
@[simp] theorem priorityAllows_setAgenda (ts : List Task) (sd : Side) (c : Chan) : priorityAllows (s.setAgenda ts) sd c = priorityAllows s sd c := by cases sd <;> rfl
@[simp] theorem masterFlag_setAgenda (ts : List Task) (sd : Side) : masterFlag (s.setAgenda ts) sd = masterFlag s sd := by cases sd <;> rfl
@[simp] theorem pendingLine_setAgenda (ts : List Task) (sd : Side) : pendingLine (s.setAgenda ts) sd = pendingLine s sd := by cases sd <;> rfl
@[simp] theorem statusWord_setAgenda (ts : List Task) (sd : Side) (c : Chan) : statusWord (s.setAgenda ts) sd c = statusWord s sd c := by cases sd <;> rfl

/-! ## Runs -/

@[simp] theorem runState_ok (t : State) : runState (.ok t) = t := rfl
@[simp] theorem runState_error (t : State) : runState (.error t) = t := rfl

end Sys2Proof.Machine
end

