-- ==== Sys2Proof/Laws/Memory.lean ====
section
/-! SUPPORT. External memory: a read after a write, the frame of a write, and the canonical form, which every memory
operation keeps. -/

namespace Sys2Proof.Machine

/-! ## One space -/

theorem readCell_consCell (a : Nat) (v : Byte) (cs : List Host.Cell) (x : Nat) (h : readCell cs a = 0) :
    readCell (consCell a v cs) x = if x = a then v else readCell cs x := by
  unfold consCell
  by_cases hv : v = 0
  · by_cases hx : x = a <;> simp [hv, hx, h]
  · rw [if_neg hv]; rfl

/-- An address below the first listed one reads 0 in a canonical list. -/
theorem readCell_low (cs : List Host.Cell) (b : Nat) (w : Byte) (a : Nat) (hw : cellsWf ((b, w) :: cs) = true)
    (h : a < b) : readCell ((b, w) :: cs) a = 0 := by
  induction cs generalizing b w with
  | nil => simp [readCell, Nat.ne_of_lt h]
  | cons p rest ih =>
    obtain ⟨c, u⟩ := p
    simp only [cellsWf, Bool.and_eq_true, decide_eq_true_eq] at hw
    have := ih c u hw.2 (Nat.lt_trans h hw.1.2)
    simp only [readCell, if_neg (Nat.ne_of_lt h)] at this ⊢
    exact this

/-- A canonical list's tail is canonical. -/
theorem cellsWf_tail (p : Host.Cell) (cs : List Host.Cell) (h : cellsWf (p :: cs) = true) : cellsWf cs = true := by
  cases cs with
  | nil => rfl
  | cons q rest =>
    simp only [cellsWf, Bool.and_eq_true] at h
    exact h.2

/-- The address of the first cell of a canonical list reads 0 in its tail. -/
theorem readCell_tail (b : Nat) (w : Byte) (cs : List Host.Cell) (h : cellsWf ((b, w) :: cs) = true) :
    readCell cs b = 0 := by
  cases cs with
  | nil => rfl
  | cons q rest =>
    obtain ⟨c, u⟩ := q
    simp only [cellsWf, Bool.and_eq_true, decide_eq_true_eq] at h
    exact readCell_low rest c u b h.2 h.1.2

/-- A read after a write, in a canonical list: the written byte at its address, the old byte elsewhere. -/
theorem readCell_writeCell (cs : List Host.Cell) (a : Nat) (v : Byte) (x : Nat) (h : cellsWf cs = true) :
    readCell (writeCell cs a v) x = if x = a then v else readCell cs x := by
  induction cs with
  | nil => exact readCell_consCell a v [] x rfl
  | cons p rest ih =>
    obtain ⟨b, w⟩ := p
    simp only [writeCell]
    by_cases h1 : a < b
    · simpa [h1] using readCell_consCell a v ((b, w) :: rest) x (readCell_low rest b w a h h1)
    · by_cases h2 : a = b
      · subst h2
        simp only [h1, if_false, if_true]
        rw [readCell_consCell a v rest x (readCell_tail a w rest h)]
        by_cases hx : x = a <;> simp [hx, readCell]
      · simp only [h1, h2, if_false, readCell, ih (cellsWf_tail _ _ h)]
        by_cases hb : x = b
        · simp [hb, Ne.symm h2]
        · simp [hb]

/-- Putting a byte in front keeps the canonical form when the rest lies above. -/
theorem cellsWf_consCell (a : Nat) (v : Byte) (cs : List Host.Cell) (h : cellsWf cs = true)
    (hlow : ∀ b w rest, cs = (b, w) :: rest → a < b) : cellsWf (consCell a v cs) = true := by
  unfold consCell
  by_cases hv : v = 0
  · simpa [hv] using h
  · cases cs with
    | nil => rw [if_neg hv]; simpa [cellsWf] using hv
    | cons q rest =>
      obtain ⟨b, w⟩ := q
      simp only [hv, if_false, cellsWf, bne_iff_ne, ne_eq, not_false_eq_true, Bool.and_eq_true, decide_eq_true_eq,
        true_and]
      exact ⟨by simpa using hlow b w rest rfl, h⟩

/-- The first address of a list after a write is the written one or the first one before. -/
theorem writeCell_head (cs : List Host.Cell) (a : Nat) (v : Byte) (b : Nat) (w : Byte) (rest : List Host.Cell)
    (m : Nat) (hm : m < a) (hcs : ∀ c u t, cs = (c, u) :: t → m < c) (hw : cellsWf cs = true)
    (h : writeCell cs a v = (b, w) :: rest) : m < b := by
  cases cs with
  | nil =>
    simp only [writeCell, consCell] at h
    split at h
    · cases h
    · cases h; exact hm
  | cons p t =>
    obtain ⟨c, u⟩ := p
    have hc := hcs c u t rfl
    simp only [writeCell, consCell] at h
    split at h
    · split at h
      · cases h; exact hc
      · cases h; exact hm
    · split at h
      · split at h
        · subst h
          simp only [cellsWf, Bool.and_eq_true, decide_eq_true_eq] at hw
          exact Nat.lt_trans hc hw.1.2
        · cases h; exact hm
      · cases h; exact hc

/-- A write keeps the canonical form. -/
theorem cellsWf_writeCell (cs : List Host.Cell) (a : Nat) (v : Byte) (h : cellsWf cs = true) :
    cellsWf (writeCell cs a v) = true := by
  induction cs with
  | nil => exact cellsWf_consCell a v [] rfl (by simp)
  | cons p rest ih =>
    obtain ⟨b, w⟩ := p
    simp only [writeCell]
    by_cases h1 : a < b
    · simp only [h1, if_true]
      exact cellsWf_consCell a v _ h (by rintro c u t ⟨⟩; exact h1)
    · by_cases h2 : a = b
      · subst h2
        simp only [h1, if_false, if_true]
        refine cellsWf_consCell a v rest (cellsWf_tail _ _ h) ?_
        rintro c u t rfl
        simp only [cellsWf, Bool.and_eq_true, decide_eq_true_eq] at h
        exact h.1.2
      · simp only [h1, h2, if_false]
        have hr := ih (cellsWf_tail _ _ h)
        have hhead : ∀ c u t, writeCell rest a v = (c, u) :: t → b < c := fun c u t e =>
          writeCell_head rest a v c u t b (by omega)
            (by
              rintro c' u' t' rfl
              simp only [cellsWf, Bool.and_eq_true, decide_eq_true_eq] at h
              exact h.1.2)
            (cellsWf_tail _ _ h) e
        have hw : w ≠ 0 := by
          cases rest with
          | nil => simpa [cellsWf] using h
          | cons q t =>
            obtain ⟨c, u⟩ := q
            simp only [cellsWf, Bool.and_eq_true, bne_iff_ne, ne_eq] at h
            exact h.1.1
        cases hq : writeCell rest a v with
        | nil => simpa [cellsWf] using hw
        | cons q t =>
          obtain ⟨c, u⟩ := q
          rw [hq] at hr
          simp only [cellsWf, Bool.and_eq_true, bne_iff_ne, ne_eq, decide_eq_true_eq]
          exact ⟨⟨hw, hhead c u t hq⟩, hr⟩

/-! ## The three spaces -/

@[simp] theorem cells_setCells_self (m : Memory) (sp : Space) (cs : List Host.Cell) :
    (m.setCells sp cs).cells sp = cs := by cases sp <;> rfl

theorem cells_setCells_ne (m : Memory) (sp x : Space) (cs : List Host.Cell) (h : x ≠ sp) :
    (m.setCells sp cs).cells x = m.cells x := by
  cases sp <;> cases x <;> first | rfl | exact absurd rfl h

/-- The canonical form, space by space. -/
theorem memory_wf_iff (m : Memory) : m.wf = true ↔ ∀ sp, cellsWf (m.cells sp) = true := by
  constructor
  · intro h sp
    simp only [Memory.wf, Bool.and_eq_true] at h
    cases sp
    · exact h.1.1
    · exact h.1.2
    · exact h.2
  · intro h
    simp only [Memory.wf, Bool.and_eq_true]
    exact ⟨⟨h .mainRam, h .mainSpr⟩, h .subRam⟩

theorem wf_setCells (m : Memory) (sp : Space) (cs : List Host.Cell) (h : m.wf = true) (hc : cellsWf cs = true) :
    (m.setCells sp cs).wf = true := by
  rw [memory_wf_iff] at h ⊢
  intro x
  by_cases hx : x = sp
  · subst hx; simpa using hc
  · rw [cells_setCells_ne m sp x cs hx]; exact h x

/-- Storing a byte keeps the canonical form. -/
theorem wf_writeByte (m : Memory) (sp : Space) (a : Nat) (v : Byte) (h : m.wf = true) :
    (m.writeByte sp a v).wf = true :=
  wf_setCells m sp _ h (cellsWf_writeCell _ a v ((memory_wf_iff m).1 h sp))

/-- Storing a word keeps the canonical form. -/
theorem wf_writeWord (m : Memory) (sp : Space) (a : Nat) (w : Word) (h : m.wf = true) :
    (m.writeWord sp a w).wf = true := by
  unfold Memory.writeWord
  exact wf_writeByte _ _ _ _ (wf_writeByte _ _ _ _ (wf_writeByte _ _ _ _ (wf_writeByte _ _ _ _ h)))

/-- An agent's store keeps the canonical form. -/
theorem wf_storeBytes (sp : Space) (mask : Word) (vs : List Byte) (a : Word) (m : Memory) (h : m.wf = true) :
    (storeBytes sp mask a vs m).wf = true := by
  induction vs generalizing a m with
  | nil => exact h
  | cons v vs ih => exact ih (a + 1) _ (wf_writeByte m sp _ v h)

/-- A byte read after a byte write. -/
theorem readByte_writeByte (m : Memory) (sp x : Space) (a b : Nat) (v : Byte) (h : m.wf = true) :
    (m.writeByte sp a v).readByte x b = if x = sp ∧ b = a then v else m.readByte x b := by
  unfold Memory.readByte Memory.writeByte
  by_cases hx : x = sp
  · subst hx
    simp [readCell_writeCell _ a v b ((memory_wf_iff m).1 h x)]
  · simp [cells_setCells_ne m sp x _ hx, hx]

/-- The frame of a word write: every byte outside the four is as before. -/
theorem readByte_writeWord_frame (m : Memory) (sp x : Space) (a b : Nat) (w : Word) (h : m.wf = true)
    (hb : x ≠ sp ∨ b < a ∨ a + 4 ≤ b) : (m.writeWord sp a w).readByte x b = m.readByte x b := by
  unfold Memory.writeWord
  have h1 := wf_writeByte m sp a (w.extractLsb' 0 8) h
  have h2 := wf_writeByte _ sp (a + 1) (w.extractLsb' 8 8) h1
  have h3 := wf_writeByte _ sp (a + 2) (w.extractLsb' 16 8) h2
  rw [readByte_writeByte _ sp x _ b _ h3, readByte_writeByte _ sp x _ b _ h2, readByte_writeByte _ sp x _ b _ h1,
    readByte_writeByte m sp x _ b _ h]
  rcases hb with hb | hb | hb
  · simp [hb]
  · rw [if_neg (by omega), if_neg (by omega), if_neg (by omega), if_neg (by omega)]
  · rw [if_neg (by omega), if_neg (by omega), if_neg (by omega), if_neg (by omega)]

/-- The four bytes of a word, put together again. -/
theorem word_of_bytes (w : Word) :
    (w.extractLsb' 24 8 ++ w.extractLsb' 16 8 ++ w.extractLsb' 8 8 ++ w.extractLsb' 0 8 : Word) = w := by
  ext i hi
  simp only [BitVec.getElem_append, BitVec.getElem_extractLsb']
  by_cases h0 : i < 8
  · simp [h0, BitVec.getLsbD_eq_getElem hi]
  · by_cases h1 : i - 8 < 8
    · have : 8 + (i - 8) = i := by omega
      simp [h0, h1, this, BitVec.getLsbD_eq_getElem hi]
    · by_cases h2 : i - 8 - 8 < 8
      · have : 16 + (i - 8 - 8) = i := by omega
        simp [h0, h1, h2, this, BitVec.getLsbD_eq_getElem hi]
      · have : 24 + (i - 8 - 8 - 8) = i := by omega
        simp [h0, h1, h2, this, BitVec.getLsbD_eq_getElem hi]

/-- A word read after a word write at the same place gives the word (R72, R73). -/
theorem readWord_writeWord_self (m : Memory) (sp : Space) (a : Nat) (w : Word) (h : m.wf = true) :
    (m.writeWord sp a w).readWord sp a = w := by
  have h1 := wf_writeByte m sp a (w.extractLsb' 0 8) h
  have h2 := wf_writeByte _ sp (a + 1) (w.extractLsb' 8 8) h1
  have h3 := wf_writeByte _ sp (a + 2) (w.extractLsb' 16 8) h2
  unfold Memory.readWord Memory.writeWord
  simp only [readByte_writeByte _ sp sp _ _ _ h3, readByte_writeByte _ sp sp _ _ _ h2,
    readByte_writeByte _ sp sp _ _ _ h1, readByte_writeByte m sp sp _ _ _ h, true_and, if_true]
  rw [if_neg (by omega), if_neg (by omega), if_neg (by omega), if_neg (by omega), if_neg (by omega),
    if_neg (by omega)]
  exact word_of_bytes w

/-- A word read elsewhere is as before: no byte of it is among the four written. -/
theorem readWord_writeWord_frame (m : Memory) (sp x : Space) (a b : Nat) (w : Word) (h : m.wf = true)
    (hb : x ≠ sp ∨ b + 4 ≤ a ∨ a + 4 ≤ b) : (m.writeWord sp a w).readWord x b = m.readWord x b := by
  have frame (k : Nat) (hk : k < 4) : (m.writeWord sp a w).readByte x (b + k) = m.readByte x (b + k) := by
    refine readByte_writeWord_frame m sp x a (b + k) w h ?_
    rcases hb with hb | hb
    · exact .inl hb
    · exact .inr (by omega)
  unfold Memory.readWord
  rw [frame 3 (by omega), frame 2 (by omega), frame 1 (by omega)]
  rw [show m.readByte x b = m.readByte x (b + 0) from rfl, ← frame 0 (by omega)]
  rfl

/-- The memory of the reset state is canonical. -/
theorem reset_memory_wf : State.reset.mem.wf = true := by decide

end Sys2Proof.Machine
end

