-- ==== Sys2Proof/Laws/Ops.lean ====
section
/-! SUPPORT. The event queue's list operations, and for each shared operation that can fault one lemma that says everything
it can do. -/

namespace Sys2Proof.Machine

/-! ## The queue as a list -/

/-- Inserting an event adds exactly that event. -/
theorem mem_insertEvent (e f : Event) (q : List Event) : f ∈ insertEvent e q ↔ f = e ∨ f ∈ q := by
  induction q with
  | nil => simp [insertEvent]
  | cons g rest ih =>
    simp only [insertEvent]
    split
    · simp
    · simp only [List.mem_cons, ih]
      tauto

/-- Inserting an event lengthens the queue by one. -/
@[simp] theorem length_insertEvent (e : Event) (q : List Event) : (insertEvent e q).length = q.length + 1 := by
  induction q with
  | nil => rfl
  | cons g rest ih => simp only [insertEvent]; split <;> simp [ih]

/-- What `before` compares (R28, R120). -/
theorem before_iff (e f : Event) : e.before f = true ↔
    e.deadline.toInt < f.deadline.toInt ∨ (e.deadline.toInt = f.deadline.toInt ∧ e.seq.toNat < f.seq.toNat) := by
  simp [Event.before]

theorem before_eq_false_iff (e f : Event) : e.before f = false ↔
    f.deadline.toInt < e.deadline.toInt ∨ (e.deadline.toInt = f.deadline.toInt ∧ f.seq.toNat ≤ e.seq.toNat) := by
  rw [← Bool.not_eq_true, before_iff]
  omega

/-- The key order is transitive in the form the sorted queue uses. -/
theorem not_before_trans {a b c : Event} (h1 : b.before a = false) (h2 : c.before b = false) :
    c.before a = false := by
  rw [before_eq_false_iff] at *
  omega

/-- An event that stands before another does not stand after it. -/
theorem not_before_of_before {a b : Event} (h : a.before b = true) : b.before a = false := by
  rw [before_eq_false_iff]
  rw [before_iff] at h
  omega

/-- Inserting keeps the key order (R28). -/
theorem sorted_insertEvent (e : Event) (q : List Event)
    (h : q.Pairwise fun a b => b.before a = false) :
    (insertEvent e q).Pairwise fun a b => b.before a = false := by
  induction q with
  | nil => simp [insertEvent]
  | cons g rest ih =>
    rw [List.pairwise_cons] at h
    simp only [insertEvent]
    split
    case isTrue hb =>
      refine List.pairwise_cons.2 ⟨fun f hf => ?_, List.pairwise_cons.2 h⟩
      rcases List.mem_cons.1 hf with rfl | hf
      · exact not_before_of_before hb
      · exact not_before_trans (not_before_of_before hb) (h.1 f hf)
    case isFalse hb =>
      refine List.pairwise_cons.2 ⟨fun f hf => ?_, ih h.2⟩
      rcases (mem_insertEvent e f rest).1 hf with rfl | hf
      · simpa using hb
      · exact h.1 f hf

/-- Membership after a removal (R114). -/
theorem mem_removeEvent (h : Handle) (ch : Chan) (q : List Event) (e : Event) :
    e ∈ removeEvent h ch q ↔ e ∈ q ∧ ¬(e.h = h ∧ e.ch = ch) := by
  simp only [removeEvent, List.mem_filter, Event.isFor, Bool.not_eq_true', Bool.and_eq_false_iff, beq_eq_false_iff_ne]
  tauto

/-- A property of pairs survives a removal. -/
theorem pairwise_removeEvent {R : Event → Event → Prop} (h : Handle) (ch : Chan) (q : List Event)
    (hq : q.Pairwise R) : (removeEvent h ch q).Pairwise R := hq.filter _

/-- Inserting an event whose pair is not queued keeps the pairs distinct: R47 (a). -/
theorem distinct_insertEvent (e : Event) (q : List Event)
    (hq : q.Pairwise fun a b => ¬(a.h = b.h ∧ a.ch = b.ch)) (he : ∀ f ∈ q, ¬(f.h = e.h ∧ f.ch = e.ch)) :
    (insertEvent e q).Pairwise fun a b => ¬(a.h = b.h ∧ a.ch = b.ch) := by
  induction q with
  | nil => simp [insertEvent]
  | cons g rest ih =>
    rw [List.pairwise_cons] at hq
    have hg := he g (List.mem_cons_self ..)
    have hr : ∀ f ∈ rest, ¬(f.h = e.h ∧ f.ch = e.ch) := fun f hf => he f (List.mem_cons_of_mem _ hf)
    simp only [insertEvent]
    split
    · refine List.pairwise_cons.2 ⟨fun f hf => ?_, List.pairwise_cons.2 hq⟩
      rintro ⟨h1, h2⟩
      exact he f hf ⟨h1.symm, h2.symm⟩
    · refine List.pairwise_cons.2 ⟨fun f hf => ?_, ih hq.2 hr⟩
      rcases (mem_insertEvent e f rest).1 hf with rfl | hf
      · exact hg
      · exact hq.1 f hf

/-- What `queued` finds (R124). -/
theorem queued_iff (h : Handle) (ch : Chan) (s : State) :
    queued h ch s = true ↔ ∃ e ∈ s.queue, e.h = h ∧ e.ch = ch := by
  simp [queued, Event.isFor]

/-! ## 64-bit times -/

/-- A time within i64 reads back (R125). -/
theorem toInt_i64 (n : Int) (h0 : -2 ^ 63 ≤ n) (h1 : n ≤ maxTime) : (i64 n).toInt = n := by
  unfold maxTime at h1
  rw [i64, BitVec.toInt_ofInt]
  simp only [Int.bmod]
  split <;> omega

/-- A number of cycles below `2 ^ 64` is its own 64-bit pattern (log 23). -/
theorem cycles64_eq {n : Int} (h : n < 2 ^ 64) : cycles64 n = i64 n := if_pos h

/-- An entry of a FIFO holds the word whole, the width being 32 (R220, log 25). -/
theorem fifoEntry_eq {p : Params} (h : p.fifoWidth = 32) (w : Word) : fifoEntry p w = w := by
  unfold fifoEntry
  rw [h]
  exact BitVec.and_allOnes

/-- When the sums of `Schedule` stay i64 (R113, R125, log 14). -/
theorem beyondI64_eq_false {now delay period : Int} {rep : Bool} :
    beyondI64 now delay rep period = false ↔ now + delay ≤ maxTime ∧ (rep = true → period ≤ maxTime) := by
  simp [beyondI64]

/-! ## Operations that can fault -/

/-- Everything `Schedule` can do when it does not fault (R113). -/
theorem schedule_ok {h : Handle} {ch : Chan} {delay : Int} {rep : Bool} {period : Int} {s t : State}
    (e : schedule h ch delay rep period s = .ok t) :
    0 ≤ delay ∧ (rep = true → 0 < period ∧ period ≤ maxTime) ∧ s.now.toInt + delay ≤ maxTime ∧
    t = putEvent ⟨h, ch, i64 (s.now.toInt + delay), rep, if rep then i64 period else 0, s.seq⟩
      (removeEvent h ch s.queue) s := by
  unfold schedule raiseFault at e
  split at e
  · cases e
  · split at e
    · cases e
    · split at e
      · cases e
      · rename_i h1 h2 h3
        obtain ⟨h4, h5⟩ := beyondI64_eq_false.1 (by simpa using h3)
        exact ⟨by omega, fun hr => ⟨Int.not_le.1 fun hp => h2 ⟨hr, hp⟩, h5 hr⟩, h4, (Except.ok.inj e).symm⟩

/-- When `Schedule` inserts the event (R113, R114, R125). -/
theorem schedule_inserts {h : Handle} {ch : Chan} {delay : Int} {rep : Bool} {period : Int} {s : State}
    (h1 : 0 ≤ delay) (h2 : rep = true → 0 < period ∧ period ≤ maxTime) (h3 : s.now.toInt + delay ≤ maxTime) :
    schedule h ch delay rep period s = .ok (putEvent
      ⟨h, ch, i64 (s.now.toInt + delay), rep, if rep then i64 period else 0, s.seq⟩ (removeEvent h ch s.queue) s) := by
  unfold schedule
  rw [if_neg (by omega), if_neg fun ⟨hr, hp⟩ => by have := h2 hr; omega,
    beyondI64_eq_false.2 ⟨h3, fun hr => (h2 hr).2⟩]
  rfl

/-- `Schedule` faults only with nothing else changed (R113, R271). -/
theorem schedule_error {h : Handle} {ch : Chan} {delay : Int} {rep : Bool} {period : Int} {s t : State}
    (e : schedule h ch delay rep period s = .error t) : ∃ k info, t = takeFault k info s := by
  unfold schedule raiseFault at e
  split at e
  · exact ⟨_, _, (Except.error.inj e).symm⟩
  · split at e
    · exact ⟨_, _, (Except.error.inj e).symm⟩
    · split at e
      · exact ⟨_, _, (Except.error.inj e).symm⟩
      · cases e

/-- Everything a reinsertion can do when it does not fault (R121). -/
theorem reinsert_ok {e : Event} {s t : State} (he : reinsert e s = .ok t) :
    e.deadline.toInt + e.period.toInt ≤ maxTime ∧
    t = putEvent { e with deadline := i64 (e.deadline.toInt + e.period.toInt), seq := s.seq } s.queue s := by
  unfold reinsert raiseFault at he
  split at he
  · cases he
  · exact ⟨by omega, (Except.ok.inj he).symm⟩

/-- A reinsertion faults only with nothing else changed (R121, R271). -/
theorem reinsert_error {e : Event} {s t : State} (he : reinsert e s = .error t) :
    ∃ k info, t = takeFault k info s := by
  unfold reinsert raiseFault at he
  split at he
  · exact ⟨_, _, (Except.error.inj he).symm⟩
  · cases he

/-- Everything `infoOf` can answer: the rule's list or the table's, as the configuration says (log 9). -/
theorem infoOf_cases (p : Params) (byRule byTable : List DWord) :
    (p.faultInfo = .byRule ∧ infoOf p byRule byTable = byRule) ∨
      (p.faultInfo = .byTable ∧ infoOf p byRule byTable = byTable) := by
  unfold infoOf
  split
  · exact .inl ⟨‹_›, rfl⟩
  · exact .inr ⟨‹_›, rfl⟩

/-- Everything `Advance` can do when it does not fault (R117). -/
theorem advance_ok {d : Int} {s t : State} (e : advance d s = .ok t) :
    0 ≤ d ∧ s.now.toInt + d ≤ maxTime ∧ t = s.setNow (i64 (s.now.toInt + d)) := by
  unfold advance raiseFault at e
  split at e
  · cases e
  · split at e
    · cases e
    · exact ⟨by omega, by omega, (Except.ok.inj e).symm⟩

/-- `Advance` faults only with nothing else changed (R117, R271). -/
theorem advance_error {d : Int} {s t : State} (e : advance d s = .error t) : ∃ k info, t = takeFault k info s := by
  unfold advance raiseFault at e
  split at e
  · exact ⟨_, _, (Except.error.inj e).symm⟩
  · split at e
    · exact ⟨_, _, (Except.error.inj e).symm⟩
    · cases e

/-- Everything `FifoPush` can do when it does not fault (R222). -/
theorem fifoPush_ok {d : Dir} {w : Word} {s t : State} (e : fifoPush d w s = .ok t) :
    (s.fifo d).length < s.cfg.fifoCap ∧ t = setFifoDrq d (s.fifo d ++ [fifoEntry s.cfg w]) s := by
  unfold fifoPush raiseFault at e
  split at e
  · exact ⟨‹_›, (Except.ok.inj e).symm⟩
  · cases e

/-- `FifoPush` faults exactly on a full FIFO, with FifoOverflow (R222). -/
theorem fifoPush_error {d : Dir} {w : Word} {s t : State} (e : fifoPush d w s = .error t) :
    ¬(s.fifo d).length < s.cfg.fifoCap ∧ t = takeFault .fifoOverflow [dirCode d, w.setWidth 64] s := by
  unfold fifoPush raiseFault at e
  split at e
  · cases e
  · exact ⟨‹_›, (Except.error.inj e).symm⟩

/-- Everything `FifoPop` can do when it does not fault (R223). -/
theorem fifoPop_ok {d : Dir} {w : Word} {s t : State} (e : fifoPop d s = .ok (w, t)) :
    ∃ rest, s.fifo d = w :: rest ∧ t = setFifoDrq d rest s := by
  unfold fifoPop raiseFault at e
  split at e
  · cases e
  · rename_i w' rest hq
    obtain ⟨rfl, rfl⟩ := Prod.mk.inj (Except.ok.inj e)
    exact ⟨rest, hq, rfl⟩

/-- `FifoPop` faults exactly on an empty FIFO, with FifoUnderflow (R223). -/
theorem fifoPop_error {d : Dir} {s t : State} (e : fifoPop d s = .error t) :
    s.fifo d = [] ∧ t = takeFault .fifoUnderflow [dirCode d] s := by
  unfold fifoPop raiseFault at e
  split at e
  · exact ⟨‹_›, (Except.error.inj e).symm⟩
  · cases e

/-- A command's checks and its rule, all in one (R100): what `issue` can leave. -/
theorem issue_cases (i : Instr) (rule : State → Run) (s : State) :
    (s.phase = .faulted ∧ issue i rule s = clearAnswer s) ∨
    (s.phase ≠ .faulted ∧ legal i s = false ∧
      issue i rule s = takeFault .phaseViolation [(encode i).cmd.setWidth 64, issuerCode s.cfg s.issuer] s) ∨
    (s.phase ≠ .faulted ∧ legal i s = true ∧ inRange i s = false ∧
      issue i rule s = takeFault .badOperand (cmdInfo (encode i)) s) ∨
    (s.phase ≠ .faulted ∧ legal i s = true ∧ inRange i s = true ∧
      issue i rule s = runState (rule (clearAnswer s))) := by
  unfold issue
  by_cases h1 : s.phase = .faulted
  · exact .inl ⟨h1, by simp [h1]⟩
  · by_cases h2 : legal i s = false
    · exact .inr (.inl ⟨h1, h2, by simp [h1, h2]⟩)
    · by_cases h3 : inRange i s = false
      · exact .inr (.inr (.inl ⟨h1, by simpa using h2, h3, by simp [h1, h2, h3]⟩))
      · exact .inr (.inr (.inr ⟨h1, by simpa using h2, by simpa using h3, by simp [h1, h2, h3]⟩))

/-- An accepted command runs its rule (R100). No command is legal in phase Faulted (R96). -/
theorem issue_accepted (i : Instr) (rule : State → Run) (s : State) (hl : legal i s = true)
    (hr : inRange i s = true) : issue i rule s = runState (rule (clearAnswer s)) := by
  have hp : s.phase ≠ .faulted := by
    intro hp
    simp only [legal, hp, Bool.and_eq_true] at hl
    revert hl
    cases cmdClass i <;> simp [legalPhase]
  simp [issue, hp, hl, hr]

end Sys2Proof.Machine
end

