-- ==== Sys2Proof/Laws/Dma.lean ====
section
/-! SUPPORT. What the DMA engines' internal rules can do, said once: a relation between states that every elementary update
of these rules respects holds between the start and the end of a whole burst, of a deferred start, of a re-evaluation and
of a channel event. Frames and invariants are instances. -/

namespace Sys2Proof.Machine

open Sys2Proof.Safety

/-- The run ends in a state related to `s`, or in the fault entry taken from such a state. -/
def Ends (R : State → State → Prop) (s : State) : Run → Prop
  | .ok t => R s t
  | .error t => ∃ u k info, R s u ∧ t = takeFault k info u

/-- What the moving of words and the tags keep of a channel: its STR bit, its stored request line, its reserved bits, the
alignment of its address while words are left, and the granularity of R47 (e). -/
structure Kept (p : Params) (sd : Side) (c : Chan) (old new : Channel) : Prop where
  str : strOf sd new.chcr = strOf sd old.chcr
  line : new.drq = old.drq
  masks : ChannelOk sd old → ChannelOk sd new
  aligned : (old.rem ≠ 0 → offWord old.madr = false) → new.rem ≠ 0 → offWord new.madr = false
  rem : p.Valid → fifoChannel p sd c = false → old.rem.toNat % p.gran sd = 0 → new.rem.toNat % p.gran sd = 0

/-- A relation that every elementary update inside the moving of words respects (R172 to R177). -/
structure MoveClosed (R : State → State → Prop) : Prop where
  refl : ∀ s, R s s
  trans : ∀ s t u, R s t → R t u → R s u
  chan : ∀ s sd c ch, active s sd c = true → Kept s.cfg sd c (s.chan sd c) ch → R s (s.setChan sd c ch)
  mem : ∀ s sp a w, R s (s.setMem (s.mem.writeWord sp a w))
  push : ∀ s d w, (s.fifo d).length < s.cfg.fifoCap → R s (setFifoDrq d (s.fifo d ++ [w]) s)
  pop : ∀ s d w rest, s.fifo d = w :: rest → R s (setFifoDrq d rest s)
  read : ∀ s sd c, R s (periphRead sd c s).2
  write : ∀ s sd c w, R s (periphWrite sd c w s)

/-- A relation that every elementary update of the engines' internal rules respects. -/
structure BurstClosed (R : State → State → Prop) : Prop extends MoveClosed R where
  sched : ∀ s sd c t, active s sd c = true →
    schedule (dmaHandle sd) c (burstCost s.cfg sd) false 0 s = .ok t → R s t
  pend : ∀ s l, R s (s.setPending l)

/-! ## Running one rule after another -/

theorem Ends.trans {R : State → State → Prop} (hR : ∀ s t u, R s t → R t u → R s u) {s t : State} {r : Run}
    (h : R s t) (e : Ends R t r) : Ends R s r := by
  cases r with
  | ok u => exact hR _ _ _ h e
  | error u =>
    obtain ⟨v, k, info, hv, rfl⟩ := e
    exact ⟨v, k, info, hR _ _ _ h hv, rfl⟩

theorem Ends.bind {R : State → State → Prop} (hR : ∀ s t u, R s t → R t u → R s u) {s : State} {r : Run}
    {f : State → Run} (h : Ends R s r) (e : ∀ t, r = .ok t → Ends R t (f t)) : Ends R s (r >>= f) := by
  cases r with
  | ok t => exact Ends.trans hR h (e t rfl)
  | error t => exact h

/-- A channel fault ends where it stands. -/
theorem ends_channelFault {R : State → State → Prop} (k : FaultKind) (sd : Side) (c : Chan) {s t : State}
    (h : R s t) : Ends R s (channelFault k sd c t) := ⟨t, k, channelInfo sd c t, h, rfl⟩

/-- A run that ends in a state related to `s` by `R` can be read with any relation `R` implies from there. -/
theorem Ends.imp {R Q : State → State → Prop} {s : State} {r : Run} (h : Ends R s r) (f : ∀ t, R s t → Q s t) :
    Ends Q s r := by
  cases r with
  | ok t => exact f t h
  | error t =>
    obtain ⟨u, k, info, hu, rfl⟩ := h
    exact ⟨u, k, info, f u hu, rfl⟩

/-- One rule run after another, when neither faults. -/
theorem bind_ok {r : Run} {f : State → Run} {t : State} (e : (r >>= f) = .ok t) : ∃ u, r = .ok u ∧ f u = .ok t := by
  cases r with
  | error v => cases e
  | ok u => exact ⟨u, rfl, e⟩

/-! ## Addresses and counts -/

/-- The widths a configuration fixes (R7, log 25). -/
theorem valid_widths {p : Params} (h : p.Valid) : p.Widths := by
  obtain ⟨_, _, _, _, _, _, _, _, _, _, _, _, _, h⟩ := h
  exact h

/-- A count in granules is a multiple of `GRAN[s]` as a 32-bit word (R7, R162). -/
theorem gran_count {p : Params} (h : p.Valid) (sd : Side) (n : Nat) : (BitVec.ofNat 32 (n * p.gran sd)).toNat % p.gran sd = 0 := by
  obtain ⟨_, h4, h1⟩ := valid_widths h
  cases sd <;> simp only [Params.gran, h4, h1, BitVec.toNat_ofNat] <;> omega

/-- Word alignment as a remainder (R74). -/
theorem offWord_eq (v : Word) : offWord v = (v.toNat % 4 != 0) := by
  have h : (v.extractLsb' 0 2).toNat = v.toNat % 4 := by simp [BitVec.extractLsb'_toNat]
  unfold offWord
  rw [← h]
  by_cases e : v.extractLsb' 0 2 = 0
  · simp [e]
  · have : (v.extractLsb' 0 2).toNat ≠ 0 := fun h => e (BitVec.eq_of_toNat_eq h)
    rw [bne_iff_ne.2 e, bne_iff_ne.2 this]

/-- A mask that keeps the two low bits keeps the alignment. -/
theorem offWord_and (v m : Word) (h0 : m.getLsbD 0 = true) (h1 : m.getLsbD 1 = true) : offWord (v &&& m) = offWord v := by
  unfold offWord
  congr 1
  apply BitVec.eq_of_getLsbD_eq
  intro i hi
  have : i = 0 ∨ i = 1 := by omega
  rcases this with rfl | rfl <;> simp [h0, h1]

/-- Advancing by whole words keeps the alignment (R75). -/
theorem offWord_advanceAddr (sd : Side) (v : Word) : offWord (advanceAddr sd v 4) = offWord v := by
  have add : offWord (v + BitVec.ofNat 32 4) = offWord v := by
    rw [offWord_eq, offWord_eq, BitVec.toNat_add]
    congr 1
    simp only [BitVec.toNat_ofNat]
    omega
  cases sd with
  | sub => exact (offWord_and _ _ (by decide) (by decide)).trans add
  | main =>
    refine Eq.trans ?_ add
    unfold offWord
    congr 1
    apply BitVec.eq_of_getLsbD_eq
    intro i hi
    have : i = 0 ∨ i = 1 := by omega
    rcases this with rfl | rfl <;> simp [advanceAddr]

/-- An advanced address stays within its stored field (R75). -/
theorem advanceAddr_mask (sd : Side) (v : Word) (k : Nat) : advanceAddr sd v k &&& ~~~addrMask sd = 0 := by
  cases sd with
  | main => simp [addrMask]
  | sub =>
    rw [advanceAddr, addrMask, BitVec.and_assoc]
    simp

/-- A tracked count stays within its register (R36, R161). -/
theorem trackCnt_mask (p : Params) (sd : Side) (chcr cnt : Word) (n : Nat) (h : cnt &&& ~~~cntMask sd = 0) :
    trackCnt p sd chcr cnt n &&& ~~~cntMask sd = 0 := by
  unfold trackCnt
  generalize ceilDiv n (p.gran sd) = n
  cases sd with
  | sub => simp [cntMask]
  | main =>
    simp only [trackGranules, setLow16, cntMask] at *
    apply BitVec.eq_of_getLsbD_eq
    intro i hi
    have hb := congrArg (fun w => BitVec.getLsbD w i) h
    simp only [BitVec.getLsbD_and, BitVec.getLsbD_or, BitVec.getLsbD_setWidth] at hb ⊢
    by_cases h16 : i < 16
    · interval_cases i <;> simp
    · have : (BitVec.ofNat 16 n).getLsbD i = false := BitVec.getLsbD_of_ge _ _ (by omega)
      rw [this]
      interval_cases i <;> simp_all

/-- The bits of `M = 2^NCH - 1` (R185). -/
theorem channelBits_getLsbD (p : Params) (sd : Side) (hp : p.Valid) (n : Nat) :
    (channelBits p sd).getLsbD n = decide (n < p.nch sd) := by
  have h : p.nch sd ≤ 16 := by
    cases sd
    · exact hp.1
    · exact hp.2.1
  unfold channelBits
  rw [BitVec.getLsbD_ofNat, Nat.testBit_two_pow_sub_one]
  by_cases h1 : n < p.nch sd <;> simp [h1]
  omega

/-- A single bit. -/
theorem getLsbD_bit (k n : Nat) : ((1 : Word) <<< k).getLsbD n = (decide (n < 32) && n == k) := by
  rw [show (1 : Word) = BitVec.twoPow 32 0 by decide, BitVec.getLsbD_shiftLeft, BitVec.getLsbD_twoPow]
  by_cases h : n = k
  · subst h
    simp
  · by_cases h2 : n < k
    · simp [h, h2]
    · simp [h, h2, show ¬0 = n - k by omega]

/-- A counted-down `rem` reads back (R172). -/
theorem toNat_rem (w : Word) (n : Nat) : (BitVec.ofNat 32 (w.toNat - n)).toNat = w.toNat - n := by
  rw [BitVec.toNat_ofNat, Nat.mod_eq_of_lt]
  have := w.isLt
  omega

/-- MADR advanced by one word (R174). -/
theorem kept_stepMadr (p : Params) (sd : Side) (c : Chan) (ch : Channel) :
    Kept p sd c ch { ch with madr := advanceAddr sd ch.madr 4 } where
  str := rfl
  line := rfl
  masks h := ⟨h.1, advanceAddr_mask sd ch.madr 4, h.2.2⟩
  aligned h hr := (offWord_advanceAddr sd ch.madr).trans (h hr)
  rem _ _ h := h

/-- The count after a burst (R36, R172). -/
theorem kept_count (p : Params) (sd : Side) (c : Chan) (ch : Channel) (n : Nat)
    (hn : p.Valid → fifoChannel p sd c = false → ch.rem.toNat % p.gran sd = 0 → n % p.gran sd = 0) :
    Kept p sd c ch
      { ch with rem := BitVec.ofNat 32 (ch.rem.toNat - n), cnt := trackCnt p sd ch.chcr ch.cnt (ch.rem.toNat - n) } where
  str := rfl
  line := rfl
  masks h := ⟨h.1, h.2.1, h.2.2.1, trackCnt_mask p sd ch.chcr ch.cnt _ h.2.2.2⟩
  aligned h hr := h fun e => hr (by rw [e]; simp)
  rem h1 h2 h3 := by
    have h4 := hn h1 h2 h3
    rw [toNat_rem]
    rcases Nat.le_total ch.rem.toNat n with h | h
    · rw [Nat.sub_eq_zero_of_le h, Nat.zero_mod]
    · exact Nat.mod_eq_zero_of_dvd (Nat.dvd_sub (Nat.dvd_of_mod_eq_zero h3) (Nat.dvd_of_mod_eq_zero h4))

/-- The count and the end flag a start loads (R162, R163). -/
theorem kept_load (p : Params) (sd : Side) (c : Chan) (ch : Channel) (r : Word)
    (ha : r ≠ 0 → offWord ch.madr = false) (hr : p.Valid → r.toNat % p.gran sd = 0) :
    Kept p sd c ch { ch with rem := r, tagEnd := false } where
  str := rfl
  line := rfl
  masks h := h
  aligned _ h := ha h
  rem h _ _ := hr h

/-! ## Moving words -/

/-- Taking a word faults only with nothing else changed (R174, R223). -/
theorem takeWord_faults {sd : Side} {c : Chan} {s t : State} (e : takeWord sd c s = .error t) :
    ∃ k info, t = takeFault k info s := by
  unfold takeWord at e
  split at e
  · exact ⟨_, _, (fifoPop_error e).2⟩
  · cases e

@[simp] theorem periphRead_chan (s : State) (sd : Side) (c : Chan) (x : Side) (n : Chan) :
    (periphRead sd c s).2.chan x n = s.chan x n := by
  unfold periphRead
  split <;> simp

@[simp] theorem periphRead_cfg (s : State) (sd : Side) (c : Chan) : (periphRead sd c s).2.cfg = s.cfg := by
  unfold periphRead
  split <;> rfl

@[simp] theorem periphWrite_chan (s : State) (sd : Side) (c : Chan) (w : Word) (x : Side) (n : Chan) :
    (periphWrite sd c w s).chan x n = s.chan x n := by
  simp [periphWrite]

/-- Taking a word changes no channel and no configuration (R174). -/
theorem takeWord_frame {sd : Side} {c : Chan} {s t : State} {w : Word} (e : takeWord sd c s = .ok (w, t)) :
    t.cfg = s.cfg ∧ ∀ x n, t.chan x n = s.chan x n := by
  unfold takeWord at e
  split at e
  · obtain ⟨rest, _, rfl⟩ := fifoPop_ok e
    exact ⟨rfl, fun _ _ => by simp⟩
  · have : t = (periphRead sd c s).2 := by rw [Except.ok.inj e]
    exact this ▸ ⟨by simp, fun _ _ => by simp⟩

/-- Giving a word changes no channel and no configuration (R174). -/
theorem giveWord_frame {sd : Side} {c : Chan} {s t : State} {w : Word} (e : giveWord sd c w s = .ok t) :
    t.cfg = s.cfg ∧ ∀ x n, t.chan x n = s.chan x n := by
  unfold giveWord at e
  split at e
  · obtain ⟨_, rfl⟩ := fifoPush_ok e
    exact ⟨rfl, fun _ _ => by simp⟩
  · exact Except.ok.inj e ▸ ⟨rfl, fun _ _ => by simp⟩

/-- A channel number with no channel: its update changes nothing (R30). -/
theorem setChan_absent (s : State) (sd : Side) (c : Chan) (ch : Channel) (h : ¬c.toNat < (s.dma sd).chans.length) :
    s.setChan sd c ch = s := by
  unfold State.setChan
  rw [List.set_eq_of_length_le (Nat.le_of_not_lt h)]
  cases sd <;> rfl

/-- A tag's data address passes the check only when it is word-aligned (R74, R176). -/
theorem offWord_of_tagDataOff {p : Params} {c : Chan} {v : Word} (h : tagDataOff p c v = false) : offWord v = false := by
  unfold tagDataOff at h
  split at h
  · exact h
  · have e : (v.extractLsb' 0 4).extractLsb' 0 2 = v.extractLsb' 0 2 := by
      apply BitVec.eq_of_getLsbD_eq
      intro i hi
      have : i = 0 ∨ i = 1 := by omega
      rcases this with rfl | rfl <;> simp
    simp only [offQuad, offWord, bne_eq_false_iff_eq] at *
    rw [← e, h]
    rfl

/-- A channel of which only MADR moves. -/
theorem stepMadr_chan (sd : Side) (c : Chan) (s : State) :
    (stepMadr sd c s).chan sd c = { s.chan sd c with madr := ((stepMadr sd c s).chan sd c).madr } := by
  unfold stepMadr
  by_cases h : c.toNat < (s.dma sd).chans.length
  · rw [chan_setChan_self s sd c _ h]
  · rw [setChan_absent s sd c _ h]

/-- A word moved changes nothing of its channel but MADR (R174). -/
theorem moveWord_chan {sd : Side} {c : Chan} {s t : State} (e : moveWord sd c s = .ok t) :
    t.cfg = s.cfg ∧ t.chan sd c = { s.chan sd c with madr := (t.chan sd c).madr } := by
  unfold moveWord at e
  simp only at e
  split at e
  · split at e
    · cases e
    · rename_i w u h
      obtain ⟨hc, hn⟩ := takeWord_frame h
      obtain rfl := Except.ok.inj e
      refine ⟨hc, ?_⟩
      have := stepMadr_chan sd c (u.setMem (u.mem.writeWord (effectiveAddr s.cfg sd (s.chan sd c).madr).1
        (effectiveAddr s.cfg sd (s.chan sd c).madr).2 w))
      simpa [hn] using this
  · split at e
    · cases e
    · rename_i u h
      obtain ⟨hc, hn⟩ := giveWord_frame h
      obtain rfl := Except.ok.inj e
      exact ⟨hc, by simpa [hn] using stepMadr_chan sd c u⟩

/-- A burst's words change nothing of its channel but MADR (R172, R174). -/
theorem moveWords_chan {sd : Side} {c : Chan} {n : Nat} {s t : State} (e : moveWords sd c n s = .ok t) :
    t.cfg = s.cfg ∧ t.chan sd c = { s.chan sd c with madr := (t.chan sd c).madr } := by
  induction n generalizing s with
  | zero => exact Except.ok.inj e ▸ ⟨rfl, rfl⟩
  | succ n ih =>
    unfold moveWords at e
    split at e
    · cases e
    · rename_i u h
      obtain ⟨h1, h2⟩ := moveWord_chan h
      obtain ⟨h3, h4⟩ := ih e
      exact ⟨h3.trans h1, by rw [h4, h2]⟩

/-- A main-side tag changes CHCR within its stored bits (R31, R176). -/
theorem tag_chcr_mask (lo v : Word) (h : v &&& ~~~chcrMask .main = 0) :
    ((lo &&& 0xFFFF0000) ||| (v &&& 0x0000FFFF)) &&& ~~~chcrMask .main = 0 := by
  have e : ∀ a b m : Word, (a ||| b) &&& m = (a &&& m) ||| (b &&& m) := by
    intro a b m
    apply BitVec.eq_of_getLsbD_eq
    intro i _
    simp only [BitVec.getLsbD_and, BitVec.getLsbD_or]
    cases m.getLsbD i <;> simp
  rw [e, BitVec.and_assoc, BitVec.and_assoc, BitVec.and_comm 0x0000FFFF, ← BitVec.and_assoc v, h]
  simp [chcrMask]

section
variable {R : State → State → Prop} (hR : MoveClosed R)
include hR

theorem takeWord_related {sd : Side} {c : Chan} {s t : State} {w : Word} (e : takeWord sd c s = .ok (w, t)) :
    R s t := by
  unfold takeWord at e
  split at e
  · obtain ⟨rest, hq, rfl⟩ := fifoPop_ok e
    exact hR.pop s _ w rest hq
  · have : t = (periphRead sd c s).2 := by rw [Except.ok.inj e]
    exact this ▸ hR.read s sd c

theorem giveWord_ends (sd : Side) (c : Chan) (w : Word) (s : State) : Ends R s (giveWord sd c w s) := by
  unfold giveWord
  split
  · rename_i d _
    cases e : fifoPush d w s with
    | ok t =>
      obtain ⟨hlt, rfl⟩ := fifoPush_ok e
      exact hR.push s _ _ hlt
    | error t => exact ⟨s, _, _, hR.refl s, (fifoPush_error e).2⟩
  · exact hR.write s sd c w

theorem stepMadr_related (sd : Side) (c : Chan) (s : State) (ha : active s sd c = true) : R s (stepMadr sd c s) :=
  hR.chan s sd c _ ha (kept_stepMadr s.cfg sd c _)

/-- One word moved (R174). -/
theorem moveWord_ends (sd : Side) (c : Chan) (s : State) (ha : active s sd c = true) :
    Ends R s (moveWord sd c s) := by
  unfold moveWord
  simp only
  split
  · split
    · rename_i t e
      obtain ⟨k, info, rfl⟩ := takeWord_faults e
      exact ⟨s, k, info, hR.refl s, rfl⟩
    · rename_i w t e
      refine hR.trans _ _ _ (takeWord_related hR e) (hR.trans _ _ _ (hR.mem t _ _ w) (stepMadr_related hR sd c _ ?_))
      simpa [active, (takeWord_frame e).2] using ha
  · have g := giveWord_ends hR sd c (s.mem.readWord (effectiveAddr s.cfg sd (s.chan sd c).madr).1
      (effectiveAddr s.cfg sd (s.chan sd c).madr).2) s
    split
    · rename_i t e
      rw [e] at g
      exact g
    · rename_i t e
      rw [e] at g
      refine hR.trans _ _ _ g (stepMadr_related hR sd c t ?_)
      simpa [active, (giveWord_frame e).2] using ha

/-- A burst's words moved (R172). -/
theorem moveWords_ends (sd : Side) (c : Chan) (n : Nat) (s : State) (ha : active s sd c = true) :
    Ends R s (moveWords sd c n s) := by
  induction n generalizing s with
  | zero => exact hR.refl s
  | succ n ih =>
    have m := moveWord_ends hR sd c s ha
    unfold moveWords
    split
    · rename_i t e
      rw [e] at m
      exact m
    · rename_i t e
      rw [e] at m
      refine Ends.trans hR.trans m (ih t ?_)
      unfold active at *
      rw [(moveWord_chan e).2]
      exact ha

/-- A main-side tag fetched with nothing left to move (R176). -/
theorem tagFetchMain_ends (c : Chan) (s : State) (ha : active s .main c = true) (hr : (s.chan .main c).rem = 0) :
    Ends R s (tagFetchMain c s) := by
  have kept : ∀ (lo : Word) (q : BitVec 16) (madr tadr rem : Word) (e : Bool),
      (rem ≠ 0 → offWord madr = false) → (s.cfg.Valid → rem.toNat % s.cfg.gran .main = 0) →
      Kept s.cfg .main c (s.chan .main c)
        { s.chan .main c with
          chcr := (lo &&& 0xFFFF0000) ||| ((s.chan .main c).chcr &&& 0x0000FFFF), cnt := q.setWidth 32, madr := madr
          tadr := tadr, rem := rem, tagEnd := e } := by
    intro lo q madr tadr rem e h1 h2
    refine ⟨by simp [strOf], rfl, fun h => ⟨?_, by simp [addrMask], by simp [addrMask], ?_⟩, fun _ => h1, fun h _ _ => h2 h⟩
    · exact tag_chcr_mask _ _ h.1
    · apply BitVec.eq_of_getLsbD_eq
      intro i hi
      by_cases h16 : i < 16
      · interval_cases i <;> simp [cntMask]
      · simp only [BitVec.getLsbD_and, BitVec.getLsbD_setWidth]
        rw [BitVec.getLsbD_of_ge q i (by omega)]
        simp
  unfold tagFetchMain
  simp only
  split
  · exact ends_channelFault _ _ _ (hR.refl s)
  · split
    · exact ends_channelFault _ _ _ (hR.chan s .main c _ ha
        (kept _ _ (s.chan .main c).madr (s.chan .main c).tadr (s.chan .main c).rem (s.chan .main c).tagEnd
          (fun h => absurd hr h) (fun _ => by rw [hr]; exact Nat.zero_mod _)))
    · rename_i madr tadr last _
      split
      · exact ends_channelFault _ _ _ (hR.chan s .main c _ ha
          (kept _ _ madr tadr (s.chan .main c).rem (s.chan .main c).tagEnd (fun h => absurd hr h) (fun _ => by rw [hr]; exact Nat.zero_mod _)))
      · rename_i hoff
        refine hR.chan s .main c _ ha (kept _ _ madr tadr _ _ (fun _ => ?_) fun h => ?_)
        · exact offWord_of_tagDataOff (by simpa using hoff)
        · rw [Nat.mul_comm]
          exact gran_count h .main _

/-- A secondary-side tag fetched with nothing left to move (R177). -/
theorem tagFetchSub_ends (c : Chan) (s : State) (ha : active s .sub c = true) : Ends R s (tagFetchSub c s) := by
  unfold tagFetchSub
  simp only
  split
  · exact ends_channelFault _ _ _ (hR.refl s)
  · split
    · exact ends_channelFault _ _ _ (hR.refl s)
    · rename_i hoff
      refine hR.chan s .sub c _ ha ⟨rfl, rfl, fun h => ⟨h.1, ?_, advanceAddr_mask .sub _ 8, h.2.2.2⟩, fun _ _ => ?_, fun h _ _ => ?_⟩
      · simp only [subTagOf, addrMask, BitVec.and_assoc]
        simp
      · simpa using hoff
      · show (BitVec.ofNat 32 (s.cfg.granSub * _)).toNat % s.cfg.gran .sub = 0
        rw [Nat.mul_comm]
        exact gran_count h .sub _

/-- A tag fetched with nothing left to move (R176, R177). -/
theorem tagFetch_ends (sd : Side) (c : Chan) (s : State) (ha : active s sd c = true) (hr : (s.chan sd c).rem = 0) :
    Ends R s (tagFetch sd c s) := by
  cases sd
  · exact tagFetchMain_ends hR c s ha hr
  · exact tagFetchSub_ends hR c s ha

/-- A tag fetched where one is due (R172). -/
theorem fetchIfNeeded_ends (sd : Side) (c : Chan) (s : State) (ha : active s sd c = true) :
    Ends R s (fetchIfNeeded sd c s) := by
  unfold fetchIfNeeded
  split
  · rename_i h
    simp only [needsTag, Bool.and_eq_true, beq_iff_eq] at h
    exact tagFetch_ends hR sd c s ha h.1.2
  · exact hR.refl s

end

/-! ## Nothing to do -/

/-- With no start deferred ProcessPendingStarts changes nothing (R184). -/
theorem processPendingStarts_nil {s : State} (h : s.pendingStarts = []) : processPendingStarts s = .ok s := by
  unfold processPendingStarts
  simp [drainPending, h]

/-- A channel that is Running, or whose gate is closed, does not start (R171). -/
theorem checkRunning_stays {sd : Side} {c : Chan} {s : State} (h : running s sd c = true ∨ gate s sd c = false) :
    checkRunning sd c s = .ok s := by
  unfold checkRunning
  rcases h with h | h <;> simp [h]

/-- A write mask keeps the STR bit (R161). -/
theorem strOf_chcrMask (sd : Side) (v : Word) : strOf sd (v &&& chcrMask sd) = strOf sd v := by
  cases sd <;> simp [strOf, chcrMask]

/-! ## Which channels are active -/

/-- A channel's update that keeps its STR bit keeps every channel's. -/
theorem active_setChan (s : State) (sd x : Side) (c n : Chan) (ch : Channel)
    (h : strOf sd ch.chcr = strOf sd (s.chan sd c).chcr) : active (s.setChan sd c ch) x n = active s x n := by
  unfold active
  by_cases hx : x = sd
  · subst hx
    by_cases hn : n = c
    · subst hn
      by_cases hl : n.toNat < (s.dma x).chans.length
      · rw [chan_setChan_self s x n ch hl, h]
      · have hs : ((s.dma x).chans.set n.toNat ch) = (s.dma x).chans := List.set_eq_of_length_le (Nat.le_of_not_lt hl)
        simp [State.chan, State.setChan, hs]
    · rw [chan_setChan_ne s x c n ch hn]
  · rw [chan_setChan_side s sd x c n ch hx]

/-- Moving words and fetching tags changes no configuration and starts or stops no channel. -/
theorem moveClosed_active :
    MoveClosed fun s t => t.cfg = s.cfg ∧ ∀ sd c, active t sd c = active s sd c where
  refl _ := ⟨rfl, fun _ _ => rfl⟩
  trans _ _ _ h1 h2 := ⟨h2.1.trans h1.1, fun sd c => (h2.2 sd c).trans (h1.2 sd c)⟩
  chan s sd c ch _ h := ⟨rfl, fun x n => active_setChan s sd x c n ch h.str⟩
  mem _ _ _ _ := ⟨rfl, fun _ _ => by simp [active]⟩
  push _ _ _ _ := ⟨rfl, fun _ _ => by simp [active]⟩
  pop _ _ _ _ _ := ⟨rfl, fun _ _ => by simp [active]⟩
  read s sd c := ⟨by simp, fun _ _ => by simp [active]⟩
  write _ _ _ _ := ⟨rfl, fun _ _ => by simp [active]⟩

/-! ## Bursts, deferred starts, re-evaluation -/

/-- The three stages of a burst that does not fault (R172): the tag, the words, the event. -/
theorem burstStep_ok {sd : Side} {c : Chan} {s t : State} (e : burstStep sd c s = .ok t) :
    ∃ s1 s2, fetchIfNeeded sd c s = .ok s1 ∧ moveWords sd c (burstSize sd c s1) s1 = .ok s2 ∧
      schedule (dmaHandle sd) c (burstCost s1.cfg sd) false 0 (countWords sd c (burstSize sd c s1) s2) = .ok t := by
  obtain ⟨s1, h1, e⟩ := bind_ok e
  obtain ⟨s2, h2, e⟩ := bind_ok e
  exact ⟨s1, s2, h1, h2, e⟩

/-- A burst of a channel without a FIFO moves whole granules (R173). -/
theorem burstSize_gran (sd : Side) (c : Chan) (s : State) (hp : s.cfg.Valid) (hf : fifoChannel s.cfg sd c = false)
    (hr : (s.chan sd c).rem.toNat % s.cfg.gran sd = 0) : burstSize sd c s % s.cfg.gran sd = 0 := by
  simp only [fifoChannel, Bool.or_eq_false_iff, Option.isSome_eq_false_iff, Option.isNone_iff_eq_none] at hf
  obtain ⟨_, h4, h1⟩ := valid_widths hp
  obtain ⟨_, _, _, _, _, hb, _⟩ := hp
  simp only [burstSize, hf.1, hf.2]
  cases sd <;> simp only [Params.gran, h4, h1] at hr ⊢ <;> omega

/-- A start of a channel number with no channel moves nothing (R30, R162). -/
theorem startChannel_absent {R : State → State → Prop} (hR : ∀ s, R s s) (sd : Side) (c : Chan) (s : State)
    (h : ¬c.toNat < (s.dma sd).chans.length) : Ends R s (startChannel sd c s) := by
  have hg : gate s sd c = false := by
    have : active s sd c = false := by
      rw [← Bool.not_eq_true]
      exact fun ha => h (chan_exists_of_active s sd c ha)
    simp [gate, this]
  have stays : ∀ ch, Ends R s (checkRunning sd c (s.setChan sd c ch)) := by
    intro ch
    rw [setChan_absent s sd c ch h, checkRunning_stays (.inr hg)]
    exact hR s
  unfold startChannel
  simp only
  iterate 5
    split
    · exact ends_channelFault _ _ _ (hR s)
  split
  · split
    · exact ends_channelFault _ _ _ (hR s)
    · split
      · exact ends_channelFault _ _ _ (hR s)
      · exact stays _
  · split
    · exact ends_channelFault _ _ _ (hR s)
    · exact stays _

section
variable {R : State → State → Prop} (hR : BurstClosed R)
include hR

/-- A burst of an active channel (R172). -/
theorem burstStep_ends (sd : Side) (c : Chan) (s : State) (ha : active s sd c = true) :
    Ends R s (burstStep sd c s) := by
  have hA := moveClosed_active
  refine Ends.bind hR.trans (fetchIfNeeded_ends hR.toMoveClosed sd c s ha) fun s1 e1 => ?_
  have a1 := fetchIfNeeded_ends hA sd c s ha
  rw [e1] at a1
  have ha1 : active s1 sd c = true := by rw [a1.2, ha]
  refine Ends.bind hR.trans (moveWords_ends hR.toMoveClosed sd c _ s1 ha1) fun s2 e2 => ?_
  have a2 := moveWords_ends hA sd c (burstSize sd c s1) s1 ha1
  rw [e2] at a2
  have ha2 : active s2 sd c = true := by rw [a2.2, ha1]
  obtain ⟨c2, k2⟩ := moveWords_chan e2
  have kept : Kept s2.cfg sd c (s2.chan sd c) { s2.chan sd c with
      rem := BitVec.ofNat 32 ((s2.chan sd c).rem.toNat - burstSize sd c s1)
      cnt := trackCnt s2.cfg sd (s2.chan sd c).chcr (s2.chan sd c).cnt ((s2.chan sd c).rem.toNat - burstSize sd c s1) } := by
    refine kept_count _ _ _ _ _ fun h1 h2 h3 => ?_
    rw [k2] at h3
    rw [c2] at h1 h2 h3 ⊢
    exact burstSize_gran sd c s1 h1 h2 h3
  have r3 : R s2 (countWords sd c (burstSize sd c s1) s2) := hR.chan s2 sd c _ ha2 kept
  have a3 : active (countWords sd c (burstSize sd c s1) s2) sd c = true := by
    exact (active_setChan s2 sd sd c c _ kept.str).trans ha2
  refine Ends.trans hR.trans r3 ?_
  have hcfg : (countWords sd c (burstSize sd c s1) s2).cfg = s1.cfg := c2
  cases e : schedule (dmaHandle sd) c (burstCost s1.cfg sd) false 0 (countWords sd c (burstSize sd c s1) s2) with
  | error t =>
    obtain ⟨k, info, rfl⟩ := schedule_error e
    exact ⟨_, k, info, hR.refl _, rfl⟩
  | ok t => exact hR.sched _ sd c t a3 (by rw [hcfg]; exact e)

theorem checkRunning_ends (sd : Side) (c : Chan) (s : State) : Ends R s (checkRunning sd c s) := by
  unfold checkRunning
  split
  · exact hR.refl s
  · split
    · rename_i _ hg
      refine burstStep_ends hR sd c s ?_
      simp only [gate, Bool.and_eq_true] at hg
      exact hg.1.1.1
    · exact hR.refl s

theorem startPending_ends (p : Side × Chan) (s : State) : Ends R s (startPending p s) := by
  unfold startPending
  split
  · exact checkRunning_ends hR _ _ s
  · exact hR.refl s

theorem drainPending_ends (fuel : Nat) (s : State) : Ends R s (drainPending fuel s) := by
  induction fuel generalizing s with
  | zero => exact hR.refl s
  | succ n ih =>
    unfold drainPending
    split
    · exact hR.refl s
    · rename_i p rest _
      have h := Ends.trans hR.trans (hR.pend s rest) (startPending_ends hR p (s.setPending rest))
      split
      · rename_i t e
        rw [e] at h
        exact h
      · rename_i t e
        rw [e] at h
        exact Ends.trans hR.trans h (ih t)

/-- The deferred starts (R184). -/
theorem processPendingStarts_ends (s : State) : Ends R s (processPendingStarts s) := drainPending_ends hR _ s

theorem reEvaluateFrom_ends (sd : Side) (c n : Nat) (s : State) : Ends R s (reEvaluateFrom sd c n s) := by
  induction n generalizing c s with
  | zero => exact hR.refl s
  | succ n ih =>
    unfold reEvaluateFrom
    simp only
    split
    · have h := checkRunning_ends hR sd (BitVec.ofNat 6 c) s
      split
      · rename_i t e
        rw [e] at h
        exact h
      · rename_i t e
        rw [e] at h
        exact Ends.trans hR.trans h (ih (c + 1) t)
    · exact ih (c + 1) s

/-- The re-evaluation of a side's channels (R186). -/
theorem reEvaluate_ends (sd : Side) (s : State) : Ends R s (reEvaluate sd s) := reEvaluateFrom_ends hR sd 0 _ s

/-- A start of a channel whose CHCR is stored with STR 1 (R162): its register checks, then the first burst. -/
theorem startChannel_ends (sd : Side) (c : Chan) (s : State) (ha : active s sd c = true) :
    Ends R s (startChannel sd c s) := by
  unfold startChannel
  simp only
  iterate 5
    split
    · exact ends_channelFault _ _ _ (hR.refl s)
  split
  · split
    · exact ends_channelFault _ _ _ (hR.refl s)
    · split
      · exact ends_channelFault _ _ _ (hR.refl s)
      · rename_i hoff
        refine Ends.trans hR.trans ?_ (checkRunning_ends hR sd c _)
        refine hR.chan s sd c _ ha (kept_load _ _ _ _ _ (fun _ => ?_) fun h => ?_)
        · simp only [not_or, Bool.not_eq_true] at hoff
          exact hoff.1
        · exact gran_count h sd _
  · split
    · exact ends_channelFault _ _ _ (hR.refl s)
    · refine Ends.trans hR.trans ?_ (checkRunning_ends hR sd c _)
      exact hR.chan s sd c _ ha (kept_load _ _ _ _ _ (fun h => absurd rfl h) fun _ => Nat.zero_mod _)

/-- A channel's event (R178). -/
theorem dmaEvent_ends (sd : Side) (c : Chan) (s : State) (hc : R s (complete sd c s)) :
    Ends R s (dmaEvent sd c s) := by
  unfold dmaEvent
  split
  · exact hR.refl s
  · rename_i ha
    split
    · exact Ends.trans hR.trans hc (processPendingStarts_ends hR _)
    · refine Ends.bind hR.trans ?_ fun t _ => processPendingStarts_ends hR t
      split
      · exact burstStep_ends hR sd c s (by simpa using ha)
      · exact hR.refl s

end

end Sys2Proof.Machine
end

