-- ==== Sys2Proof/Laws/Burst.lean ====
section
/-! SUPPORT. What one burst does: the words it gives or takes, the event it leaves (R172 to R175), and the starts it defers
(R184, R226). -/

namespace Sys2Proof.Machine

open Sys2Proof.Safety

/-! ## Channel updates -/

/-- Writing back what a channel holds changes nothing. -/
theorem setChan_same (s : State) (sd : Side) (c : Chan) (h : c.toNat < (s.dma sd).chans.length) :
    s.setChan sd c (s.chan sd c) = s := by
  have : (s.dma sd).chans.set c.toNat (s.chan sd c) = (s.dma sd).chans := by
    apply List.ext_getElem (by simp)
    intro i h1 h2
    rw [List.getElem_set]
    split
    · rename_i hi; subst hi; simp [State.chan, List.getD, h]
    · rfl
  unfold State.setChan
  rw [this]
  cases sd <;> rfl

/-- Of two updates of a channel the second stands. -/
theorem setChan_setChan (s : State) (sd : Side) (c : Chan) (a b : Channel) :
    (s.setChan sd c a).setChan sd c b = s.setChan sd c b := by
  cases sd <;> simp [State.setChan, State.setDma, State.dma]

/-! ## The words of a burst -/

/-- `n` words given to a peripheral, in address order (R174). -/
theorem moveWords_gives (sd : Side) (c : Chan) (n : Nat) : ∀ (s : State), toMem s sd c = false →
    produces s.cfg sd c = none → c.toNat < (s.dma sd).chans.length →
    moveWords sd c n s = .ok ((s.setChan sd c { s.chan sd c with madr := advanceWords sd (s.chan sd c).madr n }).setAgents { s.agents with periphLog := s.agents.periphLog ++ (wordsFrom s.cfg sd s.mem (s.chan sd c).madr n).map (.write sd c) }) := by
  induction n with
  | zero =>
    intro s ht hp hc
    simp only [moveWords, advanceWords, wordsFrom, List.map_nil, List.append_nil]
    have : s.setChan sd c { s.chan sd c with madr := (s.chan sd c).madr } = s := setChan_same s sd c hc
    rw [this]; rfl
  | succ n ih =>
    intro s ht hp hc
    have m : moveWord sd c s = .ok (stepMadr sd c (periphWrite sd c (s.mem.readWord (effectiveAddr s.cfg sd (s.chan sd
        c).madr).1 (effectiveAddr s.cfg sd (s.chan sd c).madr).2) s)) := by
      unfold moveWord; simp only [ht, giveWord, hp]; rfl
    unfold moveWords; rw [m]; simp only
    set u := stepMadr sd c (periphWrite sd c (s.mem.readWord (effectiveAddr s.cfg sd (s.chan sd c).madr).1
        (effectiveAddr s.cfg sd (s.chan sd c).madr).2) s) with hu
    have uc : u.chan sd c = { s.chan sd c with madr := advanceAddr sd (s.chan sd c).madr 4 } := by
      rw [hu, stepMadr, chan_setChan_self]
      · simp
      · cases sd <;> exact hc
    rw [ih u]
    · rw [uc]
      have e1 : u.cfg = s.cfg := by simp [hu, stepMadr, periphWrite]
      have e2 : u.mem = s.mem := by simp [hu, stepMadr, periphWrite]
      have e3 : u.agents = { s.agents with periphLog := s.agents.periphLog ++ [.write sd c (s.mem.readWord (effectiveAddr s.cfg sd (s.chan sd c).madr).1 (effectiveAddr s.cfg sd (s.chan sd c).madr).2)] } := by simp [hu, stepMadr, periphWrite]
      have e4 : ∀ x g, (u.setChan sd c x).setAgents g = (s.setChan sd c x).setAgents g := by
        intro x g; rw [hu, stepMadr, setChan_setChan]; cases sd <;> rfl
      rw [e1, e2, e3, e4]
      simp only [advanceWords, wordsFrom, List.map_cons, List.append_assoc, List.singleton_append]
    · unfold toMem at *; rw [uc]; exact ht
    · simpa [hu, stepMadr, periphWrite] using hp
    · rw [hu, stepMadr]; cases sd <;> simpa [State.setChan, State.setDma, State.dma, periphWrite,
          State.setAgents] using hc

/-- `n` words taken from a peripheral's script into memory, in address order (R174). -/
theorem moveWords_takes (sd : Side) (c : Chan) (ws : List Word) : ∀ (s : State) (rest :
    List Word), toMem s sd c = true → consumes s.cfg sd c = none → c.toNat < (s.dma sd).chans.length →
    s.agents.periphIn = ws ++ rest →
    moveWords sd c ws.length s = .ok (((s.setChan sd c
        { s.chan sd c with madr := advanceWords sd (s.chan sd c).madr ws.length }).setMem (storeWords s.cfg sd (s.chan
        sd c).madr ws s.mem)).setAgents { s.agents with periphIn := rest, periphLog := s.agents.periphLog ++ ws.map (.read sd c) }) := by
  induction ws with
  | nil =>
    intro s rest ht hp hc hi
    simp only [moveWords, List.length_nil, advanceWords, storeWords, List.map_nil, List.append_nil]
    have : s.setChan sd c { s.chan sd c with madr := (s.chan sd c).madr } = s := setChan_same s sd c hc
    rw [this]; simp at hi; rw [← hi]; rfl
  | cons w ws ih =>
    intro s rest ht hp hc hi
    have pr : periphRead sd c s = (w, s.setAgents { s.agents with periphIn := ws ++ rest, periphLog := s.agents.periphLog ++ [.read sd c w] }) := by
      unfold periphRead; rw [hi]; rfl
    have m : moveWord sd c s = .ok (stepMadr sd c ((s.setAgents
        { s.agents with periphIn := ws ++ rest, periphLog := s.agents.periphLog ++ [.read sd c w] }).setMem
        (s.mem.writeWord (effectiveAddr s.cfg sd (s.chan sd c).madr).1 (effectiveAddr s.cfg sd (s.chan sd c).madr).2
        w))) := by
      unfold moveWord takeWord
      simp only [ht, if_true, hp, pr]; rfl
    simp only [List.length_cons]
    unfold moveWords; rw [m]; simp only
    set u := stepMadr sd c ((s.setAgents { s.agents with periphIn := ws ++ rest, periphLog := s.agents.periphLog ++ [.read sd c w] }).setMem (s.mem.writeWord (effectiveAddr s.cfg sd (s.chan sd c).madr).1 (effectiveAddr s.cfg sd (s.chan sd c).madr).2 w)) with hu
    have uc : u.chan sd c = { s.chan sd c with madr := advanceAddr sd (s.chan sd c).madr 4 } := by
      rw [hu, stepMadr, chan_setChan_self]
      · simp
      · cases sd <;> exact hc
    rw [ih u rest]
    · rw [uc]
      have e1 : u.cfg = s.cfg := by simp [hu, stepMadr]
      have e2 : u.mem = s.mem.writeWord (effectiveAddr s.cfg sd (s.chan sd c).madr).1 (effectiveAddr s.cfg sd (s.chan
          sd c).madr).2 w := by simp [hu, stepMadr]
      have e3 : u.agents = { s.agents with periphIn := ws ++ rest, periphLog := s.agents.periphLog ++ [.read sd c w] }
          := by simp [hu, stepMadr]
      have e4 : ∀ x m g, ((u.setChan sd c x).setMem m).setAgents g = ((s.setChan sd c x).setMem m).setAgents g := by
        intro x m g; rw [hu, stepMadr, setChan_setChan]; cases sd <;> rfl
      rw [e1, e2, e3, e4]
      simp only [advanceWords, storeWords, List.map_cons, List.append_assoc, List.singleton_append]
    · unfold toMem at *; rw [uc]; exact ht
    · simpa [hu, stepMadr] using hp
    · rw [hu, stepMadr]; cases sd <;> simpa [State.setChan, State.setDma, State.dma, State.setMem,
          State.setAgents] using hc
    · simp [hu, stepMadr]

/-- The words of a block are the words of its parts (R174, R175). -/
theorem wordsFrom_append (p : Params) (sd : Side) (m : Memory) (a b : Nat) :
    ∀ v, wordsFrom p sd m v (a + b) = wordsFrom p sd m v a ++ wordsFrom p sd m (advanceWords sd v a) b := by
  induction a with
  | zero => intro v; simp [wordsFrom, advanceWords]
  | succ a ih => intro v; rw [Nat.add_right_comm]; simp [wordsFrom, advanceWords, ih]

/-! ## The whole burst -/

/-- A block written in two parts is written whole. -/
theorem storeWords_append (p : Params) (sd : Side) (b : List Word) : ∀ (a : List Word) (v : Word) (m : Memory),
    storeWords p sd v (a ++ b) m = storeWords p sd (advanceWords sd v a.length) b (storeWords p sd v a m)
  | [], _, _ => rfl
  | _ :: a, _, _ => storeWords_append p sd b a _ _

/-- Removing an event that is not queued changes nothing (R114). -/
theorem removeEvent_self (h : Handle) (c : Chan) (s : State) (hr : queued h c s = false) :
    removeEvent h c s.queue = s.queue := by
  unfold removeEvent
  rw [List.filter_eq_self]
  intro e he
  unfold queued at hr
  rw [List.any_eq_false] at hr
  simpa using hr e he

/-- No tag is due for a channel that is not chained (R172). -/
theorem burstStep_unchained {sd : Side} {c : Chan} {s : State} (h : chained s sd c = false) :
    burstStep sd c s = burstBody sd c s := by
  unfold burstStep fetchIfNeeded needsTag
  simp [h]
  rfl

/-- A burst whose words leave `x` with MADR advanced ends with its counts and its event on `x` (R172, R175). -/
theorem burstBody_done {sd : Side} {c : Chan} {n : Nat} {s x : State} (hb : burstSize sd c s = n)
    (hm : moveWords sd c n s =
      .ok (x.setChan sd c { x.chan sd c with madr := advanceWords sd (x.chan sd c).madr n }))
    (hc : c.toNat < (x.dma sd).chans.length) (hx : x.cfg = s.cfg) (hr : running x sd c = false)
    (hn : x.now.toInt + burstCost s.cfg sd ≤ 2 ^ 63 - 1) : burstBody sd c s = .ok (burstDone sd c n x) := by
  unfold burstBody
  rw [hb, hm]
  show schedule (dmaHandle sd) c (burstCost s.cfg sd) false 0 (countWords sd c n _) = _
  have cw : countWords sd c n (x.setChan sd c { x.chan sd c with madr := advanceWords sd (x.chan sd c).madr n }) =
      x.setChan sd c (burstChannel x.cfg sd n (x.chan sd c)) := by
    unfold countWords
    simp only [chan_setChan_self x sd c _ hc, setChan_setChan]
    rfl
  rw [cw, schedule_inserts (by omega) (by simp) (by show x.now.toInt + _ ≤ maxTime; unfold maxTime; omega)]
  simp only [setChan_queue, removeEvent_self _ _ _ hr, setChan_now, setChan_seq]
  unfold burstDone putEvent
  rw [hx]
  rfl

/-- The burst of a channel that is not Running, from memory to its peripheral (R172 to R175). -/
theorem burstBody_gives (sd : Side) (c : Chan) (s : State) (ht : toMem s sd c = false)
    (hf : fifoChannel s.cfg sd c = false) (hc : c.toNat < (s.dma sd).chans.length) (hr : running s sd c = false)
    (hn : s.now.toInt + burstCost s.cfg sd ≤ 2 ^ 63 - 1) :
    burstBody sd c s = .ok (sentBurst sd c (min s.cfg.burstCap (s.chan sd c).rem.toNat) s) := by
  have hf' : consumes s.cfg sd c = none ∧ produces s.cfg sd c = none := by simpa [fifoChannel] using hf
  set n := min s.cfg.burstCap (s.chan sd c).rem.toNat with hn'
  set g : Agents := { s.agents with
    periphLog := s.agents.periphLog ++ (wordsFrom s.cfg sd s.mem (s.chan sd c).madr n).map (.write sd c) }
  have bs : burstSize sd c s = n := by unfold burstSize; rw [hf'.1, hf'.2]
  have mv := moveWords_gives sd c n s ht hf'.2 hc
  have e : sentBurst sd c n s = burstDone sd c n (s.setAgents g) := by cases sd <;> rfl
  rw [e]
  exact burstBody_done bs (mv.trans (by cases sd <;> rfl)) (by cases sd <;> exact hc) rfl hr hn

/-- The burst of a channel that is not Running, from its peripheral's script into memory (R172 to R175). -/
theorem burstBody_takes (sd : Side) (c : Chan) (s : State) (ws rest : List Word) (ht : toMem s sd c = true)
    (hf : fifoChannel s.cfg sd c = false) (hc : c.toNat < (s.dma sd).chans.length) (hr : running s sd c = false)
    (hn : s.now.toInt + burstCost s.cfg sd ≤ 2 ^ 63 - 1) (hi : s.agents.periphIn = ws ++ rest)
    (hl : ws.length = min s.cfg.burstCap (s.chan sd c).rem.toNat) :
    burstBody sd c s = .ok (takenBurst sd c ws rest s) := by
  have hf' : consumes s.cfg sd c = none ∧ produces s.cfg sd c = none := by simpa [fifoChannel] using hf
  set m := storeWords s.cfg sd (s.chan sd c).madr ws s.mem
  set g : Agents := { s.agents with periphIn := rest, periphLog := s.agents.periphLog ++ ws.map (.read sd c) }
  have bs : burstSize sd c s = ws.length := by unfold burstSize; rw [hf'.1, hf'.2, hl]
  have mv := moveWords_takes sd c ws s rest ht hf'.1 hc hi
  have e : takenBurst sd c ws rest s = burstDone sd c ws.length ((s.setMem m).setAgents g) := by cases sd <;> rfl
  rw [e]
  exact burstBody_done bs (mv.trans (by cases sd <;> rfl)) (by cases sd <;> exact hc) rfl hr hn

/-! ## The starts a burst defers -/

/-- A pop can raise only the producer's line (R226). -/
theorem risenDrqs_pop {s : State} {d w rest} (hq : s.fifo d = w :: rest) : risenDrqs s (s.setFifo d rest) d =
    if producerDrq s d = false ∧ producerDrq (s.setFifo d rest) d = true then [producerOf s.cfg d] else [] := by
  unfold risenDrqs
  have : ¬ (consumerDrq s d = false ∧ consumerDrq (s.setFifo d rest) d = true) := by
    rintro ⟨a, b⟩; unfold consumerDrq at a; rw [hq] at a; simp at a
  rw [if_neg this]; rfl

/-- A push can raise only the consumer's line (R226). -/
theorem risenDrqs_push {s : State} {d w} : risenDrqs s (s.setFifo d (s.fifo d ++ [w])) d =
    if consumerDrq s d = false ∧ consumerDrq (s.setFifo d (s.fifo d ++ [w])) d = true then [consumerOf s.cfg d] else
        [] := by
  unfold risenDrqs
  have : ¬ (producerDrq s d = false ∧ producerDrq (s.setFifo d (s.fifo d ++ [w])) d = true) := by
    rintro ⟨a, b⟩; unfold producerDrq at a b; rw [decide_eq_false_iff_not] at a; rw [decide_eq_true_eq] at b
    cases d <;> simp [State.setFifo, State.fifo] at a b <;> omega
  rw [if_neg this]; simp [State.setFifo]

/-- `n` words given to the FIFO that a channel produces, in address order; the consumer's line rises on the first word into
an empty FIFO (R174, R222, R226). -/
theorem moveWords_pushes (sd : Side) (c : Chan) (d : Dir) (n : Nat) : ∀ (s : State), toMem s sd c = false →
    s.cfg.fifoWidth = 32 → produces s.cfg sd c = some d → c.toNat < (s.dma sd).chans.length →
    (s.fifo d).length + n ≤ s.cfg.fifoCap →
    moveWords sd c n s = .ok (((s.setFifo d (s.fifo d ++ wordsFrom s.cfg sd s.mem (s.chan sd c).madr n)).setPending
        (s.pendingStarts ++ if consumerDrq s d = false ∧ 0 < n then [consumerOf s.cfg d] else [])).setChan sd c
      { s.chan sd c with madr := advanceWords sd (s.chan sd c).madr n }) := by
  induction n with
  | zero =>
    intro s ht hw hp hc hl
    have e : s.setChan sd c { s.chan sd c with madr := (s.chan sd c).madr } = s := setChan_same s sd c hc
    have f : (s.setFifo d (s.fifo d)).setPending s.pendingStarts = s := by
      cases d <;> simp [State.setFifo, State.setPending, State.fifo]
    simp only [moveWords, advanceWords, wordsFrom, List.append_nil, lt_irrefl, and_false, if_false, f, e]
  | succ n ih =>
    intro s ht hw hp hc hl
    set w := s.mem.readWord (effectiveAddr s.cfg sd (s.chan sd c).madr).1 (effectiveAddr s.cfg sd (s.chan sd c).madr).2
      with hwd
    have fp : fifoPush d w s = .ok (setFifoDrq d (s.fifo d ++ [w]) s) := by
      unfold fifoPush
      rw [if_pos (by omega), fifoEntry_eq hw]
    have m : moveWord sd c s = .ok (stepMadr sd c (setFifoDrq d (s.fifo d ++ [w]) s)) := by
      unfold moveWord
      simp only [ht, giveWord, hp, ← hwd, fp]
      rfl
    unfold moveWords
    rw [m]
    simp only
    set u := stepMadr sd c (setFifoDrq d (s.fifo d ++ [w]) s) with hu
    have uc : u.chan sd c = { s.chan sd c with madr := advanceAddr sd (s.chan sd c).madr 4 } := by
      rw [hu, stepMadr, chan_setChan_self]
      · simp
      · cases sd <;> exact hc
    have uf : u.fifo d = s.fifo d ++ [w] := by rw [hu]; cases sd <;> cases d <;> rfl
    have up : u.pendingStarts =
        s.pendingStarts ++ if consumerDrq s d = false then [consumerOf s.cfg d] else [] := by
      have e : u.pendingStarts = s.pendingStarts ++ risenDrqs s (s.setFifo d (s.fifo d ++ [w])) d := by
        rw [hu]
        simp [stepMadr, setFifoDrq]
      have r : consumerDrq (s.setFifo d (s.fifo d ++ [w])) d = true := by
        cases d <;> simp [consumerDrq, State.setFifo, State.fifo]
      rw [e, risenDrqs_push]
      simp [r]
    have ud : consumerDrq u d = true := by unfold consumerDrq; rw [uf]; simp
    have e1 : u.cfg = s.cfg := by rw [hu]; simp [stepMadr]
    have e2 : u.mem = s.mem := by rw [hu]; simp [stepMadr]
    rw [ih u (by unfold toMem at *; rw [uc]; exact ht) (by rw [e1]; exact hw) (by rw [e1]; exact hp)
      (by rw [hu, stepMadr]; cases sd <;> simpa [State.setChan, State.setDma, State.dma, setFifoDrq, State.setFifo,
        State.setPending] using hc) (by rw [uf, e1]; simp; omega)]
    rw [uc, uf, up, ud, e1, e2]
    have e4 : ∀ x q l, ((u.setFifo d q).setPending l).setChan sd c x = ((s.setFifo d q).setPending l).setChan sd c x := by
      intro x q l
      have : ∀ y, (((s.setFifo d q).setPending l).setChan sd c y).setChan sd c x =
        ((s.setFifo d q).setPending l).setChan sd c x := fun y => setChan_setChan _ _ _ _ _
      rw [hu, stepMadr, ← this { s.chan sd c with madr := advanceAddr sd (s.chan sd c).madr 4 }]
      congr 1
      cases sd <;> cases d <;> rfl
    rw [e4]
    simp [advanceWords, wordsFrom, ← hwd]

/-- Words taken from the FIFO that a channel consumes into memory, in order; the producer's line rises when the FIFO falls
below its low-water mark (R174, R223, R226). -/
theorem moveWords_pops (sd : Side) (c : Chan) (d : Dir) (ws rest : List Word) : ∀ (s : State), toMem s sd c = true →
    consumes s.cfg sd c = some d → c.toNat < (s.dma sd).chans.length → s.fifo d = ws ++ rest →
    moveWords sd c ws.length s = .ok ((((s.setMem (storeWords s.cfg sd (s.chan sd c).madr ws s.mem)).setFifo d
        rest).setPending (s.pendingStarts ++
          if producerDrq s d = false ∧ rest.length < s.cfg.lwm then [producerOf s.cfg d] else [])).setChan sd c
      { s.chan sd c with madr := advanceWords sd (s.chan sd c).madr ws.length }) := by
  induction ws with
  | nil =>
    intro s ht hp hc hq
    have e : s.setChan sd c { s.chan sd c with madr := (s.chan sd c).madr } = s := setChan_same s sd c hc
    have f : ((s.setMem s.mem).setFifo d (s.fifo d)).setPending s.pendingStarts = s := by
      cases d <;> simp [State.setMem, State.setFifo, State.setPending, State.fifo]
    have r : ¬(producerDrq s d = false ∧ rest.length < s.cfg.lwm) := by
      rintro ⟨a, b⟩
      simp [producerDrq, hq] at a
      omega
    rw [List.nil_append] at hq
    rw [if_neg r, ← hq]
    simp only [moveWords, List.length_nil, advanceWords, storeWords, List.append_nil, f, e]
  | cons w ws ih =>
    intro s ht hp hc hq
    set ea := effectiveAddr s.cfg sd (s.chan sd c).madr with hea
    have m : moveWord sd c s =
        .ok (stepMadr sd c ((setFifoDrq d (ws ++ rest) s).setMem (s.mem.writeWord ea.1 ea.2 w))) := by
      unfold moveWord takeWord
      have fp : fifoPop d s = .ok (w, setFifoDrq d (ws ++ rest) s) := by unfold fifoPop; rw [hq]; rfl
      simp only [ht, if_true, hp, fp]
      rfl
    simp only [List.length_cons]
    unfold moveWords
    rw [m]
    simp only
    set u := stepMadr sd c ((setFifoDrq d (ws ++ rest) s).setMem (s.mem.writeWord ea.1 ea.2 w)) with hu
    have uc : u.chan sd c = { s.chan sd c with madr := advanceAddr sd (s.chan sd c).madr 4 } := by
      rw [hu, stepMadr, chan_setChan_self]
      · simp
      · cases sd <;> exact hc
    have uf : u.fifo d = ws ++ rest := by rw [hu]; cases sd <;> cases d <;> rfl
    have e1 : u.cfg = s.cfg := by rw [hu]; simp [stepMadr]
    have e2 : u.mem = s.mem.writeWord ea.1 ea.2 w := by rw [hu]; simp [stepMadr]
    have up : u.pendingStarts = s.pendingStarts ++
        if producerDrq s d = false ∧ (ws ++ rest).length < s.cfg.lwm then [producerOf s.cfg d] else [] := by
      have e : u.pendingStarts = s.pendingStarts ++ risenDrqs s (s.setFifo d (ws ++ rest)) d := by
        rw [hu]
        simp [stepMadr, setFifoDrq]
      have r : producerDrq (s.setFifo d (ws ++ rest)) d = decide ((ws ++ rest).length < s.cfg.lwm) := by
        cases d <;> rfl
      rw [e, risenDrqs_pop (rest := ws ++ rest) hq, r]
      simp only [decide_eq_true_eq]
    rw [ih u (by unfold toMem at *; rw [uc]; exact ht) (by rw [e1]; exact hp)
      (by rw [hu, stepMadr]; cases sd <;> simpa [State.setChan, State.setDma, State.dma, setFifoDrq, State.setFifo,
        State.setPending, State.setMem] using hc) uf]
    rw [uc, up, e1, e2]
    have e4 : ∀ x m q l, (((u.setMem m).setFifo d q).setPending l).setChan sd c x =
        (((s.setMem m).setFifo d q).setPending l).setChan sd c x := by
      intro x m q l
      have : ∀ y, ((((s.setMem m).setFifo d q).setPending l).setChan sd c y).setChan sd c x =
        (((s.setMem m).setFifo d q).setPending l).setChan sd c x := fun y => setChan_setChan _ _ _ _ _
      rw [hu, stepMadr, ← this { s.chan sd c with madr := advanceAddr sd (s.chan sd c).madr 4 }]
      congr 1
      cases sd <;> cases d <;> rfl
    rw [e4]
    have ud : producerDrq u d = decide ((ws ++ rest).length < s.cfg.lwm) := by unfold producerDrq; rw [uf, e1]
    have sd2 : producerDrq s d = decide ((w :: (ws ++ rest)).length < s.cfg.lwm) := by unfold producerDrq; rw [hq]; rfl
    have pend : (if producerDrq s d = false ∧ (ws ++ rest).length < s.cfg.lwm then [producerOf s.cfg d] else []) ++
        (if producerDrq u d = false ∧ rest.length < s.cfg.lwm then [producerOf s.cfg d] else []) =
        if producerDrq s d = false ∧ rest.length < s.cfg.lwm then [producerOf s.cfg d] else [] := by
      rw [ud, sd2]
      simp only [decide_eq_false_iff_not, List.length_cons, List.length_append]
      split_ifs <;> first | rfl | (exfalso; omega)
    rw [List.append_assoc, pend]
    simp only [advanceWords, storeWords, ← hea]

/-- At most one start is deferred, when the line `f` rises. -/
structure EdgeRel (f : State → Bool) (s t : State) : Prop where
  q : t.queue = s.queue
  cfg : t.cfg = s.cfg
  pend : ∃ l, t.pendingStarts = s.pendingStarts ++ l ∧ l.length ≤ 1 ∧ (l = [] ∨ (f s = false ∧ f t = true))
  mono : f s = true → f t = true

/-- Nothing changed. -/
theorem EdgeRel.refl (f s) : EdgeRel f s s := ⟨rfl, rfl, ⟨[], by simp, by simp, .inl rfl⟩, id⟩

/-- One change after another: the lists of deferred starts join, and at most one of them is not empty. -/
theorem EdgeRel.trans {f s t u} (h : EdgeRel f s t) (k : EdgeRel f t u) : EdgeRel f s u := by
  refine ⟨k.q.trans h.q, k.cfg.trans h.cfg, ?_, fun e => k.mono (h.mono e)⟩
  obtain ⟨l, e, hl, h1⟩ := h.pend
  obtain ⟨m, e2, hm, k1⟩ := k.pend
  rcases h1 with rfl | ⟨a, b⟩
  · refine ⟨m, by rw [e2, e]; simp, hm, ?_⟩
    rcases k1 with rfl | ⟨a, b⟩
    · left; rfl
    · right
      refine ⟨?_, b⟩
      by_contra hh
      rw [h.mono (by simpa using hh)] at a; cases a
  · rcases k1 with rfl | ⟨a', b'⟩
    · exact ⟨l, by rw [e2, e]; simp, hl, .inr ⟨a, k.mono b⟩⟩
    · rw [b] at a'; cases a'

/-- The line that the words of a channel can make rise (R226). -/
def edgeOf (p : Params) (sd : Side) (c : Chan) (im : Bool) : State → Bool :=
  if im then (match consumes p sd c with | some d => (producerDrq · d) | none => fun _ => true)
  else (match produces p sd c with | some d => (consumerDrq · d) | none => fun _ => true)

/-- One word defers at most one start, of the channel at the other end (R226). -/
theorem moveWord_edge {sd c s t} (e : moveWord sd c s = .ok t) :
    toMem t sd c = toMem s sd c ∧ EdgeRel (edgeOf s.cfg sd c (toMem s sd c)) s t := by
  have step : ∀ (f : State → Bool) (s t : State), EdgeRel f s t → (f (stepMadr sd c t) = f t) →
      EdgeRel f s (stepMadr sd c t) := by
    intro f s t h hf
    exact ⟨by simpa [stepMadr] using h.q, by simpa [stepMadr] using h.cfg, by rw [hf]; simpa [stepMadr] using h.pend,
        by rw [hf]; exact h.mono⟩
  have tm : ∀ t : State, t.chan sd c = s.chan sd c → toMem (stepMadr sd c t) sd c = toMem s sd c := by
    intro t ht
    unfold toMem stepMadr
    by_cases h : c.toNat < (t.dma sd).chans.length
    · rw [chan_setChan_self _ _ _ _ h]; simp [ht]
    · have hs : ∀ ch, ((t.dma sd).chans.set c.toNat ch) = (t.dma sd).chans := fun ch => List.set_eq_of_length_le
          (Nat.le_of_not_lt h)
      rw [← ht]; simp [State.chan, State.setChan, hs]
  unfold moveWord at e
  simp only at e
  split at e
  · rename_i hm
    split at e
    · cases e
    · rename_i w u h
      obtain rfl := Except.ok.inj e
      unfold takeWord at h
      have hcase : ∃ d rest, consumes s.cfg sd c = some d ∧ s.fifo d = w :: rest ∧
          u = setFifoDrq d rest s ∨ consumes s.cfg sd c = none ∧ u = (periphRead sd c s).2 := by
        split at h
        · rename_i d hd
          obtain ⟨rest, h1, h2⟩ := fifoPop_ok h
          exact ⟨d, rest, .inl ⟨hd, h1, h2⟩⟩
        · rename_i hd
          exact ⟨.sif0, [], .inr ⟨hd, by rw [Except.ok.inj h]⟩⟩
      obtain ⟨d, rest, ⟨h1, h2, rfl⟩ | ⟨h1, rfl⟩⟩ := hcase
      · refine ⟨tm _ (by simp), step _ _ _ ?_ ?_⟩
        · rw [hm]; simp only [edgeOf, if_true, h1]
          refine ⟨by simp, by simp, ?_, ?_⟩
          · refine ⟨risenDrqs s (s.setFifo d rest) d, by simp [setFifoDrq], ?_, ?_⟩
            · rw [risenDrqs_pop h2]; split <;> simp
            · rw [risenDrqs_pop h2]
              split
              · rename_i hh; right; refine ⟨hh.1, ?_⟩; simpa [producerDrq, setFifoDrq] using hh.2
              · left; rfl
          · intro hh
            unfold producerDrq at hh ⊢
            rw [h2] at hh
            simp only [List.length_cons, decide_eq_true_eq] at hh
            have : (setFifoDrq d rest s).fifo d = rest := by cases d <;> rfl
            rw [decide_eq_true_eq]
            show ((setFifoDrq d rest s).fifo d).length < s.cfg.lwm
            rw [this]; omega
        · rw [hm]; simp only [edgeOf, if_true, h1]; simp [stepMadr, producerDrq]
      · refine ⟨tm _ (by simp), step _ _ _ ?_ ?_⟩
        · rw [hm]; simp only [edgeOf, if_true, h1]
          refine ⟨?_, by simp, ⟨[], ?_, by simp, .inl rfl⟩,
              fun _ => rfl⟩ <;> (simp only [State.setMem]; unfold periphRead; split <;> simp)
        · rw [hm]; simp only [edgeOf, if_true, h1]
  · rename_i hm
    have hm : toMem s sd c = false := by simpa using hm
    split at e
    · cases e
    · rename_i u h
      obtain rfl := Except.ok.inj e
      unfold giveWord at h
      split at h
      · rename_i d hd
        obtain ⟨h1, rfl⟩ := fifoPush_ok h
        refine ⟨tm _ (by simp), step _ _ _ ?_ ?_⟩
        · rw [hm]; simp only [edgeOf, Bool.false_eq_true, if_false, hd]
          refine ⟨by simp, by simp, ?_, ?_⟩
          · refine ⟨risenDrqs s (s.setFifo d (s.fifo d ++ [_])) d, by simp [setFifoDrq]; rfl, ?_, ?_⟩
            · rw [risenDrqs_push]; split <;> simp
            · rw [risenDrqs_push]
              split
              · rename_i hh; right; refine ⟨hh.1, ?_⟩; simp [consumerDrq, setFifoDrq]
              · left; rfl
          · intro hh
            cases d <;> simp [consumerDrq, setFifoDrq, State.setFifo, State.fifo]
        · rw [hm]; simp only [edgeOf, Bool.false_eq_true, if_false, hd]; simp [stepMadr, consumerDrq]
      · rename_i hd
        obtain rfl := Except.ok.inj h
        refine ⟨tm _ (by simp), step _ _ _ ?_ ?_⟩
        · rw [hm]; simp only [edgeOf, Bool.false_eq_true, if_false, hd]
          exact ⟨rfl, rfl, ⟨[], by simp [periphWrite], by simp, .inl rfl⟩, fun _ => rfl⟩
        · rw [hm]; simp only [edgeOf, Bool.false_eq_true, if_false, hd]

/-- A whole burst's words defer at most one start (R226). -/
theorem moveWords_edge {sd c n s t} (e : moveWords sd c n s = .ok t) :
    toMem t sd c = toMem s sd c ∧ EdgeRel (edgeOf s.cfg sd c (toMem s sd c)) s t := by
  induction n generalizing s with
  | zero => obtain rfl := Except.ok.inj e; exact ⟨rfl, EdgeRel.refl _ _⟩
  | succ n ih =>
    unfold moveWords at e
    split at e
    · cases e
    · rename_i u h
      obtain ⟨a1, a2⟩ := moveWord_edge h
      obtain ⟨b1, b2⟩ := ih e
      rw [a1, a2.cfg] at b2
      exact ⟨b1.trans a1, a2.trans b2⟩

/-- A tag fetch touches neither queue, configuration nor deferred starts (R176, R177). -/
theorem tagFetch_frame {sd c s t} (e : tagFetch sd c s = .ok t) : t.queue = s.queue ∧ t.cfg = s.cfg ∧
    t.pendingStarts = s.pendingStarts := by
  cases sd <;> simp only [tagFetch] at e
  · unfold tagFetchMain at e
    simp only [channelFault, raiseFault] at e
    repeat' split at e
    all_goals first | (cases e; done) | (cases e; exact ⟨rfl, rfl, rfl⟩)
  · unfold tagFetchSub at e
    simp only [channelFault, raiseFault] at e
    repeat' split at e
    all_goals first | (cases e; done) | (cases e; exact ⟨rfl, rfl, rfl⟩)

/-- A burst makes its channel Running and defers at most one start, and none unless its channel is a FIFO's (R172,
R184). -/
theorem burstStep_pending {sd c s t} (e : burstStep sd c s = .ok t) :
    t.cfg = s.cfg ∧ running t sd c = true ∧ (∀ x n, running s x n = true → running t x n = true) ∧
    ∃ l, t.pendingStarts = s.pendingStarts ++ l ∧ l.length ≤ 1 ∧ (l ≠ [] → fifoChannel s.cfg sd c = true) := by
  obtain ⟨s1, s2, h1, h2, h3⟩ := burstStep_ok e
  have f1 : s1.queue = s.queue ∧ s1.cfg = s.cfg ∧ s1.pendingStarts = s.pendingStarts := by
    unfold fetchIfNeeded at h1
    split at h1
    · exact tagFetch_frame h1
    · obtain rfl := Except.ok.inj h1; exact ⟨rfl, rfl, rfl⟩
  obtain ⟨_, m⟩ := moveWords_edge h2
  obtain ⟨_, _, _, rfl⟩ := schedule_ok h3
  obtain ⟨l, p1, p2, p3⟩ := m.pend
  refine ⟨?_, ?_, ?_, l, ?_, p2, ?_⟩
  · simp [putEvent, countWords, m.cfg, f1]
  · simp [running, queued_iff, putEvent, mem_insertEvent]
  · intro x n hx
    unfold running at *
    rw [queued_iff] at *
    obtain ⟨ev, a, b⟩ := hx
    by_cases hh : ev.h = dmaHandle sd ∧ ev.ch = c
    · exact ⟨_, by simp [putEvent, mem_insertEvent]; left; rfl, by rw [← b.1, ← b.2, hh.1, hh.2]; simp⟩
    · refine ⟨ev, ?_, b⟩
      simp only [putEvent, mem_insertEvent]
      right
      rw [mem_removeEvent]
      exact ⟨by simp [countWords, m.q, f1, a], hh⟩
  · simp [putEvent, countWords, p1, f1]
  · intro hl
    rcases p3 with rfl | ⟨a, b⟩
    · exact absurd rfl hl
    · rw [← f1.2.1]
      unfold fifoChannel
      cases him : toMem s1 sd c
      · rw [him] at a
        simp only [edgeOf, Bool.false_eq_true, if_false] at a
        cases hp : produces s1.cfg sd c
        · rw [hp] at a; cases a
        · simp
      · rw [him] at a
        simp only [edgeOf, if_true] at a
        cases hp : consumes s1.cfg sd c
        · rw [hp] at a; cases a
        · simp

end Sys2Proof.Machine
end

