-- ==== Sys2Proof/Laws/Decode.lean ====
section
/-! SUPPORT. A command word and its fields are two views of the same 32 bits (30_encoding.md R92). -/

namespace Sys2Proof

/-- The fields of a word put together from fields are those fields. -/
@[simp] theorem splitWord_joinWord (f : Fields) : splitWord (joinWord f) = f := by
  obtain ⟨opc, s, r, x, imm⟩ := f
  simp only [splitWord, joinWord, Fields.mk.injEq]
  refine ⟨?_, ?_, ?_, ?_, ?_⟩ <;> ext i hi <;>
    simp only [BitVec.getElem_extractLsb', BitVec.getLsbD_append]
  · rw [if_neg (by omega), if_neg (by omega), if_neg (by omega), if_neg (by omega)]
    rw [show 24 + i - 16 - 6 - 1 - 1 = i by omega, BitVec.getLsbD_eq_getElem hi]
  · rw [if_neg (by omega), if_neg (by omega), if_neg (by omega), if_pos (by omega)]
    rw [show 23 + i - 16 - 6 - 1 = i by omega, BitVec.getLsbD_eq_getElem hi]
  · rw [if_neg (by omega), if_neg (by omega), if_pos (by omega)]
    rw [show 22 + i - 16 - 6 = i by omega, BitVec.getLsbD_eq_getElem hi]
  · rw [if_neg (by omega), if_pos (by omega)]
    rw [show 16 + i - 16 = i by omega, BitVec.getLsbD_eq_getElem hi]
  · rw [if_pos (by omega), show 0 + i = i by omega, BitVec.getLsbD_eq_getElem hi]

/-- A word is put together from its fields. -/
@[simp] theorem joinWord_splitWord (w : Word) : joinWord (splitWord w) = w := by
  apply BitVec.eq_of_getLsbD_eq
  intro i hi
  simp only [splitWord, joinWord, BitVec.getLsbD_append, BitVec.getLsbD_extractLsb']
  split
  · simp_all
  · split
    · simp_all [show 16 + (i - 16) = i by omega]
    · split
      · obtain rfl : i = 22 := by omega
        simp
      · split
        · obtain rfl : i = 23 := by omega
          simp
        · simp_all [show 24 + (i - 16 - 6 - 1 - 1) = i by omega, show i - 16 - 6 - 1 - 1 < 8 by omega]

/-- A word is known by its fields. -/
theorem splitWord_inj {v w : Word} (h : splitWord v = splitWord w) : v = w := by
  rw [← joinWord_splitWord v, h, joinWord_splitWord]

/-! ## Selects and flags there and back -/

@[simp] theorem sideOf_sideBit (sd : Side) : sideOf (sideBit sd) = sd := by cases sd <;> rfl
@[simp] theorem dirOf_dirBit (d : Dir) : dirOf (dirBit d) = d := by cases d <;> rfl
@[simp] theorem flagOf_flagBit (b : Bool) : flagOf (flagBit b) = b := by cases b <;> rfl
@[simp] theorem chanRegOf_chanRegBits (r : ChanReg) : chanRegOf (chanRegBits r) = r := by cases r <;> rfl
@[simp] theorem engRegOf_engRegBits (r : EngReg) : engRegOf (engRegBits r) = r := by cases r <;> rfl
@[simp] theorem sideBit_sideOf : ∀ s : BitVec 1, sideBit (sideOf s) = s := by decide
@[simp] theorem dirBit_dirOf : ∀ s : BitVec 1, dirBit (dirOf s) = s := by decide
@[simp] theorem flagBit_flagOf : ∀ r : BitVec 1, flagBit (flagOf r) = r := by decide
@[simp] theorem chanRegBits_chanRegOf : ∀ r : BitVec 3, chanRegBits (chanRegOf r) = r := by decide
@[simp] theorem engRegBits_engRegOf : ∀ r : BitVec 2, engRegBits (engRegOf r) = r := by decide

/-- What `accept` accepts, and what it answers. -/
theorem accept_eq_ok {word operand : Bool} {i j : Instr} :
    accept word operand i = .ok j ↔ word = true ∧ operand = true ∧ i = j := by
  cases word <;> cases operand <;> simp [accept]

end Sys2Proof
end

