-- ==== Sys2Proof/Laws/PerInstr.lean ====
section
/-! SUPPORT. Statements about every command, one lemma per constructor of `Instr`. `TableRow`: the word `encode` writes is
matched by the command's row of spec/opcode_table.json. -/

namespace Sys2Proof.Laws

/-- The `mask` and `match` of a command's row in spec/opcode_table.json. -/
def tableRow : Instr → Word × Word
  | .eqReg _ => (0xFFFFFFFF, 0x01000000)
  | .eqSched _ _ _ _ _ => (0xFF800000, 0x02000000)
  | .eqSchedSub _ _ _ _ _ => (0xFF800000, 0x03000000)
  | .eqNow => (0xFFFFFFFF, 0x04000000)
  | .eqAdv _ => (0xFFFFFFFF, 0x05000000)
  | .eqDrain => (0xFFFFFFFF, 0x06000000)
  | .eqQuery _ _ => (0xFFC00000, 0x07000000)
  | .clkConv _ => (0xFFFFFFFF, 0x10000000)
  | .clkToMain _ => (0xFFFFFFFF, 0x11000000)
  | .drvStart => (0xFFFFFFFF, 0x12000000)
  | .drvTick _ => (0xFFFFFFFF, 0x13000000)
  | .drvHalt => (0xFFFFFFFF, 0x14000000)
  | .dmaWr _ _ _ _ => (0xFF40FFF8, 0x20000000)
  | .dmaRd _ _ _ => (0xFF40FFF8, 0x21000000)
  | .dmaWre _ _ _ => (0xFF7FFFFC, 0x22000000)
  | .dmaRde _ _ => (0xFF7FFFFC, 0x23000000)
  | .dmaDrq _ _ _ => (0xFF40FFFF, 0x24000000)
  | .sifPush _ _ => (0xFF7FFFFF, 0x30000000)
  | .sifPop _ => (0xFF7FFFFF, 0x31000000)
  | .sifOcc _ => (0xFF7FFFFF, 0x32000000)
  | .intRaise _ _ => (0xFF7FFFE0, 0x40000000)
  | .intWmask _ _ => (0xFF7FFFFF, 0x41000000)
  | .intAck _ _ => (0xFF7FFFFF, 0x42000000)
  | .intRstat _ => (0xFF7FFFFF, 0x43000000)
  | .intRmask _ => (0xFF7FFFFF, 0x44000000)
  | .intRctrl _ => (0xFF7FFFFF, 0x45000000)
  | .intWctrl _ _ => (0xFF7FFFFF, 0x46000000)
  | .intPend _ => (0xFF7FFFFF, 0x47000000)
  | .illegal _ _ => (0xFFFFFFFF, 0x00000000)

/-- Two words and-ed are and-ed field by field (R92). -/
theorem splitWord_and (v w : Word) : splitWord (v &&& w) =
    ⟨(splitWord v).opc &&& (splitWord w).opc, (splitWord v).s &&& (splitWord w).s,
      (splitWord v).r &&& (splitWord w).r, (splitWord v).x &&& (splitWord w).x,
      (splitWord v).imm &&& (splitWord w).imm⟩ := by
  simp only [splitWord, BitVec.extractLsb'_and]

/-- A word put together from `f` is matched by a row when each field is (R92). -/
theorem matches_of_fields (f : Fields) (mask row : Word) (m r : Fields) (hm : splitWord mask = m)
    (hr : splitWord row = r)
    (h : (⟨f.opc &&& m.opc, f.s &&& m.s, f.r &&& m.r, f.x &&& m.x, f.imm &&& m.imm⟩ : Fields) = r) :
    joinWord f &&& mask = row := by
  apply splitWord_inj
  rw [splitWord_and, splitWord_joinWord, hm, hr]
  exact h

/-- The command's word is matched by its row of the table. -/
def TableRow.Statement (i : Instr) : Prop := (encode i).cmd &&& (tableRow i).1 = (tableRow i).2

theorem select3 : ∀ r : BitVec 3, r.setWidth 16 &&& 0xFFF8#16 = 0#16 := by decide
theorem select2 : ∀ r : BitVec 2, r.setWidth 16 &&& 0xFFFC#16 = 0#16 := by decide
theorem select5 : ∀ r : BitVec 5, r.setWidth 16 &&& 0xFFE0#16 = 0#16 := by decide

theorem TableRow.eqReg (k : DWord) :
    TableRow.Statement (.eqReg k) :=
  (by decide : wordN 0x01 &&& 0xFFFFFFFF = (0x01000000 : Word))

theorem TableRow.eqSched (rep : Bool) (ch : Chan) (h : Handle) (delay : DWord) (period : DWord) :
    TableRow.Statement (.eqSched rep ch h delay period) :=
  matches_of_fields ⟨0x02, 0, flagBit rep, ch, h⟩ 0xFF800000 0x02000000 ⟨0xFF, 1, 0, 0, 0⟩ ⟨0x02, 0, 0, 0, 0⟩
    (by decide) (by decide) (by simp)

theorem TableRow.eqSchedSub (rep : Bool) (ch : Chan) (h : Handle) (delay : DWord) (period : DWord) :
    TableRow.Statement (.eqSchedSub rep ch h delay period) :=
  matches_of_fields ⟨0x03, 0, flagBit rep, ch, h⟩ 0xFF800000 0x03000000 ⟨0xFF, 1, 0, 0, 0⟩ ⟨0x03, 0, 0, 0, 0⟩
    (by decide) (by decide) (by simp)

theorem TableRow.eqNow :
    TableRow.Statement (.eqNow) :=
  (by decide : wordN 0x04 &&& 0xFFFFFFFF = (0x04000000 : Word))

theorem TableRow.eqAdv (delta : DWord) :
    TableRow.Statement (.eqAdv delta) :=
  (by decide : wordN 0x05 &&& 0xFFFFFFFF = (0x05000000 : Word))

theorem TableRow.eqDrain :
    TableRow.Statement (.eqDrain) :=
  (by decide : wordN 0x06 &&& 0xFFFFFFFF = (0x06000000 : Word))

theorem TableRow.eqQuery (ch : Chan) (h : Handle) :
    TableRow.Statement (.eqQuery ch h) :=
  matches_of_fields ⟨0x07, 0, 0, ch, h⟩ 0xFFC00000 0x07000000 ⟨0xFF, 1, 1, 0, 0⟩ ⟨0x07, 0, 0, 0, 0⟩
    (by decide) (by decide) (by simp)

theorem TableRow.clkConv (m : DWord) :
    TableRow.Statement (.clkConv m) :=
  (by decide : wordN 0x10 &&& 0xFFFFFFFF = (0x10000000 : Word))

theorem TableRow.clkToMain (d : DWord) :
    TableRow.Statement (.clkToMain d) :=
  (by decide : wordN 0x11 &&& 0xFFFFFFFF = (0x11000000 : Word))

theorem TableRow.drvStart :
    TableRow.Statement (.drvStart) :=
  (by decide : wordN 0x12 &&& 0xFFFFFFFF = (0x12000000 : Word))

theorem TableRow.drvTick (n : Word) :
    TableRow.Statement (.drvTick n) :=
  (by decide : wordN 0x13 &&& 0xFFFFFFFF = (0x13000000 : Word))

theorem TableRow.drvHalt :
    TableRow.Statement (.drvHalt) :=
  (by decide : wordN 0x14 &&& 0xFFFFFFFF = (0x14000000 : Word))

theorem TableRow.dmaWr (sd : Side) (c : Chan) (reg : ChanReg) (v : Word) :
    TableRow.Statement (.dmaWr sd c reg v) :=
  matches_of_fields ⟨0x20, sideBit sd, 0, c, (chanRegBits reg).setWidth 16⟩ 0xFF40FFF8 0x20000000 ⟨0xFF, 0, 1, 0, 0xFFF8⟩ ⟨0x20, 0, 0, 0, 0⟩
    (by decide) (by decide) (by simp [select3])

theorem TableRow.dmaRd (sd : Side) (c : Chan) (reg : ChanReg) :
    TableRow.Statement (.dmaRd sd c reg) :=
  matches_of_fields ⟨0x21, sideBit sd, 0, c, (chanRegBits reg).setWidth 16⟩ 0xFF40FFF8 0x21000000 ⟨0xFF, 0, 1, 0, 0xFFF8⟩ ⟨0x21, 0, 0, 0, 0⟩
    (by decide) (by decide) (by simp [select3])

theorem TableRow.dmaWre (sd : Side) (reg : EngReg) (v : Word) :
    TableRow.Statement (.dmaWre sd reg v) :=
  matches_of_fields ⟨0x22, sideBit sd, 0, 0, (engRegBits reg).setWidth 16⟩ 0xFF7FFFFC 0x22000000 ⟨0xFF, 0, 1, 0x3F, 0xFFFC⟩ ⟨0x22, 0, 0, 0, 0⟩
    (by decide) (by decide) (by simp [select2])

theorem TableRow.dmaRde (sd : Side) (reg : EngReg) :
    TableRow.Statement (.dmaRde sd reg) :=
  matches_of_fields ⟨0x23, sideBit sd, 0, 0, (engRegBits reg).setWidth 16⟩ 0xFF7FFFFC 0x23000000 ⟨0xFF, 0, 1, 0x3F, 0xFFFC⟩ ⟨0x23, 0, 0, 0, 0⟩
    (by decide) (by decide) (by simp [select2])

theorem TableRow.dmaDrq (sd : Side) (c : Chan) (b : Bool) :
    TableRow.Statement (.dmaDrq sd c b) :=
  matches_of_fields ⟨0x24, sideBit sd, 0, c, 0⟩ 0xFF40FFFF 0x24000000 ⟨0xFF, 0, 1, 0, 0xFFFF⟩ ⟨0x24, 0, 0, 0, 0⟩
    (by decide) (by decide) (by simp)

theorem TableRow.sifPush (d : Dir) (w : Word) :
    TableRow.Statement (.sifPush d w) :=
  matches_of_fields ⟨0x30, dirBit d, 0, 0, 0⟩ 0xFF7FFFFF 0x30000000 ⟨0xFF, 0, 1, 0x3F, 0xFFFF⟩ ⟨0x30, 0, 0, 0, 0⟩
    (by decide) (by decide) (by simp)

theorem TableRow.sifPop (d : Dir) :
    TableRow.Statement (.sifPop d) :=
  matches_of_fields ⟨0x31, dirBit d, 0, 0, 0⟩ 0xFF7FFFFF 0x31000000 ⟨0xFF, 0, 1, 0x3F, 0xFFFF⟩ ⟨0x31, 0, 0, 0, 0⟩
    (by decide) (by decide) (by simp)

theorem TableRow.sifOcc (d : Dir) :
    TableRow.Statement (.sifOcc d) :=
  matches_of_fields ⟨0x32, dirBit d, 0, 0, 0⟩ 0xFF7FFFFF 0x32000000 ⟨0xFF, 0, 1, 0x3F, 0xFFFF⟩ ⟨0x32, 0, 0, 0, 0⟩
    (by decide) (by decide) (by simp)

theorem TableRow.intRaise (sd : Side) (src : BitVec 5) :
    TableRow.Statement (.intRaise sd src) :=
  matches_of_fields ⟨0x40, sideBit sd, 0, 0, src.setWidth 16⟩ 0xFF7FFFE0 0x40000000 ⟨0xFF, 0, 1, 0x3F, 0xFFE0⟩ ⟨0x40, 0, 0, 0, 0⟩
    (by decide) (by decide) (by simp [select5])

theorem TableRow.intWmask (sd : Side) (v : Word) :
    TableRow.Statement (.intWmask sd v) :=
  matches_of_fields ⟨0x41, sideBit sd, 0, 0, 0⟩ 0xFF7FFFFF 0x41000000 ⟨0xFF, 0, 1, 0x3F, 0xFFFF⟩ ⟨0x41, 0, 0, 0, 0⟩
    (by decide) (by decide) (by simp)

theorem TableRow.intAck (sd : Side) (v : Word) :
    TableRow.Statement (.intAck sd v) :=
  matches_of_fields ⟨0x42, sideBit sd, 0, 0, 0⟩ 0xFF7FFFFF 0x42000000 ⟨0xFF, 0, 1, 0x3F, 0xFFFF⟩ ⟨0x42, 0, 0, 0, 0⟩
    (by decide) (by decide) (by simp)

theorem TableRow.intRstat (sd : Side) :
    TableRow.Statement (.intRstat sd) :=
  matches_of_fields ⟨0x43, sideBit sd, 0, 0, 0⟩ 0xFF7FFFFF 0x43000000 ⟨0xFF, 0, 1, 0x3F, 0xFFFF⟩ ⟨0x43, 0, 0, 0, 0⟩
    (by decide) (by decide) (by simp)

theorem TableRow.intRmask (sd : Side) :
    TableRow.Statement (.intRmask sd) :=
  matches_of_fields ⟨0x44, sideBit sd, 0, 0, 0⟩ 0xFF7FFFFF 0x44000000 ⟨0xFF, 0, 1, 0x3F, 0xFFFF⟩ ⟨0x44, 0, 0, 0, 0⟩
    (by decide) (by decide) (by simp)

theorem TableRow.intRctrl (sd : Side) :
    TableRow.Statement (.intRctrl sd) :=
  matches_of_fields ⟨0x45, sideBit sd, 0, 0, 0⟩ 0xFF7FFFFF 0x45000000 ⟨0xFF, 0, 1, 0x3F, 0xFFFF⟩ ⟨0x45, 0, 0, 0, 0⟩
    (by decide) (by decide) (by simp)

theorem TableRow.intWctrl (sd : Side) (v : Word) :
    TableRow.Statement (.intWctrl sd v) :=
  matches_of_fields ⟨0x46, sideBit sd, 0, 0, 0⟩ 0xFF7FFFFF 0x46000000 ⟨0xFF, 0, 1, 0x3F, 0xFFFF⟩ ⟨0x46, 0, 0, 0, 0⟩
    (by decide) (by decide) (by simp)

theorem TableRow.intPend (sd : Side) :
    TableRow.Statement (.intPend sd) :=
  matches_of_fields ⟨0x47, sideBit sd, 0, 0, 0⟩ 0xFF7FFFFF 0x47000000 ⟨0xFF, 0, 1, 0x3F, 0xFFFF⟩ ⟨0x47, 0, 0, 0, 0⟩
    (by decide) (by decide) (by simp)

theorem TableRow.illegal (a : DWord) (b : DWord) :
    TableRow.Statement (.illegal a b) :=
  (by decide : (0 : Word) &&& 0xFFFFFFFF = (0x00000000 : Word))

end Sys2Proof.Laws
end

