-- ==== Sys2Proof/Laws/Starts.lean ====
section
/-! SUPPORT. What one burst leaves of the other channels, what ReEvaluate and ProcessPendingStarts then come to, and bursts
at the two ends of a FIFO (42_dma.md R184, R186; 43_ipc_fifo.md R226). -/

namespace Sys2Proof.Machine

open Sys2Proof.Safety

/-! ## What a burst of one channel leaves alone -/

/-- What a burst of channel `c` keeps of its side: the other channels, the engine's enables and priorities, and every FIFO the
channel is no end of. -/
structure BurstKeeps (sd : Side) (c : Chan) (s t : State) : Prop where
  cfg : t.cfg = s.cfg
  chan : ∀ n, n ≠ c → t.chan sd n = s.chan sd n
  ctrl : (t.dma sd).ctrl = (s.dma sd).ctrl
  pcr : (t.dma sd).pcr = (s.dma sd).pcr
  fifo : ∀ d, consumes s.cfg sd c ≠ some d → produces s.cfg sd c ≠ some d → t.fifo d = s.fifo d

theorem BurstKeeps.refl {sd c s} : BurstKeeps sd c s s := ⟨rfl, fun _ _ => rfl, rfl, rfl, fun _ _ _ => rfl⟩

theorem BurstKeeps.trans {sd c s t u} (h : BurstKeeps sd c s t) (k : BurstKeeps sd c t u) : BurstKeeps sd c s u :=
  ⟨k.cfg.trans h.cfg, fun n hn => (k.chan n hn).trans (h.chan n hn), k.ctrl.trans h.ctrl, k.pcr.trans h.pcr,
   fun d h1 h2 => (k.fifo d (by rw [h.cfg]; exact h1) (by rw [h.cfg]; exact h2)).trans (h.fifo d h1 h2)⟩

theorem burstKeeps_setChan (sd c s ch) : BurstKeeps sd c s (s.setChan sd c ch) :=
  ⟨rfl, fun n hn => chan_setChan_ne s sd c n ch hn, by cases sd <;> rfl, by cases sd <;> rfl,
   fun d _ _ => by cases sd <;> cases d <;> rfl⟩

theorem burstKeeps_setMem (sd c s m) : BurstKeeps sd c s (s.setMem m) :=
  ⟨rfl, fun n _ => by cases sd <;> rfl, by cases sd <;> rfl, by cases sd <;> rfl, fun d _ _ => by cases d <;> rfl⟩

theorem burstKeeps_setAgents (sd c s m) : BurstKeeps sd c s (s.setAgents m) :=
  ⟨rfl, fun n _ => by cases sd <;> rfl, by cases sd <;> rfl, by cases sd <;> rfl, fun d _ _ => by cases d <;> rfl⟩

theorem burstKeeps_setFifoDrq (sd c s d q) (h : consumes s.cfg sd c = some d ∨ produces s.cfg sd c = some d) :
    BurstKeeps sd c s (setFifoDrq d q s) :=
  ⟨rfl, fun n _ => by simp, by cases sd <;> rfl, by cases sd <;> rfl, fun d' h1 h2 => by
    have : d' ≠ d := by rintro rfl; rcases h with h | h; exact h1 h; exact h2 h
    cases d <;> cases d' <;> first | rfl | exact absurd rfl this⟩

theorem burstKeeps_moveWord {sd c s t} (e : moveWord sd c s = .ok t) : BurstKeeps sd c s t := by
  unfold moveWord at e
  simp only at e
  split at e
  · split at e
    · cases e
    · rename_i w u h
      obtain rfl := Except.ok.inj e
      refine BurstKeeps.trans (?_ : BurstKeeps sd c s u) ((burstKeeps_setMem _ _ _ _).trans (burstKeeps_setChan _ _ _ _))
      unfold takeWord at h
      split at h
      · rename_i d hd
        obtain ⟨rest, _, rfl⟩ := fifoPop_ok h
        exact burstKeeps_setFifoDrq _ _ _ _ _ (.inl hd)
      · have : u = (periphRead sd c s).2 := by rw [Except.ok.inj h]
        subst this
        unfold periphRead; split <;> exact burstKeeps_setAgents _ _ _ _
  · split at e
    · cases e
    · rename_i u h
      obtain rfl := Except.ok.inj e
      refine BurstKeeps.trans (?_ : BurstKeeps sd c s u) (burstKeeps_setChan _ _ _ _)
      unfold giveWord at h
      split at h
      · rename_i d hd
        obtain ⟨_, rfl⟩ := fifoPush_ok h
        exact burstKeeps_setFifoDrq _ _ _ _ _ (.inr hd)
      · obtain rfl := Except.ok.inj h
        exact burstKeeps_setAgents _ _ _ _

theorem burstKeeps_moveWords {sd c n s t} (e : moveWords sd c n s = .ok t) : BurstKeeps sd c s t := by
  induction n generalizing s with
  | zero => obtain rfl := Except.ok.inj e; exact BurstKeeps.refl
  | succ n ih =>
    unfold moveWords at e
    split at e
    · cases e
    · rename_i u h; exact (burstKeeps_moveWord h).trans (ih e)

theorem burstKeeps_tagFetch {sd c s t} (e : tagFetch sd c s = .ok t) : BurstKeeps sd c s t := by
  cases sd <;> simp only [tagFetch] at e
  · unfold tagFetchMain at e
    simp only [channelFault, raiseFault] at e
    repeat' split at e
    all_goals first | (cases e; done) | (cases e; exact burstKeeps_setChan _ _ _ _)
  · unfold tagFetchSub at e
    simp only [channelFault, raiseFault] at e
    repeat' split at e
    all_goals first | (cases e; done) | (cases e; exact burstKeeps_setChan _ _ _ _)

/-- A whole burst keeps the other channels of its side (R172 to R177). -/
theorem burstKeeps_burstStep {sd c s t} (e : burstStep sd c s = .ok t) : BurstKeeps sd c s t := by
  obtain ⟨s1, s2, h1, h2, h3⟩ := burstStep_ok e
  have k1 : BurstKeeps sd c s s1 := by
    unfold fetchIfNeeded at h1
    split at h1
    · exact burstKeeps_tagFetch h1
    · obtain rfl := Except.ok.inj h1; exact BurstKeeps.refl
  obtain ⟨_, _, _, rfl⟩ := schedule_ok h3
  have k2 : BurstKeeps sd c s2 (countWords sd c (burstSize sd c s1) s2) := burstKeeps_setChan sd c s2 _
  refine k1.trans ((burstKeeps_moveWords h2).trans (k2.trans ?_))
  exact ⟨rfl, fun n _ => by cases sd <;> rfl, by cases sd <;> rfl, by cases sd <;> rfl, fun d _ _ => by cases d <;> rfl⟩

/-- A burst does not make another channel of its side Running, nor end its run (R175). -/
theorem burstStep_running_other {sd : Side} {c n : Chan} {s t : State} (e : burstStep sd c s = .ok t) (hn : n ≠ c) :
    running t sd n = running s sd n := by
  obtain ⟨s1, s2, h1, h2, h3⟩ := burstStep_ok e
  have f1 : s1.queue = s.queue := by
    unfold fetchIfNeeded at h1
    split at h1
    · exact (tagFetch_frame h1).1
    · obtain rfl := Except.ok.inj h1; rfl
  have f2 := (moveWords_edge h2).2.q
  obtain ⟨_, _, _, rfl⟩ := schedule_ok h3
  unfold running
  rw [Bool.eq_iff_iff, queued_iff, queued_iff]
  simp only [putEvent, mem_insertEvent, mem_removeEvent, countWords, setChan_queue, f2, f1]
  constructor
  · rintro ⟨e, rfl | ⟨h, _⟩, hb⟩
    · exact absurd hb.2.symm hn
    · exact ⟨e, h, hb⟩
  · rintro ⟨e, h, hb⟩
    exact ⟨e, .inr ⟨h, fun hh => hn (hb.2.symm.trans hh.2)⟩, hb⟩

/-- A burst neither opens nor closes the gate of another channel of its side (R171). -/
theorem BurstKeeps.gate_other {sd : Side} {c n : Chan} {s t : State} (k : BurstKeeps sd c s t) (hn : n ≠ c) :
    gate t sd n = gate s sd n := by
  have hd : drq t sd n = drq s sd n := by
    have key : ∀ d, consumes s.cfg sd n = some d ∨ produces s.cfg sd n = some d → t.fifo d = s.fifo d := by
      intro d h
      refine k.fifo d ?_ ?_ <;> intro h2 <;> cases sd <;> simp only [consumes, produces] at h h2 <;> split at h2 <;>
        simp at h2 <;> subst h2 <;> rename_i hx <;> rcases h with h | h <;> (split at h <;> rename_i hy) <;>
        first | (exact hn (hy.trans hx.symm)) | simp at h
    unfold drq
    rw [k.cfg]
    split
    · rename_i d h
      unfold consumerDrq; rw [key d (.inl h)]
    · split
      · rename_i d h; unfold producerDrq; rw [key d (.inr h), k.cfg]
      · rw [k.chan n hn]
  unfold gate active engineEnabled priorityAllows
  rw [hd, k.chan n hn, k.ctrl, k.pcr]

/-! ## A channel's own event (R178) -/

/-- With the channel's event taken out of the queue, it is not Running. -/
theorem running_without_event (sd : Side) (c : Chan) (s : State) :
    running (s.setQueue (removeEvent (dmaHandle sd) c s.queue)) sd c = false := by
  rw [← Bool.not_eq_true]; unfold running; rw [queued_iff]
  rintro ⟨e, he, hh⟩
  exact ((mem_removeEvent _ _ _ _).1 he).2 hh

/-- The event of a channel with words left and an open gate is one burst, when that burst defers no start. -/
theorem fireChannel_burst {sd c} {s t : State} (hg : gate s sd c = true) (hrem : (s.chan sd c).rem ≠ 0)
    (hb : burstStep sd c (s.setQueue (removeEvent (dmaHandle sd) c s.queue)) = .ok t) (ht : t.pendingStarts = []) :
    fireChannel sd c s = .ok t := by
  have act : active s sd c = true := by simp only [gate, Bool.and_eq_true] at hg; exact hg.1.1.1
  show dmaEvent sd c (s.setQueue (removeEvent (dmaHandle sd) c s.queue)) = _
  have ha : active (s.setQueue (removeEvent (dmaHandle sd) c s.queue)) sd c = active s sd c := by cases sd <;> rfl
  have gq : gate (s.setQueue (removeEvent (dmaHandle sd) c s.queue)) sd c = true := by rw [← hg]; cases sd <;> rfl
  unfold dmaEvent
  rw [if_neg (by simp [ha, act]), if_neg, if_pos gq, hb]
  · exact processPendingStarts_nil ht
  · rintro ⟨h, -⟩; exact hrem (by rw [← h]; cases sd <;> rfl)

/-! ## ReEvaluate (R186) -/

/-- A channel that is not Waiting is left as it is. -/
theorem checkRunning_of_not_waiting {s : State} {sd x} (h : ¬(active s sd x = true ∧ running s sd x = false)) :
    checkRunning sd x s = .ok s := by
  apply checkRunning_stays
  by_cases ha : active s sd x = true
  · left; by_contra hr; exact h ⟨ha, by simpa using hr⟩
  · right; unfold gate; simp [ha]

/-- The loop is a fold of CheckRunning over the channels in ascending order. -/
theorem reEvaluateFrom_fold (sd : Side) (n c : Nat) (s : State) : reEvaluateFrom sd c n s =
    (List.range' c n).foldlM (fun u k => checkRunning sd (BitVec.ofNat 6 k) u) s := by
  induction n generalizing c s with
  | zero => rfl
  | succ n ih =>
    rw [List.range'_succ, List.foldlM_cons]
    unfold reEvaluateFrom
    simp only
    split
    · cases h : checkRunning sd (BitVec.ofNat 6 c) s with
      | error t => rfl
      | ok t => exact ih (c + 1) t
    · rename_i h
      rw [checkRunning_of_not_waiting h]
      exact ih (c + 1) s

/-- With no gate of a Waiting channel open, nothing changes. -/
theorem reEvaluateFrom_still (sd : Side) (n c : Nat) (s : State) (h : ∀ k, c ≤ k → k < c + n →
    running s sd (BitVec.ofNat 6 k) = true ∨ gate s sd (BitVec.ofNat 6 k) = false) : reEvaluateFrom sd c n s = .ok s := by
  rw [reEvaluateFrom_fold]
  induction n generalizing c with
  | zero => rfl
  | succ n ih =>
    rw [List.range'_succ, List.foldlM_cons, checkRunning_stays (h c le_rfl (by omega))]
    exact ih (c + 1) fun k h1 h2 => h k (by omega) (by omega)

/-- With the gate of one Waiting channel open, that channel bursts and the others stay. -/
theorem reEvaluateFrom_one {sd : Side} {c : Chan} {s : State} (N : Nat) (hN : N ≤ 64) (hc : c.toNat < N)
    (hr : running s sd c = false) (hg : gate s sd c = true)
    (ho : ∀ c' : Chan, c'.toNat < N → c' ≠ c → running s sd c' = true ∨ gate s sd c' = false) :
    reEvaluateFrom sd 0 N s = burstStep sd c s := by
  have hcc : BitVec.ofNat 6 c.toNat = c := by apply BitVec.eq_of_toNat_eq; simp
  have ne : ∀ k, k < 64 → k ≠ c.toNat → BitVec.ofNat 6 k ≠ c := by
    intro k hk hne h; apply hne; rw [← h, BitVec.toNat_ofNat]; omega
  have small : ∀ k, k < N → (BitVec.ofNat 6 k).toNat < N := by
    intro k hk; rw [BitVec.toNat_ofNat]; have : k % 2 ^ 6 ≤ k := Nat.mod_le _ _; omega
  have main : ∀ n a, a + n = N → a ≤ c.toNat → reEvaluateFrom sd a n s = burstStep sd c s := by
    intro n
    induction n with
    | zero => intro a h1 h2; omega
    | succ n ih =>
      intro a h1 h2
      by_cases e : a = c.toNat
      · subst e
        unfold reEvaluateFrom
        simp only [hcc]
        have ha : active s sd c = true := by simp only [gate, Bool.and_eq_true] at hg; exact hg.1.1.1
        have : checkRunning sd c s = burstStep sd c s := by
          unfold checkRunning; rw [if_neg (by rw [hr]; simp), if_pos hg]
        rw [if_pos ⟨ha, hr⟩, this]
        cases e : burstStep sd c s with
        | error t => rfl
        | ok t =>
          simp only
          apply reEvaluateFrom_still
          intro k h3 h4
          have hk := ne k (by omega) (by omega)
          rw [burstStep_running_other e hk, (burstKeeps_burstStep e).gate_other hk]
          exact ho _ (small k (by omega)) hk
      · have hx := ho (BitVec.ofNat 6 a) (small a (by omega)) (ne a (by omega) e)
        unfold reEvaluateFrom
        simp only [checkRunning_stays hx]
        rw [ih (a + 1) (by omega) (by omega)]
        simp
  exact main N 0 (by omega) (by omega)

/-! ## The two ends of a FIFO -/

theorem producer_ne_consumer_side (p : Params) (d : Dir) : (producerOf p d).1 ≠ (consumerOf p d).1 := by
  cases d <;> simp [producerOf, consumerOf]

theorem consumes_consumerOf (p : Params) (d : Dir) : consumes p (consumerOf p d).1 (consumerOf p d).2 = some d := by
  cases d <;> simp [consumes, consumerOf]

theorem produces_producerOf (p : Params) (d : Dir) : produces p (producerOf p d).1 (producerOf p d).2 = some d := by
  cases d <;> simp [produces, producerOf]

theorem consumes_producerOf (p : Params) (hv : p.Valid) (d : Dir) :
    consumes p (producerOf p d).1 (producerOf p d).2 = none := by
  obtain ⟨_, _, _, _, _, _, _, _, _, _, _, hm, hs, _⟩ := hv
  cases d
  · exact if_neg hs.1
  · exact if_neg (Ne.symm hm.1)

/-- The gate depends on the channel, the engine's registers, the configuration and the FIFOs alone (R171). -/
theorem gate_congr {sd : Side} {c : Chan} {s t : State} (hd : t.chan sd c = s.chan sd c) (hm : t.dma sd = s.dma sd)
    (hc : t.cfg = s.cfg) (hf : ∀ d, t.fifo d = s.fifo d) : gate t sd c = gate s sd c := by
  unfold gate active drq engineEnabled priorityAllows consumerDrq producerDrq
  rw [hd, hm, hc]; simp only [hf]

theorem engineEnabled_of_gate {sd : Side} {c : Chan} {s : State} (h : gate s sd c = true) : engineEnabled s sd = true := by
  unfold gate at h; simp at h; tauto

/-- A burst of a FIFO's consumer takes the oldest words into memory; the producer's start is deferred when its line rises
(R174, R223, R226). -/
theorem burstStep_pops {sd : Side} {c : Chan} {d : Dir} {ws rest : List Word} {s : State}
    (hch : chained s sd c = false) (ht : toMem s sd c = true) (hcn : consumes s.cfg sd c = some d)
    (hc : c.toNat < (s.dma sd).chans.length) (hq : s.fifo d = ws ++ rest) (hr : running s sd c = false)
    (hn : s.now.toInt + burstCost s.cfg sd ≤ 2 ^ 63 - 1) (hsz : burstSize sd c s = ws.length) :
    burstStep sd c s = .ok (burstDone sd c ws.length
      (((s.setMem (storeWords s.cfg sd (s.chan sd c).madr ws s.mem)).setFifo d rest).setPending (s.pendingStarts ++
        if producerDrq s d = false ∧ rest.length < s.cfg.lwm then [producerOf s.cfg d] else []))) := by
  rw [burstStep_unchained hch]
  refine burstBody_done hsz ((moveWords_pops sd c d ws rest s ht hcn hc hq).trans ?_) (by cases sd <;> cases d <;> exact hc)
    (by cases d <;> rfl) (by cases d <;> exact hr) (by cases d <;> exact hn)
  cases sd <;> cases d <;> rfl

/-- A burst of a FIFO's producer appends words of memory; the consumer's start is deferred when its line rises (R174, R222,
R226). -/
theorem burstStep_pushes {sd : Side} {c : Chan} {d : Dir} {n : Nat} {s : State} (hch : chained s sd c = false)
    (ht : toMem s sd c = false) (hw : s.cfg.fifoWidth = 32) (hcn : produces s.cfg sd c = some d)
    (hc : c.toNat < (s.dma sd).chans.length) (hq : (s.fifo d).length + n ≤ s.cfg.fifoCap) (hr : running s sd c = false)
    (hn : s.now.toInt + burstCost s.cfg sd ≤ 2 ^ 63 - 1) (hsz : burstSize sd c s = n) :
    burstStep sd c s = .ok (burstDone sd c n
      ((s.setFifo d (s.fifo d ++ wordsFrom s.cfg sd s.mem (s.chan sd c).madr n)).setPending
        (s.pendingStarts ++ if consumerDrq s d = false ∧ 0 < n then [consumerOf s.cfg d] else []))) := by
  rw [burstStep_unchained hch]
  refine burstBody_done hsz ((moveWords_pushes sd c d n s ht hw hcn hc hq).trans ?_) (by cases sd <;> cases d <;> exact hc)
    (by cases d <;> rfl) (by cases d <;> exact hr) (by cases d <;> exact hn)
  cases sd <;> cases d <;> rfl

/-- A burst's event leaves the channels of the other side as they run. -/
theorem burstDone_running_other {q p : Side × Chan} (hne : p.1 ≠ q.1) (n : Nat) (s : State) :
    running (burstDone q.1 q.2 n s) p.1 p.2 = running s p.1 p.2 := by
  have hh : dmaHandle q.1 ≠ dmaHandle p.1 := by
    intro h
    cases hq : q.1 <;> cases hp : p.1 <;> rw [hq, hp] at h <;> first | (exact hne (hp.trans hq.symm)) | (revert h; decide)
  unfold running
  rw [Bool.eq_iff_iff, queued_iff, queued_iff]
  show (∃ e ∈ insertEvent _ s.queue, _) ↔ _
  constructor
  · rintro ⟨e, he, hb⟩
    rcases (mem_insertEvent _ _ _).1 he with rfl | he
    · exact absurd hb.1 hh
    · exact ⟨e, he, hb⟩
  · rintro ⟨e, he, hb⟩
    exact ⟨e, (mem_insertEvent _ _ _).2 (.inr he), hb⟩

/-- A burst's counts leave the gates of the other side as they are. -/
theorem burstDone_gate_other {q p : Side × Chan} (hne : p.1 ≠ q.1) (n : Nat) (s : State) :
    gate (burstDone q.1 q.2 n s) p.1 p.2 = gate s p.1 p.2 :=
  gate_congr (chan_setChan_side s q.1 p.1 q.2 p.2 _ hne) (dma_setChan_ne s q.1 p.1 q.2 _ hne) rfl
    (by intro d; cases q.1 <;> cases d <;> rfl)

/-! ## ProcessPendingStarts (R184) -/

/-- One deferred start, or none, whose channel stays as it is. -/
theorem drainPending_stays {n : Nat} {s : State} {p : Side × Chan} (h : s.pendingStarts = [] ∨ s.pendingStarts = [p])
    (hs : running (s.setPending []) p.1 p.2 = true ∨ gate (s.setPending []) p.1 p.2 = false) :
    drainPending (n + 2) s = .ok (s.setPending []) := by
  unfold drainPending
  rcases h with e | e <;> rw [e]
  · simp only; rw [← e]; rfl
  · have : startPending p (s.setPending []) = .ok (s.setPending []) := by
      unfold startPending
      split
      · exact checkRunning_stays hs
      · rfl
    simp only
    rw [this]
    simp only
    unfold drainPending
    rfl

/-- The deferred start of `q`, whose burst defers at most the start of `p` at the FIFO's other end, which stays. -/
theorem drainPending_burst {q p : Side × Chan} {n : Nat} {s x : State} (hne : p.1 ≠ q.1) (hs : s.pendingStarts = [])
    (hr : running s q.1 q.2 = false) (hg : gate s q.1 q.2 = true)
    (hb : burstStep q.1 q.2 s = .ok (burstDone q.1 q.2 n x)) (hx : x.pendingStarts = [] ∨ x.pendingStarts = [p])
    (hp : running (x.setPending []) p.1 p.2 = true ∨ gate (x.setPending []) p.1 p.2 = false) :
    drainPending 5 (s.setPending [q]) = .ok (burstDone q.1 q.2 n (x.setPending [])) := by
  have pend : (burstDone q.1 q.2 n x).setPending [] = burstDone q.1 q.2 n (x.setPending []) := by cases q.1 <;> rfl
  have start : startPending q s = .ok (burstDone q.1 q.2 n x) := by
    unfold startPending checkRunning
    rw [if_pos (engineEnabled_of_gate hg), if_neg (by rw [hr]; simp), if_pos hg, hb]
  have tail : drainPending 4 (burstDone q.1 q.2 n x) = .ok ((burstDone q.1 q.2 n x).setPending []) := by
    refine drainPending_stays (n := 2) (p := p) ?_ ?_
    · rcases hx with h | h
      · left; exact h
      · right; exact h
    · rw [pend, burstDone_running_other hne, burstDone_gate_other hne]; exact hp
  unfold drainPending
  rw [show (s.setPending [q]).pendingStarts = [q] from rfl]
  simp only
  rw [show (s.setPending [q]).setPending [] = s by rw [← hs]; rfl, start]
  simp only
  rw [tail, pend]

end Sys2Proof.Machine
end

