-- ==== Sys2Proof/Laws/Step.lean ====
section
/-! SUPPORT. Everything one step can do, said once (R100, R118 to R121, R143 to R148), everything one command can do, said
once as a relation its updates respect, and runs of several steps. -/

namespace Sys2Proof.Machine

open Sys2Proof.Safety

/-! ## Runs -/

/-- A run's first step. -/
theorem run_succ (k : Nat) {s t : State} (h : step s = .next t) :
    Host.Core.run Sys2Proof.core (k + 1) s = Host.Core.run Sys2Proof.core k t := by
  have g : ∀ (M : Host.Core) (a b : M.State), M.step a = .next b → M.run (k + 1) a = M.run k b := by
    intro M a b h
    rw [Host.Core.run, h]
  exact g Sys2Proof.core s t h

/-- A run cut in two. -/
theorem run_add (k n : Nat) {s t : State} (h : Host.Core.run Sys2Proof.core k s = .next t) :
    Host.Core.run Sys2Proof.core (k + n) s = Host.Core.run Sys2Proof.core n t := by
  have g : ∀ (M : Host.Core) (k : Nat) (a b : M.State), M.run k a = .next b → M.run (k + n) a = M.run n b := by
    intro M k
    induction k with
    | zero =>
      intro a b h
      simp only [Host.Core.run, Host.Outcome.next.injEq] at h
      rw [h, Nat.zero_add]
    | succ k ih =>
      intro a b h
      rw [Host.Core.run] at h
      rw [Nat.add_right_comm, Host.Core.run]
      cases e : M.step a with
      | next c => rw [e] at h; exact ih c b h
      | fault r => rw [e] at h; cases h
      | refused r => rw [e] at h; cases h
  exact g Sys2Proof.core k s t h

/-! ## One step -/

/-- The state in which the item a step takes runs: the item is gone from its script, and nothing else has changed. -/
def Popped (s u : State) : Prop :=
  (s.agenda = [] ∧ ∃ x rest, s.agents.host = x :: rest ∧ u = s.setAgents { s.agents with host := rest }) ∨
  (∃ sd n x xs rest, s.agenda = .slice sd n (x :: xs) :: rest ∧ u = s.setAgenda (.slice sd n xs :: rest)) ∨
  (∃ c cs rest, s.agenda = .callback (c :: cs) :: rest ∧ u = s.setAgenda (.callback cs :: rest))

/-- One firing of the drain (R118, R119): the event `e` is taken out, and its handler decides what follows. -/
def Fired (e : Event) (s t : State) : Prop :=
  (∃ u, takeDue e s = .error u ∧ t = u) ∨
  ∃ u, takeDue e s = .ok u ∧
    ((u.handlers.getD e.h.toNat .empty = .dmaMain ∧ t = runState (dmaEvent .main e.ch u)) ∨
     (u.handlers.getD e.h.toNat .empty = .dmaSub ∧ t = runState (dmaEvent .sub e.ch u)) ∨
     (∃ k g cmds, u.handlers.getD e.h.toNat .empty = .external k ∧
       t = (u.setAgents g).setAgenda (.callback cmds :: u.agenda)))

/-- Everything one step can do. -/
inductive Stepped (s t : State) : Prop where
  | idle (h : t = s)
  | reset (rest : List HostAct) (h : Resets s) (e : s.agents.host = .reset :: rest)
      (ht : t = powerOnReset (s.setAgents { s.agents with host := rest }))
  | store (u : State) (sp : Space) (a : Word) (bytes : List Byte) (h : Popped s u) (ht : t = agentStore sp a bytes u)
  | command (u : State) (c : Command) (i : Instr) (h : Popped s u) (hc : presented s = some c) (hd : decode c = .ok i)
      (ht : exec i u = .next t)
  | illegal (u : State) (c : Command) (e : DecodeError) (h : Popped s u) (hc : presented s = some c)
      (hd : decode c = .error e) (ht : t = illegalCommand c u)
  | begins (sd : Side) (n : Nat) (rest : List Task) (g : Agents) (acts : List CpuAct)
      (h : s.agenda = .slice sd (n + 1) [] :: rest) (ht : t = (s.setAgents g).setAgenda (.slice sd n acts :: rest))
  | ends (k : Task) (rest : List Task) (h : s.agenda = k :: rest) (ht : t = endTask rest s)
  | convert (m : Nat) (rest : List Task) (h : s.agenda = .convert m :: rest)
      (ht : t = (convertState m s).setAgenda (.slice .sub (convertResult m s) [] :: rest))
  | advance (d : Nat) (rest : List Task) (h : s.agenda = .advance d :: rest)
      (ht : t = runState (Machine.advance d (s.setAgenda rest)))
  | fires (rest : List Task) (e : Event) (h : s.agenda = .drain :: rest) (he : firstDue s = some e) (ht : Fired e s t)
  | tickEnd (rest : List Task) (h : s.agenda = .tickEnd :: rest) (ht : t = { endTask rest s with tick := s.tick + 1 })

/-- What the port does with a triple (R100). -/
theorem port_stepped {s t u : State} {c : Command} (h : Popped s u) (hc : presented s = some c)
    (e : port c u = .next t) : Stepped s t := by
  unfold port at e
  split at e
  · rename_i i hd
    exact .command u c i h hc hd e
  · rename_i x hd
    exact .illegal u c x h hc hd (Host.Outcome.next.inj e).symm

/-- The agents' own state is all that beginning an instruction changes beside the agenda (R143, R144). -/
theorem beginInstruction_eq (sd : Side) (n : Nat) (rest : List Task) (s : State) :
    ∃ g acts, beginInstruction sd n rest s = (s.setAgents g).setAgenda (.slice sd n acts :: rest) := by
  have h1 : ∃ g, sampleLine sd s = s.setAgents g := by cases sd <;> exact ⟨_, rfl⟩
  have h2 : ∀ u : State, ∃ acts g, drawInstruction sd u = (acts, u.setAgents g) := by
    intro u
    unfold drawInstruction
    split <;> exact ⟨_, _, rfl⟩
  obtain ⟨g1, e1⟩ := h1
  obtain ⟨acts, g2, e2⟩ := h2 (sampleLine sd s)
  exact ⟨g2, acts, by unfold beginInstruction; rw [e2, e1]; rfl⟩

/-- The agents' own state is all that drawing a callback's commands changes (R119). -/
theorem drawCallback_eq (k : DWord) (ch : Chan) (late : Int) (s : State) :
    ∃ cmds g, drawCallback k ch late s = (cmds, s.setAgents g) := by
  unfold drawCallback
  split <;> exact ⟨_, _, rfl⟩

/-- One round of a drain (R118). -/
theorem drainRound_cases {s t : State} {rest : List Task} (e : drainRound rest s = .next t) :
    (firstDue s = none ∧ t = endTask rest s) ∨ ∃ f, firstDue s = some f ∧ Fired f s t := by
  unfold drainRound at e
  split at e
  · rename_i h
    exact .inl ⟨h, (Host.Outcome.next.inj e).symm⟩
  · rename_i f h
    refine .inr ⟨f, h, ?_⟩
    split at e
    · rename_i u hu
      exact .inl ⟨u, hu, (Host.Outcome.next.inj e).symm⟩
    · rename_i u hu
      refine .inr ⟨u, hu, ?_⟩
      unfold dispatch at e
      split at e
      · rename_i hh
        exact .inl ⟨hh, (Host.Outcome.next.inj e).symm⟩
      · rename_i hh
        exact .inr (.inl ⟨hh, (Host.Outcome.next.inj e).symm⟩)
      · rename_i k hh
        obtain ⟨cmds, g, hd⟩ := drawCallback_eq k f.ch (s.now.toInt - f.deadline.toInt) u
        rw [hd] at e
        exact .inr (.inr ⟨k, g, cmds, hh, (Host.Outcome.next.inj e).symm⟩)
      · cases e

/-- Every step is one of the cases of `Stepped`. -/
theorem step_cases {s t : State} (e : step s = .next t) : Stepped s t := by
  unfold step at e
  split at e
  · rename_i ha
    unfold runHost at e
    split at e
    · exact .idle (Host.Outcome.next.inj e).symm
    · rename_i x rest hh
      have hp : Popped s (s.setAgents { s.agents with host := rest }) := .inl ⟨ha, x, rest, hh, rfl⟩
      cases x with
      | command c => exact port_stepped hp (by simp [presented, ha, hh]) e
      | store sp a bytes => exact .store _ sp a bytes hp (Host.Outcome.next.inj e).symm
      | reset => exact .reset rest ⟨ha, by rw [hh]; rfl⟩ hh (Host.Outcome.next.inj e).symm
  · rename_i k rest ha
    unfold runTask at e
    split at e
    · rename_i sd n x xs
      have hp : Popped s (s.setAgenda (.slice sd n xs :: rest)) := .inr (.inl ⟨sd, n, x, xs, rest, ha, rfl⟩)
      cases x with
      | bus c => exact port_stepped hp (by simp [presented, ha]) e
      | store sp a bytes => exact .store _ sp a bytes hp (Host.Outcome.next.inj e).symm
    · rename_i sd n
      obtain ⟨g, acts, h⟩ := beginInstruction_eq sd n rest s
      exact .begins sd n rest g acts ha ((Host.Outcome.next.inj e).symm.trans h)
    · exact .ends _ rest ha (Host.Outcome.next.inj e).symm
    · exact .convert _ rest ha (Host.Outcome.next.inj e).symm
    · exact .advance _ rest ha (Host.Outcome.next.inj e).symm
    · rcases drainRound_cases e with ⟨_, h⟩ | ⟨f, h1, h2⟩
      · exact .ends _ rest ha h
      · exact .fires rest f ha h1 h2
    · rename_i c cs
      exact port_stepped (.inr (.inr ⟨c, cs, rest, ha, rfl⟩)) (by simp [presented, ha]) e
    · exact .ends _ rest ha (Host.Outcome.next.inj e).symm
    · exact .tickEnd rest ha (Host.Outcome.next.inj e).symm

/-! ## One command -/

/-- Command `i` asks for this event, its delay and period in main cycles (R113, R115). -/
def Asks (i : Instr) (s : State) (rep : Bool) (ch : Chan) (h : Handle) (delay period : Int) : Prop :=
  (∃ d p : DWord, i = .eqSched rep ch h d p ∧ delay = d.toInt ∧ period = p.toInt) ∨
  (∃ d p : DWord, i = .eqSchedSub rep ch h d p ∧ delay = toMain s.cfg d.toNat ∧ d.toNat < 2 ^ 32 ∧
    ((rep = true ∧ period = toMain s.cfg p.toNat ∧ p.toNat < 2 ^ 32) ∨ (rep = false ∧ period = 0)))

/-- A relation that every elementary update of command `i` respects. The updates that only one command makes are asked for
when `i` is that command. -/
structure CommandClosed (i : Instr) (R : State → State → Prop) : Prop extends BurstClosed R where
  answer : ∀ s a, R s { s with answer := a }
  fault : ∀ s k info, R s (takeFault k info s)
  handler : ∀ s k, i = .eqReg k → s.phase = .init → s.nh < s.cfg.maxHandlers → R s (addHandler k s)
  event : ∀ s rep ch h delay period t, Asks i s rep ch h delay period →
    2 ≤ h.toNat → eventRange ch h s = true → schedule h ch delay rep period s = .ok t → R s t
  advance : ∀ s d t, i = .eqAdv d → Machine.advance d.toInt s = .ok t → R s t
  drain : ∀ s, i = .eqDrain → s.phase = .running → R s (s.setAgenda (.drain :: s.agenda))
  convert : ∀ s m, i = .clkConv m → R s (convertState m.toNat s)
  start : ∀ s, i = .drvStart → s.phase = .init → R s (s.setPhase .running)
  tick : ∀ s n, i = .drvTick n → s.phase = .running →
    R s (s.setAgenda (tickTasks n.toNat (n.toNat * s.cfg.mainCpi) ++ s.agenda))
  halt : ∀ s, i = .drvHalt → s.phase = .running → s.issuer = .host → R s (s.setPhase .halted)
  store : ∀ s sd c reg v, i = .dmaWr sd c reg v → active s sd c = false →
    R s (s.setChan sd c (writeReg sd reg v (s.chan sd c)))
  abort : ∀ s sd c v, i = .dmaWr sd c .chcr v → active s sd c = true → strOf sd v = false → running s sd c = false →
    R s (abortChannel sd c v s)
  engine : ∀ s sd reg v, i = .dmaWre sd reg v →
    R s (s.setDma sd (writeEngReg reg v (channelBits s.cfg sd) (s.dma sd)))
  line : ∀ s sd c b, i = .dmaDrq sd c b → R s (s.setChan sd c { s.chan sd c with drq := b })
  raise : ∀ s sd src, R s (raiseInt sd src s)
  mask : ∀ s sd v, i = .intWmask sd v →
    R s (s.setIntc sd { s.intc sd with mask := maskAfter s.cfg sd (s.intc sd).mask v })
  ack : ∀ s sd v, i = .intAck sd v → R s (s.setIntc sd { s.intc sd with stat := (s.intc sd).stat &&& ~~~v })
  disable : ∀ s, i = .intRctrl .sub → R s (s.setIntc .sub { s.intc .sub with master := false })
  master : ∀ s sd v, i = .intWctrl sd v → R s (s.setIntc sd { s.intc sd with master := v.getLsbD 0 })

section
variable {i : Instr} {R : State → State → Prop} (hR : CommandClosed i R)
include hR

/-- A rule of the engines' own, ended in a fault or not. -/
theorem ends_runState {s : State} {r : Run} (h : Ends R s r) : R s (runState r) := by
  cases r with
  | ok t => exact h
  | error t =>
    obtain ⟨u, k, info, hu, rfl⟩ := h
    exact hR.trans _ _ _ hu (hR.fault u k info)

theorem reply_related (s : State) (v : DWord) : R s (reply v s) := hR.answer s _

omit hR in
theorem raise_ends {s t : State} (k : FaultKind) (info : List DWord) (h : R s t) : Ends R s (raiseFault k info t) :=
  ⟨t, k, info, h, rfl⟩

/-- A command whose rule ends related to the state it starts from. -/
theorem issue_related (s : State) (rule : State → Run)
    (h : legal i s = true → inRange i s = true → Ends R (clearAnswer s) (rule (clearAnswer s))) :
    R s (issue i rule s) := by
  have hc : R s (clearAnswer s) := hR.answer s none
  rcases issue_cases i rule s with ⟨_, e⟩ | ⟨_, _, e⟩ | ⟨_, _, _, e⟩ | ⟨_, hl, hr, e⟩ <;> rw [e]
  · exact hc
  · exact hR.fault s _ _
  · exact hR.fault s _ _
  · exact hR.trans _ _ _ hc (ends_runState hR (h hl hr))

theorem schedule_ends (s : State) (rep : Bool) (ch : Chan) (h : Handle) (delay period : Int)
    (hi : Asks i s rep ch h delay period) (h2 : 2 ≤ h.toNat)
    (he : eventRange ch h s = true) : Ends R s (schedule h ch delay rep period s) := by
  cases e : schedule h ch delay rep period s with
  | ok t => exact hR.event s rep ch h delay period t hi h2 he e
  | error t =>
    obtain ⟨k, info, rfl⟩ := schedule_error e
    exact ⟨s, k, info, hR.refl s, rfl⟩

theorem evalMaster_related (s t : State) (sd : Side) (b : Bool) (h : R s t) : R s (evalMaster sd b t) := by
  unfold evalMaster
  split
  · exact hR.trans _ _ _ h (hR.raise t _ _)
  · exact h

theorem writeChannel_ends (s : State) (sd : Side) (c : Chan) (reg : ChanReg) (v : Word) (hi : i = .dmaWr sd c reg v) :
    Ends R s (writeChannel sd c reg v s) := by
  unfold writeChannel
  split
  · exact raise_ends _ _ (hR.refl s)
  · split
    · rename_i ha
      split
      · rename_i h
        exact hR.abort s sd c v (h.1 ▸ hi) (by simpa using ha) h.2.1 h.2.2
      · exact raise_ends _ _ (hR.refl s)
    · rename_i ha
      refine Ends.bind hR.trans ?_ fun t _ => processPendingStarts_ends hR.toBurstClosed t
      have hw : R s (s.setChan sd c (writeReg sd reg v (s.chan sd c))) := hR.store s sd c reg v hi (by simpa using ha)
      unfold storeOrStart
      split
      · rename_i h
        by_cases hc : c.toNat < (s.dma sd).chans.length
        · refine Ends.trans hR.trans hw (startChannel_ends hR.toBurstClosed sd c _ ?_)
          unfold active
          rw [chan_setChan_self s sd c _ hc, h.1, writeReg, strOf_chcrMask]
          exact h.2
        · rw [setChan_absent s sd c _ hc]
          exact startChannel_absent hR.refl sd c s hc
      · exact hw

/-- Everything a command can do is made of the updates the relation respects. -/
theorem exec_related {s t : State} (e : exec i s = .next t) : R s t := by
  have q := hR.toBurstClosed
  cases i with
  | eqReg k =>
    obtain rfl := Host.Outcome.next.inj e
    refine issue_related hR s _ fun hl _ => ?_
    unfold registerHandler
    split
    · exact raise_ends _ _ (hR.refl _)
    · refine hR.trans _ _ _ (hR.handler _ k rfl ?_ (by omega)) (reply_related hR _ _)
      revert hl
      cases hp : s.phase <;> simp [legal, cmdClass, legalPhase, hp]
  | eqSched rep ch h delay period =>
    obtain rfl := Host.Outcome.next.inj e
    refine issue_related hR s _ fun _ hr => ?_
    simp only [inRange, Bool.and_eq_true, decide_eq_true_eq] at hr
    exact schedule_ends hR _ _ _ _ _ _ (.inl ⟨_, _, rfl, rfl, rfl⟩) hr.2 hr.1
  | eqSchedSub rep ch h delay period =>
    obtain rfl := Host.Outcome.next.inj e
    refine issue_related hR s _ fun _ hr => ?_
    simp only [inRange, Bool.and_eq_true, decide_eq_true_eq] at hr
    unfold scheduleSub
    split
    · exact raise_ends _ _ (hR.refl _)
    · split
      · exact raise_ends _ _ (hR.refl _)
      · unfold periodChecked toMainChecked
        split
        · rename_i hd
          show Ends R _ ((if rep = true then _ else _) >>= _)
          split
          · rename_i hrep
            split
            · rename_i hp
              exact schedule_ends hR (clearAnswer s) rep ch h (toMain s.cfg delay.toNat) (toMain s.cfg period.toNat)
                (.inr ⟨_, _, rfl, rfl, hd, .inl ⟨hrep, rfl, hp⟩⟩) hr.2 hr.1
            · exact raise_ends _ _ (hR.refl _)
          · rename_i hrep
            exact schedule_ends hR (clearAnswer s) rep ch h (toMain s.cfg delay.toNat) (0 : Nat)
              (.inr ⟨_, _, rfl, rfl, hd, .inr ⟨by simpa using hrep, rfl⟩⟩) hr.2 hr.1
        · exact raise_ends _ _ (hR.refl _)
  | eqNow =>
    obtain rfl := Host.Outcome.next.inj e
    exact issue_related hR s _ fun _ _ => reply_related hR _ _
  | eqAdv delta =>
    obtain rfl := Host.Outcome.next.inj e
    refine issue_related hR s _ fun _ _ => ?_
    cases e : Machine.advance delta.toInt (clearAnswer s) with
    | ok t => exact hR.advance _ delta t rfl e
    | error t =>
      obtain ⟨k, info, rfl⟩ := advance_error e
      exact ⟨_, k, info, hR.refl _, rfl⟩
  | eqDrain =>
    obtain rfl := Host.Outcome.next.inj e
    refine issue_related hR s _ fun hl _ => hR.drain _ rfl ?_
    revert hl
    cases hp : s.phase <;> simp [legal, cmdClass, legalPhase, hp]
  | eqQuery ch h =>
    obtain rfl := Host.Outcome.next.inj e
    exact issue_related hR s _ fun _ _ => reply_related hR _ _
  | clkConv m =>
    obtain rfl := Host.Outcome.next.inj e
    refine issue_related hR s _ fun _ _ => ?_
    unfold convertCommand
    split
    · exact hR.trans _ _ _ (hR.convert _ m rfl) (reply_related hR _ _)
    · exact raise_ends _ _ (hR.refl _)
  | clkToMain d =>
    obtain rfl := Host.Outcome.next.inj e
    refine issue_related hR s _ fun _ _ => ?_
    unfold toMainCommand
    split
    · exact reply_related hR _ _
    · exact raise_ends _ _ (hR.refl _)
  | drvStart =>
    obtain rfl := Host.Outcome.next.inj e
    refine issue_related hR s _ fun hl _ => hR.start _ rfl ?_
    revert hl
    cases hp : s.phase <;> simp [legal, cmdClass, legalPhase, hp]
  | drvTick n =>
    obtain rfl := Host.Outcome.next.inj e
    refine issue_related hR s _ fun hl _ => hR.tick _ n rfl ?_
    revert hl
    cases hp : s.phase <;> simp [legal, cmdClass, legalPhase, hp]
  | drvHalt =>
    obtain rfl := Host.Outcome.next.inj e
    refine issue_related hR s _ fun hl _ => hR.halt _ rfl ?_ ?_
    · revert hl
      cases hp : s.phase <;> simp [legal, cmdClass, legalPhase, hp]
    · revert hl
      show _ → s.issuer = .host
      cases hp : s.issuer <;> simp [legal, cmdClass, legalIssuer, hp]
  | dmaWr sd c reg v =>
    obtain rfl := Host.Outcome.next.inj e
    exact issue_related hR s _ fun _ _ => writeChannel_ends hR _ sd c reg v rfl
  | dmaRd sd c reg =>
    obtain rfl := Host.Outcome.next.inj e
    refine issue_related hR s _ fun _ _ => ?_
    cases reg <;> first | exact reply_related hR _ _ | exact raise_ends _ _ (hR.refl _)
  | dmaWre sd reg v =>
    obtain rfl := Host.Outcome.next.inj e
    refine issue_related hR s _ fun _ _ => ?_
    refine Ends.bind hR.trans ?_ fun t _ => processPendingStarts_ends q t
    have hw := hR.engine (clearAnswer s) sd reg v rfl
    cases reg
    · exact Ends.trans hR.trans hw (reEvaluate_ends q sd _)
    · exact Ends.trans hR.trans hw (reEvaluate_ends q sd _)
    · exact evalMaster_related hR _ _ sd _ hw
    · exact evalMaster_related hR _ _ sd _ hw
  | dmaRde sd reg =>
    obtain rfl := Host.Outcome.next.inj e
    exact issue_related hR s _ fun _ _ => reply_related hR _ _
  | dmaDrq sd c b =>
    obtain rfl := Host.Outcome.next.inj e
    refine issue_related hR s _ fun _ _ => ?_
    unfold setDrq
    split
    · exact raise_ends _ _ (hR.refl _)
    · refine Ends.bind hR.trans ?_ fun t _ => processPendingStarts_ends q t
      unfold storeDrq
      split
      · rename_i h
        obtain rfl : b = true := h.2.1
        exact Ends.trans hR.trans (hR.line _ sd c true rfl) (checkRunning_ends q sd c _)
      · exact hR.line _ sd c b rfl
  | sifPush d w =>
    obtain rfl := Host.Outcome.next.inj e
    refine issue_related hR s _ fun _ _ => ?_
    refine Ends.bind hR.trans ?_ fun t _ => processPendingStarts_ends q t
    cases e : fifoPush d w (clearAnswer s) with
    | ok t =>
      obtain ⟨hlt, rfl⟩ := fifoPush_ok e
      exact hR.push _ d _ hlt
    | error t => exact ⟨_, _, _, hR.refl _, (fifoPush_error e).2⟩
  | sifPop d =>
    obtain rfl := Host.Outcome.next.inj e
    refine issue_related hR s _ fun _ _ => ?_
    unfold popCommand
    split
    · rename_i t e
      exact ⟨_, _, _, hR.refl _, (fifoPop_error e).2⟩
    · rename_i w t e
      obtain ⟨rest, hq, rfl⟩ := fifoPop_ok e
      exact Ends.trans hR.trans (hR.trans _ _ _ (hR.pop _ d w rest hq) (reply_related hR _ _))
        (processPendingStarts_ends q _)
  | sifOcc d =>
    obtain rfl := Host.Outcome.next.inj e
    exact issue_related hR s _ fun _ _ => reply_related hR _ _
  | intRaise sd src =>
    obtain rfl := Host.Outcome.next.inj e
    exact issue_related hR s _ fun _ _ => hR.raise _ sd src
  | intWmask sd v =>
    obtain rfl := Host.Outcome.next.inj e
    exact issue_related hR s _ fun _ _ => hR.mask _ sd v rfl
  | intAck sd v =>
    obtain rfl := Host.Outcome.next.inj e
    exact issue_related hR s _ fun _ _ => hR.ack _ sd v rfl
  | intRstat sd =>
    obtain rfl := Host.Outcome.next.inj e
    exact issue_related hR s _ fun _ _ => reply_related hR _ _
  | intRmask sd =>
    obtain rfl := Host.Outcome.next.inj e
    exact issue_related hR s _ fun _ _ => reply_related hR _ _
  | intRctrl sd =>
    obtain rfl := Host.Outcome.next.inj e
    refine issue_related hR s _ fun _ _ => ?_
    cases sd
    · exact reply_related hR _ _
    · exact hR.trans _ _ _ (reply_related hR _ _) (hR.disable _ rfl)
  | intWctrl sd v =>
    obtain rfl := Host.Outcome.next.inj e
    exact issue_related hR s _ fun _ _ => hR.master _ sd v rfl
  | intPend sd =>
    obtain rfl := Host.Outcome.next.inj e
    exact issue_related hR s _ fun _ _ => reply_related hR _ _
  | illegal a b =>
    obtain rfl := Host.Outcome.next.inj e
    show R s (illegalCommand _ s)
    unfold illegalCommand
    split
    · exact hR.answer s none
    · exact hR.fault s _ _

end

end Sys2Proof.Machine
end

