-- ==== Sys2Proof/Tests/Slice0.lean ====
section
/-! SUPPORT. The model's own tests. Expected values come from spec/95_test_vectors.md (the vector is named beside each test)
or from the worked encodings of R103; then a witness for the hypotheses of every statement that has some. -/

namespace Sys2Proof.Tests

open Sys2Proof.Machine Sys2Proof.Safety

/-! ## Small states -/

/-- After reset and DRV.START. -/
def live : State := State.reset.setPhase .running

/-- In phase Halted. -/
def halted : State := State.reset.setPhase .halted

/-- After some fault. -/
def faulted : State := takeFault .badOperand [] live

/-- `live` with external callback 7 in slot 2: EQ.REG 7. -/
def withHandler : State := { live with handlers := live.handlers.set 2 (.external 7), nh := 3 }

/-- With the handler table full. -/
def fullTable : State :=
  { State.reset with handlers := [.dmaMain, .dmaSub] ++ List.replicate 62 (.external 7), nh := 64 }

/-- Both DMA engines enabled: DMA.WRE CTRL, 1 on either side. -/
def enabled : State :=
  (live.setDma .main { live.dmaMain with ctrl := 1 }).setDma .sub { live.dmaSub with ctrl := 1 }

/-- `enabled` with one channel's registers given. -/
def withChan (sd : Side) (c : Chan) (f : Channel → Channel) : State := enabled.setChan sd c (f (enabled.chan sd c))

/-- Put words in memory from an address on. -/
def fill (sp : Space) : Nat → List Word → Memory → Memory
  | _, [], m => m
  | a, w :: ws, m => fill sp (a + 4) ws (m.writeWord sp a w)

/-- An event of handle 2. -/
def anEvent (deadline : DWord) (rep : Bool) (period : DWord) (seq : DWord) : Event :=
  ⟨2, 0, deadline, rep, period, seq⟩

/-- The outcome is a next state of which `f` holds. -/
def gives (o : Host.Outcome State Machine.Fault Refusal) (f : State → Bool) : Bool :=
  match o with
  | .next t => f t
  | _ => false

/-- The outcome is a next state in phase Faulted with this record. -/
def faults (o : Host.Outcome State Machine.Fault Refusal) (kind : FaultKind) (info : List DWord) : Bool :=
  gives o fun t => t.phase == .faulted && t.fault == some ⟨kind, info⟩

/-! ## Well-formed commands (R94, R97) -/

/-- EQ.SCHED with `R` 0 and `B` 5 is refused. -/
theorem test_wellFormed_refuses_eqSched : WellFormed (.eqSched false 0 2 5 5) = false := by decide

theorem test_wellFormed_accepts_eqSched : WellFormed (.eqSched true 0 2 5 5) = true := by decide

/-- EQ.SCHEDSUB with `R` 0 and `B` 5 is refused. -/
theorem test_wellFormed_refuses_eqSchedSub : WellFormed (.eqSchedSub false 0 2 5 5) = false := by decide

theorem test_wellFormed_accepts_eqSchedSub : WellFormed (.eqSchedSub false 0 2 5 0) = true := by decide

/-! ## Decoding: words written out from R92 and R98 as OPC, S, R, X, IMM16 -/

/-- A command whose word is written out field by field. -/
def word (opc : BitVec 8) (s r : BitVec 1) (x : BitVec 6) (imm : BitVec 16) (a b : DWord) : Command :=
  ⟨opc ++ s ++ r ++ x ++ imm, a, b⟩

theorem test_decode_queue :
    decode (word 0x01 0 0 0 0 7 0) = .ok (.eqReg 7) ∧
    decode (word 0x02 0 1 0b000101 0x0102 10 25) = .ok (.eqSched true 5 0x0102 10 25) ∧
    decode (word 0x03 0 0 0b111111 0x8001 5 0) = .ok (.eqSchedSub false 63 0x8001 5 0) ∧
    decode (word 0x04 0 0 0 0 0 0) = .ok .eqNow ∧
    decode (word 0x05 0 0 0 0 0xFFFFFFFFFFFFFFFF 0) = .ok (.eqAdv 0xFFFFFFFFFFFFFFFF) ∧
    decode (word 0x06 0 0 0 0 0 0) = .ok .eqDrain ∧
    decode (word 0x07 0 0 0b100000 0x0002 0 0) = .ok (.eqQuery 32 2) := by decide

theorem test_decode_clock_driver :
    decode (word 0x10 0 0 0 0 100 0) = .ok (.clkConv 100) ∧
    decode (word 0x11 0 0 0 0 32 0) = .ok (.clkToMain 32) ∧
    decode (word 0x12 0 0 0 0 0 0) = .ok .drvStart ∧
    decode (word 0x13 0 0 0 0 0xFFFFFFFF 0) = .ok (.drvTick 0xFFFFFFFF) ∧
    decode (word 0x14 0 0 0 0 0 0) = .ok .drvHalt := by decide

theorem test_decode_dma :
    decode (word 0x20 1 0 0b001001 0b001 0x1000 0) = .ok (.dmaWr .sub 9 .madr 0x1000) ∧
    decode (word 0x20 0 0 0b000101 0b010 7 0) = .ok (.dmaWr .main 5 .cnt 7) ∧
    decode (word 0x21 0 0 0b000110 0b100 0 0) = .ok (.dmaRd .main 6 .status) ∧
    decode (word 0x21 1 0 0b001101 0b011 0 0) = .ok (.dmaRd .sub 13 .tadr) ∧
    decode (word 0x22 1 0 0 0b11 0x80000200 0) = .ok (.dmaWre .sub .dintCtl 0x80000200) ∧
    decode (word 0x22 0 0 0 0b01 1 0) = .ok (.dmaWre .main .pcr 1) ∧
    decode (word 0x23 1 0 0 0b10 0 0) = .ok (.dmaRde .sub .dintStat) ∧
    decode (word 0x24 1 0 0b000100 0 1 0) = .ok (.dmaDrq .sub 4 true) := by decide

theorem test_decode_fifo :
    decode (word 0x30 1 0 0 0 0xA 0) = .ok (.sifPush .sif1 0xA) ∧
    decode (word 0x31 0 0 0 0 0 0) = .ok (.sifPop .sif0) ∧
    decode (word 0x32 1 0 0 0 0 0) = .ok (.sifOcc .sif1) := by decide

theorem test_decode_interrupt :
    decode (word 0x40 1 0 0 0b11111 0 0) = .ok (.intRaise .sub 31) ∧
    decode (word 0x41 0 0 0 0 5 0) = .ok (.intWmask .main 5) ∧
    decode (word 0x42 1 0 0 0 0x80000000 0) = .ok (.intAck .sub 0x80000000) ∧
    decode (word 0x43 0 0 0 0 0 0) = .ok (.intRstat .main) ∧
    decode (word 0x44 1 0 0 0 0 0) = .ok (.intRmask .sub) ∧
    decode (word 0x45 1 0 0 0 0 0) = .ok (.intRctrl .sub) ∧
    decode (word 0x46 1 0 0 0 1 0) = .ok (.intWctrl .sub 1) ∧
    decode (word 0x47 0 0 0 0 0 0) = .ok (.intPend .main) ∧
    decode (word 0x00 0 0 0 0 1 2) = .ok (.illegal 1 2) := by decide

/-- DEC-2, DEC-3, DEC-4, DEC-5, DEC-8, INT-11: reserved operation codes and must-be-zero bits are rejected by name. -/
theorem test_decode_rejects :
    decode ⟨0x08000000, 0, 0⟩ = .error .reservedOpcode ∧
    decode ⟨0x04000001, 0, 0⟩ = .error .reservedBits ∧
    decode ⟨0x41000000, 0x100000000, 0⟩ = .error .reservedOperand ∧
    decode ⟨0x02000002, 5, 5⟩ = .error .reservedOperand ∧
    decode ⟨0x21000008, 0, 0⟩ = .error .reservedBits ∧
    decode ⟨0x40000020, 0, 0⟩ = .error .reservedBits := by decide

/-- A triple as the opcode table numbers its bits: CMD lowest, then A. -/
theorem test_decodeTableWord :
    decodeTableWord 160 (0x41000000 + 5 * 2 ^ 32) = some (.intWmask .main 5) ∧
    decodeTableWord 32 0x06000000 = some .eqDrain := by decide

/-- The command placed by `withFetchWord` is the one the next step runs. -/
theorem test_withFetchWord :
    gives (step (State.reset.withFetchWord 160 (0x01000000 + 7 * 2 ^ 32))) (fun t => t.answer == some 2) := by
  decide

/-! ## The commands, one step each -/

/-- DEC-1. -/
theorem test_illegal : faults (exec (.illegal 0 0) State.reset) .illegalCommand [0, 0, 0] := by decide

/-- EQ-1, EQ-2. -/
theorem test_eqReg :
    gives (exec (.eqReg 7) State.reset) (fun t => t.answer == some 2 && t.nh == 3) ∧
    faults (exec (.eqReg 9) fullTable) .handlerTableFull [9] := by decide

/-- EQ-3: deadline 100 with sequence number 0. -/
theorem test_eqSched :
    gives (exec (.eqSched false 0 2 100 0) withHandler) (fun t => t.queue == [⟨2, 0, 100, false, 0, 0⟩]) := by
  decide

/-- EQ-4: the entry is replaced. -/
theorem test_eqSched_replaces :
    gives (exec (.eqSched false 0 2 30 0) { withHandler with queue := [anEvent 100 false 0 0], seq := 1 })
      (fun t => t.queue == [⟨2, 0, 30, false, 0, 1⟩]) := by decide

/-- EQ-11, EQ-12. -/
theorem test_eqSchedSub :
    gives (exec (.eqSchedSub false 2 2 5 0) withHandler) (fun t => t.queue == [⟨2, 2, 40, false, 0, 0⟩]) ∧
    gives (exec (.eqSchedSub false 0 2 0x100000000 0) withHandler) (fun t => t.fault.map (·.kind) == some .badOperand) := by decide

/-- EQ-13. -/
theorem test_eqNow : gives (exec .eqNow { live with now := 50 }) (fun t => t.answer == some 50) := by decide

/-- EQ-13, EQ-14. -/
theorem test_eqAdv :
    gives (exec (.eqAdv 50) live) (fun t => t.now == 50) ∧
    gives (exec (.eqAdv 0xFFFFFFFFFFFFFFFF) live) (fun t => t.fault.map (·.kind) == some .negativeDelay) := by
  decide

/-- EQ-17: the drain's first round fires `(2, 0)` five cycles late. -/
theorem test_eqDrain :
    gives (exec .eqDrain live) (fun t => t.agenda == [.drain]) ∧
    gives (step { withHandler with
        now := 10, queue := [anEvent 5 false 0 0], agenda := [.drain]
        agents := { Agents.blank with callbackIn := [[]] } })
      (fun t => t.queue == [] && t.agents.callbackLog == [⟨7, 0, 5⟩]) := by decide

/-- EQ-3: answers 1 for `(2, 0)` and 0 for `(2, 1)`. -/
theorem test_eqQuery :
    gives (exec (.eqQuery 0 2) { withHandler with queue := [anEvent 100 false 0 0] }) (fun t => t.answer == some 1) ∧
    gives (exec (.eqQuery 1 2) { withHandler with queue := [anEvent 100 false 0 0] }) (fun t => t.answer == some 0) := by decide

/-- CLK-1, CLK-2. -/
theorem test_clkConv :
    gives (exec (.clkConv 100) live) (fun t => t.answer == some 12 && t.acc == 4) ∧
    gives (exec (.clkConv 4) { live with acc := 4 }) (fun t => t.answer == some 1 && t.acc == 0) := by decide

/-- CLK-5, and CLK-6 with the ratio 3/8. -/
theorem test_clkToMain :
    gives (exec (.clkToMain 32) State.reset) (fun t => t.answer == some 256) ∧
    gives (exec (.clkToMain 1) (State.initial { Config.spec with iopNum := 3 } Memory.blank Agents.blank))
      (fun t => t.answer == some 3) := by decide

/-- DRV-1. -/
theorem test_drvStart : gives (exec .drvStart State.reset) (fun t => t.phase == .running) := by decide

/-- DRV-4 and DRV-6: a tick of no instructions is laid out; in `Init` it is a PhaseViolation. -/
theorem test_drvTick :
    gives (exec (.drvTick 0) live)
      (fun t => t.agenda == [.slice .main 0 [], .convert 0, .advance 0, .drain, .tickEnd]) ∧
    gives (exec (.drvTick 1) State.reset) (fun t => t.fault.map (·.kind) == some .phaseViolation) := by decide

/-- DRV-5. -/
theorem test_drvHalt : gives (exec .drvHalt live) (fun t => t.phase == .halted) := by decide

/-- DMA-3: bits 31:16 of the main-side count register are masked. -/
theorem test_dmaWr_masks :
    gives (exec (.dmaWr .main 0 .cnt 0x10005) enabled) (fun t => (t.chan .main 0).cnt == 5) := by decide

/-- R160 and R272: the records of a write to a read-only select and to an invalid one. -/
theorem test_dmaWr_selects :
    faults (exec (.dmaWr .main 0 .status 5) enabled) .badOperand [0x20000004, 5] ∧
    faults (exec (.dmaWr .main 0 .sel6 5) enabled) .badOperand [0x20000006, 5, 0] := by decide

/-- The enabled main engine under the configuration that takes the lists of R272's table (log 9). -/
def byTable : State := { enabled with cfg := { Config.spec with faultInfo := .byTable } }

/-- R272's `[CMD, A, B]` for the read-only selects of a write and the invalid ones of a read. -/
theorem test_badOperand_byTable :
    faults (exec (.dmaWr .main 0 .status 5) byTable) .badOperand [0x20000004, 5, 0] ∧
    faults (exec (.dmaRd .main 0 .sel6) byTable) .badOperand [0x21000006, 0, 0] := by decide

/-- Memory with the words 0x100, 0x101, ... at MAIN_RAM[0x100 ..] (DMA-4). -/
def mem4 : Memory := fill .mainRam 0x100 ((List.range 16).map fun i => BitVec.ofNat 32 (0x100 + i)) Memory.blank

/-- DMA-4: one burst of 16 words to the peripheral in address order, its event at 32. -/
theorem test_dmaWr_bursts :
    gives (exec (.dmaWr .main 0 .chcr 0x101) ((withChan .main 0 fun ch => { ch with madr := 0x100, cnt := 4 }).setMem mem4))
      (fun t => t.agents.periphLog == (List.range 16).map (fun i => .write .main 0 (BitVec.ofNat 32 (0x100 + i))) &&
        t.chan .main 0 == ⟨0x101, 0x140, 0, 0, true, false, 0⟩ &&
        t.queue == [⟨0, 0, 32, false, 0, 0⟩]) := by decide

/-- DMA-1: the SIF0 producer's STATUS is 1 with the FIFO empty, its consumer's 0. -/
theorem test_dmaRd :
    gives (exec (.dmaRd .sub 9 .status) State.reset) (fun t => t.answer == some 1) ∧
    gives (exec (.dmaRd .main 5 .status) State.reset) (fun t => t.answer == some 0) := by decide

/-- DMA-17: the master flag rises and the source is raised. -/
theorem test_dmaWre_raises :
    gives (exec (.dmaWre .main .dintCtl 0x80000001) (live.setDma .main { live.dmaMain with dintStat := 1 }))
      (fun t => t.intMain.stat == 0x8000) := by decide

/-- DMA-18: the pending bit is cleared and the raised source stays. -/
theorem test_dmaWre_clears :
    gives (exec (.dmaWre .main .dintStat 1)
        ((live.setDma .main { live.dmaMain with dintStat := 1, dintCtl := 0x80000001 }).setIntc .main ⟨0x8000, 0, true⟩))
      (fun t => t.dmaMain.dintStat == 0 && t.intMain.stat == 0x8000) := by decide

/-- DMA-17: DINT_STAT shows the master flag in bit 31. -/
theorem test_dmaRde :
    gives (exec (.dmaRde .main .dintStat) (live.setDma .main { live.dmaMain with dintStat := 1, dintCtl := 0x80000001 }))
      (fun t => t.answer == some 0x80000001) := by decide

/-- DMA-13 up to the start: channel 2 of the main side Waiting on its request line, four words to take. -/
def waiting2 : State :=
  (withChan .main 2 fun ch => { ch with drq := false, chcr := 0x100, cnt := 1, rem := 4 }).setAgents
    { Agents.blank with periphIn := [10, 11, 12, 13] }

/-- DMA-14: the rising edge takes one burst of 4 words into memory. -/
theorem test_dmaDrq_bursts :
    gives (exec (.dmaDrq .main 2 true) waiting2)
      (fun t => t.mem == fill .mainRam 0 [10, 11, 12, 13] Memory.blank && t.queue == [⟨0, 2, 32, false, 0, 0⟩]) := by
  decide

/-- DMA-23. -/
theorem test_dmaDrq_sif :
    gives (exec (.dmaDrq .main 5 true) enabled) (fun t => t.fault.map (·.kind) == some .contradictoryControl) := by
  decide

/-- SIF-3: the full FIFO keeps its words. -/
theorem test_sifPush_full :
    gives (exec (.sifPush .sif0 32) { live with sif0 := (List.range 32).map (BitVec.ofNat 32) })
      (fun t => t.fault == some ⟨.fifoOverflow, [0, 32]⟩ && t.sif0 == (List.range 32).map (BitVec.ofNat 32)) := by
  decide

/-- SIF-6: a Waiting consumer and an empty FIFO. -/
def thirsty : State := withChan .main 5 fun ch => { ch with madr := 0x40, chcr := 0x100, cnt := 1, rem := 4 }

/-- SIF-6: a push starts the Waiting consumer, which stores the word. -/
theorem test_sifPush_starts :
    gives (exec (.sifPush .sif0 0x55) thirsty)
      (fun t => t.mem.readWord .mainRam 0x40 == 0x55 && (t.chan .main 5).rem == 3 &&
        t.queue == [⟨0, 5, 32, false, 0, 0⟩]) := by decide

/-- SIF-1, SIF-2. -/
theorem test_sifPop :
    gives (exec (.sifPop .sif1) { live with sif1 := [0xA, 0xB] }) (fun t => t.answer == some 0xA && t.sif1 == [0xB]) ∧
    faults (exec (.sifPop .sif0) live) .fifoUnderflow [0] := by decide

/-- SIF-1. -/
theorem test_sifOcc :
    gives (exec (.sifOcc .sif1) { live with sif1 := [0xA, 0xB] }) (fun t => t.answer == some 2) := by decide

/-- INT-1. -/
theorem test_intRaise : gives (exec (.intRaise .sub 3) State.reset) (fun t => t.intSub.stat == 8) := by decide

/-- INT-2: the second write of 5 gives 0. -/
theorem test_intWmask_main :
    gives (exec (.intWmask .main 5) (State.reset.setIntc .main ⟨0, 5, true⟩)) (fun t => t.intMain.mask == 0) := by
  decide

/-- INT-4 under `Or`. -/
theorem test_intWmask_sub :
    gives (exec (.intWmask .sub 2) (State.reset.setIntc .sub ⟨0, 5, false⟩)) (fun t => t.intSub.mask == 7) := by
  decide

/-- INT-7. -/
theorem test_intAck :
    gives (exec (.intAck .main 0x8000) (State.reset.setIntc .main ⟨0x8001, 0, true⟩)) (fun t => t.intMain.stat == 1) := by
  decide

/-- INT-10. -/
theorem test_intRstat :
    gives (exec (.intRstat .sub) (State.reset.setIntc .sub ⟨8, 0, false⟩)) (fun t => t.answer == some 8) := by decide

/-- P5 step 6. -/
theorem test_intRmask :
    gives (exec (.intRmask .sub) (State.reset.setIntc .sub ⟨0, 5, false⟩)) (fun t => t.answer == some 5) := by decide

/-- INT-8, INT-9: the read disables delivery on the secondary side only. -/
theorem test_intRctrl :
    gives (exec (.intRctrl .sub) (State.reset.setIntc .sub ⟨0, 0, true⟩))
      (fun t => t.answer == some 1 && !t.intSub.master) ∧
    gives (exec (.intRctrl .main) State.reset) (fun t => t.answer == some 1 && t.intMain.master) := by decide

/-- INT-8. -/
theorem test_intWctrl : gives (exec (.intWctrl .sub 1) State.reset) (fun t => t.intSub.master) := by decide

/-- INT-5, INT-1. -/
theorem test_intPend :
    gives (exec (.intPend .main) (State.reset.setIntc .main ⟨4, 4, true⟩)) (fun t => t.answer == some 1) ∧
    gives (exec (.intPend .sub) (State.reset.setIntc .sub ⟨8, 0, false⟩)) (fun t => t.answer == some 0) := by decide

/-! ## The DMA event rule -/

/-- DMA-5: channel 0 completes, with the master flag off. -/
theorem test_dmaEvent_completes :
    (match dmaEvent .main 0 (withChan .main 0 fun ch => { ch with chcr := 0x101 }) with
      | .ok t => (t.chan .main 0).chcr == 1 && t.dmaMain.dintStat == 1 && t.intMain.stat == 0
      | .error _ => false) = true := by decide

/-- A chain of the main side at TADR 0x100 whose first tag's words are `lo` and `hi`. -/
def mainChain (lo hi : Word) : State :=
  (withChan .main 1 fun ch => { ch with chcr := 0x105, tadr := 0x100 }).setMem (fill .mainRam 0x100 [lo, hi] Memory.blank)

/-- DMA-19's first tag, of id `cnt`. -/
theorem test_mainTag_cnt :
    (match tagFetch .main 1 (mainChain 0x10000002 0) with
      | .ok t => t.chan .main 1 == ⟨0x10000105, 0x110, 0x130, 2, true, false, 8⟩
      | .error _ => false) = true := by decide

/-- DMA-20. -/
theorem test_mainTag_unmodelled :
    (match tagFetch .main 1 (mainChain 0x40000001 0) with
      | .ok _ => false
      | .error t => t.fault.map (·.kind) == some .unimplemented) = true := by decide

/-- A chain of the secondary side at TADR 0x200 whose first tag's words are `w0` and `w1`. -/
def subChain (w0 w1 : Word) : State :=
  (withChan .sub 4 fun ch => { ch with chcr := 0x01000401, tadr := 0x200 }).setMem (fill .subRam 0x200 [w0, w1] Memory.blank)

/-- DMA-21's tag. -/
theorem test_subTag :
    (match tagFetch .sub 4 (subChain 0x80000300 3) with
      | .ok t => t.chan .sub 4 == ⟨0x01000401, 0x300, 0x208, 0, true, true, 3⟩
      | .error _ => false) = true := by decide

/-! ## Witnesses: a state and operands that meet every statement's hypotheses -/

theorem witness_DecodeOfEncode :
    WellFormed (.eqSched true 63 0xFFFF 1 2) = true ∧ WellFormed (.eqSched false 0 2 1 0) = true := by decide

theorem witness_EncodeOfDecode :
    decode ⟨0x02410003, 10, 10⟩ = .ok (.eqSched true 1 3 10 10) ∧ decode ⟨0, 1, 2⟩ = .ok (.illegal 1 2) := by decide

/-- Operation codes at both sides of every gap of R98; then, with an operation code of R98 each, a must-be-zero bit of CMD
(DEC-3, DEC-8, INT-11), of A (DEC-4), of B, and the period of an event that does not repeat (DEC-5). -/
theorem witness_IllegalTriplesFault :
    (∀ n ∈ [0x00, 0x08, 0x0F, 0x15, 0x1F, 0x25, 0x2F, 0x33, 0x3F, 0x48, 0xFF],
      n ∉ [0x01, 0x02, 0x03, 0x04, 0x05, 0x06, 0x07, 0x10, 0x11, 0x12, 0x13, 0x14, 0x20, 0x21, 0x22, 0x23, 0x24,
        0x30, 0x31, 0x32, 0x40, 0x41, 0x42, 0x43, 0x44, 0x45, 0x46, 0x47] ∧
      ((BitVec.ofNat 32 (n * 2 ^ 24)).extractLsb' 24 8).toNat = n) ∧ State.reset.phase ≠ .faulted ∧
    (0x04000001 : Word) &&& 0x00FFFFFF ≠ 0 ∧ (0x21000008 : Word) &&& 0x0040FFF8 ≠ 0 ∧
    (0x40000020 : Word) &&& 0x007FFFE0 ≠ 0 ∧ (0x100000000 : DWord) &&& 0xFFFFFFFF00000000 ≠ 0 ∧
    (2 : DWord) &&& 0xFFFFFFFFFFFFFFFE ≠ 0 ∧ (1 : DWord) &&& 0xFFFFFFFFFFFFFFFF ≠ 0 ∧
    ((0x02000002 : Word).extractLsb' 24 8).toNat = 0x02 ∧ (0x02000002 : Word).getLsbD 22 = false := by decide

/-- `live` with the Host about to present a command. -/
def hostNext (c : Command) (s : State) : State := s.setAgents { s.agents with host := [.command c] }

theorem witness_StepRunsPresentedCommand :
    decode ⟨0x04000000, 0, 0⟩ = .ok .eqNow ∧ WellFormed .eqNow = true ∧
    (hostNext ⟨0x04000000, 0, 0⟩ live).agenda = [] ∧
    (hostNext ⟨0x04000000, 0, 0⟩ live).agents.host = .command ⟨0x04000000, 0, 0⟩ :: [] ∧
    (live.setAgenda [.slice .main 3 [.bus ⟨0x04000000, 0, 0⟩], .drain]).agenda =
      .slice .main 3 (.bus ⟨0x04000000, 0, 0⟩ :: []) :: [.drain] ∧
    (live.setAgenda [.callback [⟨0x04000000, 0, 0⟩], .drain]).agenda =
      .callback (⟨0x04000000, 0, 0⟩ :: []) :: [.drain] := by decide

theorem witness_FaultedCommandsDoNothing : faulted.phase = .faulted := by decide

/-- DEC-10, DEC-11, DEC-12, DEC-15 and DRV-6. -/
theorem witness_IllegalPhaseOrIssuerFaults :
    legal (.eqSched false 0 0 5 0) (live.setAgenda [.slice .main 0 []]) = false ∧
    legal (.dmaWr .sub 0 .madr 4) (live.setAgenda [.slice .main 0 []]) = false ∧
    legal (.sifPush .sif0 1) State.reset = false ∧ legal (.intRctrl .main) halted = false ∧
    legal (.drvTick 1) State.reset = false ∧
    live.phase ≠ .faulted ∧ State.reset.phase ≠ .faulted ∧ halted.phase ≠ .faulted := by decide

/-- The first channel without a record on either side (DEC-6), the first channel above a smaller MAX_CHAN, the first
unfilled handle (EQ-18), and the built-in handles (EQ-16). -/
theorem witness_OutOfRangeOperandFaults :
    State.reset.cfg.nch .main ≤ (10 : Chan).toNat ∧ State.reset.cfg.nch .sub ≤ (14 : Chan).toNat ∧
    legal (.dmaWr .main 10 .chcr 0) State.reset = true ∧ legal (.dmaDrq .sub 14 true) State.reset = true ∧
    ({ Config.spec with maxChan := 7 } : Params).maxChan < (8 : Chan).toNat ∧
    State.reset.nh ≤ (2 : Handle).toNat ∧ legal (.eqQuery 0 2) State.reset = true ∧
    legal (.eqSched false 0 1 10 0) State.reset = true ∧ (1 : Handle).toNat < 2 ∧ (0 : Handle).toNat < 2 := by decide

theorem witness_IllegalTakesFaultEntry : live.phase ≠ .faulted ∧ live.fault = none := by decide

/-- A faulted block whose Host goes on presenting commands; a block that takes a fault; the reset. -/
theorem witness_FaultedMachineIsFrozen :
    gives (step (hostNext ⟨0x08000000, 0, 0⟩ live)) (fun t => t.fault != live.fault) ∧
    gives (step (faulted.setAgents { Agents.blank with host := [.reset] })) (fun t => t.fault == none) ∧
    (∃ t, step (hostNext ⟨0x12000000, 0, 0⟩ faulted) = .next t) ∧ ¬Resets (hostNext ⟨0x12000000, 0, 0⟩ faulted) ∧
    (hostNext ⟨0x12000000, 0, 0⟩ faulted).fault = some ⟨.badOperand, []⟩ ∧
    (hostNext ⟨0x12000000, 0, 0⟩ faulted).phase = .faulted ∧
    (hostNext ⟨0x12000000, 0, 0⟩ faulted).agenda = [] := ⟨by decide, by decide, ⟨_, rfl⟩, by decide, by decide, by decide, by decide⟩

/-- Each of the changes of phase happens. -/
theorem witness_PhaseTransitions :
    Resets (faulted.setAgents { Agents.blank with host := [.reset] }) ∧
    presented (hostNext ⟨0x12000000, 0, 0⟩ State.reset) = some ⟨0x12000000, 0, 0⟩ ∧
    decode ⟨0x12000000, 0, 0⟩ = .ok .drvStart ∧ decode ⟨0x14000000, 0, 0⟩ = .ok .drvHalt ∧
    gives (step (hostNext ⟨0x12000000, 0, 0⟩ State.reset)) (fun t => t.phase == .running) ∧
    gives (step (hostNext ⟨0x14000000, 0, 0⟩ live)) (fun t => t.phase == .halted) ∧
    gives (step (hostNext ⟨0x08000000, 0, 0⟩ live)) (fun t => t.phase == .faulted) ∧
    gives (step (faulted.setAgents { Agents.blank with host := [.reset] })) (fun t => t.phase == .init) := by
  decide

theorem witness_ResetSetsEveryElement :
    (faulted.setAgents { Agents.blank with host := [.reset] }).cfg.Valid ∧
    (faulted.setAgents { Agents.blank with host := [.reset] }).agenda = [] ∧
    (faulted.setAgents { Agents.blank with host := [.reset] }).agents.host = .reset :: [] := by decide

/-- The configuration of R7, and one with a ratio of `2 ^ 33`, which R7 allows too. -/
theorem witness_ResetMeetsInvariant :
    Config.spec.Valid ∧ ({ Config.spec with iopDen := 2 ^ 33 } : Params).Valid ∧ Memory.blank.wf = true ∧
    mem4.wf = true := by decide

/-- A state well away from reset: a burst in flight, an external event, a word in a FIFO, a list of commands in progress. -/
def busy : State :=
  { (withHandler.setDma .main
      { withHandler.dmaMain with
        ctrl := 1
        chans := withHandler.dmaMain.chans.set 0 ⟨0x101, 0x140, 0, 8, true, false, 32⟩ }).setMem mem4 with
    now := 5
    seq := 2
    acc := 3
    queue := [⟨0, 0, 32, false, 0, 0⟩, anEvent 40 true 10 1]
    sif0 := [9]
    agenda := [.callback [⟨0x40800003, 0, 0⟩], .drain, .tickEnd] }

/-- `busy` and the state after reset meet the invariant. -/
theorem witness_StepKeepsInvariant : Inv busy ∧ Inv State.reset ∧ ∃ t, step busy = .next t := by
  refine ⟨?_, ?_, _, rfl⟩ <;> constructor <;> decide

theorem witness_ModelNeverStops : Inv busy := witness_StepKeepsInvariant.1

theorem witness_MemoryFormKept : MemoryOk busy ∧ ∃ t, step busy = .next t := ⟨by decide, _, rfl⟩

/-- One FIFO full, and the Host pushing once more. -/
def fullFifo : State := { hostNext ⟨0x30000000, 1, 0⟩ live with sif0 := List.replicate 32 0 }

theorem witness_FifoCapacityKept : FifoOk fullFifo ∧ ∃ t, step fullFifo = .next t := ⟨by decide, _, rfl⟩

theorem witness_QueueOrderKept : QueueSorted busy ∧ QueueDistinct busy ∧ ∃ t, step busy = .next t :=
  ⟨by decide, by decide, _, rfl⟩

/-- EQ.REG fills slot 2 and keeps slots 0 and 1. -/
theorem witness_HandlersNeverChange :
    (∃ t, step (hostNext ⟨0x01000000, 7, 0⟩ State.reset) = .next t ∧ t.nh ≠ State.reset.nh) ∧
    ¬Resets (hostNext ⟨0x01000000, 7, 0⟩ State.reset) ∧ HandlersOk (hostNext ⟨0x01000000, 7, 0⟩ State.reset) ∧
    presented (hostNext ⟨0x01000000, 7, 0⟩ State.reset) = some ⟨0x01000000, 7, 0⟩ ∧
    decode ⟨0x01000000, 7, 0⟩ = .ok (.eqReg 7) ∧
    Resets (faulted.setAgents { Agents.blank with host := [.reset] }) ∧ faulted.cfg.Valid :=
  ⟨⟨_, rfl, by decide⟩, by decide, by decide, by decide, by decide, by decide, by decide⟩

/-- Time moves by a command and by a tick's advance, the tick count at the end of a tick, the remainder by a conversion. -/
theorem witness_TimeMovesOnlyByAdvance :
    gives (step (hostNext ⟨0x05000000, 50, 0⟩ live)) (fun t => t.now != live.now) ∧
    gives (step (live.setAgenda [.advance 4])) (fun t => t.now != live.now) ∧
    gives (step (live.setAgenda [.tickEnd])) (fun t => t.tick != live.tick) ∧
    gives (step (live.setAgenda [.convert 3])) (fun t => t.acc != live.acc) ∧
    ¬Resets (live.setAgenda [.convert 3]) ∧ ¬Resets (hostNext ⟨0x05000000, 50, 0⟩ live) := by decide

theorem witness_StatusBitsClearedOnlyByAck :
    let s := hostNext ⟨0x42000000, 0x8000, 0⟩ (live.setIntc .main ⟨0x8001, 0, true⟩)
    ¬Resets s ∧ (s.intc .main).stat.getLsbD 15 = true ∧
    gives (step s) (fun t => !(t.intc .main).stat.getLsbD 15) := by decide

/-- Both faults happen, from the debug port. -/
theorem witness_FifoFaultsOnlyFromDebugPort :
    live.cfg.Valid ∧ fullFifo.fault = none ∧
    gives (step fullFifo) (fun t => t.fault == some ⟨.fifoOverflow, [0, 1]⟩) ∧
    gives (step (hostNext ⟨0x31000000, 0, 0⟩ live)) (fun t => t.fault == some ⟨.fifoUnderflow, [0]⟩) := by decide

/-- A burst of the main side into its memory, one whose event is beyond i64 after its words have moved, and one of the
secondary side. -/
theorem witness_BurstStaysOnItsSide :
    (∃ t, burstStep .main 2 waiting2 = .ok t ∧ t.mem ≠ waiting2.mem) ∧
    (∃ t, burstStep .main 2 { waiting2 with now := 0x7FFFFFFFFFFFFFFF } = .error t ∧ t.mem ≠ waiting2.mem) ∧
    ∃ t, burstStep .sub 4 (subChain 0x80000300 3) = .ok t := ⟨⟨_, rfl, by decide⟩, ⟨_, rfl, by decide⟩, _, rfl⟩

theorem witness_RegisterFillsNextSlot :
    Accepted (.eqReg 7) State.reset ∧ State.reset.nh < State.reset.cfg.maxHandlers ∧
    Accepted (.eqReg 7) fullTable ∧ fullTable.nh = fullTable.cfg.maxHandlers := by decide

/-- EQ-5, EQ-6, EQ-15 and EQ-3; the largest deadline that fits, and the smallest period. -/
theorem witness_ScheduleInsertsEvent :
    let minus : DWord := 0xFFFFFFFFFFFFFFFF
    let most : DWord := 0x7FFFFFFFFFFFFFFF
    let late : State := { withHandler with now := 1 }
    (Accepted (.eqSched false 0 2 minus 0) withHandler ∧ minus.toInt < 0) ∧
    (Accepted (.eqSched true 0 2 5 0) withHandler ∧ 0 ≤ (5 : DWord).toInt ∧ (0 : DWord).toInt ≤ 0) ∧
    (Accepted (.eqSched false 0 2 most 0) late ∧ 0 ≤ most.toInt ∧ 2 ^ 63 - 1 < late.now.toInt + most.toInt) ∧
    (Accepted (.eqSched true 63 2 most 1) withHandler ∧ 0 < (1 : DWord).toInt ∧
      withHandler.now.toInt + most.toInt ≤ 2 ^ 63 - 1) := by decide

/-- `withHandler` with `2 ^ 33` main cycles to a secondary cycle, which R7 allows. -/
def wideRatio : State := { withHandler with cfg := { Config.spec with iopDen := 2 ^ 33 } }

/-- EQ-11, EQ-12: the last operand that fits and the first that does not. -/
theorem witness_ScheduleSubInsertsEvent :
    let minus : DWord := 0xFFFFFFFFFFFFFFFF
    withHandler.cfg.Valid ∧
    (Accepted (.eqSchedSub false 0 2 minus 0) withHandler ∧ minus.toInt < 0) ∧
    (Accepted (.eqSchedSub true 0 2 5 minus) withHandler ∧ 0 ≤ (5 : DWord).toInt ∧ minus.toInt ≤ 0) ∧
    (Accepted (.eqSchedSub false 0 2 0x100000000 0) withHandler ∧ 0 ≤ (0x100000000 : DWord).toInt ∧
      2 ^ 32 ≤ (0x100000000 : DWord).toNat) ∧
    (Accepted (.eqSchedSub true 0 2 0xFFFFFFFF 0xFFFFFFFF) withHandler ∧ (0xFFFFFFFF : DWord).toNat < 2 ^ 32 ∧
      0 < (0xFFFFFFFF : DWord).toNat ∧ toMain withHandler.cfg (0xFFFFFFFF : DWord).toNat ≤ 2 ^ 63 - 1 ∧
      withHandler.now.toInt + toMain withHandler.cfg (0xFFFFFFFF : DWord).toNat ≤ 2 ^ 63 - 1) := by decide

/-- Its overflow clause: a converted period beyond i64, and a deadline beyond it. -/
theorem witness_ScheduleSubOverflows :
    let late : State := { withHandler with now := 0x7FFFFFFFFFFFFFFF }
    (wideRatio.cfg.Valid ∧ Accepted (.eqSchedSub true 0 2 1 0x40000000) wideRatio ∧
      2 ^ 63 - 1 < toMain wideRatio.cfg (0x40000000 : DWord).toNat) ∧
    (Accepted (.eqSchedSub false 0 2 1 0) late ∧
      2 ^ 63 - 1 < late.now.toInt + toMain late.cfg (1 : DWord).toNat ∧ toMain late.cfg (1 : DWord).toNat < 2 ^ 64) := by
  decide

/-- R113, R125: a converted period of `2 ^ 63` is refused, and nothing is queued. -/
theorem test_eqSchedSub_period :
    gives (exec (.eqSchedSub true 0 2 1 0x40000000) wideRatio)
      (fun t => t.fault.map (·.kind) == some .timeOverflow && t.queue == []) := by decide

theorem witness_QueriesAnswerOnly :
    Accepted .eqNow live ∧ Accepted (.eqQuery 63 1) live ∧ Accepted (.clkToMain 0xFFFFFFFF) live ∧
    (0xFFFFFFFF : DWord).toNat < 2 ^ 32 ∧ Accepted (.clkToMain 0x100000000) live ∧
    2 ^ 32 ≤ (0x100000000 : DWord).toNat ∧ Accepted (.sifOcc .sif0) live := by decide

theorem witness_AdvanceMovesNowOnly :
    Accepted (.eqAdv 0) live ∧ (0x8000000000000000 : DWord).toInt < 0 ∧
    (2 ^ 63 - 1 : Int) < ({ live with now := 1 } : State).now.toInt + (0x7FFFFFFFFFFFFFFF : DWord).toInt ∧
    live.now.toInt + (0x7FFFFFFFFFFFFFFF : DWord).toInt ≤ 2 ^ 63 - 1 := by decide

theorem witness_DriverCommands :
    Accepted .eqDrain live ∧ Accepted (.drvTick 0) live ∧ Accepted .drvStart State.reset ∧ Accepted .drvHalt live := by
  decide

/-- Two due events and one that is not; and none due. -/
theorem witness_DrainSelectsLeastDue :
    let q := [anEvent 5 false 0 0, anEvent 10 false 0 1, anEvent 11 false 0 2]
    QueueSorted { live with now := 10, queue := q } ∧
    firstDue { live with now := 10, queue := q } = some (anEvent 5 false 0 0) ∧
    firstDue { live with now := 4, queue := q } = none := by decide

/-- A drain point at cycle `now` over the queue `q`, the callback answering no command. -/
def draining (now : DWord) (q : List Event) : State :=
  { withHandler with
    now := now, queue := q, agenda := [.drain], agents := { Agents.blank with callbackIn := [[], [], []] } }

theorem witness_DrainFiresFirstDue :
    firstDue (draining 4 [anEvent 5 false 0 0]) = none ∧
    withHandler.handlers.getD (dmaHandle .main).toNat .empty = .dmaMain ∧
    withHandler.handlers.getD (dmaHandle .sub).toNat .empty = .dmaSub ∧
    (anEvent 5 true 10 0).deadline.toInt ≤ (draining 5 []).now.toInt ∧
    withHandler.handlers.getD (anEvent 5 true 10 0).h.toNat .empty = .external 7 ∧
    (anEvent 5 true 10 0).deadline.toInt + (anEvent 5 true 10 0).period.toInt ≤ 2 ^ 63 - 1 ∧
    (2 ^ 63 - 1 : Int) < (anEvent 5 true 0x7FFFFFFFFFFFFFFF 0).deadline.toInt +
      (anEvent 5 true 0x7FFFFFFFFFFFFFFF 0).period.toInt := by decide

/-- EQ-9: three firings of a repeating event, the last due at the very cycle of the drain. -/
theorem witness_RepeatingEventNeverDrifts :
    let e := anEvent 10 true 10 0
    let s := draining 30 [e]
    s.agenda = .drain :: [] ∧ s.queue = [e] ∧ e.rep = true ∧ 0 < e.period.toInt ∧ 0 ≤ e.deadline.toInt ∧
    s.handlers.getD e.h.toNat .empty = .external 7 ∧ s.agents.callbackIn = List.replicate 3 [] ++ [] ∧
    (∀ j < (3 : Nat), e.deadline.toInt + j * e.period.toInt ≤ s.now.toInt) ∧
    e.deadline.toInt + 3 * e.period.toInt ≤ 2 ^ 63 - 1 := by decide

theorem witness_ConvertCarriesRemainder :
    Accepted (.clkConv 0xFFFFFFFF) live ∧ (0xFFFFFFFF : DWord).toNat < 2 ^ 32 ∧
    Accepted (.clkConv 0x100000000) live ∧ 2 ^ 32 ≤ (0x100000000 : DWord).toNat := by decide

theorem witness_ConversionExactOverSequence : ({ live with acc := 7 } : State).acc < live.cfg.iopDen ∧ live.cfg.Valid := by
  decide

theorem witness_ToMainNeverEarly : Config.spec.Valid := by decide

/-- A tick of 8 instructions with one event a cycle after it. -/
theorem witness_QuietTickRuns :
    let s : State :=
      { withHandler with
        queue := [anEvent 9 false 0 0]
        agents := { Agents.blank with
          host := [.command (encode (.drvTick 8))], mainIn := List.replicate 8 [], subIn := [[]] } }
    s.phase = .running ∧ s.agenda = [] ∧ s.agents.host = .command (encode (.drvTick 8)) :: [] ∧
    s.agents.mainIn = List.replicate 8 [] ++ [] ∧
    s.agents.subIn = List.replicate ((s.acc + 8 * s.cfg.mainCpi * s.cfg.iopNum) / s.cfg.iopDen) [] ++ [] ∧
    s.now.toInt + 8 * s.cfg.mainCpi ≤ 2 ^ 63 - 1 ∧
    (∀ e ∈ s.queue, s.now.toInt + 8 * s.cfg.mainCpi < e.deadline.toInt) := by decide

theorem witness_IdleChannelRegisterWrites :
    active enabled .main 9 = false ∧ active enabled .sub 13 = false ∧ enabled.pendingStarts = [] ∧
    Accepted (.dmaWr .main 9 .madr 8) enabled ∧ Accepted (.dmaWr .sub 13 .tadr 8) enabled ∧
    Accepted (.dmaWr .sub 13 .cnt 8) enabled ∧ Accepted (.dmaWr .main 9 .chcr 0x80) enabled ∧
    strOf .main 0x80 = false := by decide

/-- The STATUS select and the two invalid ones; MADR of the running channel 0; the abort of the waiting channel 2. -/
theorem witness_BusyChannelRefusesWrites :
    let s := busy.setAgenda []
    Accepted (.dmaWr .main 0 .status 0) s ∧ Accepted (.dmaWr .main 0 .sel6 5) s ∧ Accepted (.dmaWr .main 0 .sel7 5) s ∧
    Accepted (.dmaWr .main 0 .madr 0) s ∧ active s .main 0 = true ∧
    running s .main 0 = true ∧ Accepted (.dmaWr .main 2 .chcr 0) waiting2 ∧ active waiting2 .main 2 = true ∧
    strOf .main 0 = false ∧ running waiting2 .main 2 = false := by decide

/-- One channel and CHCR value for each check of R162, every check before it passed (DMA-6 to DMA-11, DMA-22). -/
theorem witness_StartChecksInOrder :
    let s := withChan .main 0 fun ch => { ch with madr := 8, tadr := 8, cnt := 1 }
    (∀ c ∈ [(0 : Chan), 5, 7], Accepted (.dmaWr .main c .chcr 0x101) s ∧ active s .main c = false) ∧
    (s.dma .main).chans.length = s.cfg.nch .main ∧ strOf .main 0x101 = true ∧
    (7 : Chan) = (s.cfg.sif .main).sif2 ∧ modeOf .main 0x10D = 3 ∧
    (modeOf .main 0x109 ≠ 3 ∧ unmodelledMode .main 0x109 = true) ∧
    (unmodelledMode .main 0x104 = false ∧ chainOf .main 0x104 = true ∧ toMemOf 0x104 = true) ∧
    ((consumes s.cfg .main 5).isSome = true ∧ toMemOf 0x101 = false) ∧
    ((produces s.cfg .main 0).isSome = false ∧ (consumes s.cfg .main 0).isSome = false) ∧
    (chainOf .main 0x101 = false ∧ zeroCount .main 0x101 0 = true ∧ zeroCount .main 0x101 1 = false) ∧
    (offWord 8 = false ∧ fifoChannel s.cfg .main 0 = false ∧ offQuad 8 = true) ∧
    (chainOf .main 0x105 = true ∧ toMemOf 0x105 = false ∧ tagStartOff .main 8 = true) := by decide

/-- The request line down, as in DMA-13. -/
theorem witness_StartLeavesChannelWaiting :
    let s := withChan .main 2 fun ch => { ch with drq := false, cnt := 1 }
    Accepted (.dmaWr .main 2 .chcr 0x100) s ∧ active s .main 2 = false ∧ strOf .main 0x100 = true ∧
    (s.dma .main).chans.length = s.cfg.nch .main ∧ s.pendingStarts = [] ∧
    StartChecks .main 2 (0x100 &&& chcrMask .main) s ∧
    gate (started .main 2 (0x100 &&& chcrMask .main) s) .main 2 = false := by decide

/-- DMA-4 before its start: four quadwords to send. -/
def toSend : State := (withChan .main 0 fun ch => { ch with madr := 0x100, cnt := 4 }).setMem mem4

/-- DMA-14's four words, to be taken by a start whose line is up. -/
def toTake : State :=
  (withChan .main 2 fun ch => { ch with cnt := 1 }).setAgents { Agents.blank with periphIn := [10, 11, 12, 13] }

/-- The hypotheses of `Obligations.StartMovesFirstBurst` on either of them, `v` being the CHCR value. -/
abbrev StartsNow (c : Chan) (v : Word) (s : State) : Prop :=
  Accepted (.dmaWr .main c .chcr v) s ∧ active s .main c = false ∧ strOf .main v = true ∧
  (s.dma .main).chans.length = s.cfg.nch .main ∧ s.pendingStarts = [] ∧ StartChecks .main c (v &&& chcrMask .main) s ∧
  chainOf .main (v &&& chcrMask .main) = false ∧ fifoChannel s.cfg .main c = false ∧
  gate (started .main c (v &&& chcrMask .main) s) .main c = true ∧ running s .main c = false ∧
  s.now.toInt + burstCost s.cfg .main ≤ 2 ^ 63 - 1

/-- DMA-4, and the other direction with every word of its script. -/
theorem witness_StartMovesFirstBurst :
    (toSend.cfg.Valid ∧ toTake.cfg.Valid) ∧
    (StartsNow 0 0x101 toSend ∧ toMemOf (0x101 &&& chcrMask .main) = false) ∧
    (StartsNow 2 0x100 toTake ∧ toMemOf (0x100 &&& chcrMask .main) = true ∧
      toTake.agents.periphIn = [10, 11, 12, 13] ++ [] ∧
      [10, 11, 12, 13].length = min toTake.cfg.burstCap (4 * ((toTake.chan .main 2).cnt.extractLsb' 0 16).toNat)) := by
  refine ⟨?_, ⟨?_, ?_⟩, ?_, ?_, ?_⟩ <;> decide

/-- DMA-14. -/
theorem witness_RequestEdgeTakesBurst :
    Accepted (.dmaDrq .main 2 true) waiting2 ∧ (waiting2.dma .main).chans.length = waiting2.cfg.nch .main ∧
    waiting2.pendingStarts = [] ∧ sifChannel waiting2.cfg .main 2 = false ∧ (waiting2.chan .main 2).drq = false ∧
    gate (waiting2.setChan .main 2 { waiting2.chan .main 2 with drq := true }) .main 2 = true ∧
    running waiting2 .main 2 = false ∧ chained waiting2 .main 2 = false ∧ toMem waiting2 .main 2 = true ∧
    waiting2.agents.periphIn = [10, 11, 12, 13] ++ [] ∧
    [10, 11, 12, 13].length = min waiting2.cfg.burstCap (waiting2.chan .main 2).rem.toNat ∧
    waiting2.now.toInt + burstCost waiting2.cfg .main ≤ 2 ^ 63 - 1 := by decide

theorem witness_RequestLineWrites :
    Accepted (.dmaDrq .main 5 true) enabled ∧ sifChannel enabled.cfg .main 5 = true ∧
    Accepted (.dmaDrq .sub 4 false) enabled ∧ sifChannel enabled.cfg .sub 4 = false ∧ enabled.pendingStarts = [] ∧
    Accepted (.dmaDrq .main 2 true) live ∧ engineEnabled live .main = false ∧
    gate (enabled.setChan .main 0 { enabled.chan .main 0 with drq := true }) .main 0 = false := by decide

theorem witness_ChannelReads :
    Accepted (.dmaRd .main 9 .status) halted ∧ Accepted (.dmaRd .sub 13 .sel7) halted := by decide

/-- DMA-17: bit 0 pending and enabled; bit 13 of the secondary side is its last. -/
theorem witness_EngineReads :
    let s := live.setDma .sub { live.dmaSub with dintStat := 0x2000, dintCtl := 0x80002000 }
    s.cfg.Valid ∧ Accepted (.dmaRde .sub .dintStat) s ∧ (13 : Nat) < s.cfg.nch .sub ∧
    (s.dma .sub).dintStat.getLsbD 13 = true ∧ (s.dma .sub).dintCtl.getLsbD 13 = true := by decide

/-- Channel 0 of the main side started with its gate closed, four words to send: the engine disabled (DMA-15), or no
priority (DMA-16). -/
def closed (ctrl pcr : Word) : State :=
  ((live.setDma .main { live.dmaMain with ctrl := ctrl, pcr := pcr }).setChan .main 0
    { live.chan .main 0 with madr := 0x100, chcr := 0x101, cnt := 1, rem := 4 }).setMem mem4

/-- DMA-15 and DMA-16: the CTRL write and the PCR write send the burst. -/
theorem test_dmaWre_starts :
    (∀ p ∈ [exec (.dmaWre .main .ctrl 1) (closed 0 0), exec (.dmaWre .main .pcr 0x80000001) (closed 1 0x80000000)],
      gives p (fun t => t.agents.periphLog == (List.range 4).map (fun i => .write .main 0 (BitVec.ofNat 32 (0x100 + i))) &&
        t.queue == [⟨0, 0, 32, false, 0, 0⟩])) := by decide

/-- Channel 2 of the main side waiting with its request line up and the engine disabled, four words to take. -/
def closedTake : State :=
  (waiting2.setChan .main 2 { waiting2.chan .main 2 with drq := true }).setDma .main
    { waiting2.dmaMain with
      ctrl := 0, chans := waiting2.dmaMain.chans.set 2 { waiting2.chan .main 2 with drq := true } }

/-- The state that a write of a main-side engine register stores first. -/
def wrote (f : Engine → Engine) (s : State) : State := { s.setDma .main (f s.dmaMain) with answer := none }

/-- No channel of the main side but `c` is Waiting with its gate open. -/
def othersStay (c : Nat) (s : State) : Bool :=
  (List.range (s.cfg.nch .main)).all fun n =>
    n == c || running s .main (BitVec.ofNat 6 n) || !gate s .main (BitVec.ofNat 6 n)

/-- Every channel Idle: a CTRL write sets nothing off (64 is no channel). DMA-17: the master flag rises. -/
theorem witness_EngineWrites :
    let s := live.setDma .main { live.dmaMain with dintStat := 1 }
    s.cfg.Valid ∧ Accepted (.dmaWre .main .ctrl 1) s ∧ s.pendingStarts = [] ∧
    othersStay 64 (wrote (fun e => { e with ctrl := 1 }) s) = true ∧
    masterFlag s .main = false ∧ Accepted (.dmaWre .main .dintStat 1) s ∧
    masterFlag (s.setDma .main { s.dmaMain with dintCtl := 0x80000001 }) .main = true := by decide

/-- DMA-15, DMA-16: the CTRL write, and the PCR write, that open the gate of channel 0 alone. -/
theorem witness_EngineWritesSend :
    ∀ p ∈ [(closed 0 0, wrote (fun e => { e with ctrl := 1 }) (closed 0 0)),
        (closed 1 0x80000000, wrote (fun e => { e with pcr := 0x80000001 }) (closed 1 0x80000000))],
      p.1.cfg.Valid ∧ p.1.pendingStarts = [] ∧ Accepted (.dmaWre .main .ctrl 1) p.1 ∧
      Accepted (.dmaWre .main .pcr 0x80000001) p.1 ∧ gate p.1 .main 0 = false ∧ running p.2 .main 0 = false ∧
      gate p.2 .main 0 = true ∧ othersStay 0 p.2 = true ∧ chained p.2 .main 0 = false ∧ toMem p.2 .main 0 = false ∧
      fifoChannel p.1.cfg .main 0 = false ∧ p.1.now.toInt + burstCost p.1.cfg .main ≤ 2 ^ 63 - 1 := by decide

/-- The CTRL write that opens the gate of a channel with words to take. -/
theorem witness_EngineWritesTake :
    let t := wrote (fun e => { e with ctrl := 1 }) closedTake
    closedTake.pendingStarts = [] ∧ Accepted (.dmaWre .main .ctrl 1) closedTake ∧ gate closedTake .main 2 = false ∧
    running t .main 2 = false ∧ gate t .main 2 = true ∧ othersStay 2 t = true ∧ chained t .main 2 = false ∧
    toMem t .main 2 = true ∧ fifoChannel closedTake.cfg .main 2 = false ∧
    closedTake.agents.periphIn = [10, 11, 12, 13] ++ [] ∧
    [10, 11, 12, 13].length = min closedTake.cfg.burstCap (t.chan .main 2).rem.toNat ∧
    closedTake.now.toInt + burstCost closedTake.cfg .main ≤ 2 ^ 63 - 1 := by decide

/-- The ids that are followed, and those that are not; a TADR one word beyond a quadword, and a data address likewise, on a
channel that asks for quadwords and on one that does not. -/
theorem witness_MainTagIsFollowed :
    (mainChain 0 0).cfg.Valid ∧ (1 : Chan).toNat < ((mainChain 0 0).dma .main).chans.length ∧
    offQuad ((mainChain 0x10000002 0).chan .main 1).tadr = false ∧
    (∀ id ∈ [0, 1, 2, 3, 7, 4, 5, 6],
      (((mainChain (BitVec.ofNat 32 (id * 2 ^ 28 + 2)) 0x200).mem.readWord .mainRam 0x100).extractLsb' 28 3).toNat = id) ∧
    offQuad 0x200 = false ∧ offQuad (advanceAddr .main 0x100 16) = false ∧
    offQuad 0x204 = true ∧ offWord 0x204 = false ∧ offWord 0x202 = true ∧
    fifoChannel (mainChain 0 0).cfg .main 1 = false ∧ fifoChannel (mainChain 0 0).cfg .main 6 = true := by decide

/-- R74, R176: the reference of a tag to a data address that is no quadword's, stored before the fault. -/
theorem test_mainTag_misaligned :
    (match tagFetch .main 1 (mainChain 0x30000002 0x204) with
      | .ok _ => false
      | .error t => t.fault == some ⟨.misaligned, [0, 1, 0x30000105, 0x204, 0x110, 2]⟩ &&
          (t.chan .main 1).madr == 0x204) = true := by decide

/-- DMA-21's tag, due; the same chain with words left of it, and at its end, where none is due; and the two addresses that
fault. -/
theorem witness_SubTagIsFollowed :
    let s := subChain 0x80000300 3
    let left := s.setChan .sub 4 { s.chan .sub 4 with rem := 2 }
    let last := s.setChan .sub 4 { s.chan .sub 4 with tagEnd := true }
    let off := s.setChan .sub 4 { s.chan .sub 4 with tadr := 0x202 }
    s.cfg.Valid ∧ offWord (s.chan .sub 4).tadr = false ∧ offWord (s.mem.readWord .subRam 0x200) = false ∧
    (∀ u ∈ [s, off], chained u .sub 4 = true ∧ (u.chan .sub 4).rem = 0 ∧ (u.chan .sub 4).tagEnd = false) ∧
    chained left .sub 4 = true ∧ (left.chan .sub 4).rem ≠ 0 ∧ (last.chan .sub 4).tagEnd = true ∧
    offWord (off.chan .sub 4).tadr = true ∧ offWord ((subChain 0x80000301 3).mem.readWord .subRam 0x200) = true ∧
    (∀ u ∈ [s, left], (4 : Chan).toNat < (u.dma .sub).chans.length ∧ running u .sub 4 = false ∧
      toMem u .sub 4 = false ∧ fifoChannel u.cfg .sub 4 = false ∧ u.now.toInt + burstCost u.cfg .sub ≤ 2 ^ 63 - 1 ∧
      u.pendingStarts = [] ∧ gate u .sub 4 = true) ∧
    (tagFetch .sub 4 s).toBool = true ∧ (tagFetch .sub 4 off).toBool = false := by decide

/-- DMA-21: the event of the chain fetches the tag and sends its three words. -/
theorem test_subTag_bursts :
    (match dmaEvent .sub 4 (subChain 0x80000300 3) with
      | .ok t => t.agents.periphLog.length == 3 && t.chan .sub 4 == ⟨0x01000401, 0x30C, 0x208, 0, true, true, 0⟩
      | .error _ => false) = true := by decide

/-- The last channel of either side with nothing left: in normal mode, and at the end of a chain. -/
theorem witness_CompletionEvent :
    let s := withChan .main 9 fun ch => { ch with chcr := 0x101 }
    let u := withChan .sub 13 fun ch => { ch with chcr := 0x01000401, tagEnd := true }
    s.cfg.Valid ∧ (s.dma .main).chans.length = s.cfg.nch .main ∧ (9 : Chan).toNat < s.cfg.nch .main ∧
    s.pendingStarts = [] ∧ active s .main 9 = true ∧ (s.chan .main 9).rem = 0 ∧ chained s .main 9 = false ∧
    (u.dma .sub).chans.length = u.cfg.nch .sub ∧ (13 : Chan).toNat < u.cfg.nch .sub ∧
    u.pendingStarts = [] ∧ active u .sub 13 = true ∧ (u.chan .sub 13).rem = 0 ∧ chained u .sub 13 = true ∧
    (u.chan .sub 13).tagEnd = true := by decide

/-- An event of a Waiting channel, and the request edge that opens its gate (DMA-14). The register writes that open one are
those of `witness_EngineWritesSend`. -/
theorem witness_ClosedGateWaits :
    waiting2.cfg.Valid ∧
    (waiting2.pendingStarts = [] ∧ active waiting2 .main 2 = true ∧ gate waiting2 .main 2 = false ∧
      ¬((waiting2.chan .main 2).rem = 0 ∧
        (chained waiting2 .main 2 = false ∨ (waiting2.chan .main 2).tagEnd = true))) ∧
    (Accepted (.dmaDrq .main 2 true) waiting2 ∧ sifChannel waiting2.cfg .main 2 = false ∧
      (waiting2.chan .main 2).drq = false ∧ running waiting2 .main 2 = false ∧
      gate (waiting2.setChan .main 2 { waiting2.chan .main 2 with drq := true }) .main 2 = true) := by decide

/-- P3: 70 words in bursts of 32, so up to three events. -/
theorem witness_TransferTakesCeilBursts :
    let s := withChan .sub 4 fun ch => { ch with chcr := 0x01000001, madr := 0x4000, cnt := 70, rem := 70 }
    s.cfg.Valid ∧ (s.dma .sub).chans.length = s.cfg.nch .sub ∧ s.pendingStarts = [] ∧ gate s .sub 4 = true ∧
    chained s .sub 4 = false ∧ toMem s .sub 4 = false ∧ fifoChannel s.cfg .sub 4 = false ∧
    s.now.toInt + burstCost s.cfg .sub ≤ 2 ^ 63 - 1 ∧ ceilDiv (s.chan .sub 4).rem.toNat s.cfg.burstCap = 3 := by decide

/-- Into memory: 70 words from the peripheral's script, after three events. -/
theorem witness_TransferTakesWords :
    let s := (withChan .sub 4 fun ch => { ch with chcr := 0x01000000, madr := 0x4000, cnt := 70, rem := 70 }).setAgents
      { Agents.blank with periphIn := List.replicate 70 7 }
    s.cfg.Valid ∧ (s.dma .sub).chans.length = s.cfg.nch .sub ∧ s.pendingStarts = [] ∧ gate s .sub 4 = true ∧
    chained s .sub 4 = false ∧ toMem s .sub 4 = true ∧ fifoChannel s.cfg .sub 4 = false ∧
    s.now.toInt + burstCost s.cfg .sub ≤ 2 ^ 63 - 1 ∧ s.agents.periphIn = List.replicate 70 7 ++ [] ∧
    (List.replicate 70 (7 : Word)).length = min (s.chan .sub 4).rem.toNat (3 * s.cfg.burstCap) := by decide

/-- A waiting consumer with its FIFO filled, and its start deferred. -/
def deferred : State :=
  { (withChan .main 5 fun ch => { ch with madr := 0x40, chcr := 0x100, cnt := 1, rem := 4 }) with
    sif0 := [1, 2], pendingStarts := [(.main, 5)] }

theorem witness_DeferredStartsRunOut :
    ∃ t, processPendingStarts deferred = .ok t ∧ running t .main 5 = true := ⟨_, rfl, by decide⟩

/-- A Waiting producer with two words left, and its FIFO at the low watermark, which is also its capacity. -/
def backedUp : State :=
  { (withChan .sub 9 fun ch => { ch with madr := 0x1000, chcr := 0x01000001, cnt := 2, rem := 2 }) with
    sif0 := List.replicate 32 7 }

theorem witness_DebugPortPushesAndPops :
    live.cfg.Valid ∧
    live.pendingStarts = [] ∧ Accepted (.sifPush .sif1 1) live ∧ (live.fifo .sif1).length < live.cfg.fifoCap ∧
    gate (live.setFifo .sif1 [1]) (consumerOf live.cfg .sif1).1 (consumerOf live.cfg .sif1).2 = false ∧
    Accepted (.sifPush .sif0 1) fullFifo ∧ (fullFifo.fifo .sif0).length = fullFifo.cfg.fifoCap ∧
    Accepted (.sifPop .sif0) fullFifo ∧ fullFifo.fifo .sif0 = 0 :: List.replicate 31 0 ∧
    gate (fullFifo.setFifo .sif0 (List.replicate 31 0)) (producerOf live.cfg .sif0).1 (producerOf live.cfg .sif0).2
      = false ∧
    Accepted (.sifPop .sif0) live ∧ live.fifo .sif0 = [] := by decide

/-- Its two further clauses: the consumer that a push starts, the producer that a pop starts. -/
theorem witness_DebugPortStartsChannels :
    (thirsty.pendingStarts = [] ∧ Accepted (.sifPush .sif0 0x55) thirsty ∧ thirsty.fifo .sif0 = [] ∧
      consumerOf thirsty.cfg .sif0 = (.main, 5) ∧ active thirsty .main 5 = true ∧ running thirsty .main 5 = false ∧
      engineEnabled thirsty .main = true ∧ priorityAllows thirsty .main 5 = true ∧ chained thirsty .main 5 = false ∧
      toMem thirsty .main 5 = true ∧ (thirsty.chan .main 5).rem ≠ 0 ∧
      thirsty.now.toInt + burstCost thirsty.cfg .main ≤ 2 ^ 63 - 1 ∧
      gate thirsty (producerOf thirsty.cfg .sif0).1 (producerOf thirsty.cfg .sif0).2 = false) ∧
    (backedUp.pendingStarts = [] ∧ Accepted (.sifPop .sif0) backedUp ∧
      backedUp.fifo .sif0 = 7 :: List.replicate 31 7 ∧ (List.replicate 31 7).length + 1 = backedUp.cfg.lwm ∧
      producerOf backedUp.cfg .sif0 = (.sub, 9) ∧ active backedUp .sub 9 = true ∧ running backedUp .sub 9 = false ∧
      engineEnabled backedUp .sub = true ∧ priorityAllows backedUp .sub 9 = true ∧ chained backedUp .sub 9 = false ∧
      toMem backedUp .sub 9 = false ∧ (backedUp.chan .sub 9).rem ≠ 0 ∧
      backedUp.now.toInt + burstCost backedUp.cfg .sub ≤ 2 ^ 63 - 1 ∧
      gate (backedUp.setFifo .sif0 (List.replicate 31 7 ++ wordsFrom backedUp.cfg .sub backedUp.mem 0x1000 1))
        (consumerOf backedUp.cfg .sif0).1 (consumerOf backedUp.cfg .sif0).2 = false) := by decide

/-- R174, R226: the pop makes room for one word, and the producer sends it at once. -/
theorem test_sifPop_starts :
    gives (exec (.sifPop .sif0) backedUp) (fun t => t.answer == some 7 && t.sif0.length == 32 &&
      (t.chan .sub 9).rem == 1 && t.queue == [⟨1, 9, 256, false, 0, 0⟩]) := by decide

/-- 31 words beside the one there: the FIFO is then full. -/
theorem witness_FifoKeepsOrder :
    live.cfg.Valid ∧
    (fifoSteps .sif0 [some 1, none, some 2, some 3, none] { live with sif0 := [5] }).toBool = true ∧
    (({ live with sif0 := [5] } : State).fifo .sif0).length + (List.replicate 31 (6 : Word)).length ≤ live.cfg.fifoCap := by
  decide

/-- A producer of `n` words at `src` on its FIFO's side, about to start, and the consumer at the other end waiting for
`rem` words at `dst`. -/
def linked (d : Dir) (n : Nat) (rem src dst : Word) : State :=
  let p := producerOf Config.spec d
  let q := consumerOf Config.spec d
  let count : Word := match d with | .sif0 => BitVec.ofNat 32 n | .sif1 => BitVec.ofNat 32 (n / 4)
  let str : Word := match d with | .sif0 => 0x100 | .sif1 => 0x01000000
  let sp : Space := match d with | .sif0 => .subRam | .sif1 => .mainRam
  let s := enabled.setChan p.1 p.2 { enabled.chan p.1 p.2 with madr := src, cnt := count }
  (s.setChan q.1 q.2 { s.chan q.1 q.2 with chcr := str, madr := dst, cnt := rem, rem := rem }).setMem
    (fill sp src.toNat ((List.range n).map fun i => BitVec.ofNat 32 (0xA0 + i)) Memory.blank)

/-- The hypotheses of `Obligations.ProducerStartDeliversBlock` on the producer's start. -/
abbrev ProducerReady (d : Dir) (v : Word) (s : State) : Prop :=
  let p := producerOf s.cfg d
  let w := v &&& chcrMask p.1
  let n := startCount s.cfg p.1 w (s.chan p.1 p.2).cnt
  s.cfg.Valid ∧ (s.dma .main).chans.length = s.cfg.nch .main ∧ (s.dma .sub).chans.length = s.cfg.nch .sub ∧
  s.pendingStarts = [] ∧ s.fifo d = [] ∧
  Accepted (.dmaWr p.1 p.2 .chcr v) s ∧ active s p.1 p.2 = false ∧ strOf p.1 v = true ∧
  StartChecks p.1 p.2 w s ∧ chainOf p.1 w = false ∧ n ≤ s.cfg.burstCap ∧ n ≤ s.cfg.fifoCap ∧
  engineEnabled s p.1 = true ∧ priorityAllows s p.1 p.2 = true ∧ running s p.1 p.2 = false

/-- Its hypotheses on the waiting consumer, for a block of `n` words, and on the time. -/
abbrev ConsumerReady (d : Dir) (n : Nat) (s : State) : Prop :=
  let q := consumerOf s.cfg d
  active s q.1 q.2 = true ∧ chained s q.1 q.2 = false ∧ toMem s q.1 q.2 = true ∧
  engineEnabled s q.1 = true ∧ priorityAllows s q.1 q.2 = true ∧ running s q.1 q.2 = false ∧
  n ≤ (s.chan q.1 q.2).rem.toNat ∧
  s.now.toInt + burstCost s.cfg .main ≤ 2 ^ 63 - 1 ∧ s.now.toInt + burstCost s.cfg .sub ≤ 2 ^ 63 - 1

/-- P4 (two words to a consumer of four), P6, and a block of the FIFO's whole capacity. -/
theorem witness_ProducerStartDeliversBlock :
    (ProducerReady .sif0 0x01000001 (linked .sif0 2 4 0x1000 0x2000) ∧
      ConsumerReady .sif0 2 (linked .sif0 2 4 0x1000 0x2000)) ∧
    (ProducerReady .sif1 0x101 (linked .sif1 4 4 0x3000 0x500) ∧
      ConsumerReady .sif1 4 (linked .sif1 4 4 0x3000 0x500)) ∧
    (ProducerReady .sif1 0x101 (linked .sif1 32 40 0x3000 0x500) ∧
      ConsumerReady .sif1 32 (linked .sif1 32 40 0x3000 0x500)) := by
  refine ⟨⟨?_, ?_⟩, ⟨?_, ?_⟩, ⟨?_, ?_⟩⟩ <;> (repeat' apply And.intro) <;> decide

/-- P4: the two words arrive in order and the FIFO ends empty. -/
theorem test_block_arrives_sif0 :
    gives (exec (.dmaWr .sub 9 .chcr 0x01000001) (linked .sif0 2 4 0x1000 0x2000))
      (fun t => t.sif0 == [] && t.mem.readWord .mainRam 0x2000 == 0xA0 && t.mem.readWord .mainRam 0x2004 == 0xA1 &&
        t.queue.map (fun e => (e.h, e.ch, e.deadline)) == [(0, 5, 32), (1, 9, 256)]) := by decide

/-- P6: the four words arrive in order and the FIFO ends empty. -/
theorem test_block_arrives_sif1 :
    gives (exec (.dmaWr .main 6 .chcr 0x101) (linked .sif1 4 4 0x3000 0x500))
      (fun t => t.sif1 == [] &&
        (List.range 4).map (fun i => t.mem.readWord .subRam (0x500 + 4 * i)) == [0xA0, 0xA1, 0xA2, 0xA3]) := by
  decide

theorem witness_InterruptWrites :
    (∀ sd ∈ [Side.main, .sub], Accepted (.intRaise sd 31) live ∧ Accepted (.intAck sd 1) live ∧
      Accepted (.intWctrl sd 1) live ∧ Accepted (.intRctrl sd) live ∧ Accepted (.intWmask sd 5) live) ∧
    live.cfg.subMaskWrite = .or ∧ ({ Config.spec with subMaskWrite := .store } : Params).subMaskWrite = .store := by
  decide

theorem witness_InterruptReads :
    Accepted (.intRstat .main) halted ∧ Accepted (.intRmask .sub) halted ∧ Accepted (.intPend .sub) halted := by decide

theorem witness_MainMaskWriteToggles : Accepted (.intWmask .main 5) State.reset := by decide

/-- R33, R34 and R75 at their ends: the scratchpad bit stays while the 31 bits wrap, and an address above a mask wraps. -/
theorem test_addresses :
    effectiveAddr Config.spec .main 0x80004010 = (.mainSpr, 0x10) ∧
    effectiveAddr Config.spec .main 0x02000004 = (.mainRam, 4) ∧
    effectiveAddr Config.spec .sub 0x00200008 = (.subRam, 8) ∧
    advanceAddr .main 0xFFFFFFFC 4 = 0x80000000 ∧ advanceAddr .main 0x7FFFFFFC 4 = 0 ∧
    advanceAddr .sub 0x00FFFFFC 4 = 0 := by decide

theorem witness_MemoryWordsAndAddresses : mem4.wf = true ∧ mem4.readWord .mainRam 0x100 = 0x100 := by decide

end Sys2Proof.Tests
end

/-! PROOFS for 00_scope.md: ToMain (O36), then the invariant of the machine at reset (O14) and over a step (O15): its form
inside a rule, the updates that keep it, the deferred starts, one step. -/

namespace Sys2Proof.Safety

open Sys2Proof.Machine

/-- `ceil_div` is Mathlib's rounded-up quotient (R8). -/
theorem ceilDiv_eq (a b : Nat) : Machine.ceilDiv a b = a ⌈/⌉ b := (Nat.ceilDiv_eq_add_pred_div a b).symm

/-- `ToMain(d)` is the least number of main cycles that lasts as long as `d` secondary cycles (R142). -/
theorem toMain_le_iff {p : Params} (hp : p.Valid) (d n : Nat) : toMain p d ≤ n ↔ d * p.iopDen ≤ n * p.iopNum := by
  obtain ⟨_, _, hnum, _⟩ := hp
  rw [toMain, ceilDiv_eq, ceilDiv_le_iff_le_mul hnum, Nat.mul_comm n]

/-- Settles O36: each part is a direction of `toMain_le_iff`. -/
theorem toMainNeverEarly : Obligations.ToMainNeverEarly := by
  intro p d hp
  refine ⟨(toMain_le_iff hp d _).1 le_rfl, fun n => (toMain_le_iff hp d n).2, ?_⟩
  exact Nat.le_zero.1 ((toMain_le_iff hp 0 0).2 (by simp))

/-! ## The invariant inside a rule -/

/-- What the invariant says of channel `c` of side `sd`: reserved bits 0, R47 (e), and the words left to move. -/
structure ChanSound (p : Params) (sd : Side) (c : Chan) (ch : Channel) : Prop where
  masks : ChannelOk sd ch
  gran : fifoChannel p sd c = false → ch.rem.toNat % p.gran sd = 0
  aligned : strOf sd ch.chcr = true → ch.rem ≠ 0 → offWord ch.madr = false
  idle : strOf sd ch.chcr = false → ch.rem = 0

/-- What the invariant says of an engine's own registers. -/
structure EngineSound (p : Params) (sd : Side) (e : Engine) : Prop where
  length : e.chans.length = p.nch sd
  ctrl : e.ctrl &&& ~~~1 = 0
  pcr : e.pcr &&& ~~~(0x80000000 ||| channelBits p sd) = 0
  dintStat : e.dintStat &&& ~~~channelBits p sd = 0
  dintCtl : e.dintCtl &&& ~~~(0x80000000 ||| channelBits p sd) = 0

/-- What the invariant says of a queued event that may be a channel's: R47 (b). -/
def RunningEvent (s : State) (e : Event) : Prop :=
  ∀ sd, e.h = dmaHandle sd → e.rep = false ∧ e.ch.toNat < s.cfg.nch sd ∧ active s sd e.ch = true

/-- The invariant as it holds inside a rule as well: everything but R47 (d), since a burst may defer starts. The fields of
`Inv` that speak of a channel are gathered by channel, so that an update of one channel is judged by itself. -/
structure Sound (s : State) : Prop where
  config : ConfigOk s
  phase : PhaseOk s
  clock : ClockOk s
  handlers : HandlersOk s
  queue : QueueOk s
  running : ∀ e ∈ s.queue, RunningEvent s e
  fifo : FifoOk s
  engine : ∀ sd, EngineSound s.cfg sd (s.dma sd)
  chan : ∀ sd (c : Chan), c.toNat < s.cfg.nch sd → ChanSound s.cfg sd c (s.chan sd c)
  memory : MemoryOk s

/-- No side has more than 16 channels (R7). -/
theorem nch_le {p : Params} (hp : p.Valid) (sd : Side) : p.nch sd ≤ 16 := by
  obtain ⟨hm, hs, _⟩ := hp
  cases sd
  · exact hm
  · exact hs

/-- A property of every channel of a side, by channel and by number. -/
theorem forall_chan_iff {p : Params} (hp : p.Valid) (sd : Side) (P : Chan → Prop) :
    (∀ c : Chan, c.toNat < p.nch sd → P c) ↔ ∀ c < p.nch sd, P (BitVec.ofNat 6 c) := by
  constructor
  · intro h c hc
    refine h _ ?_
    have := nch_le hp sd
    rwa [BitVec.toNat_ofNat, Nat.mod_eq_of_lt (by omega)]
  · intro h c hc
    have := h c.toNat hc
    rwa [BitVec.ofNat_toNat, BitVec.setWidth_eq] at this

/-- A property of every channel record of a side, by record and by channel. -/
theorem forall_mem_chans_iff {s : State} {sd : Side} (hp : s.cfg.Valid) (hl : (s.dma sd).chans.length = s.cfg.nch sd)
    (P : Channel → Prop) : (∀ ch ∈ (s.dma sd).chans, P ch) ↔ ∀ c : Chan, c.toNat < s.cfg.nch sd → P (s.chan sd c) := by
  rw [forall_chan_iff hp sd fun c => P (s.chan sd c), List.forall_mem_iff_getElem, ← hl]
  have hn := nch_le hp sd
  refine forall₂_congr fun c hc => ?_
  have : c % 64 = c := Nat.mod_eq_of_lt (by omega)
  simp [State.chan, List.getD, this, hc]

/-- Both sides, as a list and as a type. -/
theorem forall_side_iff (P : Side → Prop) : (∀ sd ∈ [Side.main, Side.sub], P sd) ↔ ∀ sd, P sd :=
  ⟨fun h sd => h sd (by cases sd <;> simp), fun h sd _ => h sd⟩

theorem registersOk_iff {s : State} : RegistersOk s ↔ ∀ sd, EngineOk s sd :=
  ⟨fun ⟨hm, hs⟩ sd => match sd with | .main => hm | .sub => hs, fun h => ⟨h .main, h .sub⟩⟩

theorem runningOk_iff {s : State} : RunningOk s ↔ ∀ e ∈ s.queue, RunningEvent s e :=
  forall₂_congr fun _ _ => ⟨fun ⟨hm, hs⟩ sd => match sd with | .main => hm | .sub => hs, fun h => ⟨h .main, h .sub⟩⟩

theorem remOk_iff {s : State} (hp : s.cfg.Valid) : RemOk s ↔ ∀ sd (c : Chan), c.toNat < s.cfg.nch sd →
    fifoChannel s.cfg sd c = false → (s.chan sd c).rem.toNat % s.cfg.gran sd = 0 :=
  (forall_side_iff _).trans (by simp only [forall_chan_iff hp])

theorem alignedOk_iff {s : State} (hp : s.cfg.Valid) : AlignedOk s ↔ ∀ sd (c : Chan), c.toNat < s.cfg.nch sd →
    (active s sd c = true → (s.chan sd c).rem ≠ 0 → offWord (s.chan sd c).madr = false) ∧
    (active s sd c = false → (s.chan sd c).rem = 0) :=
  (forall_side_iff _).trans (by simp only [forall_chan_iff hp])

/-- An engine as the invariant asks: its own registers, and each channel's reserved bits. -/
theorem engineOk_iff {s : State} (hp : s.cfg.Valid) (sd : Side) : EngineOk s sd ↔
    EngineSound s.cfg sd (s.dma sd) ∧ ∀ c : Chan, c.toNat < s.cfg.nch sd → ChannelOk sd (s.chan sd c) := by
  constructor
  · rintro ⟨hl, hch, h1, h2, h3, h4⟩
    exact ⟨⟨hl, h1, h2, h3, h4⟩, (forall_mem_chans_iff hp hl _).1 hch⟩
  · rintro ⟨⟨hl, h1, h2, h3, h4⟩, hch⟩
    exact ⟨hl, (forall_mem_chans_iff hp hl _).2 hch, h1, h2, h3, h4⟩

/-- The invariant between commands is the one inside a rule, with no start deferred. -/
theorem inv_iff {s : State} : Inv s ↔ Sound s ∧ PendingOk s := by
  constructor
  · intro h
    have hp : s.cfg.Valid := h.config
    have engine := fun sd => (engineOk_iff hp sd).1 (registersOk_iff.1 h.registers sd)
    refine ⟨⟨h.config, h.phase, h.clock, h.handlers, h.queue, runningOk_iff.1 h.running, h.fifo,
      fun sd => (engine sd).1, fun sd c hc => ?_, h.memory⟩, h.pending⟩
    obtain ⟨haligned, hidle⟩ := (alignedOk_iff hp).1 h.aligned sd c hc
    exact ⟨(engine sd).2 c hc, (remOk_iff hp).1 h.rem sd c hc, haligned, hidle⟩
  · rintro ⟨h, hpend⟩
    have hp : s.cfg.Valid := h.config
    have engine := fun sd => (engineOk_iff hp sd).2 ⟨h.engine sd, fun c hc => (h.chan sd c hc).masks⟩
    exact ⟨h.config, h.phase, h.clock, h.handlers, h.queue, runningOk_iff.2 h.running, h.fifo, hpend,
      registersOk_iff.2 engine, (remOk_iff hp).2 fun sd c hc => (h.chan sd c hc).gran,
      (alignedOk_iff hp).2 fun sd c hc => ⟨(h.chan sd c hc).aligned, (h.chan sd c hc).idle⟩, h.memory⟩

/-! ## The state after reset (R48) -/

@[simp] theorem initial_dma (p : Params) (m : Memory) (g : Agents) (sd : Side) :
    (State.initial p m g).dma sd = Engine.initial p sd := by cases sd <;> rfl

/-- Every channel of the reset state is a channel after reset. -/
theorem initial_chan (p : Params) (m : Memory) (g : Agents) (sd : Side) (c : Chan) (hc : c.toNat < p.nch sd) :
    (State.initial p m g).chan sd c = Channel.initial p sd c.toNat := by
  simp [State.chan, List.getD, Engine.initial, hc]

theorem initial_handlersOk (p : Params) (m : Memory) (g : Agents) (hp : p.Valid) :
    HandlersOk (State.initial p m g) := by
  have h2 : 2 ≤ p.maxHandlers := by
    obtain ⟨_, _, _, _, _, _, _, _, h2, _⟩ := hp
    exact h2
  refine ⟨?_, le_rfl, h2, fun n hn => ?_⟩
  · simp only [State.initial, List.length_append, List.length_cons, List.length_nil, List.length_replicate]
    omega
  · match n with
    | 0 => simp [State.initial]
    | 1 => simp [State.initial]
    | n + 2 =>
      have hn' : n < p.maxHandlers - 2 := by
        have : n + 2 < p.maxHandlers := hn
        omega
      simp [State.initial, List.getD, hn']

/-- The state after reset meets the invariant inside a rule. -/
theorem initial_sound (p : Params) (m : Memory) (g : Agents) (hp : p.Valid) (hm : m.wf = true) :
    Sound (State.initial p m g) where
  config := hp
  phase := ⟨by simp [State.initial], fun h => absurd rfl h⟩
  clock := ⟨by simp [State.initial], by
    obtain ⟨_, _, _, hlt, _⟩ := hp
    show 0 < p.iopDen
    omega⟩
  handlers := initial_handlersOk p m g hp
  queue := ⟨List.Pairwise.nil, List.Pairwise.nil, fun _ he => by cases he⟩
  running _ he := by cases he
  fifo := ⟨Nat.zero_le _, Nat.zero_le _⟩
  engine sd := by
    rw [initial_dma]
    exact ⟨by simp [Engine.initial, State.initial], by simp [Engine.initial], by simp [Engine.initial],
      by simp [Engine.initial], by simp [Engine.initial]⟩
  chan sd c hc := by
    rw [initial_chan p m g sd c hc]
    exact ⟨⟨by simp [Channel.initial], by simp [Channel.initial], by simp [Channel.initial], by simp [Channel.initial]⟩,
      fun _ => Nat.zero_mod _, fun _ h => absurd rfl h, fun _ => rfl⟩
  memory := hm

/-- The state after reset defers no start. -/
theorem initial_inv (p : Params) (m : Memory) (g : Agents) (hp : p.Valid) (hm : m.wf = true) :
    Inv (State.initial p m g) :=
  inv_iff.2 ⟨initial_sound p m g hp hm, fun _ => rfl⟩

/-- Settles O14. -/
theorem resetMeetsInvariant : Obligations.ResetMeetsInvariant := initial_inv

end Sys2Proof.Safety

/-! ## Updates that keep the invariant inside a rule -/

namespace Sys2Proof.Safety

open Sys2Proof.Machine

/-! ### Masks -/

/-- A masked value has no reserved bit (R161). -/
theorem and_reserved (v m : Word) : (v &&& m) &&& ~~~m = 0 := by
  rw [BitVec.and_assoc, BitVec.and_not_self]
  exact BitVec.and_zero

/-- Clearing bits sets no reserved bit. -/
theorem and_reserved_of_left {v n : Word} (k : Word) (h : v &&& n = 0) : (v &&& k) &&& n = 0 := by
  rw [BitVec.and_assoc, BitVec.and_comm k, ← BitVec.and_assoc, h]
  exact BitVec.zero_and

/-- The bit of a channel that exists is no reserved bit of DINT_STAT (R39, R180). -/
theorem or_channelBit_reserved {p : Params} {sd : Side} {w : Word} {c : Chan} (hp : p.Valid) (hc : c.toNat < p.nch sd)
    (h : w &&& ~~~channelBits p sd = 0) : (w ||| ((1 : Word) <<< c.toNat)) &&& ~~~channelBits p sd = 0 := by
  apply BitVec.eq_of_getLsbD_eq
  intro i hi
  have hw := congrArg (fun w => BitVec.getLsbD w i) h
  rw [BitVec.getLsbD_and, BitVec.getLsbD_not, channelBits_getLsbD p sd hp] at hw ⊢
  rw [BitVec.getLsbD_or, getLsbD_bit]
  by_cases hic : i = c.toNat
  · simp [hic, hc]
  · simpa [hic] using hw

/-! ### One channel -/

/-- A channel with nothing left to move needs its reserved bits 0 and nothing more. -/
theorem chanSound_of_rem {p : Params} {sd : Side} {c : Chan} {ch : Channel} (hm : ChannelOk sd ch) (hr : ch.rem = 0) :
    ChanSound p sd c ch where
  masks := hm
  gran _ := by rw [hr]; exact Nat.zero_mod _
  aligned _ h := absurd hr h
  idle _ := hr

/-- What the moving of words and the tags keep of an Active channel is what the invariant asks (R172 to R177). -/
theorem ChanSound.kept {p : Params} {sd : Side} {c : Chan} {old new : Channel} (h : ChanSound p sd c old) (hp : p.Valid)
    (k : Kept p sd c old new) (ha : strOf sd old.chcr = true) : ChanSound p sd c new where
  masks := k.masks h.masks
  gran hf := k.rem hp hf (h.gran hf)
  aligned _ := k.aligned (h.aligned ha)
  idle hs := by
    rw [k.str, ha] at hs
    cases hs

/-- A register write masks what it stores (R160, R161). -/
theorem channelOk_writeReg {sd : Side} {ch : Channel} (reg : ChanReg) (v : Word) (h : ChannelOk sd ch) :
    ChannelOk sd (writeReg sd reg v ch) := by
  obtain ⟨hchcr, hmadr, htadr, hcnt⟩ := h
  cases reg with
  | chcr => exact ⟨and_reserved _ _, hmadr, htadr, hcnt⟩
  | madr => exact ⟨hchcr, and_reserved _ _, htadr, hcnt⟩
  | tadr => exact ⟨hchcr, hmadr, and_reserved _ _, hcnt⟩
  | cnt => exact ⟨hchcr, hmadr, htadr, and_reserved _ _⟩
  | status | rem | sel6 | sel7 => exact ⟨hchcr, hmadr, htadr, hcnt⟩

/-- A register write leaves what is left to move (R160). -/
@[simp] theorem writeReg_rem (sd : Side) (reg : ChanReg) (v : Word) (ch : Channel) :
    (writeReg sd reg v ch).rem = ch.rem := by cases reg <;> rfl

/-! ### Updates of the fields the invariant speaks of -/

section
variable {s : State}

/-- With its engine's channels counted, a channel number is present when it is below `NCH[s]`. -/
theorem Sound.chans_length (h : Sound s) (sd : Side) : (s.dma sd).chans.length = s.cfg.nch sd := (h.engine sd).length

/-- An Active channel exists (R30). -/
theorem Sound.lt_of_active (h : Sound s) {sd : Side} {c : Chan} (ha : active s sd c = true) : c.toNat < s.cfg.nch sd :=
  h.chans_length sd ▸ chan_exists_of_active s sd c ha

/-- A channel read after an update of one channel that exists. -/
theorem chan_setChan_cases {sd : Side} {c : Chan} (ch : Channel) (hc : c.toNat < (s.dma sd).chans.length) (x : Side)
    (n : Chan) : (x = sd ∧ n = c ∧ (s.setChan sd c ch).chan x n = ch) ∨
      (¬(x = sd ∧ n = c) ∧ (s.setChan sd c ch).chan x n = s.chan x n) := by
  by_cases hx : x = sd
  · subst hx
    by_cases hn : n = c
    · subst hn
      exact .inl ⟨rfl, rfl, chan_setChan_self s x n ch hc⟩
    · exact .inr ⟨fun e => hn e.2, chan_setChan_ne s x c n ch hn⟩
  · exact .inr ⟨fun e => hx e.1, chan_setChan_side s sd x c n ch hx⟩

/-- An update of one channel: the new record is sound, and it is Active or was not Running (R47 (b)). -/
theorem Sound.setChan (h : Sound s) {sd : Side} {c : Chan} {ch : Channel}
    (hch : c.toNat < s.cfg.nch sd → ChanSound s.cfg sd c ch)
    (hrun : strOf sd ch.chcr = true ∨ Machine.running s sd c = false) : Sound (s.setChan sd c ch) := by
  by_cases hc : c.toNat < (s.dma sd).chans.length
  · refine { h with running := ?_, engine := ?_, chan := ?_ }
    · intro e he x hx
      obtain ⟨hrep, hlt, ha⟩ := h.running e he x hx
      refine ⟨hrep, hlt, ?_⟩
      rcases chan_setChan_cases ch hc x e.ch with ⟨rfl, hec, hnew⟩ | ⟨_, hold⟩
      · rcases hrun with hs | hr
        · rwa [active, hnew]
        · have : Machine.running s x c = true := (queued_iff _ _ _).2 ⟨e, he, hx, hec⟩
          rw [this] at hr
          cases hr
      · rwa [active, hold]
    · intro x
      have e := h.engine x
      exact ⟨by rw [dma_setChan_length]; exact e.length, by rw [dma_setChan_ctrl]; exact e.ctrl,
        by rw [dma_setChan_pcr]; exact e.pcr, by rw [dma_setChan_dintStat]; exact e.dintStat,
        by rw [dma_setChan_dintCtl]; exact e.dintCtl⟩
    · intro x n hn
      rcases chan_setChan_cases ch hc x n with ⟨rfl, rfl, hnew⟩ | ⟨_, hold⟩
      · rw [hnew]
        exact hch hn
      · rw [hold]
        exact h.chan x n hn
  · rwa [setChan_absent s sd c ch hc]

/-- An update of an engine's own registers. -/
theorem Sound.setDma (h : Sound s) {sd : Side} {e : Engine} (he : EngineSound s.cfg sd e)
    (hc : e.chans = (s.dma sd).chans) : Sound (s.setDma sd e) := by
  have hchan : ∀ x n, (s.setDma sd e).chan x n = s.chan x n := by
    intro x n
    unfold State.chan
    by_cases hx : x = sd
    · subst hx
      rw [dma_setDma_self, hc]
    · rw [dma_setDma_ne s sd x e hx]
  refine { h with running := ?_, engine := ?_, chan := ?_ }
  · intro f hf x hx
    rw [active, hchan]
    exact h.running f hf x hx
  · intro x
    by_cases hx : x = sd
    · subst hx
      rwa [dma_setDma_self]
    · rw [dma_setDma_ne s sd x e hx]
      exact h.engine x
  · intro x n hn
    rw [hchan]
    exact h.chan x n hn

/-- A queue with some events taken out. -/
theorem Sound.setQueue (h : Sound s) {q : List Event} (hq : q.Sublist s.queue) : Sound (s.setQueue q) :=
  have ⟨hs, hd, he⟩ := h.queue
  { h with
    queue := ⟨hs.sublist hq, hd.sublist hq, fun e hm => he e (hq.subset hm)⟩
    running := fun e hm => h.running e (hq.subset hm) }

/-- An event put into what is left of the queue, for a pair that is not queued there (R113, R114, R121). -/
theorem Sound.putEvent (h : Sound s) {e : Event} {q : List Event} (hq : q.Sublist s.queue)
    (hd : ∀ f ∈ q, ¬(f.h = e.h ∧ f.ch = e.ch)) (he : EventOk s e) (hr : RunningEvent s e) : Sound (putEvent e q s) := by
  have k := h.setQueue hq
  obtain ⟨hsorted, hdistinct, hevents⟩ := k.queue
  refine { h with queue := ⟨sorted_insertEvent e q hsorted, distinct_insertEvent e q hdistinct hd, ?_⟩, running := ?_ }
  · intro f hf
    rcases (mem_insertEvent e f q).1 hf with rfl | hf
    · exact he
    · exact hevents f hf
  · intro f hf
    rcases (mem_insertEvent e f q).1 hf with rfl | hf
    · exact hr
    · exact k.running f hf

/-- `Schedule`, for a filled handle and a channel in range (R113). -/
theorem Sound.schedule (h : Sound s) {t : State} {hd : Handle} {ch : Chan} {delay : Int} {rep : Bool} {period : Int}
    (e : schedule hd ch delay rep period s = .ok t) (hh : hd.toNat < s.nh) (hch : 2 ≤ hd.toNat → ch.toNat ≤ s.cfg.maxChan)
    (hr : ∀ sd, hd = dmaHandle sd → rep = false ∧ ch.toNat < s.cfg.nch sd ∧ active s sd ch = true) : Sound t := by
  obtain ⟨hdelay, hperiod, hmax, rfl⟩ := schedule_ok e
  have hnow := h.clock.1
  refine h.putEvent List.filter_sublist (fun f hf => ((mem_removeEvent hd ch s.queue f).1 hf).2)
    ⟨hh, hch, ?_, ?_, ?_⟩ hr
  · show 0 ≤ (i64 _).toInt
    rw [toInt_i64 _ (by omega) hmax]
    omega
  · intro hrep
    obtain ⟨hpos, hle⟩ := hperiod hrep
    show 0 < (if rep = true then i64 period else 0).toInt
    rwa [if_pos hrep, toInt_i64 _ (by omega) hle]
  · exact fun hrep => if_neg (Bool.eq_false_iff.1 hrep)

/-- The fault entry (R271). -/
theorem Sound.takeFault (h : Sound s) (k : FaultKind) (info : List DWord) : Sound (takeFault k info s) :=
  { h with phase := ⟨by simp, fun ha => absurd rfl ha⟩ }

/-- A FIFO's contents, within its capacity (R41). -/
theorem Sound.setFifoDrq (h : Sound s) (d : Dir) {q : List Word} (hq : q.length ≤ s.cfg.fifoCap) :
    Sound (setFifoDrq d q s) :=
  { h with
    fifo :=
      have ⟨h0, h1⟩ := h.fifo
      match d with
      | .sif0 => ⟨hq, h1⟩
      | .sif1 => ⟨h0, hq⟩ }

/-- No FIFO holds more than FIFO_CAP words: R47 (c). -/
theorem Sound.fifo_le (h : Sound s) (d : Dir) : (s.fifo d).length ≤ s.cfg.fifoCap := by
  obtain ⟨h0, h1⟩ := h.fifo
  cases d
  · exact h0
  · exact h1

theorem Sound.setMem (h : Sound s) {m : Memory} (hm : m.wf = true) : Sound (s.setMem m) := { h with memory := hm }

theorem Sound.setAgents (h : Sound s) (g : Agents) : Sound (s.setAgents g) := { h with }

theorem Sound.setPending (h : Sound s) (l : List (Side × Chan)) : Sound (s.setPending l) := { h with }

theorem Sound.setIntc (h : Sound s) (sd : Side) (q : IntCtl) : Sound (s.setIntc sd q) := { h with }

theorem Sound.setAnswer (h : Sound s) (a : Option DWord) : Sound { s with answer := a } := { h with }

/-- Work in progress, in phase Running (R96, R145). -/
theorem Sound.setAgenda (h : Sound s) {ts : List Task} (hp : s.phase = .running) : Sound (s.setAgenda ts) :=
  { h with phase := ⟨h.phase.1, fun _ => hp⟩ }

/-- A change of phase between phases without a fault record (R22, R24). -/
theorem Sound.setPhase (h : Sound s) {p : Phase} (hs : s.phase ≠ .faulted) (hp : p ≠ .faulted)
    (ha : s.agenda ≠ [] → p = .running) : Sound (s.setPhase p) :=
  { h with phase := ⟨⟨fun e => absurd e hp, fun e => absurd (h.phase.1.2 e) hs⟩, ha⟩ }

/-- Time moved forward (R117). -/
theorem Sound.advance (h : Sound s) {d : Int} {t : State} (e : advance d s = .ok t) : Sound t := by
  obtain ⟨hd, hmax, rfl⟩ := advance_ok e
  obtain ⟨hnow, hacc⟩ := h.clock
  refine { h with clock := ⟨?_, hacc⟩ }
  show 0 ≤ (i64 _).toInt
  rw [toInt_i64 _ (by omega) hmax]
  omega

/-- The converter's remainder (R29, R141). -/
theorem Sound.convertState (h : Sound s) (m : Nat) : Sound (convertState m s) :=
  { h with clock := ⟨h.clock.1, Nat.mod_lt _ (Nat.zero_lt_of_lt h.clock.2)⟩ }

/-- EQ.REG fills the next slot of a table that has room (R27, R111). -/
theorem Sound.addHandler (h : Sound s) (k : DWord) (hn : s.nh < s.cfg.maxHandlers) : Sound (addHandler k s) := by
  obtain ⟨hlen, h2, _, hslots⟩ := h.handlers
  obtain ⟨hsorted, hdistinct, hevents⟩ := h.queue
  refine { h with handlers := ⟨by simpa using hlen, Nat.le_succ_of_le h2, hn, ?_⟩, queue := ⟨hsorted, hdistinct, ?_⟩ }
  · intro n hlt
    obtain ⟨h0, h1, hfilled, hempty⟩ := hslots n hlt
    by_cases e : n = s.nh
    · subst e
      have hnew : (Machine.addHandler k s).handlers.getD s.nh .empty = .external k := by
        simp [List.getD, hlen, hn]
      rw [hnew]
      exact ⟨fun e => by omega, fun e => by omega, fun _ _ => by simp, fun e => by simp at e⟩
    · have hold : (Machine.addHandler k s).handlers.getD n .empty = s.handlers.getD n .empty := by
        simp [List.getD, List.getElem?_set_ne (Ne.symm e)]
      rw [hold]
      exact ⟨h0, h1, fun h2 hlt => hfilled h2 (by simp at hlt; omega), fun hle => hempty (by simp at hle; omega)⟩
  · intro e he
    obtain ⟨hh, hrest⟩ := hevents e he
    exact ⟨Nat.lt_succ_of_lt hh, hrest⟩

end

end Sys2Proof.Safety

/-! ## Bursts, commands and channel events keep the invariant inside a rule -/

namespace Sys2Proof.Safety

open Sys2Proof.Machine

/-- The invariant inside a rule holds at the end if it held at the start. -/
def KeepsSound (s t : State) : Prop := Sound s → Sound t

/-- A side has one built-in handle (R112). -/
theorem dmaHandle_inj {x y : Side} (h : dmaHandle x = dmaHandle y) : x = y := by
  revert h
  cases x <;> cases y <;> decide

/-- The built-in handles are 0 and 1 (R112). -/
theorem dmaHandle_lt (sd : Side) : (dmaHandle sd).toNat < 2 := by cases sd <;> decide

section
variable {s : State}

/-- A Running channel is Active: R47 (b). -/
theorem Sound.active_or_waiting (h : Sound s) (sd : Side) (c : Chan) :
    active s sd c = true ∨ Machine.running s sd c = false := by
  by_cases hr : Machine.running s sd c = true
  · obtain ⟨e, he, hh, rfl⟩ := (queued_iff _ _ _).1 hr
    obtain ⟨_, _, ha⟩ := h.running e he sd hh
    exact .inl ha
  · exact .inr (Bool.eq_false_iff.2 hr)

/-- A run from a sound state ends in one, faulted or not. -/
theorem Sound.runState (h : Sound s) {r : Run} (e : Ends KeepsSound s r) : Sound (runState r) := by
  cases r with
  | ok t => exact e h
  | error t =>
    obtain ⟨u, k, info, hu, rfl⟩ := e
    exact (hu h).takeFault k info

/-- `Advance` keeps the invariant (R117). -/
theorem advance_sound (d : Int) : Ends KeepsSound s (advance d s) := by
  cases e : advance d s with
  | ok t => exact fun h => h.advance e
  | error t =>
    obtain ⟨k, info, rfl⟩ := advance_error e
    exact ⟨s, k, info, id, rfl⟩

/-- Moving words and fetching tags keep the invariant (R172 to R177). -/
theorem moveClosed_sound : MoveClosed KeepsSound where
  refl _ h := h
  trans _ _ _ h1 h2 h := h2 (h1 h)
  chan s sd c ch ha k h := h.setChan (fun hc => (h.chan sd c hc).kept h.config k ha) (.inl (k.str.trans ha))
  mem s sp a w h := h.setMem (wf_writeWord s.mem sp a w h.memory)
  push s d w hlt h := h.setFifoDrq d (by rw [List.length_append]; exact hlt)
  pop s d w rest hq h := h.setFifoDrq d (by
    have := h.fifo_le d
    rw [hq, List.length_cons] at this
    omega)
  read s sd c h := by
    unfold periphRead
    split <;> exact h.setAgents _
  write s sd c w h := h.setAgents _

/-- The engines' internal rules keep the invariant (R171 to R186). -/
theorem burstClosed_sound : BurstClosed KeepsSound where
  toMoveClosed := moveClosed_sound
  sched s sd c t ha e h := by
    have hlt := dmaHandle_lt sd
    obtain ⟨_, hnh, _⟩ := h.handlers
    refine h.schedule e (by omega) (fun h2 => by omega) fun x hx => ?_
    obtain rfl := dmaHandle_inj hx
    exact ⟨rfl, h.lt_of_active ha, ha⟩
  pend s l h := h.setPending l

/-- An engine register write masks what it stores (R185). -/
theorem engineSound_writeEngReg {p : Params} {sd : Side} {e : Engine} (reg : EngReg) (v : Word)
    (h : EngineSound p sd e) : EngineSound p sd (writeEngReg reg v (channelBits p sd) e) := by
  cases reg with
  | ctrl => exact { h with ctrl := and_reserved _ _ }
  | pcr => exact { h with pcr := and_reserved _ _ }
  | dintStat => exact { h with dintStat := and_reserved_of_left _ h.dintStat }
  | dintCtl => exact { h with dintCtl := and_reserved _ _ }

/-- Every command but DRV.HALT, whose rule needs the agenda empty, keeps the invariant (R90, R100). -/
theorem commandClosed_sound {i : Instr} (hi : i ≠ .drvHalt) : CommandClosed i KeepsSound where
  toBurstClosed := burstClosed_sound
  answer s a h := h.setAnswer a
  fault s k info h := h.takeFault k info
  handler s k _ _ hn h := h.addHandler k hn
  event s rep ch hd delay period t _ h2 he e h := by
    simp only [eventRange, Bool.and_eq_true, decide_eq_true_eq] at he
    obtain ⟨hch, hh⟩ := he
    refine h.schedule e hh (fun _ => hch) fun sd hx => ?_
    have := dmaHandle_lt sd
    rw [← hx] at this
    omega
  advance s d t _ e h := h.advance e
  drain s _ hp h := h.setAgenda hp
  convert s m _ h := h.convertState m.toNat
  start s _ hp h := h.setPhase (by rw [hp]; decide) (by decide) fun _ => rfl
  tick s n _ hp h := h.setAgenda hp
  halt _ e := absurd e hi
  store s sd c reg v _ hidle h := by
    have hr : Machine.running s sd c = false := (h.active_or_waiting sd c).resolve_left (by rw [hidle]; decide)
    refine h.setChan (fun hc => ?_) (.inr hr)
    have k := h.chan sd c hc
    exact chanSound_of_rem (channelOk_writeReg reg v k.masks) ((writeReg_rem sd reg v _).trans (k.idle hidle))
  abort s sd c v _ _ _ hr h := by
    refine h.setChan (fun hc => ?_) (.inr hr)
    obtain ⟨_, hmadr, htadr, hcnt⟩ := (h.chan sd c hc).masks
    exact chanSound_of_rem ⟨and_reserved _ _, hmadr, htadr, hcnt⟩ rfl
  engine s sd reg v _ h := h.setDma (engineSound_writeEngReg reg v (h.engine sd)) (by cases reg <;> rfl)
  line s sd c b _ h := h.setChan (fun hc => { h.chan sd c hc with }) (h.active_or_waiting sd c)
  raise s sd src h := h.setIntc _ _
  mask s sd v _ h := h.setIntc _ _
  ack s sd v _ h := h.setIntc _ _
  disable s _ h := h.setIntc _ _
  master s sd v _ h := h.setIntc _ _

/-- DRV.HALT with nothing in progress when the Host presents it (R147). -/
theorem Sound.execDrvHalt (h : Sound s) (hidle : s.issuer = .host → s.agenda = []) {t : State}
    (e : exec .drvHalt s = .next t) : Sound t := by
  obtain rfl := Host.Outcome.next.inj e
  rcases issue_cases .drvHalt (fun t => .ok (t.setPhase .halted)) s with
    ⟨_, e⟩ | ⟨_, _, e⟩ | ⟨_, _, _, e⟩ | ⟨hp, hl, _, e⟩ <;> rw [e]
  · exact h.setAnswer none
  · exact h.takeFault _ _
  · exact h.takeFault _ _
  · have hhost : s.issuer = .host := by
      simp only [legal, cmdClass, Bool.and_eq_true] at hl
      obtain ⟨_, hl⟩ := hl
      revert hl
      cases s.issuer <;> simp [legalIssuer]
    exact (h.setAnswer none).setPhase hp (by decide) fun ha => absurd (hidle hhost) ha

/-- Every command keeps the invariant inside a rule. -/
theorem Sound.exec (h : Sound s) (hidle : s.issuer = .host → s.agenda = []) {i : Instr} {t : State}
    (e : exec i s = .next t) : Sound t := by
  by_cases hi : i = .drvHalt
  · subst hi
    exact h.execDrvHalt hidle e
  · exact exec_related (commandClosed_sound hi) e h

/-- The master flag's evaluation touches interrupt registers alone (R182). -/
theorem Sound.evalMaster (h : Sound s) (sd : Side) (b : Bool) : Sound (evalMaster sd b s) := by
  unfold Machine.evalMaster
  split
  · exact h.setIntc _ _
  · exact h

/-- A channel's interrupt flag, for a channel that exists (R39, R180). -/
theorem Sound.setFlag (h : Sound s) {sd : Side} {c : Chan} (hc : c.toNat < s.cfg.nch sd) :
    Sound (s.setDma sd { s.dma sd with dintStat := (s.dma sd).dintStat ||| ((1 : Word) <<< c.toNat) }) :=
  have k := h.engine sd
  h.setDma { k with dintStat := or_channelBit_reserved h.config hc k.dintStat } rfl

/-- Clearing STR sets no reserved bit (R161, R180). -/
theorem clearStr_reserved {sd : Side} {v : Word} (h : v &&& ~~~chcrMask sd = 0) :
    clearStr sd v &&& ~~~chcrMask sd = 0 := by
  cases sd <;> exact and_reserved_of_left _ h

/-- A channel stopped with nothing left to move, its event being gone (R180). -/
theorem Sound.stopChannel (h : Sound s) {sd : Side} {c : Chan} {cnt : Word} (hr : (s.chan sd c).rem = 0)
    (hcnt : cnt &&& ~~~cntMask sd = 0) (hrun : Machine.running s sd c = false) :
    Sound (s.setChan sd c { s.chan sd c with chcr := clearStr sd (s.chan sd c).chcr, cnt := cnt }) := by
  refine h.setChan (fun hc => ?_) (.inr hrun)
  obtain ⟨hchcr, hmadr, htadr, _⟩ := (h.chan sd c hc).masks
  exact chanSound_of_rem ⟨clearStr_reserved hchcr, hmadr, htadr, hcnt⟩ hr

/-- The completion of a channel whose words are moved and whose event is gone (R180). -/
theorem Sound.complete (h : Sound s) {sd : Side} {c : Chan} (ha : active s sd c = true)
    (hr : (s.chan sd c).rem = 0) (hrun : Machine.running s sd c = false) : Sound (complete sd c s) := by
  have hc := h.lt_of_active ha
  obtain ⟨_, _, _, hcnt⟩ := (h.chan sd c hc).masks
  unfold Machine.complete
  exact ((h.stopChannel hr (trackCnt_mask _ _ _ _ _ hcnt) hrun).setFlag hc).evalMaster sd _

/-- The event of a channel that is no longer Running (R178). -/
theorem dmaEvent_sound {sd : Side} {c : Chan} (hrun : Machine.running s sd c = false) :
    Ends KeepsSound s (dmaEvent sd c s) := by
  have q := burstClosed_sound
  unfold dmaEvent
  split
  · exact q.refl s
  · rename_i ha
    have ha : active s sd c = true := by simpa using ha
    split
    · rename_i hend
      exact Ends.trans q.trans (fun h => h.complete ha hend.1 hrun) (processPendingStarts_ends q _)
    · refine Ends.bind q.trans ?_ fun t _ => processPendingStarts_ends q t
      split
      · exact burstStep_ends q sd c s ha
      · exact q.refl s

end

end Sys2Proof.Safety

/-! ## The deferred starts run out (R184) -/

namespace Sys2Proof.Safety

open Sys2Proof.Machine

/-! ### The measure of R184's argument

A round takes one start off the list. A burst puts at most one back, and only when the channel that has just become Running is
an end of a FIFO: one of four, each of which becomes Running once. -/

/-- The channels at the four ends of the two FIFOs (R221). -/
def fifoEnds (p : Params) : Finset (Side × Chan) :=
  {consumerOf p .sif0, consumerOf p .sif1, producerOf p .sif0, producerOf p .sif1}

/-- The FIFO ends whose channel is not Running. -/
def waitingEnds (s : State) : Finset (Side × Chan) :=
  (fifoEnds s.cfg).filter fun q => running s q.1 q.2 = false

/-- The rounds ProcessPendingStarts can still take. -/
def roundsLeft (s : State) : Nat := s.pendingStarts.length + (waitingEnds s).card

/-- A channel connected to a FIFO is one of its ends (R221). -/
theorem mem_fifoEnds {p : Params} {sd : Side} {c : Chan} (h : fifoChannel p sd c = true) : (sd, c) ∈ fifoEnds p := by
  simp only [fifoChannel, Bool.or_eq_true] at h
  cases sd with
  | main =>
    by_cases h0 : c = p.sifMain.sif0
    · simp [fifoEnds, consumerOf, h0]
    · have h1 : c = p.sifMain.sif1 := by simpa [consumes, produces, h0] using h
      simp [fifoEnds, producerOf, h1]
  | sub =>
    by_cases h1 : c = p.sifSub.sif1
    · simp [fifoEnds, consumerOf, h1]
    · have h0 : c = p.sifSub.sif0 := by simpa [consumes, produces, h1] using h
      simp [fifoEnds, producerOf, h0]

/-- The bound that ProcessPendingStarts gives its loop is enough (R184). -/
theorem roundsLeft_le (s : State) : roundsLeft s ≤ s.pendingStarts.length + 4 :=
  Nat.add_le_add_left ((Finset.card_filter_le _ _).trans Finset.card_le_four) _

section
variable {s t : State} {sd : Side} {c : Chan}

/-- A burst leaves no more rounds than there were: the start it may defer is paid for by its own channel (R184). -/
theorem roundsLeft_burstStep (hr : running s sd c = false) (e : burstStep sd c s = .ok t) :
    roundsLeft t ≤ roundsLeft s := by
  obtain ⟨hcfg, hrun, hmono, l, hl, hlen, hfifo⟩ := burstStep_pending e
  have hsub : waitingEnds t ⊆ waitingEnds s := by
    intro q hq
    simp only [waitingEnds, Finset.mem_filter, hcfg] at hq ⊢
    obtain ⟨hend, hwait⟩ := hq
    refine ⟨hend, Bool.eq_false_iff.2 fun h => ?_⟩
    rw [hmono q.1 q.2 h] at hwait
    cases hwait
  unfold roundsLeft
  rw [hl, List.length_append]
  by_cases hnil : l = []
  · have := Finset.card_le_card hsub
    simp only [hnil, List.length_nil]
    omega
  · have hold : (sd, c) ∈ waitingEnds s := Finset.mem_filter.2 ⟨mem_fifoEnds (hfifo hnil), hr⟩
    have hnew : (sd, c) ∉ waitingEnds t := fun h => by
      have := (Finset.mem_filter.1 h).2
      rw [hrun] at this
      cases this
    have := Finset.card_lt_card (Finset.ssubset_iff_of_subset hsub |>.2 ⟨_, hold, hnew⟩)
    omega

/-- A round, once its start is off the list, leaves no more of them than there were. -/
theorem roundsLeft_startPending {p : Side × Chan} (e : startPending p s = .ok t) : roundsLeft t ≤ roundsLeft s := by
  unfold startPending checkRunning at e
  split at e
  · split at e
    · exact (Except.ok.inj e) ▸ le_rfl
    · rename_i hr
      split at e
      · exact roundsLeft_burstStep (Bool.eq_false_iff.2 hr) e
      · exact (Except.ok.inj e) ▸ le_rfl
  · exact (Except.ok.inj e) ▸ le_rfl

/-- With enough rounds the list runs out. -/
theorem drainPending_pendingStarts {fuel : Nat} (hf : roundsLeft s ≤ fuel) (e : drainPending fuel s = .ok t) :
    t.pendingStarts = [] := by
  induction fuel generalizing s with
  | zero =>
    obtain rfl := Except.ok.inj e
    unfold roundsLeft at hf
    exact List.length_eq_zero_iff.1 (by omega)
  | succ n ih =>
    unfold drainPending at e
    split at e
    · rename_i hnil
      obtain rfl := Except.ok.inj e
      exact hnil
    · rename_i p rest hcons
      have hpop : roundsLeft (s.setPending rest) + 1 = roundsLeft s := by
        have hw : waitingEnds (s.setPending rest) = waitingEnds s := rfl
        simp only [roundsLeft, hw, hcons, setPending_pendingStarts, List.length_cons]
        omega
      split at e
      · cases e
      · rename_i u hu
        have := roundsLeft_startPending hu
        exact ih (by omega) e

/-- ProcessPendingStarts ends with no start deferred, unless it faults (R184). -/
theorem processPendingStarts_pendingStarts (e : processPendingStarts s = .ok t) : t.pendingStarts = [] :=
  drainPending_pendingStarts (roundsLeft_le s) e

end

/-! ### No start is deferred between commands: R47 (d) -/

section
variable {s : State}

/-- A run that faults, or else ends with no start deferred. -/
theorem pendingOk_runState {R : State → State → Prop} {r : Run} (he : Ends R s r)
    (ho : ∀ t, r = .ok t → t.pendingStarts = []) : PendingOk (runState r) := by
  cases r with
  | ok t => exact fun _ => ho t rfl
  | error t =>
    obtain ⟨u, k, info, _, rfl⟩ := he
    exact fun h => absurd rfl h

/-- ProcessPendingStarts faults or leaves no start deferred. -/
theorem pendingOk_processPendingStarts (s : State) : PendingOk (runState (processPendingStarts s)) :=
  pendingOk_runState (processPendingStarts_ends burstClosed_sound s) fun _ => processPendingStarts_pendingStarts

/-- A rule that ends with ProcessPendingStarts. -/
theorem pendingOk_processLast {R : State → State → Prop} {r : Run} (he : Ends R s r) :
    PendingOk (runState (r >>= processPendingStarts)) := by
  cases r with
  | ok t => exact pendingOk_processPendingStarts t
  | error t => exact pendingOk_runState he fun _ h => nomatch h

/-- A rule that leaves the deferred starts as they are. -/
def SamePending (s t : State) : Prop := t.pendingStarts = s.pendingStarts

theorem pendingOk_same {r : Run} (hs : s.pendingStarts = []) (he : Ends SamePending s r) : PendingOk (runState r) :=
  pendingOk_runState he fun _ h => by
    subst h
    exact Eq.trans he hs

theorem raiseFault_same (k : FaultKind) (info : List DWord) : Ends SamePending s (raiseFault k info s) :=
  ⟨s, k, info, rfl, rfl⟩

theorem schedule_same (h : Handle) (ch : Chan) (delay : Int) (rep : Bool) (period : Int) :
    Ends SamePending s (schedule h ch delay rep period s) := by
  cases e : schedule h ch delay rep period s with
  | ok t =>
    obtain ⟨_, _, _, rfl⟩ := schedule_ok e
    rfl
  | error t =>
    obtain ⟨k, info, rfl⟩ := schedule_error e
    exact raiseFault_same k info

theorem advance_same (d : Int) : Ends SamePending s (advance d s) := by
  cases e : advance d s with
  | ok t =>
    obtain ⟨_, _, rfl⟩ := advance_ok e
    rfl
  | error t =>
    obtain ⟨k, info, rfl⟩ := advance_error e
    exact raiseFault_same k info

/-- A secondary-cycle operand's conversion, then the rest of EQ.SCHEDSUB's rule (R115). -/
theorem toMainChecked_same (i : Instr) (d : DWord) {f : Nat → Run} (hf : ∀ n, Ends SamePending s (f n)) :
    Ends SamePending s (toMainChecked i d s >>= f) := by
  unfold toMainChecked
  split
  · exact hf _
  · exact raiseFault_same _ _

theorem scheduleSub_same (i : Instr) (rep : Bool) (ch : Chan) (h : Handle) (delay period : DWord) :
    Ends SamePending s (scheduleSub i rep ch h delay period s) := by
  unfold scheduleSub
  split
  · exact raiseFault_same _ _
  · split
    · exact raiseFault_same _ _
    · refine toMainChecked_same i delay fun d => ?_
      unfold periodChecked
      split
      · exact toMainChecked_same i period fun p => schedule_same h ch d rep p
      · exact schedule_same h ch d rep _

/-- A command whose rule ends with no start deferred when it begins with none. -/
theorem pendingOk_issue (h : PendingOk s) {i : Instr} {rule : State → Run}
    (hr : (clearAnswer s).pendingStarts = [] → PendingOk (runState (rule (clearAnswer s)))) :
    PendingOk (issue i rule s) := by
  rcases issue_cases i rule s with ⟨_, e⟩ | ⟨_, _, e⟩ | ⟨_, _, _, e⟩ | ⟨hp, _, _, e⟩ <;> rw [e]
  · exact h
  · exact fun hn => absurd rfl hn
  · exact fun hn => absurd rfl hn
  · exact hr (h hp)

/-- A command whose rule leaves the deferred starts as they are. -/
theorem pendingOk_issue_same (h : PendingOk s) {i : Instr} {rule : State → Run}
    (hr : Ends SamePending (clearAnswer s) (rule (clearAnswer s))) : PendingOk (issue i rule s) :=
  pendingOk_issue h fun hs => pendingOk_same hs hr

/-- A channel register write aborts, faults, or ends with ProcessPendingStarts (R160). -/
theorem pendingOk_writeChannel (hs : s.pendingStarts = []) (sd : Side) (c : Chan) (reg : ChanReg) (v : Word) :
    PendingOk (runState (writeChannel sd c reg v s)) := by
  refine pendingOk_runState (writeChannel_ends (commandClosed_sound (by simp)) s sd c reg v rfl) fun t e => ?_
  unfold writeChannel at e
  split at e
  · cases e
  · split at e
    · split at e
      · obtain rfl := Except.ok.inj e
        exact hs
      · cases e
    · obtain ⟨u, _, hu⟩ := bind_ok e
      exact processPendingStarts_pendingStarts hu

/-- An engine register write ends with ProcessPendingStarts (R185). -/
theorem pendingOk_writeEngine (sd : Side) (reg : EngReg) (v : Word) :
    PendingOk (runState (writeEngine sd reg v s)) := by
  cases reg with
  | ctrl | pcr => exact pendingOk_processLast (reEvaluate_ends burstClosed_sound sd _)
  | dintStat | dintCtl => exact pendingOk_processPendingStarts _

/-- A request line's write faults or ends with ProcessPendingStarts (R166). -/
theorem pendingOk_setDrq (hs : s.pendingStarts = []) (sd : Side) (c : Chan) (b : Bool) :
    PendingOk (runState (setDrq sd c b s)) := by
  unfold setDrq
  split
  · exact pendingOk_same hs (raiseFault_same _ _)
  · unfold storeDrq
    split
    · exact pendingOk_processLast (checkRunning_ends burstClosed_sound sd c _)
    · exact pendingOk_processPendingStarts _

/-- SIF.PUSH faults or ends with ProcessPendingStarts (R227). -/
theorem pendingOk_pushCommand (d : Dir) (w : Word) : PendingOk (runState (pushCommand d w s)) := by
  unfold pushCommand
  cases e : fifoPush d w s with
  | ok t => exact pendingOk_processPendingStarts t
  | error t =>
    obtain ⟨_, rfl⟩ := fifoPush_error e
    exact fun h => absurd rfl h

/-- SIF.POP faults or ends with ProcessPendingStarts (R228). -/
theorem pendingOk_popCommand (d : Dir) : PendingOk (runState (popCommand d s)) := by
  unfold popCommand
  split
  · rename_i t e
    obtain ⟨_, rfl⟩ := fifoPop_error e
    exact fun h => absurd rfl h
  · exact pendingOk_processPendingStarts _

end

end Sys2Proof.Safety

/-! ## One step keeps the invariant -/

namespace Sys2Proof.Safety

open Sys2Proof.Machine

section
variable {s t u : State}

/-- Every command ends with no start deferred when it begins with none: R47 (d). -/
theorem exec_pendingOk (h : PendingOk s) {i : Instr} (e : exec i s = .next t) : PendingOk t := by
  cases i <;> obtain rfl := Host.Outcome.next.inj e
  case dmaWr sd c reg v => exact pendingOk_issue h fun hs => pendingOk_writeChannel hs sd c reg v
  case dmaWre sd reg v => exact pendingOk_issue h fun _ => pendingOk_writeEngine sd reg v
  case dmaDrq sd c b => exact pendingOk_issue h fun hs => pendingOk_setDrq hs sd c b
  case sifPush d w => exact pendingOk_issue h fun _ => pendingOk_pushCommand d w
  case sifPop d => exact pendingOk_issue h fun _ => pendingOk_popCommand d
  case eqReg k =>
    refine pendingOk_issue_same h ?_
    unfold registerHandler
    split
    · exact raiseFault_same _ _
    · rfl
  case eqSched rep ch hd delay period => exact pendingOk_issue_same h (schedule_same hd ch _ rep _)
  case eqSchedSub rep ch hd delay period => exact pendingOk_issue_same h (scheduleSub_same _ rep ch hd delay period)
  case eqAdv delta => exact pendingOk_issue_same h (advance_same _)
  case clkConv m =>
    refine pendingOk_issue_same h ?_
    unfold convertCommand
    split
    · rfl
    · exact raiseFault_same _ _
  case clkToMain d =>
    refine pendingOk_issue_same h ?_
    unfold toMainCommand
    split
    · rfl
    · exact raiseFault_same _ _
  case dmaRd sd c reg =>
    refine pendingOk_issue_same h ?_
    cases reg
    case sel6 | sel7 => exact raiseFault_same _ _
    all_goals rfl
  case intRctrl sd => exact pendingOk_issue_same h (by cases sd <;> rfl)
  case illegal a b =>
    show PendingOk (illegalCommand _ s)
    unfold illegalCommand
    split
    · exact h
    · exact fun hn => absurd rfl hn
  all_goals exact pendingOk_issue_same h rfl

/-- Every command keeps the invariant, DRV.HALT by the Host between ticks (R96, R147). -/
theorem Inv.exec (h : Inv s) (hidle : s.issuer = .host → s.agenda = []) {i : Instr} (e : exec i s = .next t) :
    Inv t := by
  obtain ⟨hs, hp⟩ := inv_iff.1 h
  exact inv_iff.2 ⟨hs.exec hidle e, exec_pendingOk hp e⟩

/-- Taking the next item out of its script keeps the invariant. -/
theorem Inv.popped (h : Inv s) (hu : Popped s u) : Inv u := by
  obtain ⟨hs, hp⟩ := inv_iff.1 h
  rcases hu with ⟨_, _, rest, _, rfl⟩ | ⟨sd, n, x, xs, rest, ha, rfl⟩ | ⟨c, cs, rest, ha, rfl⟩
  · exact inv_iff.2 ⟨hs.setAgents _, hp⟩
  · exact inv_iff.2 ⟨hs.setAgenda (hs.phase.2 (by rw [ha]; simp)), hp⟩
  · exact inv_iff.2 ⟨hs.setAgenda (hs.phase.2 (by rw [ha]; simp)), hp⟩

/-- The Host presents a command only between ticks (R91). -/
theorem agenda_of_popped (hu : Popped s u) (hi : u.issuer = .host) : u.agenda = [] := by
  rcases hu with ⟨ha, _, _, _, rfl⟩ | ⟨sd, n, x, xs, rest, _, rfl⟩ | ⟨c, cs, rest, _, rfl⟩
  · exact ha
  · cases sd <;> simp [State.issuer] at hi
  · simp [State.issuer] at hi

/-- A triple that is no command keeps the invariant (R97, R100). -/
theorem Inv.illegalCommand (h : Inv s) (c : Command) : Inv (illegalCommand c s) := by
  obtain ⟨hs, hp⟩ := inv_iff.1 h
  unfold Machine.illegalCommand
  split
  · exact inv_iff.2 ⟨hs.setAnswer none, hp⟩
  · exact inv_iff.2 ⟨hs.takeFault _ _, fun hn => absurd rfl hn⟩

/-! ### One firing of a drain (R118, R119, R121) -/

/-- The event that fires is the first of the queue (R118). -/
theorem queue_of_firstDue {e : Event} (he : firstDue s = some e) : s.queue = e :: s.queue.tail := by
  unfold firstDue at he
  split at he
  · rename_i f rest hq
    split at he
    · obtain rfl := Option.some.inj he
      rw [hq, List.tail_cons]
    · cases he
  · cases he

/-- Everything taking the firing event out can do when it does not fault (R121). -/
theorem takeDue_ok {e : Event} (h : takeDue e s = .ok u) :
    (e.rep = false ∧ u = s.setQueue s.queue.tail) ∨
    (e.rep = true ∧ e.deadline.toInt + e.period.toInt ≤ maxTime ∧
      u = putEvent { e with deadline := i64 (e.deadline.toInt + e.period.toInt), seq := s.seq } s.queue.tail
        (s.setQueue s.queue.tail)) := by
  unfold takeDue at h
  split at h
  · rename_i hrep
    exact .inr ⟨hrep, reinsert_ok h⟩
  · rename_i hrep
    exact .inl ⟨Bool.eq_false_iff.2 hrep, (Except.ok.inj h).symm⟩

/-- Taking the firing event out touches the queue and its counter alone. -/
theorem takeDue_frame {e : Event} (h : takeDue e s = .ok u) : ∃ q n, u = { s with queue := q, seq := n } := by
  rcases takeDue_ok h with ⟨_, rfl⟩ | ⟨_, _, rfl⟩
  · exact ⟨_, _, rfl⟩
  · exact ⟨_, _, rfl⟩

/-- What the invariant says of the first event of the queue: its own fields, and no other event of its pair. -/
theorem Sound.first_event (h : Sound s) {e : Event} (hq : s.queue = e :: s.queue.tail) :
    EventOk s e ∧ RunningEvent s e ∧ ∀ f ∈ s.queue.tail, ¬(f.h = e.h ∧ f.ch = e.ch) := by
  obtain ⟨_, hdistinct, hevents⟩ := h.queue
  have hmem : e ∈ s.queue := by
    rw [hq]
    exact List.mem_cons_self ..
  have hpairs : List.Pairwise (fun e f => ¬(e.h = f.h ∧ e.ch = f.ch)) (e :: s.queue.tail) := hq ▸ hdistinct
  refine ⟨hevents e hmem, h.running e hmem, fun f hf hfe => ?_⟩
  exact (List.pairwise_cons.1 hpairs).1 f hf ⟨hfe.1.symm, hfe.2.symm⟩

/-- Taking the firing event out, reinserted when it repeats, keeps the invariant (R121). -/
theorem Sound.takeDue (h : Sound s) {e : Event} (hq : s.queue = e :: s.queue.tail) (he : Machine.takeDue e s = .ok u) :
    Sound u := by
  have k := h.setQueue (List.tail_sublist s.queue)
  rcases takeDue_ok he with ⟨_, rfl⟩ | ⟨hrep, hmax, rfl⟩
  · exact k
  · obtain ⟨⟨hh, hch, hdead, hper, hper0⟩, hr, hpair⟩ := h.first_event hq
    have hpos := hper hrep
    refine k.putEvent (List.Sublist.refl _) hpair ⟨hh, hch, ?_, hper, hper0⟩ fun sd hx => ?_
    · show 0 ≤ (i64 _).toInt
      rw [toInt_i64 _ (by omega) hmax]
      omega
    · obtain ⟨hrep', _⟩ := hr sd hx
      rw [hrep] at hrep'
      cases hrep'

/-- The built-in handlers stand in slots 0 and 1 and nowhere else (R27). -/
theorem Sound.dmaHandle_of_handler (h : Sound s) {hd : Handle} (hn : hd.toNat < s.nh) :
    (s.handlers.getD hd.toNat .empty = .dmaMain → hd = dmaHandle .main) ∧
    (s.handlers.getD hd.toNat .empty = .dmaSub → hd = dmaHandle .sub) := by
  obtain ⟨_, _, hmax, hslots⟩ := h.handlers
  obtain ⟨h0, h1, h2, _⟩ := hslots hd.toNat (by omega)
  have cases3 : hd.toNat = 0 ∨ hd.toNat = 1 ∨ 2 ≤ hd.toNat := by omega
  rcases cases3 with e | e | e
  · exact ⟨fun _ => BitVec.eq_of_toNat_eq e, fun hs => by rw [h0 e] at hs; cases hs⟩
  · exact ⟨fun hs => (by rw [h1 e] at hs; cases hs), fun _ => BitVec.eq_of_toNat_eq e⟩
  · obtain ⟨_, hm, hs⟩ := h2 e hn
    exact ⟨fun h => absurd h hm, fun h => absurd h hs⟩

/-- A channel's event does not repeat, so that its channel is not Running once it has fired: R47 (a), (b). -/
theorem Sound.not_running_of_fired (h : Sound s) {e : Event} {sd : Side} (hq : s.queue = e :: s.queue.tail)
    (he : Machine.takeDue e s = .ok u) (hsd : e.h = dmaHandle sd) : Machine.running u sd e.ch = false := by
  obtain ⟨_, hr, hpair⟩ := h.first_event hq
  obtain ⟨hrep, _⟩ := hr sd hsd
  rcases takeDue_ok he with ⟨_, rfl⟩ | ⟨hrep', _⟩
  · refine Bool.eq_false_iff.2 fun hrun => ?_
    obtain ⟨f, hf, hfh, hfc⟩ := (queued_iff _ _ _).1 hrun
    exact hpair f hf ⟨hfh.trans hsd.symm, hfc⟩
  · rw [hrep] at hrep'
    cases hrep'

/-- A channel's event faults or ends with no start deferred (R178). -/
theorem pendingOk_dmaEvent (hs : s.pendingStarts = []) (sd : Side) (c : Chan) :
    PendingOk (runState (dmaEvent sd c s)) := by
  unfold dmaEvent
  split
  · exact fun _ => hs
  · rename_i ha
    split
    · exact pendingOk_processPendingStarts _
    · split
      · exact pendingOk_processLast (burstStep_ends burstClosed_sound sd c s (by simpa using ha))
      · exact pendingOk_processPendingStarts _

/-- One firing keeps the invariant (R118, R119). -/
theorem Inv.fired (h : Inv s) (hrun : s.phase = .running) {e : Event} (he : firstDue s = some e) (hf : Fired e s t) :
    Inv t := by
  obtain ⟨hs, hp⟩ := inv_iff.1 h
  have hq := queue_of_firstDue he
  have hpend : s.pendingStarts = [] := hp (by rw [hrun]; decide)
  rcases hf with ⟨u, hu, rfl⟩ | ⟨u, hu, hdisp⟩
  · unfold Machine.takeDue at hu
    split at hu
    · obtain ⟨k, info, rfl⟩ := reinsert_error hu
      exact inv_iff.2 ⟨(hs.setQueue (List.tail_sublist _)).takeFault k info, fun hn => absurd rfl hn⟩
    · cases hu
  · have hsu := hs.takeDue hq hu
    obtain ⟨⟨hh, _⟩, _⟩ := hs.first_event hq
    obtain ⟨q, n, rfl⟩ := takeDue_frame hu
    have channel : ∀ sd, e.h = dmaHandle sd → Inv (runState (dmaEvent sd e.ch { s with queue := q, seq := n })) :=
      fun sd hsd => inv_iff.2 ⟨hsu.runState (dmaEvent_sound (hs.not_running_of_fired hq hu hsd)),
        pendingOk_dmaEvent (s := { s with queue := q, seq := n }) hpend sd e.ch⟩
    obtain ⟨hmain, hsub⟩ := hsu.dmaHandle_of_handler hh
    rcases hdisp with ⟨hslot, rfl⟩ | ⟨hslot, rfl⟩ | ⟨k, g, cmds, _, rfl⟩
    · exact channel .main (hmain hslot)
    · exact channel .sub (hsub hslot)
    · exact inv_iff.2 ⟨(hsu.setAgents g).setAgenda hrun, fun _ => hpend⟩

/-- Every case of a step keeps the invariant. -/
theorem Inv.stepped (h : Inv s) (k : Stepped s t) : Inv t := by
  obtain ⟨hs, hp⟩ := inv_iff.1 h
  have hrun : ∀ {k rest}, s.agenda = k :: rest → s.phase = .running := fun ha => hs.phase.2 (by rw [ha]; simp)
  cases k with
  | idle e => exact e ▸ h
  | reset rest _ _ e => exact e ▸ initial_inv s.cfg s.mem _ hs.config hs.memory
  | store u sp a bytes hu e =>
    obtain ⟨hsu, hpu⟩ := inv_iff.1 (h.popped hu)
    exact e ▸ inv_iff.2 ⟨hsu.setMem (wf_storeBytes sp _ bytes a u.mem hsu.memory), hpu⟩
  | command u c i hu _ _ e => exact (h.popped hu).exec (agenda_of_popped hu) e
  | illegal u c _ hu _ _ e => exact e ▸ (h.popped hu).illegalCommand c
  | begins sd n rest g acts ha e => exact e ▸ inv_iff.2 ⟨(hs.setAgents g).setAgenda (hrun ha), hp⟩
  | ends k rest ha e => exact e ▸ inv_iff.2 ⟨(hs.setAnswer none).setAgenda (hrun ha), hp⟩
  | convert m rest ha e => exact e ▸ inv_iff.2 ⟨(hs.convertState m).setAgenda (hrun ha), hp⟩
  | advance d rest ha e =>
    have hadv := pendingOk_same (hp (by rw [hrun ha]; decide)) (advance_same (s := s.setAgenda rest) d)
    exact e ▸ inv_iff.2 ⟨(hs.setAgenda (hrun ha)).runState (advance_sound d), hadv⟩
  | fires rest f ha he hf => exact h.fired (hrun ha) he hf
  | tickEnd rest ha e =>
    exact e ▸ inv_iff.2 ⟨{ (hs.setAnswer none).setAgenda (ts := rest) (hrun ha) with }, hp⟩

end

/-- Settles O15. A step is one of the cases of `Stepped`; inside a rule the invariant holds but for R47 (d), which the rules
that defer starts restore by ending with ProcessPendingStarts. -/
theorem stepKeepsInvariant : Obligations.StepKeepsInvariant := fun _ _ h e => h.stepped (step_cases e)

end Sys2Proof.Safety

/-! PROOFS for 10_state.md, the steps. What a step moves, each move with its cause, said once: a relation that every update of
the machine respects holds over the step. Then the phases and the fault record (O12, O11), the reset (O13), the FIFOs (O18),
the queue (O19), the handler table (O20) and the time (O21) are relations of that kind. -/

namespace Sys2Proof.Safety

open Sys2Proof.Machine

/-! ## What a step traces to its cause -/

/-- The fields that no rule of a DMA engine touches, faults aside, are the same. -/
structure SameCore (s t : State) : Prop where
  cfg : t.cfg = s.cfg := by rfl
  phase : t.phase = s.phase := by rfl
  tick : t.tick = s.tick := by rfl
  fault : t.fault = s.fault := by rfl
  now : t.now = s.now := by rfl
  acc : t.acc = s.acc := by rfl
  handlers : t.handlers = s.handlers := by rfl
  nh : t.nh = s.nh := by rfl

/-- The event queue and the FIFOs are the same. -/
structure SameQueues (s t : State) : Prop where
  cfg : t.cfg = s.cfg := by rfl
  queue : t.queue = s.queue := by rfl
  sif0 : t.sif0 = s.sif0 := by rfl
  sif1 : t.sif1 = s.sif1 := by rfl

/-- The core, the event queue and the FIFOs are the same. -/
structure Unmoved (s t : State) : Prop extends SameCore s t, SameQueues s t

/-- A relation that every update of the core respects, each with the reason a step from `s₀` has to make it: the command it
presents, or the task it runs. -/
structure CoreClosed (s₀ : State) (R : State → State → Prop) : Prop where
  trans : ∀ s t u, R s t → R t u → R s u
  fault : ∀ s k info, R s (takeFault k info s)
  handler : ∀ k, Presents s₀ (.eqReg k) → ∀ s, s.phase = .init → s.nh < s.cfg.maxHandlers → R s (addHandler k s)
  start : Presents s₀ .drvStart → ∀ s, s.phase = .init → R s (s.setPhase .running)
  halt : Presents s₀ .drvHalt → ∀ s, s.phase = .running → R s (s.setPhase .halted)
  advance : ((∃ d, Presents s₀ (.eqAdv d)) ∨ ∃ d rest, s₀.agenda = .advance d :: rest) →
    ∀ s d t, Machine.advance d s = .ok t → R s t
  convert : ((∃ m, Presents s₀ (.clkConv m)) ∨ ∃ m rest, s₀.agenda = .convert m :: rest) →
    ∀ s m, R s (convertState m s)
  count : ∀ rest, s₀.agenda = .tickEnd :: rest → R s₀ { s₀ with tick := s₀.tick + 1 }

/-- A relation that every update of the core, of the queue and of the FIFOs respects. -/
structure StepClosed (s₀ : State) (R : State → State → Prop) : Prop extends CoreClosed s₀ R where
  same : ∀ s t, Unmoved s t → R s t
  sched : ∀ s h ch delay rep period t, schedule h ch delay rep period s = .ok t → R s t
  push : ∀ s d w, (s.fifo d).length < s.cfg.fifoCap → R s (setFifoDrq d (s.fifo d ++ [w]) s)
  pop : ∀ s d w rest, s.fifo d = w :: rest → R s (setFifoDrq d rest s)
  tail : R s₀ (s₀.setQueue s₀.queue.tail)
  take : ∀ e u, firstDue s₀ = some e → takeDue e s₀ = .ok u → R s₀ u

/-- A relation that speaks of the core alone has nothing to ask of the queue and the FIFOs. -/
theorem CoreClosed.stepClosed {s₀ : State} {R : State → State → Prop} (h : CoreClosed s₀ R)
    (same : ∀ s t, SameCore s t → R s t) : StepClosed s₀ R where
  toCoreClosed := h
  same s t e := same s t e.toSameCore
  sched s hd ch delay rep period t e := by
    obtain ⟨_, _, _, rfl⟩ := schedule_ok e
    exact same _ _ {}
  push _ _ _ _ := same _ _ {}
  pop _ _ _ _ _ := same _ _ {}
  tail := same _ _ {}
  take e u _ hu := by
    obtain ⟨q, n, rfl⟩ := takeDue_frame hu
    exact same _ _ {}

/-- A relation that speaks of the queue and the FIFOs alone has nothing to ask of the core. -/
theorem coreClosed_of_sameQueues (s₀ : State) {R : State → State → Prop} (trans : ∀ s t u, R s t → R t u → R s u)
    (same : ∀ s t, SameQueues s t → R s t) : CoreClosed s₀ R where
  trans := trans
  fault _ _ _ := same _ _ {}
  handler _ _ _ _ _ := same _ _ {}
  start _ _ _ := same _ _ {}
  halt _ _ _ := same _ _ {}
  advance _ _ _ _ e := by
    obtain ⟨_, _, rfl⟩ := advance_ok e
    exact same _ _ {}
  convert _ _ _ := same _ _ {}
  count _ _ := same _ _ {}

section
variable {s₀ s t u : State} {R : State → State → Prop}

/-- Taking the next item out of its script moves none of these fields. -/
theorem unmoved_of_popped (h : Popped s u) : Unmoved s u := by
  rcases h with ⟨_, _, _, _, rfl⟩ | ⟨_, _, _, _, _, _, rfl⟩ | ⟨_, _, _, _, rfl⟩ <;> exact {}

/-- A word from a peripheral moves none of these fields (R76). -/
theorem unmoved_periphRead (sd : Side) (c : Chan) (s : State) : Unmoved s (periphRead sd c s).2 := by
  unfold periphRead
  split <;> exact {}

/-- The end of a channel's transfer moves none of these fields (R180). -/
theorem unmoved_complete (sd : Side) (c : Chan) (s : State) : Unmoved s (complete sd c s) := by
  unfold complete evalMaster
  simp only
  split <;> exact {}

theorem StepClosed.burstClosed (h : StepClosed s₀ R) : BurstClosed R where
  refl _ := h.same _ _ {}
  trans := h.trans
  chan _ _ _ _ _ _ := h.same _ _ {}
  mem _ _ _ _ := h.same _ _ {}
  push := h.push
  pop := h.pop
  read s sd c := h.same _ _ (unmoved_periphRead sd c s)
  write _ _ _ _ := h.same _ _ {}
  sched s sd c t _ e := h.sched s _ _ _ _ _ t e
  pend _ _ := h.same _ _ {}

/-- Every command that `s₀` presents respects the relation. -/
theorem StepClosed.commandClosed (h : StepClosed s₀ R) {i : Instr} (hi : Presents s₀ i) : CommandClosed i R where
  toBurstClosed := h.burstClosed
  answer _ _ := h.same _ _ {}
  fault := h.fault
  handler s k e := h.handler k (e ▸ hi) s
  event s _ _ _ _ _ t _ _ _ e := h.sched s _ _ _ _ _ t e
  advance s d t e := h.advance (.inl ⟨d, e ▸ hi⟩) s d.toInt t
  drain _ _ _ := h.same _ _ {}
  convert s m e := h.convert (.inl ⟨m, e ▸ hi⟩) s m.toNat
  start s e := h.start (e ▸ hi) s
  tick _ _ _ _ := h.same _ _ {}
  halt s e hp _ := h.halt (e ▸ hi) s hp
  store _ _ _ _ _ _ _ := h.same _ _ {}
  abort _ _ _ _ _ _ _ _ := h.same _ _ {}
  engine _ _ _ _ _ := h.same _ _ {}
  line _ _ _ _ _ := h.same _ _ {}
  raise _ _ _ := h.same _ _ {}
  mask _ _ _ _ := h.same _ _ {}
  ack _ _ _ _ := h.same _ _ {}
  disable _ _ := h.same _ _ {}
  master _ _ _ _ := h.same _ _ {}

/-- A run that faults is the run up to the fault, then the fault entry (R271). -/
theorem StepClosed.runState (h : StepClosed s₀ R) {r : Run} (e : Ends R s r) : R s (runState r) := by
  cases r with
  | ok t => exact e
  | error t =>
    obtain ⟨u, k, info, hu, rfl⟩ := e
    exact h.trans _ _ _ hu (h.fault u k info)

/-- A channel's event respects the relation (R178). -/
theorem StepClosed.dmaEvent (h : StepClosed s₀ R) (sd : Side) (c : Chan) (s : State) :
    R s (Machine.runState (dmaEvent sd c s)) :=
  h.runState (dmaEvent_ends h.burstClosed sd c s (h.same _ _ (unmoved_complete sd c s)))

/-- The advance of a tick (R145). -/
theorem StepClosed.advanceTask (h : StepClosed s₀ R) {d : Nat} {rest : List Task} (ha : s₀.agenda = .advance d :: rest)
    (s : State) : R s (Machine.runState (Machine.advance d s)) := by
  refine h.runState ?_
  cases e : Machine.advance d s with
  | ok t => exact h.advance (.inr ⟨d, rest, ha⟩) s d t e
  | error t =>
    obtain ⟨k, info, rfl⟩ := advance_error e
    exact ⟨s, k, info, h.same _ _ {}, rfl⟩

/-- One firing of a drain (R118, R119). -/
theorem StepClosed.fired (h : StepClosed s R) {e : Event} (he : firstDue s = some e) (hf : Fired e s t) : R s t := by
  rcases hf with ⟨u, hu, rfl⟩ | ⟨u, hu, hd⟩
  · unfold takeDue at hu
    split at hu
    · obtain ⟨k, info, rfl⟩ := reinsert_error hu
      exact h.trans _ _ _ h.tail (h.fault _ k info)
    · cases hu
  · refine h.trans _ _ _ (h.take e u he hu) ?_
    rcases hd with ⟨_, rfl⟩ | ⟨_, rfl⟩ | ⟨k, g, cmds, _, rfl⟩
    · exact h.dmaEvent .main e.ch u
    · exact h.dmaEvent .sub e.ch u
    · exact h.same _ _ {}

/-- Every step but the reset is made of the updates the relation respects. -/
theorem StepClosed.stepped (h : StepClosed s R) (hn : ¬Resets s) (k : Stepped s t) : R s t := by
  cases k with
  | idle e => exact e ▸ h.same _ _ {}
  | reset _ hr _ _ => exact absurd hr hn
  | store u sp a bytes hu e => exact e ▸ h.trans _ _ _ (h.same _ _ (unmoved_of_popped hu)) (h.same _ _ {})
  | command u c i hu hc hd e =>
    exact h.trans _ _ _ (h.same _ _ (unmoved_of_popped hu)) (exec_related (h.commandClosed ⟨c, hc, hd⟩) e)
  | illegal u c _ hu _ _ e =>
    refine h.trans _ _ _ (h.same _ _ (unmoved_of_popped hu)) (e ▸ ?_)
    unfold illegalCommand
    split
    · exact h.same _ _ {}
    · exact h.fault u _ _
  | begins _ _ _ _ _ _ e => exact e ▸ h.same _ _ {}
  | ends _ _ _ e => exact e ▸ h.same _ _ {}
  | convert m rest ha e => exact e ▸ h.trans _ _ _ (h.convert (.inr ⟨m, rest, ha⟩) s m) (h.same _ _ {})
  | advance d rest ha e => exact e ▸ h.trans _ _ _ (h.same _ _ {}) (h.advanceTask ha _)
  | fires _ _ _ he hf => exact h.fired he hf
  | tickEnd rest ha e => exact e ▸ h.trans _ _ _ (h.count rest ha) (h.same _ _ {})

end

/-! ## The steps that are known whole: the reset, and a command the Host presents -/

section
variable {s t : State}

/-- The reset is the whole of the step that makes it (R290). -/
theorem step_of_resets (h : Resets s) : ∃ rest, s.agents.host = .reset :: rest ∧
    step s = .next (State.initial s.cfg s.mem { s.agents with host := rest }) := by
  obtain ⟨ha, hh⟩ := h
  obtain ⟨rest, hr⟩ := List.head?_eq_some_iff.1 hh
  exact ⟨rest, hr, by simp only [step, ha, runHost, hr, hostAct]; rfl⟩

/-- What the reset leaves (R48). -/
theorem eq_initial_of_resets (h : Resets s) (e : step s = .next t) : ∃ g, t = State.initial s.cfg s.mem g := by
  obtain ⟨rest, _, hstep⟩ := step_of_resets h
  rw [hstep] at e
  exact ⟨_, (Host.Outcome.next.inj e).symm⟩

/-- A step puts the triple it presents to the port, once that triple is out of its script (R100). -/
theorem step_of_presented {c : Command} (h : presented s = some c) : ∃ u, Popped s u ∧ step s = port c u := by
  unfold presented at h
  split at h
  · rename_i sd n c' xs rest ha
    obtain rfl := Option.some.inj h
    exact ⟨_, .inr (.inl ⟨sd, n, _, xs, rest, ha, rfl⟩), by simp [step, ha, runTask, cpuAct]⟩
  · rename_i c' cs rest ha
    obtain rfl := Option.some.inj h
    exact ⟨_, .inr (.inr ⟨_, cs, rest, ha, rfl⟩), by simp [step, ha, runTask]⟩
  · rename_i ha
    split at h
    · rename_i c' rest hh
      obtain rfl := Option.some.inj h
      exact ⟨_, .inl ⟨ha, _, rest, hh, rfl⟩, by simp [step, ha, runHost, hh, hostAct]⟩
    · cases h
  · cases h

/-- A step runs the command it presents (R100). -/
theorem step_of_presents {i : Instr} (h : Presents s i) : ∃ u, Popped s u ∧ step s = exec i u := by
  obtain ⟨c, hc, hd⟩ := h
  obtain ⟨u, hu, e⟩ := step_of_presented hc
  exact ⟨u, hu, by rw [e, port, hd]⟩

/-- A step that presents a command does not reset. -/
theorem not_resets_of_presents {i : Instr} (h : Presents s i) : ¬Resets s := by
  intro hr
  obtain ⟨rest, hh, _⟩ := step_of_resets hr
  obtain ⟨c, hc, _⟩ := h
  simp [presented, hr.1, hh] at hc

/-- A step presents one command at most. -/
theorem presents_unique {i j : Instr} (hi : Presents s i) (hj : Presents s j) : i = j := by
  obtain ⟨c, hc, hd⟩ := hi
  obtain ⟨c', hc', hd'⟩ := hj
  obtain rfl := Option.some.inj (hc.symm.trans hc')
  exact Except.ok.inj (hd.symm.trans hd')

/-- With no work in progress the Host presents the command, and nothing but its script has moved. -/
theorem popped_of_idle (ha : s.agenda = []) (h : Popped s u) : ∃ g, u = s.setAgents g := by
  rcases h with ⟨_, _, _, _, rfl⟩ | ⟨_, _, _, _, _, h, _⟩ | ⟨_, _, _, h, _⟩
  · exact ⟨_, rfl⟩
  all_goals rw [ha] at h; cases h

/-- Between ticks a presented command is the Host's. -/
theorem step_of_host {i : Instr} (hp : Presents s i) (ha : s.agenda = []) : ∃ g, step s = exec i (s.setAgents g) := by
  obtain ⟨u, hu, e⟩ := step_of_presents hp
  obtain ⟨g, rfl⟩ := popped_of_idle ha hu
  exact ⟨g, e⟩

/-- Between ticks the Host is the issuer (R91). -/
theorem issuer_of_idle (ha : s.agenda = []) : s.issuer = .host := by simp [State.issuer, ha]

end

/-! ## Phases and the fault record (R22, R24) -/

/-- What the phase and the fault record of a step from `s₀` do, the reset aside: each change of phase with its cause, and
the record written once, by a fault (R22, R24). -/
structure PhaseMoves (s₀ s t : State) : Prop where
  phase : t.phase = s.phase ∨ (s.phase = .init ∧ t.phase = .running ∧ Presents s₀ .drvStart) ∨
    (s.phase = .running ∧ t.phase = .halted ∧ Presents s₀ .drvHalt) ∨ (t.phase = .faulted ∧ t.fault.isSome = true)
  record : ∀ f, s.fault = some f → t.fault = some f
  written : t.fault ≠ s.fault → s.fault = none ∧ t.phase = .faulted

section
variable {s₀ s t u : State}

theorem PhaseMoves.isSome (h : PhaseMoves s₀ s t) (hs : s.fault.isSome = true) : t.fault.isSome = true := by
  obtain ⟨f, hf⟩ := Option.isSome_iff_exists.1 hs
  rw [h.record f hf]
  rfl

/-- No command and no fault leaves phase Faulted (R22). -/
theorem PhaseMoves.stays_faulted (h : PhaseMoves s₀ s t) (hs : s.phase = .faulted) : t.phase = .faulted := by
  rcases h.phase with e | ⟨e, _⟩ | ⟨e, _⟩ | ⟨e, _⟩
  · exact e.trans hs
  · rw [hs] at e; cases e
  · rw [hs] at e; cases e
  · exact e

theorem PhaseMoves.trans (h : PhaseMoves s₀ s t) (k : PhaseMoves s₀ t u) : PhaseMoves s₀ s u where
  phase := by
    rcases k.phase with e | ⟨hi, hr, hp⟩ | ⟨hr, hh, hp⟩ | e
    · rcases h.phase with e' | ⟨hi, hr, hp⟩ | ⟨hr, hh, hp⟩ | ⟨hf, hs⟩
      · exact .inl (e.trans e')
      · exact .inr (.inl ⟨hi, e.trans hr, hp⟩)
      · exact .inr (.inr (.inl ⟨hr, e.trans hh, hp⟩))
      · exact .inr (.inr (.inr ⟨e.trans hf, k.isSome hs⟩))
    · rcases h.phase with e' | ⟨_, e', _⟩ | ⟨_, e', _⟩ | ⟨e', _⟩
      · exact .inr (.inl ⟨e'.symm.trans hi, hr, hp⟩)
      all_goals rw [hi] at e'; cases e'
    · rcases h.phase with e' | ⟨_, _, hp'⟩ | ⟨_, e', _⟩ | ⟨e', _⟩
      · exact .inr (.inr (.inl ⟨e'.symm.trans hr, hh, hp⟩))
      · cases presents_unique hp hp'
      all_goals rw [hr] at e'; cases e'
    · exact .inr (.inr (.inr e))
  record f hf := k.record f (h.record f hf)
  written hne := by
    by_cases e : t.fault = s.fault
    · obtain ⟨hn, hp⟩ := k.written (e ▸ hne)
      exact ⟨e ▸ hn, hp⟩
    · obtain ⟨hn, hp⟩ := h.written e
      exact ⟨hn, k.stays_faulted hp⟩

/-- With the record kept, only the phase's own clause is left to show. -/
theorem phaseMoves_of_fault (hf : t.fault = s.fault) (hp : t.phase = s.phase ∨
    (s.phase = .init ∧ t.phase = .running ∧ Presents s₀ .drvStart) ∨
    (s.phase = .running ∧ t.phase = .halted ∧ Presents s₀ .drvHalt)) : PhaseMoves s₀ s t where
  phase := hp.imp_right fun h => h.imp_right .inl
  record _ h := hf.trans h
  written h := absurd hf h

theorem phaseMoves_takeFault (s : State) (k : FaultKind) (info : List DWord) : PhaseMoves s₀ s (takeFault k info s) where
  phase := .inr (.inr (.inr ⟨rfl, by simp⟩))
  record f hf := takeFault_fault_of_some s k info f hf
  written hne := by
    refine ⟨?_, rfl⟩
    cases e : s.fault with
    | none => rfl
    | some f => exact absurd ((takeFault_fault_of_some s k info f e).trans e.symm) hne

/-- Every update of the core is one of the moves. -/
theorem phaseMoves_closed (s₀ : State) : StepClosed s₀ (PhaseMoves s₀) :=
  CoreClosed.stepClosed
    { trans := fun _ _ _ => PhaseMoves.trans
      fault := phaseMoves_takeFault
      handler := fun _ _ _ _ _ => phaseMoves_of_fault rfl (.inl rfl)
      start := fun hp _ hi => phaseMoves_of_fault rfl (.inr (.inl ⟨hi, rfl, hp⟩))
      halt := fun hp _ hr => phaseMoves_of_fault rfl (.inr (.inr ⟨hr, rfl, hp⟩))
      advance := fun _ _ _ _ e => by
        obtain ⟨_, _, rfl⟩ := advance_ok e
        exact phaseMoves_of_fault rfl (.inl rfl)
      convert := fun _ _ _ => phaseMoves_of_fault rfl (.inl rfl)
      count := fun _ _ => phaseMoves_of_fault rfl (.inl rfl) }
    fun _ _ e => phaseMoves_of_fault e.fault (.inl e.phase)

/-- The phases and the fault record over a step that does not reset. -/
theorem phaseMoves_step (hn : ¬Resets s) (e : step s = .next t) : PhaseMoves s s t :=
  (phaseMoves_closed s).stepped hn (step_cases e)

/-- DRV.START by the Host in phase Init (R146). -/
theorem phase_of_drvStart (hi : s.phase = .init) (ha : s.agenda = []) (hp : Presents s .drvStart)
    (e : step s = .next t) : t.phase = .running := by
  obtain ⟨g, hs⟩ := step_of_host hp ha
  have hl : legal .drvStart (s.setAgents g) = true := by
    simp [legal, cmdClass, legalPhase, legalIssuer, hi, issuer_of_idle (s := s.setAgents g) ha]
  rw [hs, exec, execDrvStart, issue_accepted _ _ _ hl rfl] at e
  exact Host.Outcome.next.inj e ▸ rfl

/-- DRV.HALT by the Host in phase Running (R147). -/
theorem phase_of_drvHalt (hr : s.phase = .running) (ha : s.agenda = []) (hp : Presents s .drvHalt)
    (e : step s = .next t) : t.phase = .halted := by
  obtain ⟨g, hs⟩ := step_of_host hp ha
  have hl : legal .drvHalt (s.setAgents g) = true := by
    simp [legal, cmdClass, legalPhase, legalIssuer, hr, issuer_of_idle (s := s.setAgents g) ha]
  rw [hs, exec, execDrvHalt, issue_accepted _ _ _ hl rfl] at e
  exact Host.Outcome.next.inj e ▸ rfl

/-- The reset ends in phase Init with no record (R48). -/
theorem phase_of_resets (h : Resets s) (e : step s = .next t) : t.phase = .init ∧ t.fault = none := by
  obtain ⟨g, rfl⟩ := eq_initial_of_resets h e
  exact ⟨rfl, rfl⟩

end

/-- Settles O12. The reset apart, `PhaseMoves` holds over every step, since every update of the machine respects it. -/
theorem phaseTransitions : Obligations.PhaseTransitions := by
  intro s t e
  refine ⟨?_, fun hi ha hp => phase_of_drvStart hi ha hp e, fun hr ha hp => phase_of_drvHalt hr ha hp e,
    fun hne hn => ((phaseMoves_step hn e).written hne).2, fun hr => (phase_of_resets hr e).1⟩
  by_cases hr : Resets s
  · exact .inr (.inr (.inr (.inr ⟨hr, (phase_of_resets hr e).1⟩)))
  · rcases (phaseMoves_step hr e).phase with h | h | h | h
    · exact .inl h
    · exact .inr (.inl h)
    · exact .inr (.inr (.inl h))
    · exact .inr (.inr (.inr (.inl h)))

/-! ## Phase Faulted (R271, R274) -/

/-- Every command but ILLEGAL is a rule behind the checks of R100. -/
theorem exec_eq_issue (i : Instr) :
    (∃ a b, i = .illegal a b) ∨ ∃ rule, ∀ s, exec i s = .next (issue i rule s) := by
  cases i with
  | illegal a b => exact .inl ⟨a, b, rfl⟩
  | _ => exact .inr ⟨_, fun _ => rfl⟩

/-- In phase Faulted a triple that is no command answers none and does nothing (R100). -/
theorem illegalCommand_faulted (c : Command) {s : State} (h : s.phase = .faulted) :
    illegalCommand c s = clearAnswer s := if_pos h

/-- In phase Faulted a command answers none and does nothing (R96, R100). -/
theorem exec_faulted (i : Instr) {s : State} (h : s.phase = .faulted) : exec i s = .next (clearAnswer s) := by
  rcases exec_eq_issue i with ⟨a, b, rfl⟩ | ⟨rule, e⟩
  · exact congrArg Host.Outcome.next (illegalCommand_faulted _ h)
  · rw [e, issue, if_pos h]

/-- Between ticks in phase Faulted a step moves external memory and the agents' own state alone. -/
theorem step_faulted_frame {s t : State} (hf : s.phase = .faulted) (ha : s.agenda = []) (hn : ¬Resets s)
    (k : Stepped s t) : t = { s with mem := t.mem, agents := t.agents, answer := t.answer } := by
  have idle : ∀ {k rest}, s.agenda ≠ k :: rest := fun h => by rw [ha] at h; cases h
  cases k with
  | idle h => exact h ▸ rfl
  | reset _ hr _ _ => exact absurd hr hn
  | store u sp a bytes hu h =>
    obtain ⟨g, rfl⟩ := popped_of_idle ha hu
    rw [h]
    rfl
  | command u c i hu _ _ h =>
    obtain ⟨g, rfl⟩ := popped_of_idle ha hu
    obtain rfl := Host.Outcome.next.inj ((exec_faulted i (s := s.setAgents g) hf).symm.trans h)
    rfl
  | illegal u c _ hu _ _ h =>
    obtain ⟨g, rfl⟩ := popped_of_idle ha hu
    rw [h, illegalCommand_faulted c (s := s.setAgents g) hf]
    rfl
  | begins _ _ _ _ _ h _ | ends _ _ h _ | convert _ _ h _ | advance _ _ h _ | fires _ _ h _ _ | tickEnd _ h _ =>
    exact absurd h idle

/-- Settles O11. -/
theorem faultedMachineIsFrozen : Obligations.FaultedMachineIsFrozen := by
  intro s t e
  refine ⟨fun hr => (phase_of_resets hr e).2, fun hn => ?_⟩
  have moves := phaseMoves_step hn e
  exact ⟨moves.record, moves.written, fun hf ha => step_faulted_frame hf ha hn (step_cases e)⟩

/-! ## The reset (R48, R290) -/

/-- The consumer `a` and the producer `b` of a side and its SIF2 are three channels (R7, R221). -/
theorem sif_ends {p : Params} (hp : p.Valid) (sd : Side) : ∃ a b : Chan,
    (∀ c, (consumes p sd c).isSome = true ↔ c = a) ∧ (∀ c, (produces p sd c).isSome = true ↔ c = b) ∧
    a ≠ b ∧ a ≠ (p.sif sd).sif2 ∧ b ≠ (p.sif sd).sif2 := by
  obtain ⟨_, _, _, _, _, _, _, _, _, _, _, ⟨m01, m02, m12, _⟩, ⟨s01, s02, s12, _⟩, _⟩ := hp
  cases sd with
  | main =>
    exact ⟨p.sifMain.sif0, p.sifMain.sif1, fun c => by simp [consumes], fun c => by simp [produces], m01, m02, m12⟩
  | sub =>
    exact ⟨p.sifSub.sif1, p.sifSub.sif0, fun c => by simp [consumes], fun c => by simp [produces], s01.symm, s12, s02⟩

/-- A consumer is neither SIF2 nor a producer, and a producer is not SIF2 (R7, R221). -/
theorem sif_ends_distinct {p : Params} (hp : p.Valid) (sd : Side) (c : Chan) :
    ((consumes p sd c).isSome = true → c ≠ (p.sif sd).sif2 ∧ (produces p sd c).isSome = false) ∧
    ((produces p sd c).isSome = true → c ≠ (p.sif sd).sif2) := by
  obtain ⟨a, b, hcons, hprod, hab, ha2, hb2⟩ := sif_ends hp sd
  refine ⟨fun h => ?_, fun h => ?_⟩
  · obtain rfl := (hcons c).1 h
    exact ⟨ha2, Bool.eq_false_iff.2 fun h => hab ((hprod c).1 h)⟩
  · obtain rfl := (hprod c).1 h
    exact hb2

/-- A channel that is no end of a FIFO and not SIF2 is no SIF channel (R7, R221). -/
theorem sifChannel_eq_false {p : Params} {sd : Side} {c : Chan} (hc : consumes p sd c = none)
    (hp : produces p sd c = none) (h2 : c ≠ (p.sif sd).sif2) : sifChannel p sd c = false := by
  cases sd <;> simp_all [sifChannel, consumes, produces, Params.sif]

/-- A channel's stored line after reset (R37, R48). -/
theorem initial_line {p : Params} {sd : Side} {c : Chan} (h : sifChannel p sd c = false) :
    (Channel.initial p sd c.toNat).drq = (p.drqReset sd).getLsbD c.toNat := by
  have e : ∀ x y : Chan, (x.toNat == y.toNat) = (x == y) := fun x y => by
    simp [beq_eq_decide, BitVec.toNat_inj]
  have h' : (c.toNat == (p.sif sd).sif0.toNat || c.toNat == (p.sif sd).sif1.toNat ||
      c.toNat == (p.sif sd).sif2.toNat) = false := by rw [e, e, e]; exact h
  simp [Channel.initial, h']

/-- The request lines after reset (R37, R48): a producer's is up and a consumer's down, both FIFOs being empty. -/
theorem initial_drq {p : Params} (hp : p.Valid) (m : Memory) (g : Agents) (sd : Side) (c : Chan) (hc : c.toNat < p.nch sd) :
    drq (State.initial p m g) sd c =
      if c = (p.sif sd).sif2 then false
      else if (produces p sd c).isSome then true
      else if (consumes p sd c).isSome then false
      else (p.drqReset sd).getLsbD c.toNat := by
  obtain ⟨hcons, hprod⟩ := sif_ends_distinct hp sd c
  have hlwm : 0 < p.lwm := by
    obtain ⟨_, _, _, _, _, _, hlwm, _⟩ := hp
    exact hlwm
  have empty : ∀ d, (State.initial p m g).fifo d = [] := fun d => by cases d <;> rfl
  have cfg : (State.initial p m g).cfg = p := rfl
  cases ec : consumes p sd c with
  | some d =>
    obtain ⟨h2, hp'⟩ := hcons (by rw [ec]; rfl)
    simp [drq, cfg, ec, h2, hp', consumerDrq, empty]
  | none =>
    cases ep : produces p sd c with
    | some d => simp [drq, cfg, ec, ep, hprod (by rw [ep]; rfl), producerDrq, empty, hlwm]
    | none =>
      by_cases h2 : c = (p.sif sd).sif2
      · rw [drq, cfg, ec, ep]
        simp only [if_pos h2]
      · have line := initial_line (sifChannel_eq_false ec ep h2)
        simp [drq, cfg, ec, ep, h2, initial_chan p m g sd c hc, line]

/-- The slots of the handler table from 2 on are empty after reset (R27, R48). -/
theorem initial_handlers_empty (p : Params) (m : Memory) (g : Agents) {n : Nat} (hn : 2 ≤ n) :
    (State.initial p m g).handlers.getD n .empty = .empty := by
  obtain ⟨k, rfl⟩ := Nat.exists_eq_add_of_le' hn
  simp only [State.initial, List.getD, List.cons_append, List.nil_append, List.getElem?_cons_succ,
    List.getElem?_replicate]
  split <;> rfl

/-- Settles O13. -/
theorem resetSetsEveryElement : Obligations.ResetSetsEveryElement := by
  intro s rest hp ha hh
  have hr : Resets s := ⟨ha, by rw [hh]; rfl⟩
  obtain ⟨rest', hh', e⟩ := step_of_resets hr
  obtain ⟨-, rfl⟩ := List.cons.inj (hh'.symm.trans hh)
  rw [e]
  generalize { s.agents with host := rest' } = g
  obtain ⟨hlen, -⟩ := initial_handlersOk s.cfg s.mem g hp
  refine ⟨_, rfl, rfl, rfl, rfl, rfl, rfl, rfl, rfl, rfl, hlen, rfl, rfl, fun n => initial_handlers_empty _ _ _, rfl,
    rfl, rfl, fun sd => ?_, rfl, rfl, rfl⟩
  have intc : (State.initial s.cfg s.mem g).intc sd = IntCtl.initial s.cfg sd := by cases sd <;> rfl
  rw [initial_dma, intc]
  refine ⟨by simp [Engine.initial], rfl, rfl, rfl, rfl, rfl, rfl, rfl, fun c hc => ?_⟩
  rw [initial_chan _ _ _ sd c hc]
  exact ⟨rfl, rfl, rfl, rfl, rfl, rfl, initial_drq hp _ _ sd c hc⟩

/-! ## The FIFOs stay within their capacity: R47 (c) -/

/-- The FIFOs are within their capacity at the end if they were at the start. -/
def KeepsFifo (s t : State) : Prop := FifoOk s → FifoOk t

/-- R47 (c) by FIFO. -/
theorem fifoOk_iff {s : State} : FifoOk s ↔ ∀ d, (s.fifo d).length ≤ s.cfg.fifoCap :=
  ⟨fun ⟨h0, h1⟩ d => match d with | .sif0 => h0 | .sif1 => h1, fun h => ⟨h .sif0, h .sif1⟩⟩

/-- New contents of one FIFO, within the capacity (R41). -/
theorem keepsFifo_setFifoDrq {s : State} (d : Dir) {q : List Word} (hq : FifoOk s → q.length ≤ s.cfg.fifoCap) :
    KeepsFifo s (setFifoDrq d q s) := by
  intro h
  refine fifoOk_iff.2 fun x => ?_
  rw [setFifoDrq_fifo]
  by_cases hx : x = d
  · subst hx
    rw [fifo_setFifo_self]
    exact hq h
  · rw [fifo_setFifo_ne s d x q hx]
    exact fifoOk_iff.1 h x

theorem keepsFifo_same {s t : State} (e : SameQueues s t) : KeepsFifo s t := by
  unfold KeepsFifo FifoOk
  rw [e.cfg, e.sif0, e.sif1]
  exact id

/-- A push finds room (R222) and a pop shortens (R223). -/
theorem keepsFifo_closed (s₀ : State) : StepClosed s₀ KeepsFifo where
  toCoreClosed := coreClosed_of_sameQueues s₀ (fun _ _ _ h k hs => k (h hs)) fun _ _ => keepsFifo_same
  same _ _ e := keepsFifo_same e.toSameQueues
  sched s hd ch delay rep period t e := by
    obtain ⟨_, _, _, rfl⟩ := schedule_ok e
    exact id
  push s d w hlt := keepsFifo_setFifoDrq d fun _ => by rw [List.length_append]; exact hlt
  pop s d w rest hq := keepsFifo_setFifoDrq d fun h => by
    have hlen := fifoOk_iff.1 h d
    rw [hq, List.length_cons] at hlen
    omega
  tail := id
  take e u _ hu := by
    obtain ⟨q, n, rfl⟩ := takeDue_frame hu
    exact id

/-- Settles O18. -/
theorem fifoCapacityKept : Obligations.FifoCapacityKept := by
  intro s t h e
  by_cases hr : Resets s
  · obtain ⟨g, rfl⟩ := eq_initial_of_resets hr e
    exact ⟨Nat.zero_le _, Nat.zero_le _⟩
  · exact (keepsFifo_closed s).stepped hr (step_cases e) h

/-! ## The queue stays in order: R47 (a) -/

/-- In key order, with at most one event per handle and channel (R28). -/
def Ordered (q : List Event) : Prop :=
  q.Pairwise (fun e f => f.before e = false) ∧ q.Pairwise fun e f => ¬(e.h = f.h ∧ e.ch = f.ch)

/-- The queue is in order at the end if it was at the start. -/
def KeepsOrder (s t : State) : Prop := Ordered s.queue → Ordered t.queue

theorem Ordered.sublist {p q : List Event} (h : Ordered q) (hp : p.Sublist q) : Ordered p :=
  ⟨h.1.sublist hp, h.2.sublist hp⟩

/-- An event for a pair that is not queued goes to its place (R28, R120). -/
theorem Ordered.insertEvent {q : List Event} (h : Ordered q) {e : Event} (he : ∀ f ∈ q, ¬(f.h = e.h ∧ f.ch = e.ch)) :
    Ordered (insertEvent e q) := ⟨sorted_insertEvent e q h.1, distinct_insertEvent e q h.2 he⟩

/-- No other event of the queue is of the first one's pair. -/
theorem Ordered.first {q : List Event} {e : Event} (h : Ordered (e :: q)) : ∀ f ∈ q, ¬(f.h = e.h ∧ f.ch = e.ch) :=
  fun f hf ⟨hh, hc⟩ => (List.pairwise_cons.1 h.2).1 f hf ⟨hh.symm, hc.symm⟩

theorem keepsOrder_same {s t : State} (e : SameQueues s t) : KeepsOrder s t := by
  unfold KeepsOrder
  rw [e.queue]
  exact id

/-- `Schedule` replaces the pair's event (R114), and a firing event is reinserted once it is gone (R121). -/
theorem keepsOrder_closed (s₀ : State) : StepClosed s₀ KeepsOrder where
  toCoreClosed := coreClosed_of_sameQueues s₀ (fun _ _ _ h k hs => k (h hs)) fun _ _ => keepsOrder_same
  same _ _ e := keepsOrder_same e.toSameQueues
  sched s hd ch delay rep period t e h := by
    obtain ⟨_, _, _, rfl⟩ := schedule_ok e
    exact (h.sublist List.filter_sublist).insertEvent fun f hf => ((mem_removeEvent hd ch s.queue f).1 hf).2
  push _ _ _ _ := id
  pop _ _ _ _ _ := id
  tail h := h.sublist (List.tail_sublist _)
  take e u he hu h := by
    have hq := queue_of_firstDue he
    have htail := h.sublist (List.tail_sublist _)
    rcases takeDue_ok hu with ⟨_, rfl⟩ | ⟨_, _, rfl⟩
    · exact htail
    · exact htail.insertEvent (hq ▸ h).first

/-- Settles O19. -/
theorem queueOrderKept : Obligations.QueueOrderKept := by
  intro s t hs hd e
  by_cases hr : Resets s
  · obtain ⟨g, rfl⟩ := eq_initial_of_resets hr e
    exact ⟨List.Pairwise.nil, List.Pairwise.nil⟩
  · exact (keepsOrder_closed s).stepped hr (step_cases e) ⟨hs, hd⟩

/-! ## The handler table (R27) -/

/-- What the handler table of a step from `s₀` does, the reset aside: EQ.REG alone fills slots, in phase Init, and a filled
slot stays (R27, R111). No update touches the configuration (R7). -/
structure TableMoves (s₀ s t : State) : Prop where
  cfg : t.cfg = s.cfg
  early : t.phase = .init → s.phase = .init
  table : HandlersOk s → HandlersOk t
  grows : s.nh ≤ t.nh
  filled : ∀ n < s.nh, t.handlers.getD n .empty = s.handlers.getD n .empty
  cause : t.handlers ≠ s.handlers ∨ t.nh ≠ s.nh → s.phase = .init ∧ ∃ k, Presents s₀ (.eqReg k)

section
variable {s₀ s t u : State}

theorem TableMoves.trans (h : TableMoves s₀ s t) (k : TableMoves s₀ t u) : TableMoves s₀ s u where
  cfg := k.cfg.trans h.cfg
  early hu := h.early (k.early hu)
  table hs := k.table (h.table hs)
  grows := h.grows.trans k.grows
  filled n hn := (k.filled n (hn.trans_le h.grows)).trans (h.filled n hn)
  cause hne := by
    by_cases hsame : t.handlers = s.handlers ∧ t.nh = s.nh
    · rw [← hsame.1, ← hsame.2] at hne
      obtain ⟨hinit, hk⟩ := k.cause hne
      exact ⟨h.early hinit, hk⟩
    · exact h.cause (not_and_or.1 hsame)

/-- With the table kept, only the phase's clause is left to show. -/
theorem tableMoves_of_same (hc : t.cfg = s.cfg) (hh : t.handlers = s.handlers) (hn : t.nh = s.nh)
    (hp : t.phase = .init → s.phase = .init) : TableMoves s₀ s t where
  cfg := hc
  early := hp
  table := by
    unfold HandlersOk
    rw [hc, hh, hn]
    exact id
  grows := hn.ge
  filled _ _ := by rw [hh]
  cause hne := (hne.elim (absurd hh) (absurd hn))

/-- A slot read after EQ.REG's write (R111). -/
theorem getD_addHandler (k : DWord) (hlt : s.nh < s.handlers.length) (n : Nat) :
    (addHandler k s).handlers.getD n .empty = if n = s.nh then .external k else s.handlers.getD n .empty := by
  rw [addHandler_handlers, List.getD, List.getD, List.getElem?_set]
  by_cases h : n = s.nh
  · simp [h, hlt]
  · simp [h, Ne.symm h]

/-- EQ.REG's write keeps the table's form, when there is room (R27, R111). -/
theorem handlersOk_addHandler (k : DWord) (hn : s.nh < s.cfg.maxHandlers) (h : HandlersOk s) :
    HandlersOk (addHandler k s) := by
  obtain ⟨hlen, h2, _, hslots⟩ := h
  refine ⟨by simpa using hlen, Nat.le_succ_of_le h2, hn, fun n hlt => ?_⟩
  obtain ⟨h0, h1, hfilled, hempty⟩ := hslots n hlt
  rw [getD_addHandler k (hlen ▸ hn), addHandler_nh]
  by_cases e : n = s.nh
  · rw [if_pos e]
    exact ⟨fun _ => by omega, fun _ => by omega, fun _ _ => by simp, fun _ => by omega⟩
  · rw [if_neg e]
    exact ⟨h0, h1, fun hge hlt => hfilled hge (by omega), fun hle => hempty (by omega)⟩

theorem tableMoves_addHandler {k : DWord} (hk : Presents s₀ (.eqReg k)) (hi : s.phase = .init)
    (hn : s.nh < s.cfg.maxHandlers) : TableMoves s₀ s (addHandler k s) where
  cfg := rfl
  early := id
  table := handlersOk_addHandler k hn
  grows := Nat.le_succ _
  filled n hlt := by
    rw [addHandler_handlers, List.getD, List.getD, List.getElem?_set_ne (by omega)]
  cause _ := ⟨hi, k, hk⟩

/-- Every update of the core is one of the moves. -/
theorem tableMoves_closed (s₀ : State) : StepClosed s₀ (TableMoves s₀) :=
  CoreClosed.stepClosed
    { trans := fun _ _ _ => TableMoves.trans
      fault := fun _ _ _ => tableMoves_of_same rfl rfl rfl nofun
      handler := fun _ hk _ => tableMoves_addHandler hk
      start := fun _ _ _ => tableMoves_of_same rfl rfl rfl nofun
      halt := fun _ _ _ => tableMoves_of_same rfl rfl rfl nofun
      advance := fun _ _ _ _ e => by
        obtain ⟨_, _, rfl⟩ := advance_ok e
        exact tableMoves_of_same rfl rfl rfl id
      convert := fun _ _ _ => tableMoves_of_same rfl rfl rfl id
      count := fun _ _ => tableMoves_of_same rfl rfl rfl id }
    fun _ _ e => tableMoves_of_same e.cfg e.handlers e.nh fun h => e.phase.symm.trans h

/-- The table after reset depends on MAX_HANDLERS alone, so that its form needs no more of R7's constraints (R27, R48). -/
theorem initial_handlersOk_of_le (p : Params) (m : Memory) (g : Agents) (h : 2 ≤ p.maxHandlers) :
    HandlersOk (State.initial p m g) :=
  initial_handlersOk { Config.spec with maxHandlers := p.maxHandlers } m g
    (by simp [Params.Valid, Config.spec, SifChannels.Valid, Params.Widths, h])

/-- EQ.REG answers the index of the slot it fills (R111). -/
theorem exec_eqReg_fills {k : DWord} (h : HandlersOk s) (e : exec (.eqReg k) s = .next t) (hne : t.nh ≠ s.nh) :
    t.handlers.getD s.nh .empty = .external k ∧ t.answer = some (BitVec.ofNat 64 s.nh) := by
  obtain rfl := Host.Outcome.next.inj e
  rcases issue_cases (.eqReg k) (registerHandler k) s with ⟨_, e⟩ | ⟨_, _, e⟩ | ⟨_, _, _, e⟩ | ⟨_, _, _, e⟩ <;>
    rw [e] at hne ⊢
  · exact absurd rfl hne
  · exact absurd rfl hne
  · exact absurd rfl hne
  · unfold registerHandler at hne ⊢
    split at hne
    · exact absurd rfl hne
    · rename_i hroom
      obtain ⟨hlen, -⟩ := h
      have hlt : s.nh < s.handlers.length := by
        rw [hlen]
        exact Nat.lt_of_not_le hroom
      rw [if_neg hroom]
      exact ⟨(getD_addHandler (s := clearAnswer s) k hlt s.nh).trans (if_pos rfl), rfl⟩

end

/-- Settles O20. -/
theorem handlersNeverChange : Obligations.HandlersNeverChange := by
  intro s t e
  by_cases hr : Resets s
  · obtain ⟨g, rfl⟩ := eq_initial_of_resets hr e
    refine ⟨rfl, fun ⟨_, h2, hle, _⟩ => initial_handlersOk_of_le _ _ _ (h2.trans hle),
      fun _ hp => ⟨rfl, initial_handlersOk _ _ _ hp⟩, fun k _ hk => absurd hr (not_resets_of_presents hk),
      fun hn => absurd hr hn⟩
  · have moves := (tableMoves_closed s).stepped hr (step_cases e)
    refine ⟨moves.cfg, moves.table, fun h => absurd h hr, fun k hok hk hne => ?_, fun _ => ⟨moves.grows, moves.filled,
      moves.cause⟩⟩
    obtain ⟨u, hu, hstep⟩ := step_of_presents hk
    have same := unmoved_of_popped hu
    have hoku : HandlersOk u := ((tableMoves_closed s).same s u same).table hok
    rw [← same.nh] at hne ⊢
    exact exec_eqReg_fills hoku (hstep.symm.trans e) hne

/-! ## Time, the tick count and the clock remainder (R23, R25, R29) -/

/-- The tick count is the one `s₀` began with, or one more at the end of a tick. -/
def TickCounted (s₀ s : State) : Prop :=
  s.tick = s₀.tick ∨ (s.tick = s₀.tick + 1 ∧ ∃ rest, s₀.agenda = .tickEnd :: rest)

/-- What the counters of a step from `s₀` do, the reset aside: each move with its cause. -/
structure TimeMoves (s₀ s t : State) : Prop where
  now : s.now.toInt ≤ t.now.toInt
  advances : t.now ≠ s.now → (∃ d, Presents s₀ (.eqAdv d)) ∨ ∃ d rest, s₀.agenda = .advance d :: rest
  converts : t.acc ≠ s.acc → (∃ m, Presents s₀ (.clkConv m)) ∨ ∃ m rest, s₀.agenda = .convert m :: rest
  counts : TickCounted s₀ s → TickCounted s₀ t

section
variable {s₀ s t u : State}

theorem TimeMoves.trans (h : TimeMoves s₀ s t) (k : TimeMoves s₀ t u) : TimeMoves s₀ s u where
  now := h.now.trans k.now
  advances hne := by
    by_cases e : t.now = s.now
    · exact k.advances (e ▸ hne)
    · exact h.advances e
  converts hne := by
    by_cases e : t.acc = s.acc
    · exact k.converts (e ▸ hne)
    · exact h.converts e
  counts hc := k.counts (h.counts hc)

/-- With the three counters kept nothing is left to show. -/
theorem timeMoves_of_same (hn : t.now = s.now) (ha : t.acc = s.acc) (ht : t.tick = s.tick) : TimeMoves s₀ s t where
  now := by rw [hn]
  advances hne := absurd hn hne
  converts hne := absurd ha hne
  counts := by
    unfold TickCounted
    rw [ht]
    exact id

/-- `Advance` moves time forward (R117). -/
theorem toInt_now_le_of_advance {d : Int} (e : Machine.advance d s = .ok t) : s.now.toInt ≤ t.now.toInt := by
  obtain ⟨hd, hmax, rfl⟩ := advance_ok e
  have hlow : -2 ^ 63 ≤ s.now.toInt := BitVec.le_toInt s.now
  rw [setNow_now, toInt_i64 _ (by omega) hmax]
  omega

/-- Every update of the core is one of the moves. -/
theorem timeMoves_closed (s₀ : State) : StepClosed s₀ (TimeMoves s₀) :=
  CoreClosed.stepClosed
    { trans := fun _ _ _ => TimeMoves.trans
      fault := fun _ _ _ => timeMoves_of_same rfl rfl rfl
      handler := fun _ _ _ _ _ => timeMoves_of_same rfl rfl rfl
      start := fun _ _ _ => timeMoves_of_same rfl rfl rfl
      halt := fun _ _ _ => timeMoves_of_same rfl rfl rfl
      advance := fun hcause _ _ _ e => by
        have hle := toInt_now_le_of_advance e
        obtain ⟨_, _, rfl⟩ := advance_ok e
        exact ⟨hle, fun _ => hcause, fun hne => absurd rfl hne, id⟩
      convert := fun hcause _ _ => ⟨le_rfl, fun hne => absurd rfl hne, fun _ => hcause, id⟩
      count := fun rest ha =>
        ⟨le_rfl, fun hne => absurd rfl hne, fun hne => absurd rfl hne, fun _ => .inr ⟨rfl, rest, ha⟩⟩ }
    fun _ _ e => timeMoves_of_same e.now e.acc e.tick

/-- The end of a tick counts it (R145). -/
theorem tick_of_tickEnd {rest : List Task} (ha : s.agenda = .tickEnd :: rest) (e : step s = .next t) :
    t.tick = s.tick + 1 := by
  simp only [step, ha, runTask] at e
  exact Host.Outcome.next.inj e ▸ rfl

end

/-- Settles O21. -/
theorem timeMovesOnlyByAdvance : Obligations.TimeMovesOnlyByAdvance := by
  intro s t e
  refine ⟨fun hr => ?_, fun rest ha => tick_of_tickEnd ha e, fun hn => ?_⟩
  · obtain ⟨g, rfl⟩ := eq_initial_of_resets hr e
    exact ⟨rfl, rfl, rfl⟩
  · have moves := (timeMoves_closed s).stepped hn (step_cases e)
    exact ⟨moves.now, moves.advances, fun hne => (moves.counts (.inl rfl)).resolve_left hne, moves.converts⟩

end Sys2Proof.Safety

/-! PROOFS for 10_state.md, the elements: the converter (O35), the reads (O58, O46), memory and addresses (O60), a channel's
completion (O50) and the engine registers' writes (O47). -/

namespace Sys2Proof.Safety

open Sys2Proof.Machine

/-! ## Conversions add up (R29, R141) -/

/-- A quotient and the quotient of what its remainder carries over add up. -/
theorem div_add_mod_add_div {d : Nat} (hd : 0 < d) (x y : Nat) : x / d + (x % d + y) / d = (x + y) / d := by
  conv_rhs => rw [← Nat.div_add_mod x d, Nat.add_assoc, Nat.mul_add_div hd]

/-- The results of a sequence of conversions add up to the whole sum's, and so do the remainders (R141). -/
theorem foldl_convert {s : State} (hd : 0 < s.cfg.iopDen) (ms : List Nat) : ∀ (n a : Nat), a < s.cfg.iopDen →
    ms.foldl (fun (p : Nat × State) m => (p.1 + convertResult m p.2, convertState m p.2)) (n, s.setAcc a) =
      (n + (a + ms.sum * s.cfg.iopNum) / s.cfg.iopDen,
        s.setAcc ((a + ms.sum * s.cfg.iopNum) % s.cfg.iopDen)) := by
  induction ms with
  | nil =>
    intro n a ha
    simp [Nat.div_eq_of_lt ha, Nat.mod_eq_of_lt ha]
  | cons m ms ih =>
    intro n a _
    have sum : a + (m :: ms).sum * s.cfg.iopNum = a + m * s.cfg.iopNum + ms.sum * s.cfg.iopNum := by
      rw [List.sum_cons, Nat.add_mul, Nat.add_assoc]
    rw [List.foldl_cons, sum, ← div_add_mod_add_div hd,
      ← Nat.mod_add_mod (a + m * s.cfg.iopNum), ← Nat.add_assoc]
    exact ih _ _ (Nat.mod_lt _ hd)

/-- Settles O35. -/
theorem conversionExactOverSequence : Obligations.ConversionExactOverSequence := by
  intro ms s _ hacc
  have hd : 0 < s.cfg.iopDen := Nat.zero_lt_of_lt hacc
  have run := foldl_convert hd ms 0 s.acc hacc
  rw [show s.setAcc s.acc = s from rfl, Nat.zero_add] at run
  simp only [run]
  exact ⟨trivial, rfl, Nat.mod_lt _ hd⟩

/-! ## Register reads (R188, R248, R249, R252) -/

/-- The pending line is the level of R43 (R252). -/
theorem pendingLine_iff (s : State) (sd : Side) : pendingLine s sd = true ↔
    ((s.intc sd).stat &&& (s.intc sd).mask) ≠ 0 ∧ (s.intc sd).master = true := by
  rw [pendingLine, Bool.and_eq_true, bne_iff_ne]

/-- A flag as a 64-bit answer (R93). -/
theorem setWidth_flagBit (b : Bool) : (flagBit b).setWidth 64 = if b = true then (1 : DWord) else 0 := by
  cases b <;> rfl

/-- Settles O58. -/
theorem interruptReads : Obligations.InterruptReads := by
  intro sd s q
  have intc : (clearAnswer s).intc sd = q := by cases sd <;> rfl
  refine ⟨fun ⟨hl, hr⟩ => ?_, fun ⟨hl, hr⟩ => ?_, fun ⟨hl, hr⟩ => ?_⟩
  · rw [exec, execIntRstat, issue_accepted _ _ _ hl hr, intc]
    rfl
  · rw [exec, execIntRmask, issue_accepted _ _ _ hl hr, intc]
    rfl
  · rw [exec, execIntPend, issue_accepted _ _ _ hl hr, setWidth_flagBit]
    simp only [pendingLine_iff, intc]
    rfl

/-- A flag in bit `k` of a word. -/
theorem getLsbD_flag (b : Bool) (k n : Nat) :
    ((flagBit b).setWidth 32 <<< k : Word).getLsbD n = (decide (n < 32) && n == k && b) := by
  cases b with
  | false => simp [flagBit]
  | true =>
    rw [show (flagBit true).setWidth 32 = (1 : Word) by decide, getLsbD_bit, Bool.and_true]

/-- DINT_STAT as it is read, bit by bit: the pending flags below `NCH[s]`, and the master flag in bit 31 (R39, R188). -/
theorem dintStatWord_getLsbD {s : State} (hp : s.cfg.Valid) (sd : Side) (n : Nat) :
    (dintStatWord s sd).getLsbD n =
      (((s.dma sd).dintStat.getLsbD n && decide (n < s.cfg.nch sd)) || (n == 31 && masterFlag s sd)) := by
  rw [dintStatWord, BitVec.getLsbD_or, BitVec.getLsbD_and, channelBits_getLsbD _ _ hp, getLsbD_flag]
  by_cases h : n = 31
  · simp [h]
  · simp [beq_eq_false_iff_ne.2 h]

/-- A word with a bit set is not 0. -/
theorem ne_zero_iff_getLsbD (w : Word) : w ≠ 0 ↔ ∃ n, w.getLsbD n = true := by
  constructor
  · intro h
    by_contra hn
    refine h (BitVec.eq_of_getLsbD_eq fun i _ => ?_)
    simpa using fun hi => hn ⟨i, hi⟩
  · rintro ⟨n, hn⟩ rfl
    simp at hn

/-- The master flag is up when it is enabled and a channel's flag is pending and enabled (R39). -/
theorem masterFlag_iff {s : State} (hp : s.cfg.Valid) (sd : Side) : masterFlag s sd = true ↔
    (s.dma sd).dintCtl.getLsbD 31 = true ∧
      ∃ n < s.cfg.nch sd, (s.dma sd).dintStat.getLsbD n = true ∧ (s.dma sd).dintCtl.getLsbD n = true := by
  rw [masterFlag, Bool.and_eq_true, bne_iff_ne, ne_zero_iff_getLsbD]
  simp only [BitVec.getLsbD_and, channelBits_getLsbD _ _ hp, Bool.and_eq_true, decide_eq_true_eq]
  refine and_congr_right fun _ => exists_congr fun n => ?_
  tauto

/-- Settles O46. -/
theorem engineReads : Obligations.EngineReads := by
  intro sd s hp reg ⟨hl, hr⟩
  have dma : (clearAnswer s).dma sd = s.dma sd := by cases sd <;> rfl
  refine ⟨engineReg (clearAnswer s) sd reg, ?_, ?_, ?_, ?_, ?_⟩
  · rw [exec, execDmaRde, issue_accepted _ _ _ hl hr]
    rfl
  · rintro rfl
    rw [engineReg, dma]
  · rintro rfl
    rw [engineReg, dma]
  · rintro rfl
    rw [engineReg, dma]
  · rintro rfl
    have bit := dintStatWord_getLsbD (s := clearAnswer s) hp sd
    simp only [dma, masterFlag_clearAnswer, clearAnswer_cfg] at bit
    have hn := nch_le hp sd
    refine ⟨fun n hlt => ?_, fun n hle hne => ?_, ?_⟩
    · rw [engineReg, bit]
      simp [hlt, show n ≠ 31 by omega]
    · rw [engineReg, bit]
      simp [hne, show ¬n < s.cfg.nch sd by omega]
    · rw [engineReg, bit, ← masterFlag_iff hp]
      simp [show ¬31 < s.cfg.nch sd by omega]

/-! ## Memory words and addresses (R33, R34, R72, R73, R75) -/

/-- The bytes of a word written, the least significant first (R72, R73). -/
theorem readByte_writeWord (m : Memory) (sp : Space) (a : Nat) (w : Word) (h : m.wf = true) {j : Nat} (hj : j < 4) :
    (m.writeWord sp a w).readByte sp (a + j) = w.extractLsb' (8 * j) 8 := by
  have h1 := wf_writeByte m sp a (w.extractLsb' 0 8) h
  have h2 := wf_writeByte _ sp (a + 1) (w.extractLsb' 8 8) h1
  have h3 := wf_writeByte _ sp (a + 2) (w.extractLsb' 16 8) h2
  rw [Memory.writeWord, readByte_writeByte _ sp sp _ _ _ h3, readByte_writeByte _ sp sp _ _ _ h2,
    readByte_writeByte _ sp sp _ _ _ h1, readByte_writeByte m sp sp _ _ _ h]
  interval_cases j <;> simp

/-- The 31 low bits of a word as a number. -/
theorem toNat_low31 (v : Word) : (v &&& 0x7FFFFFFF).toNat = v.toNat % 2 ^ 31 := by
  rw [BitVec.toNat_and, ← Nat.and_two_pow_sub_one_eq_mod]
  rfl

/-- The 24 low bits of a word as a number. -/
theorem toNat_low24 (v : Word) : (v &&& 0x00FFFFFF).toNat = v.toNat % 2 ^ 24 := by
  rw [BitVec.toNat_and, ← Nat.and_two_pow_sub_one_eq_mod]
  rfl

/-- Bit 31 of a word as a number. -/
theorem toNat_bit31 (v : Word) : (v &&& 0x80000000).toNat = 2 ^ 31 * (v.toNat / 2 ^ 31) := by
  have hlt := v.isLt
  rw [BitVec.toNat_and, show (0x80000000 : Word).toNat = 2 ^ 31 from rfl, Nat.and_two_pow, Nat.toNat_testBit,
    Nat.mod_eq_of_lt (by omega), Nat.mul_comm]

/-- Bit 31 is set from `2 ^ 31` on. -/
theorem getLsbD_31_iff (v : Word) : v.getLsbD 31 = true ↔ 2 ^ 31 ≤ v.toNat := by
  rw [← BitVec.msb_eq_getLsbD_last, BitVec.msb_eq_decide, decide_eq_true_eq]

/-- An address and its advance before it is cut to its field, as numbers. -/
theorem toNat_add_ofNat (v : Word) (k : Nat) : (v + BitVec.ofNat 32 k).toNat = (v.toNat + k) % 2 ^ 32 := by
  rw [BitVec.toNat_add, BitVec.toNat_ofNat, Nat.add_mod_mod]

/-- A main-side register's address and space: bit 31 chooses the scratchpad (R33, R75). -/
theorem effectiveAddr_main (p : Params) (v : Word) : effectiveAddr p .main v =
    (if 2 ^ 31 ≤ v.toNat then (.mainSpr, v.toNat % 2 ^ 31 &&& p.sprMask.toNat)
      else (.mainRam, v.toNat % 2 ^ 31 &&& p.mainRamMask.toNat)) := by
  have masked : ∀ mask : Word, (v &&& 0x7FFFFFFF &&& mask).toNat = v.toNat % 2 ^ 31 &&& mask.toNat := fun mask => by
    rw [BitVec.toNat_and, toNat_low31]
  simp only [effectiveAddr, getLsbD_31_iff, masked]

/-- A main-side address keeps bit 31 and wraps in the other 31 (R75). -/
theorem toNat_advanceAddr_main (v : Word) (k : Nat) :
    (advanceAddr .main v k).toNat = v.toNat / 2 ^ 31 * 2 ^ 31 + (v.toNat % 2 ^ 31 + k) % 2 ^ 31 := by
  have low : (v.toNat + k) % 2 ^ 32 % 2 ^ 31 = (v.toNat % 2 ^ 31 + k) % 2 ^ 31 := by omega
  rw [advanceAddr, BitVec.toNat_or, toNat_bit31, toNat_low31, toNat_add_ofNat, low,
    ← Nat.two_pow_add_eq_or_of_lt (Nat.mod_lt _ (by decide)), Nat.mul_comm]

/-- A secondary-side address wraps in 24 bits (R75). -/
theorem toNat_advanceAddr_sub (v : Word) (k : Nat) : (advanceAddr .sub v k).toNat = (v.toNat + k) % 2 ^ 24 := by
  rw [advanceAddr, toNat_low24, toNat_add_ofNat]
  omega

/-- Settles O60. -/
theorem memoryWordsAndAddresses : Obligations.MemoryWordsAndAddresses :=
  ⟨fun m sp a w h => ⟨wf_writeWord m sp a w h, readWord_writeWord_self m sp a w h,
      fun _ hj => readByte_writeWord m sp a w h hj, fun x b hb => readByte_writeWord_frame m sp x a b w h hb⟩,
    fun p v k => ⟨effectiveAddr_main p v, by rw [effectiveAddr, BitVec.toNat_and], toNat_advanceAddr_main v k,
      toNat_advanceAddr_sub v k⟩⟩

/-! ## The end of a transfer (R36, R180, R182) -/

section
variable {s : State} {sd : Side} {c : Chan}

/-- The evaluation of the master flag writes the side's interrupt status alone (R182). -/
theorem evalMaster_eq (sd : Side) (b : Bool) (s : State) : evalMaster sd b s =
    s.setIntc sd { s.intc sd with
      stat := if b = false ∧ masterFlag s sd = true then
        (s.intc sd).stat ||| ((1 : Word) <<< (s.cfg.dmaSrc sd).toNat) else (s.intc sd).stat } := by
  unfold evalMaster
  split
  · rfl
  · cases sd <;> rfl

/-- An engine's own registers do not enter its channels. -/
theorem chan_setDma {e : Engine} (he : e.chans = (s.dma sd).chans) (x : Side) (n : Chan) :
    (s.setDma sd e).chan x n = s.chan x n := by
  unfold State.chan
  by_cases hx : x = sd
  · subst hx
    rw [dma_setDma_self, he]
  · rw [dma_setDma_ne s sd x e hx]

/-- The master flag does not read the interrupt controllers (R39). -/
theorem masterFlag_setIntc (q : IntCtl) (x : Side) : masterFlag (s.setIntc sd q) x = masterFlag s x := by
  cases x <;> rfl

/-- A completion's channel: STR falls and CNT is tracked (R36, R180). -/
def stopChannel (sd : Side) (c : Chan) (s : State) : State :=
  s.setChan sd c
    { s.chan sd c with
      chcr := clearStr sd (s.chan sd c).chcr
      cnt := trackCnt s.cfg sd (s.chan sd c).chcr (s.chan sd c).cnt (s.chan sd c).rem.toNat }

/-- A completion's pending flag (R39, R180). -/
def setFlag (sd : Side) (c : Chan) (s : State) : State :=
  s.setDma sd { s.dma sd with dintStat := (s.dma sd).dintStat ||| ((1 : Word) <<< c.toNat) }

/-- A completion stops the channel, sets its flag and evaluates the master flag (R180, R182). -/
theorem complete_eq (sd : Side) (c : Chan) (s : State) :
    complete sd c s = evalMaster sd (masterFlag s sd) (setFlag sd c (stopChannel sd c s)) := rfl

@[simp] theorem chan_setFlag (x : Side) (n : Chan) : (setFlag sd c s).chan x n = s.chan x n :=
  chan_setDma (by rfl) x n

/-- The completed channel (R180). -/
theorem chan_complete_self (hc : c.toNat < (s.dma sd).chans.length) : (complete sd c s).chan sd c =
    { s.chan sd c with
      chcr := clearStr sd (s.chan sd c).chcr
      cnt := trackCnt s.cfg sd (s.chan sd c).chcr (s.chan sd c).cnt (s.chan sd c).rem.toNat } := by
  rw [complete_eq, evalMaster_eq, setIntc_chan, chan_setFlag, stopChannel, chan_setChan_self s sd c _ hc]

/-- A completion leaves every other channel (R180). -/
theorem chan_complete_ne {x : Side} {n : Chan} (h : (x, n) ≠ (sd, c)) : (complete sd c s).chan x n = s.chan x n := by
  rw [complete_eq, evalMaster_eq, setIntc_chan, chan_setFlag, stopChannel]
  by_cases hx : x = sd
  · subst hx
    exact chan_setChan_ne s x c n _ fun hn => h (by rw [hn])
  · exact chan_setChan_side s sd x c n _ hx

/-- The engine's registers after a completion: one pending flag more (R180). -/
theorem dma_complete (sd : Side) (c : Chan) (s : State) : (complete sd c s).dma sd =
    { s.dma sd with
      chans := ((complete sd c s).dma sd).chans
      dintStat := (s.dma sd).dintStat ||| ((1 : Word) <<< c.toNat) } := by
  rw [complete_eq, evalMaster_eq, setIntc_dma, setFlag, dma_setDma_self]
  simp [stopChannel]

/-- The interrupt controller after a completion: the engine's source is raised when the master flag rises (R182). -/
theorem intc_complete (sd : Side) (c : Chan) (s : State) : (complete sd c s).intc sd =
    { s.intc sd with
      stat := if masterFlag s sd = false ∧ masterFlag (complete sd c s) sd = true then
        (s.intc sd).stat ||| ((1 : Word) <<< (s.cfg.dmaSrc sd).toNat) else (s.intc sd).stat } := by
  rw [complete_eq, evalMaster_eq, masterFlag_setIntc, intc_setIntc_self]
  simp [setFlag, stopChannel]

/-- What a completion leaves alone (R180). -/
theorem complete_frame (sd : Side) (c : Chan) (s : State) :
    let t := complete sd c s
    t.mem = s.mem ∧ t.queue = s.queue ∧ t.sif0 = s.sif0 ∧ t.sif1 = s.sif1 ∧ t.agents = s.agents ∧
      t.now = s.now ∧ t.phase = s.phase ∧ t.pendingStarts = s.pendingStarts := by
  rw [complete_eq, evalMaster_eq]
  exact ⟨rfl, rfl, rfl, rfl, rfl, rfl, rfl, rfl⟩

/-- The STR bit's place in CHCR (R31, R32). -/
def strBit : Side → Nat
  | .main => 8
  | .sub => 24

/-- The STR bit is the one bit that falls (R180). -/
theorem clearStr_eq (sd : Side) (v : Word) : clearStr sd v = v &&& ~~~((1 : Word) <<< strBit sd) := by
  cases sd <;> rfl

theorem clearStr_getLsbD (v : Word) {n : Nat} (h : n ≠ strBit sd) : (clearStr sd v).getLsbD n = v.getLsbD n := by
  rw [clearStr_eq, BitVec.getLsbD_and, BitVec.getLsbD_not, getLsbD_bit, beq_eq_false_iff_ne.2 h]
  by_cases hn : n < 32
  · simp [hn]
  · simp [BitVec.getLsbD_of_ge v n (by omega)]

theorem strOf_clearStr (v : Word) : strOf sd (clearStr sd v) = false := by
  cases sd <;> simp [strOf, clearStr]

/-- With nothing left CNT ends at 0 in the field that tracks the transfer (R36, log 16). -/
theorem trackCnt_zero (p : Params) (sd : Side) (chcr cnt : Word) : trackCnt p sd chcr cnt 0 =
    match sd with
    | .main => cnt &&& 0xFFFF0000
    | .sub =>
      if chainOf .sub chcr then cnt
      else if modeOf .sub chcr = 0 then cnt &&& 0xFFFF0000 else cnt &&& 0x0000FFFF := by
  have none : ∀ n, Machine.ceilDiv 0 n = 0 := fun n => by
    unfold Machine.ceilDiv
    rcases Nat.eq_zero_or_pos n with rfl | h
    · rfl
    · exact Nat.div_eq_of_lt (by omega)
  rw [trackCnt, none]
  cases sd <;> simp [trackGranules, none, setLow16, setHigh16]

end

/-- Settles O50. -/
theorem completionEvent : Obligations.CompletionEvent := by
  intro sd c s hp hlen hc hpend hact hrem hend ch cnt
  have hchan := chan_complete_self (s := s) (hlen ▸ hc)
  rw [hrem, show (0 : Word).toNat = 0 from rfl, trackCnt_zero] at hchan
  obtain ⟨hmem, hqueue, h0, h1, hagents, hnow, hphase, hpend'⟩ := complete_frame sd c s
  have hev : dmaEvent sd c s = .ok (complete sd c s) := by
    rw [dmaEvent, if_neg (by rw [hact]; decide), if_pos ⟨hrem, hend⟩]
    exact processPendingStarts_nil (hpend'.trans hpend)
  have hdma := dma_complete sd c s
  have hintc := intc_complete sd c s
  refine ⟨_, hev, ?_, ?_, fun n hn => ?_, fun _ _ => chan_complete_ne, fun n => ?_, by rw [hdma], by rw [hdma],
    by rw [hdma], by rw [hintc], by rw [hintc], by rw [hintc], hmem, hqueue, h0, h1, hagents, hnow, hphase,
    hpend'.trans hpend⟩
  · rw [active, hchan, strOf_clearStr]
  · rw [hchan]
    cases sd <;> rfl
  · rw [hchan]
    exact clearStr_getLsbD _ (by cases sd <;> exact hn)
  · have hc' := nch_le hp sd
    rw [hdma, BitVec.getLsbD_or, getLsbD_bit]
    by_cases h : n = c.toNat
    · simp [h, show c.toNat < 32 by omega]
    · simp [beq_eq_false_iff_ne.2 h]

/-! ## Engine register writes (R185, R186) -/

section
variable {s t : State} {sd : Side}

/-- With no gate of a Waiting channel open ReEvaluate changes nothing (R186). -/
theorem reEvaluate_still (hp : s.cfg.Valid)
    (h : ∀ c : Chan, c.toNat < s.cfg.nch sd → running s sd c = true ∨ gate s sd c = false) :
    reEvaluate sd s = .ok s := by
  rw [forall_chan_iff hp sd fun c => running s sd c = true ∨ gate s sd c = false] at h
  exact reEvaluateFrom_still sd _ 0 s fun k _ hk => h k (by omega)

/-- With one gate of a Waiting channel open ReEvaluate is that channel's burst (R186), which for a normal-mode channel fetches
no tag (R172). -/
theorem reEvaluate_burst (hp : s.cfg.Valid) {c : Chan} (hc : c.toNat < s.cfg.nch sd) (hr : running s sd c = false)
    (hg : gate s sd c = true)
    (ho : ∀ c' : Chan, c'.toNat < s.cfg.nch sd → c' ≠ c → running s sd c' = true ∨ gate s sd c' = false)
    (hch : chained s sd c = false) : reEvaluate sd s = burstBody sd c s := by
  have hn := nch_le hp sd
  rw [reEvaluate, reEvaluateFrom_one _ (by omega) hc hr hg ho, burstStep_unchained hch]

/-- A channel whose gate is open exists (R30, R170). -/
theorem lt_length_of_gate {c : Chan} (hg : gate s sd c = true) : c.toNat < (s.dma sd).chans.length := by
  simp only [gate, Bool.and_eq_true] at hg
  exact chan_exists_of_active s sd c hg.1.1.1

/-- DMA.WRE ends with what its register write sets off when that defers no start (R185). -/
theorem exec_dmaWre {reg : EngReg} {v : Word} (ha : Accepted (.dmaWre sd reg v) s)
    (h : storeEngReg sd reg v (clearAnswer s) = .ok t) (hp : t.pendingStarts = []) :
    exec (.dmaWre sd reg v) s = .next t := by
  rw [exec, execDmaWre, issue_accepted _ _ _ ha.1 ha.2, writeEngine, h]
  exact congrArg (fun r => Host.Outcome.next (Machine.runState r)) (processPendingStarts_nil hp)

end

/-- Settles O47. -/
theorem engineWrites : Obligations.EngineWrites := by
  intro sd reg v s hp ha hpend e m stored raised still ends
  have hraised : ∀ x, (raised x).pendingStarts = [] := fun x => by
    simp only [raised]
    split <;> exact hpend
  refine ⟨fun t ht => ?_, fun hreg => ?_, fun hreg => ?_⟩
  · have hstore : storeEngReg sd reg v (clearAnswer s) = reEvaluate sd t := by
      rcases ht with ⟨rfl, rfl⟩ | ⟨rfl, rfl⟩ <;> rfl
    obtain ⟨hcfg, hagents, hnow, hpend'⟩ : t.cfg = s.cfg ∧ t.agents = s.agents ∧ t.now = s.now ∧ t.pendingStarts = [] := by
      rcases ht with ⟨_, rfl⟩ | ⟨_, rfl⟩ <;> exact ⟨rfl, rfl, rfl, hpend⟩
    rw [← hcfg] at hp
    refine ⟨fun hstill => ?_, fun c hc hr hg ho hch hf hn => ⟨fun hm => ?_, fun ws rest hm hin hlen => ?_⟩⟩
    · exact exec_dmaWre ha (hstore.trans (reEvaluate_still hp (by rwa [hcfg]))) hpend'
    all_goals
      rw [← hcfg] at hc ho hf hn
      have hburst := hstore.trans (reEvaluate_burst hp hc hr hg ho hch)
    · refine exec_dmaWre ha (hburst.trans ?_) hpend'
      rw [← hcfg]
      exact burstBody_gives sd c t hm hf (lt_length_of_gate hg) hr (hnow ▸ hn)
    · refine exec_dmaWre ha (hburst.trans ?_) hpend'
      rw [← hcfg] at hlen
      rw [← hagents] at hin
      exact burstBody_takes sd c t ws rest hm hf (lt_length_of_gate hg) hr (hnow ▸ hn) hin hlen
  · subst hreg
    exact exec_dmaWre ha rfl (hraised _)
  · subst hreg
    exact exec_dmaWre ha rfl (hraised _)

end Sys2Proof.Safety

/-! PROOFS for 20_memory.md: a burst writes only its own side's memory (O24), whether it ends or faults. -/

namespace Sys2Proof.Safety

open Sys2Proof.Machine

/-! ## The memory of a side (R70) -/

/-- The side whose channels reach a space (R70). -/
def sideOfSpace : Space → Side
  | .mainRam => .main
  | .mainSpr => .main
  | .subRam => .sub

/-- A channel's address lies in a space of its own side (R33, R34, R70). -/
theorem sideOfSpace_effectiveAddr (p : Params) (sd : Side) (v : Word) :
    sideOfSpace (effectiveAddr p sd v).1 = sd := by
  cases sd with
  | main =>
    simp only [effectiveAddr]
    split <;> rfl
  | sub => rfl

/-- Every space the other side's channels reach holds in `t` what it holds in `s`. -/
def OtherSideKept (sd : Side) (s t : State) : Prop :=
  ∀ sp, sideOfSpace sp ≠ sd → t.mem.cells sp = s.mem.cells sp

theorem OtherSideKept.trans {sd : Side} (s t u : State) (h : OtherSideKept sd s t) (k : OtherSideKept sd t u) :
    OtherSideKept sd s u := fun sp hsp => (k sp hsp).trans (h sp hsp)

/-- An update that leaves memory alone. -/
theorem otherSideKept_of_mem {sd : Side} {s t : State} (h : t.mem = s.mem) : OtherSideKept sd s t :=
  fun sp _ => congrArg (·.cells sp) h

/-- A byte write leaves the other spaces alone. -/
theorem cells_writeByte_ne {m : Memory} {sp x : Space} {a : Nat} {v : Byte} (h : x ≠ sp) :
    (m.writeByte sp a v).cells x = m.cells x := cells_setCells_ne m sp x _ h

/-- A word write leaves the other spaces alone. -/
theorem cells_writeWord_ne {m : Memory} {sp x : Space} {a : Nat} {w : Word} (h : x ≠ sp) :
    (m.writeWord sp a w).cells x = m.cells x := by
  simp only [Memory.writeWord, cells_writeByte_ne h]

/-- A word written at a channel's address lands on the channel's side (R70). -/
theorem otherSideKept_writeWord (p : Params) (sd : Side) (v w : Word) (s : State) :
    OtherSideKept sd s
      (s.setMem (s.mem.writeWord (effectiveAddr p sd v).1 (effectiveAddr p sd v).2 w)) := by
  intro sp hsp
  refine cells_writeWord_ne fun h => hsp ?_
  rw [h, sideOfSpace_effectiveAddr]

/-! ## The stages of a burst (R172 to R177) -/

@[simp] theorem periphRead_mem (s : State) (sd : Side) (c : Chan) : (periphRead sd c s).2.mem = s.mem := by
  unfold periphRead
  split <;> rfl

/-- Taking a word writes no memory (R174). -/
theorem takeWord_mem {sd : Side} {c : Chan} {s t : State} {w : Word} (e : takeWord sd c s = .ok (w, t)) :
    t.mem = s.mem := by
  unfold takeWord at e
  split at e
  · obtain ⟨rest, _, rfl⟩ := fifoPop_ok e
    exact setFifoDrq_mem ..
  · have ht : t = (periphRead sd c s).2 := by rw [Except.ok.inj e]
    exact ht ▸ periphRead_mem s sd c

/-- Giving a word writes no memory (R174). -/
theorem giveWord_otherSideKept (x sd : Side) (c : Chan) (w : Word) (s : State) :
    Ends (OtherSideKept x) s (giveWord sd c w s) := by
  unfold giveWord
  split
  · rename_i d _
    cases e : fifoPush d w s with
    | ok t =>
      obtain ⟨_, rfl⟩ := fifoPush_ok e
      exact otherSideKept_of_mem (setFifoDrq_mem ..)
    | error t => exact ⟨s, _, _, otherSideKept_of_mem rfl, (fifoPush_error e).2⟩
  · exact otherSideKept_of_mem rfl

/-- A word moved is written at its channel's address or read from it (R174). -/
theorem moveWord_otherSideKept (sd : Side) (c : Chan) (s : State) :
    Ends (OtherSideKept sd) s (moveWord sd c s) := by
  unfold moveWord
  simp only
  split
  · split
    · rename_i t e
      obtain ⟨k, info, rfl⟩ := takeWord_faults e
      exact ⟨s, k, info, otherSideKept_of_mem rfl, rfl⟩
    · rename_i w t e
      exact OtherSideKept.trans s t _ (otherSideKept_of_mem (takeWord_mem e)) (otherSideKept_writeWord s.cfg sd _ w t)
  · have g := giveWord_otherSideKept sd sd c (s.mem.readWord (effectiveAddr s.cfg sd (s.chan sd c).madr).1
      (effectiveAddr s.cfg sd (s.chan sd c).madr).2) s
    split <;> rename_i t e <;> rw [e] at g <;> exact g

/-- A burst's words (R172). -/
theorem moveWords_otherSideKept (sd : Side) (c : Chan) (n : Nat) (s : State) :
    Ends (OtherSideKept sd) s (moveWords sd c n s) := by
  induction n generalizing s with
  | zero => exact otherSideKept_of_mem rfl
  | succ n ih =>
    have m := moveWord_otherSideKept sd c s
    unfold moveWords
    split <;> rename_i t e <;> rw [e] at m
    · exact m
    · exact Ends.trans OtherSideKept.trans m (ih t)

/-- A tag fetch reads memory and writes channel registers only, up to whichever check fails (R176, R177). -/
theorem tagFetch_otherSideKept (x sd : Side) (c : Chan) (s : State) :
    Ends (OtherSideKept x) s (tagFetch sd c s) := by
  have keeps (ch : Channel) : OtherSideKept x s (s.setChan sd c ch) := otherSideKept_of_mem rfl
  cases sd with
  | main =>
    simp only [tagFetch, tagFetchMain]
    split
    · exact ends_channelFault _ _ _ (otherSideKept_of_mem rfl)
    · split
      · exact ends_channelFault _ _ _ (keeps _)
      · split
        · exact ends_channelFault _ _ _ (keeps _)
        · exact keeps _
  | sub =>
    simp only [tagFetch, tagFetchSub]
    split
    · exact ends_channelFault _ _ _ (otherSideKept_of_mem rfl)
    · split
      · exact ends_channelFault _ _ _ (otherSideKept_of_mem rfl)
      · exact keeps _

/-- The event at a burst's end is queued, or faults, with memory as it stands (R113, R175). -/
theorem schedule_otherSideKept (x : Side) (h : Handle) (ch : Chan) (delay : Int) (rep : Bool) (period : Int)
    (s : State) : Ends (OtherSideKept x) s (schedule h ch delay rep period s) := by
  cases e : schedule h ch delay rep period s with
  | ok t =>
    obtain ⟨_, _, _, rfl⟩ := schedule_ok e
    exact otherSideKept_of_mem rfl
  | error t =>
    obtain ⟨k, info, rfl⟩ := schedule_error e
    exact ⟨s, k, info, otherSideKept_of_mem rfl, rfl⟩

/-! ## The whole burst -/

/-- A burst's three stages, the tag, the words and the event (R172), each keep the other side's memory. -/
theorem burstStep_otherSideKept (sd : Side) (c : Chan) (s : State) :
    Ends (OtherSideKept sd) s (burstStep sd c s) := by
  have fetch : Ends (OtherSideKept sd) s (fetchIfNeeded sd c s) := by
    unfold fetchIfNeeded
    split
    · exact tagFetch_otherSideKept sd sd c s
    · exact otherSideKept_of_mem rfl
  refine Ends.bind OtherSideKept.trans fetch fun t _ => ?_
  refine Ends.bind OtherSideKept.trans (moveWords_otherSideKept sd c _ t) fun u _ => ?_
  have counted : OtherSideKept sd u (countWords sd c (burstSize sd c t) u) := otherSideKept_of_mem rfl
  exact Ends.trans OtherSideKept.trans counted (schedule_otherSideKept ..)

/-- The fault entry writes no memory (R271), so a run that faults keeps what it kept up to the fault. -/
theorem otherSideKept_of_ends {sd : Side} {s t : State} {r : Run} (h : Ends (OtherSideKept sd) s r)
    (e : r = .ok t ∨ r = .error t) : OtherSideKept sd s t := by
  rcases e with rfl | rfl
  · exact h
  · obtain ⟨u, k, info, hu, rfl⟩ := h
    exact hu

/-- Settles O24: `burstStep_otherSideKept` read off at each space of the other side. -/
theorem burstStaysOnItsSide : Obligations.BurstStaysOnItsSide := by
  intro c s t
  constructor
  · intro e
    exact otherSideKept_of_ends (burstStep_otherSideKept .main c s) e .subRam (by decide)
  · intro e
    have kept := otherSideKept_of_ends (burstStep_otherSideKept .sub c s) e
    exact ⟨kept .mainRam (by decide), kept .mainSpr (by decide)⟩

end Sys2Proof.Safety

/-! PROOFS for 30_encoding.md: the encoder and the decoder are inverses (O1, O2, O3), so a triple with a must-be-zero bit set
spells no command (O4); then what the command port checks before a command's rule (O5 to O10), and the register writes that
DMA.WR refuses (O39). -/

namespace Sys2Proof

/-! ## A select or value inside a wider word (R92, R94) -/

/-- A word whose high bits are 0 is its low bits widened. -/
theorem setWidth_low_of_high {w k n : Nat} (hw : w = k + n) {x : BitVec w} (h : x.extractLsb' k n = 0) :
    (x.extractLsb' 0 k).setWidth w = x := by
  apply BitVec.eq_of_getLsbD_eq
  intro i hi
  by_cases hk : i < k
  · simp [hi, hk]
  · have bit := congrArg (·.getLsbD (i - k)) h
    simp only [BitVec.getLsbD_extractLsb', show i - k < n by omega, show k + (i - k) = i by omega] at bit
    simpa [hk] using bit.symm

/-- The low bits of a widened word are the word. -/
theorem low_setWidth {w k : Nat} (hw : k ≤ w) (x : BitVec k) : (x.setWidth w).extractLsb' 0 k = x := by
  rw [BitVec.extractLsb'_setWidth_of_le (by omega), BitVec.extractLsb'_eq_self]

/-- The bits a word is widened by are 0. -/
theorem high_setWidth {w k n : Nat} (x : BitVec k) : (x.setWidth w).extractLsb' k n = 0 := by
  apply BitVec.eq_of_getLsbD_eq
  intro i _
  simp

/-! ## The one spelling of what decodes (R92, R94, R97) -/

section
variable {f : Fields}

theorem fields_of_formN (h : f.formN = true) : ⟨f.opc, 0, 0, 0, 0⟩ = f := by
  obtain ⟨opc, s, r, x, imm⟩ := f
  simp_all [Fields.formN]

theorem fields_of_formE (h : f.formE = true) : ⟨f.opc, 0, flagBit (flagOf f.r), f.x, f.imm⟩ = f := by
  obtain ⟨opc, s, r, x, imm⟩ := f
  simp_all [Fields.formE]

theorem fields_of_formQ (h : f.formQ = true) : ⟨f.opc, 0, 0, f.x, f.imm⟩ = f := by
  obtain ⟨opc, s, r, x, imm⟩ := f
  simp_all [Fields.formQ]

theorem fields_of_formD (h : f.formD = true) : ⟨f.opc, sideBit (sideOf f.s), 0, f.x,
    (chanRegBits (chanRegOf (f.imm.extractLsb' 0 3))).setWidth 16⟩ = f := by
  obtain ⟨opc, s, r, x, imm⟩ := f
  simp only [Fields.formD, Bool.and_eq_true, beq_iff_eq] at h
  simp [h.1, setWidth_low_of_high rfl h.2]

theorem fields_of_formDQ (h : f.formDQ = true) : ⟨f.opc, sideBit (sideOf f.s), 0, f.x, 0⟩ = f := by
  obtain ⟨opc, s, r, x, imm⟩ := f
  simp_all [Fields.formDQ]

theorem fields_of_formC (h : f.formC = true) : ⟨f.opc, sideBit (sideOf f.s), 0, 0,
    (engRegBits (engRegOf (f.imm.extractLsb' 0 2))).setWidth 16⟩ = f := by
  obtain ⟨opc, s, r, x, imm⟩ := f
  simp only [Fields.formC, Bool.and_eq_true, beq_iff_eq] at h
  simp [h.1, setWidth_low_of_high rfl h.2]

/-- Format `F`, whose `S` is a FIFO. -/
theorem fields_of_formF (h : f.formF = true) : ⟨f.opc, dirBit (dirOf f.s), 0, 0, 0⟩ = f := by
  obtain ⟨opc, s, r, x, imm⟩ := f
  simp_all [Fields.formF]

/-- Format `I`, whose `S` is a side. -/
theorem fields_of_formI (h : f.formF = true) : ⟨f.opc, sideBit (sideOf f.s), 0, 0, 0⟩ = f := by
  obtain ⟨opc, s, r, x, imm⟩ := f
  simp_all [Fields.formF]

theorem fields_of_formIR (h : f.formIR = true) : ⟨f.opc, sideBit (sideOf f.s), 0, 0,
    (f.imm.extractLsb' 0 5).setWidth 16⟩ = f := by
  obtain ⟨opc, s, r, x, imm⟩ := f
  simp only [Fields.formIR, Bool.and_eq_true, beq_iff_eq] at h
  simp [h.1, setWidth_low_of_high rfl h.2]

end

section
variable {c : Command}

theorem operands_of_noOperand (h : c.noOperand = true) : 0 = c.a ∧ 0 = c.b := by
  simp only [Command.noOperand, Bool.and_eq_true, beq_iff_eq] at h
  exact ⟨h.1.symm, h.2.symm⟩

theorem operands_of_onlyA (h : c.onlyA = true) : c.a = c.a ∧ 0 = c.b :=
  ⟨rfl, (beq_iff_eq.1 h).symm⟩

theorem operands_of_wordA (h : c.wordA = true) : c.word.setWidth 64 = c.a ∧ 0 = c.b := by
  simp only [Command.wordA, Bool.and_eq_true, beq_iff_eq] at h
  exact ⟨setWidth_low_of_high rfl h.1, h.2.symm⟩

theorem operands_of_bitA (h : c.bitA = true) :
    (flagBit (flagOf (c.a.extractLsb' 0 1))).setWidth 64 = c.a ∧ 0 = c.b := by
  simp only [Command.bitA, Bool.and_eq_true, beq_iff_eq] at h
  rw [flagBit_flagOf]
  exact ⟨setWidth_low_of_high rfl h.1, h.2.symm⟩

/-- `c` is the one spelling of `i`, which is a command. -/
def Spells (c : Command) (i : Instr) : Prop := encode i = c ∧ WellFormed i = true

/-- A command is known by its operation code, the other fields of its word and its operands. -/
theorem command_eq {n : BitVec 8} {s r : BitVec 1} {x : Chan} {imm : BitVec 16} {a b : DWord}
    (hn : (splitWord c.cmd).opc.toNat = n.toNat) (hf : ⟨(splitWord c.cmd).opc, s, r, x, imm⟩ = splitWord c.cmd)
    (hab : a = c.a ∧ b = c.b) : (⟨joinWord ⟨n, s, r, x, imm⟩, a, b⟩ : Command) = c := by
  rw [← BitVec.eq_of_toNat_eq hn, hf, joinWord_splitWord, hab.1, hab.2]

/-- A row of R98 whose checks leave the word and the operands one spelling each. -/
theorem spells_of_row {word operand : Bool} {i j : Instr} {n : BitVec 8} {s r : BitVec 1} {x : Chan} {imm : BitVec 16}
    {a b : DWord} (h : accept word operand i = .ok j) (hn : (splitWord c.cmd).opc.toNat = n.toNat)
    (hf : word = true → ⟨(splitWord c.cmd).opc, s, r, x, imm⟩ = splitWord c.cmd)
    (hab : operand = true → a = c.a ∧ b = c.b) (hi : encode i = ⟨joinWord ⟨n, s, r, x, imm⟩, a, b⟩)
    (hwf : operand = true → WellFormed i = true) : Spells c j := by
  obtain ⟨hw, ho, rfl⟩ := accept_eq_ok.1 h
  exact ⟨hi.trans (command_eq hn (hf hw) (hab ho)), hwf ho⟩

/-- What decodes is the one spelling of its command: the rows of R98, in their order. -/
theorem spells_of_decode {i : Instr} (h : decode c = .ok i) : Spells c i := by
  unfold decode at h
  dsimp only at h
  split at h
  · split at h
    · rename_i hn hw
      cases h
      exact ⟨command_eq (n := 0) hn (fields_of_formN hw) ⟨rfl, rfl⟩, rfl⟩
    · cases h
  · exact spells_of_row h ‹_› fields_of_formN operands_of_onlyA rfl fun _ => rfl
  · exact spells_of_row h ‹_› fields_of_formE (fun _ => ⟨rfl, rfl⟩) rfl id
  · exact spells_of_row h ‹_› fields_of_formE (fun _ => ⟨rfl, rfl⟩) rfl id
  · exact spells_of_row h ‹_› fields_of_formN operands_of_noOperand rfl fun _ => rfl
  · exact spells_of_row h ‹_› fields_of_formN operands_of_onlyA rfl fun _ => rfl
  · exact spells_of_row h ‹_› fields_of_formN operands_of_noOperand rfl fun _ => rfl
  · exact spells_of_row h ‹_› fields_of_formQ operands_of_noOperand rfl fun _ => rfl
  · exact spells_of_row h ‹_› fields_of_formN operands_of_onlyA rfl fun _ => rfl
  · exact spells_of_row h ‹_› fields_of_formN operands_of_onlyA rfl fun _ => rfl
  · exact spells_of_row h ‹_› fields_of_formN operands_of_noOperand rfl fun _ => rfl
  · exact spells_of_row h ‹_› fields_of_formN operands_of_wordA rfl fun _ => rfl
  · exact spells_of_row h ‹_› fields_of_formN operands_of_noOperand rfl fun _ => rfl
  · exact spells_of_row h ‹_› fields_of_formD operands_of_wordA rfl fun _ => rfl
  · exact spells_of_row h ‹_› fields_of_formD operands_of_noOperand rfl fun _ => rfl
  · exact spells_of_row h ‹_› fields_of_formC operands_of_wordA rfl fun _ => rfl
  · exact spells_of_row h ‹_› fields_of_formC operands_of_noOperand rfl fun _ => rfl
  · exact spells_of_row h ‹_› fields_of_formDQ operands_of_bitA rfl fun _ => rfl
  · exact spells_of_row h ‹_› fields_of_formF operands_of_wordA rfl fun _ => rfl
  · exact spells_of_row h ‹_› fields_of_formF operands_of_noOperand rfl fun _ => rfl
  · exact spells_of_row h ‹_› fields_of_formF operands_of_noOperand rfl fun _ => rfl
  · exact spells_of_row h ‹_› fields_of_formIR operands_of_noOperand rfl fun _ => rfl
  · exact spells_of_row h ‹_› fields_of_formI operands_of_wordA rfl fun _ => rfl
  · exact spells_of_row h ‹_› fields_of_formI operands_of_wordA rfl fun _ => rfl
  · exact spells_of_row h ‹_› fields_of_formI operands_of_noOperand rfl fun _ => rfl
  · exact spells_of_row h ‹_› fields_of_formI operands_of_noOperand rfl fun _ => rfl
  · exact spells_of_row h ‹_› fields_of_formI operands_of_noOperand rfl fun _ => rfl
  · exact spells_of_row h ‹_› fields_of_formI operands_of_wordA rfl fun _ => rfl
  · exact spells_of_row h ‹_› fields_of_formI operands_of_noOperand rfl fun _ => rfl
  · cases h

end

/-! ## Decoding what encodes (R92, R94, R97) -/

section
variable (opc : BitVec 8) (s r : BitVec 1) (x : Chan) (imm : BitVec 16)

@[simp] theorem formN_accepts : (⟨opc, 0#1, 0#1, 0#6, 0#16⟩ : Fields).formN = true := rfl
@[simp] theorem formE_accepts : (⟨opc, 0#1, r, x, imm⟩ : Fields).formE = true := rfl
@[simp] theorem formQ_accepts : (⟨opc, 0#1, 0#1, x, imm⟩ : Fields).formQ = true := rfl
@[simp] theorem formDQ_accepts : (⟨opc, s, 0#1, x, 0#16⟩ : Fields).formDQ = true := rfl
@[simp] theorem formF_accepts : (⟨opc, s, 0#1, 0#6, 0#16⟩ : Fields).formF = true := rfl
@[simp] theorem formD_accepts (k : BitVec 3) : (⟨opc, s, 0#1, x, k.setWidth 16⟩ : Fields).formD = true := by
  simp [Fields.formD, high_setWidth]
@[simp] theorem formC_accepts (k : BitVec 2) : (⟨opc, s, 0#1, 0#6, k.setWidth 16⟩ : Fields).formC = true := by
  simp [Fields.formC, high_setWidth]
@[simp] theorem formIR_accepts (k : BitVec 5) : (⟨opc, s, 0#1, 0#6, k.setWidth 16⟩ : Fields).formIR = true := by
  simp [Fields.formIR, high_setWidth]

end

section
variable (cmd : Word) (a : DWord)

@[simp] theorem noOperand_accepts : (⟨cmd, 0#64, 0#64⟩ : Command).noOperand = true := rfl
@[simp] theorem onlyA_accepts : (⟨cmd, a, 0#64⟩ : Command).onlyA = true := rfl
@[simp] theorem wordA_accepts (v : Word) : (⟨cmd, v.setWidth 64, 0#64⟩ : Command).wordA = true := by
  simp [Command.wordA, high_setWidth]
@[simp] theorem bitA_accepts (k : BitVec 1) : (⟨cmd, k.setWidth 64, 0#64⟩ : Command).bitA = true := by
  simp [Command.bitA, high_setWidth]
@[simp] theorem word_of_setWidth (b : DWord) (v : Word) : (⟨cmd, v.setWidth 64, b⟩ : Command).word = v :=
  low_setWidth (by decide) v

end

/-- A well-formed command's word passes its format's check and its operands theirs, and the decoder's row for its operation
code reads back the fields that were put in. -/
theorem decode_encode {i : Instr} (h : WellFormed i = true) : decode (encode i) = .ok i := by
  cases i with
  | eqSched rep _ _ _ period | eqSchedSub rep _ _ _ period =>
    have hb : periodMatches rep period = true := h
    simp [encode, decode, accept_eq_ok, Command.periodB, hb]
  | dmaWr | dmaRd | dmaWre | dmaRde | dmaDrq | intRaise => simp [encode, decode, accept_eq_ok, low_setWidth]
  | illegal a b =>
    show decode ⟨wordN 0, a, b⟩ = _
    simp [decode, wordN]
  | _ => simp [encode, decode, accept_eq_ok, wordN, wordF]

end Sys2Proof

namespace Sys2Proof.Laws

/-- The command's word is matched by its row of the table. -/
theorem encode_tableRow (i : Instr) : TableRow.Statement i := by
  cases i with
  | eqReg => exact TableRow.eqReg ..
  | eqSched => exact TableRow.eqSched ..
  | eqSchedSub => exact TableRow.eqSchedSub ..
  | eqNow => exact TableRow.eqNow
  | eqAdv => exact TableRow.eqAdv ..
  | eqDrain => exact TableRow.eqDrain
  | eqQuery => exact TableRow.eqQuery ..
  | clkConv => exact TableRow.clkConv ..
  | clkToMain => exact TableRow.clkToMain ..
  | drvStart => exact TableRow.drvStart
  | drvTick => exact TableRow.drvTick ..
  | drvHalt => exact TableRow.drvHalt
  | dmaWr => exact TableRow.dmaWr ..
  | dmaRd => exact TableRow.dmaRd ..
  | dmaWre => exact TableRow.dmaWre ..
  | dmaRde => exact TableRow.dmaRde ..
  | dmaDrq => exact TableRow.dmaDrq ..
  | sifPush => exact TableRow.sifPush ..
  | sifPop => exact TableRow.sifPop ..
  | sifOcc => exact TableRow.sifOcc ..
  | intRaise => exact TableRow.intRaise ..
  | intWmask => exact TableRow.intWmask ..
  | intAck => exact TableRow.intAck ..
  | intRstat => exact TableRow.intRstat ..
  | intRmask => exact TableRow.intRmask ..
  | intRctrl => exact TableRow.intRctrl ..
  | intWctrl => exact TableRow.intWctrl ..
  | intPend => exact TableRow.intPend ..
  | illegal => exact TableRow.illegal ..

end Sys2Proof.Laws

namespace Sys2Proof.Safety

open Sys2Proof.Machine Sys2Proof.Laws

/-! ## The encoder and the decoder agree (R97, R103) -/

/-- Settles O1. -/
theorem decodeOfEncode : Obligations.DecodeOfEncode := fun _ h => decode_encode h

/-- Settles O2. -/
theorem encodeOfDecode : Obligations.EncodeOfDecode := fun _ _ h => spells_of_decode h

/-- Settles O3: the listed words are what the commands encode to, and `decode_encode` reads them back. -/
theorem workedEncodings : Obligations.WorkedEncodings := by
  intro p hp
  have listed : encode p.1 = p.2 ∧ WellFormed p.1 = true := by
    revert p
    decide
  exact ⟨listed.1 ▸ decode_encode listed.2, listed.1⟩

/-! ## Must-be-zero bits (R92, R94, R97) -/

/-- The operation code of a command (R98). -/
def opcode (i : Instr) : Nat := ((tableRow i).2.extractLsb' 24 8).toNat

/-- The bits of CMD that a command's format leaves no meaning (R92). -/
def wordMask : Instr → Word
  | .eqSched _ _ _ _ _ | .eqSchedSub _ _ _ _ _ => 0x00800000
  | .eqQuery _ _ => 0x00C00000
  | .dmaWr _ _ _ _ | .dmaRd _ _ _ => 0x0040FFF8
  | .dmaDrq _ _ _ => 0x0040FFFF
  | .dmaWre _ _ _ | .dmaRde _ _ => 0x007FFFFC
  | .intRaise _ _ => 0x007FFFE0
  | .sifPush _ _ | .sifPop _ | .sifOcc _ | .intWmask _ _ | .intAck _ _ | .intRstat _ | .intRmask _ | .intRctrl _
  | .intWctrl _ _ | .intPend _ => 0x007FFFFF
  | .eqReg _ | .eqNow | .eqAdv _ | .eqDrain | .clkConv _ | .clkToMain _ | .drvStart | .drvTick _ | .drvHalt
  | .illegal _ _ => 0x00FFFFFF

/-- The bits of A and of B that a command leaves no meaning (R94). -/
def operandMasks : Instr → DWord × DWord
  | .eqSched _ _ _ _ _ | .eqSchedSub _ _ _ _ _ | .illegal _ _ => (0, 0)
  | .eqReg _ | .eqAdv _ | .clkConv _ | .clkToMain _ => (0, 0xFFFFFFFFFFFFFFFF)
  | .drvTick _ | .dmaWr _ _ _ _ | .dmaWre _ _ _ | .sifPush _ _ | .intWmask _ _ | .intAck _ _ | .intWctrl _ _ =>
    (0xFFFFFFFF00000000, 0xFFFFFFFFFFFFFFFF)
  | .dmaDrq _ _ _ => (0xFFFFFFFFFFFFFFFE, 0xFFFFFFFFFFFFFFFF)
  | .eqNow | .eqDrain | .eqQuery _ _ | .drvStart | .drvHalt | .dmaRd _ _ _ | .dmaRde _ _ | .sifPop _ | .sifOcc _
  | .intRaise _ _ | .intRstat _ | .intRmask _ | .intRctrl _ | .intPend _ => (0xFFFFFFFFFFFFFFFF, 0xFFFFFFFFFFFFFFFF)

/-- Every row's mask covers the operation code, and its match holds nothing else. -/
theorem tableRow_opcode (i : Instr) :
    (tableRow i).1.extractLsb' 24 8 = BitVec.allOnes 8 ∧ (tableRow i).2 &&& 0x00FFFFFF = 0 := by
  cases i <;> simp [tableRow]

theorem encode_opcode (i : Instr) : ((encode i).cmd.extractLsb' 24 8).toNat = opcode i := by
  have row : (encode i).cmd &&& (tableRow i).1 = (tableRow i).2 := encode_tableRow i
  rw [opcode, ← row, BitVec.extractLsb'_and, (tableRow_opcode i).1, BitVec.and_allOnes]

/-- A format's must-be-zero bits are bits that the row's mask fixes, outside the operation code. -/
theorem tableRow_wordMask (i : Instr) :
    (tableRow i).1 &&& wordMask i = wordMask i ∧ 0x00FFFFFF &&& wordMask i = wordMask i := by
  have formats : ∀ p ∈ ([(0xFFFFFFFF, 0x00FFFFFF), (0xFF800000, 0x00800000), (0xFFC00000, 0x00C00000),
      (0xFF40FFF8, 0x0040FFF8), (0xFF40FFFF, 0x0040FFFF), (0xFF7FFFFC, 0x007FFFFC), (0xFF7FFFE0, 0x007FFFE0),
      (0xFF7FFFFF, 0x007FFFFF)] : List (Word × Word)), p.1 &&& p.2 = p.2 ∧ 0x00FFFFFF &&& p.2 = p.2 := by simp
  exact formats ((tableRow i).1, wordMask i) (by cases i <;> simp [tableRow, wordMask])

theorem encode_wordMask (i : Instr) : (encode i).cmd &&& wordMask i = 0 := by
  obtain ⟨hrow, hlow⟩ := tableRow_wordMask i
  calc (encode i).cmd &&& wordMask i
      = (encode i).cmd &&& (tableRow i).1 &&& wordMask i := by rw [BitVec.and_assoc, hrow]
    _ = (tableRow i).2 &&& (0x00FFFFFF &&& wordMask i) := by rw [encode_tableRow i, hlow]
    _ = 0 := by rw [← BitVec.and_assoc, (tableRow_opcode i).2]; exact BitVec.zero_and

theorem setWidth_and_high (v : Word) : v.setWidth 64 &&& 0xFFFFFFFF00000000#64 = 0#64 := by
  have mask : 0xFFFFFFFF00000000#64 = BitVec.allOnes 64 <<< 32 := rfl
  rw [mask]
  apply BitVec.eq_of_getLsbD_eq
  intro i _
  rw [BitVec.getLsbD_and, BitVec.getLsbD_shiftLeft]
  by_cases hi : i < 32
  · simp [hi]
  · simp [BitVec.getLsbD_of_ge v i (by omega)]

theorem flagBit_and_high (b : Bool) : (flagBit b).setWidth 64 &&& 0xFFFFFFFFFFFFFFFE#64 = 0#64 := by
  cases b <;> rfl

theorem encode_operandMasks (i : Instr) :
    (encode i).a &&& (operandMasks i).1 = 0 ∧ (encode i).b &&& (operandMasks i).2 = 0 := by
  cases i <;> simp [encode, operandMasks, setWidth_and_high, flagBit_and_high]

/-- Bit 22 of a command word is its field `R` (R92). -/
theorem getLsbD_joinWord_r (f : Fields) : (joinWord f).getLsbD 22 = flagOf f.r := by
  have field : (joinWord f).extractLsb' 22 1 = f.r := congrArg Fields.r (splitWord_joinWord f)
  rw [BitVec.getLsbD_eq_extractLsb', field]
  rfl

/-- Operation code 2 or 3 without `R` leaves no meaning to the period (R94). -/
theorem encode_period {i : Instr} (ho : opcode i = 0x02 ∨ opcode i = 0x03) (hw : WellFormed i = true)
    (hr : (encode i).cmd.getLsbD 22 = false) : (encode i).b = 0 := by
  cases i with
  | eqSched rep ch h delay period | eqSchedSub rep ch h delay period =>
    obtain rfl : rep = false := by simpa only [encode, getLsbD_joinWord_r, flagOf_flagBit] using hr
    exact beq_iff_eq.1 hw
  | _ => simp [opcode, tableRow] at ho

/-! ## Triples that are no command (R97 to R99, R271) -/

/-- A triple that spells no command but ILLEGAL takes IllegalCommand at the port. -/
theorem port_illegal {c : Command} {s : State} (hs : s.phase ≠ .faulted)
    (h : ∀ i, (∀ a b, i ≠ .illegal a b) → ¬Spells c i) :
    port c s = .next (takeFault .illegalCommand (cmdInfo c) s) := by
  unfold port
  split
  · rename_i i hd
    have hi : ∃ a b, i = .illegal a b := by
      by_contra hi
      exact h i (by simpa using hi) (spells_of_decode hd)
    obtain ⟨a, b, rfl⟩ := hi
    have spelling : encode (.illegal a b) = c := (spells_of_decode hd).1
    rw [exec, execIllegal, spelling, illegalCommand, if_neg hs]
  · rw [illegalCommand, if_neg hs]

/-- A command's row in the table of the must-be-zero bits. -/
def mustBeZero (i : Instr) : Nat × Word × DWord × DWord := (opcode i, wordMask i, operandMasks i)

/-- Settles O4. The table holds the row of every command but ILLEGAL, one for each operation code, and the spelling of a
command has its row's operation code and none of its row's bits; so what the table refuses spells no command. -/
theorem illegalTriplesFault : Obligations.IllegalTriplesFault := by
  unfold Obligations.IllegalTriplesFault
  intro all high table c s hs opc stops
  have mem : ∀ i, (∀ a b, i ≠ .illegal a b) → mustBeZero i ∈ table := by
    intro i hi
    cases i with
    | illegal a b => exact absurd rfl (hi a b)
    | _ => simp [mustBeZero, opcode, wordMask, tableRow, operandMasks, table, all, high]
  have nodup : (table.map (·.1)).Nodup := by decide
  refine ⟨fun hopc => port_illegal hs ?_, fun row hrow hopc hbits => port_illegal hs ?_,
    fun hopc hr hb => port_illegal hs ?_⟩
  · rintro i hi ⟨rfl, _⟩
    exact hopc (List.mem_map.2 ⟨mustBeZero i, mem i hi, (encode_opcode i).symm⟩)
  · rintro i hi ⟨rfl, _⟩
    have same : row.1 = opcode i := hopc.symm.trans (encode_opcode i)
    obtain rfl : row = mustBeZero i := List.inj_on_of_nodup_map nodup hrow (mem i hi) same
    obtain ⟨ha, hb⟩ := encode_operandMasks i
    rcases hbits with h | h | h
    · exact h (encode_wordMask i)
    · exact h ha
    · exact h hb
  · rintro i _ ⟨rfl, hw⟩
    exact hb (encode_period (encode_opcode i ▸ hopc) hw hr)

/-! ## The command port (R91, R100) -/

/-- The port runs the command a triple decodes to (R100). -/
theorem port_of_decode {c : Command} {i : Instr} (h : decode c = .ok i) (s : State) : port c s = exec i s := by
  rw [port, h]

/-- Settles O5: each source of commands hands its next one to the port, and has it taken out. -/
theorem stepRunsPresentedCommand : Obligations.StepRunsPresentedCommand := by
  intro s c i hd _
  refine ⟨fun rest ha hh => ?_, fun sd left xs rest ha => ?_, fun cs rest ha => ?_⟩
  · rw [step, ha]
    show runHost s = _
    rw [runHost, hh]
    exact port_of_decode hd _
  · rw [step, ha]
    exact port_of_decode hd _
  · rw [step, ha]
    exact port_of_decode hd _

/-- Settles O6. -/
theorem faultedCommandsDoNothing : Obligations.FaultedCommandsDoNothing := fun i _ h => exec_faulted i h

/-! ## The table of R96 -/

theorem legalPhase_setup (p : Phase) : legalPhase .setup p = true ↔ p = .init := by cases p <;> decide
theorem legalPhase_hostRun (p : Phase) : legalPhase .hostRun p = true ↔ p = .running := by cases p <;> decide
theorem legalPhase_device (p : Phase) : legalPhase .device p = true ↔ p = .init ∨ p = .running := by
  cases p <;> decide
theorem legalPhase_anyone (p : Phase) : legalPhase .anyone p = true ↔ p = .init ∨ p = .running ∨ p = .halted := by
  cases p <;> decide
theorem legalPhase_register (sd : Side) (p : Phase) :
    legalPhase (.register sd false) p = true ↔ p = .init ∨ p = .running := by
  cases p <;> simp [legalPhase]
theorem legalPhase_pure (sd : Side) (p : Phase) :
    legalPhase (.register sd true) p = true ↔ p = .init ∨ p = .running ∨ p = .halted := by
  cases p <;> simp [legalPhase]
theorem legalIssuer_setup (x : Issuer) : legalIssuer .setup x = true ↔ x = .host := by cases x <;> decide
theorem legalIssuer_hostRun (x : Issuer) : legalIssuer .hostRun x = true ↔ x = .host := by cases x <;> decide
theorem legalIssuer_device (x : Issuer) : legalIssuer .device x = true ↔ x = .host ∨ x = .callback := by
  cases x <;> decide
theorem legalIssuer_anyone (x : Issuer) : legalIssuer .anyone x = true := by cases x <;> rfl
theorem legalIssuer_register (sd : Side) (isPure : Bool) (x : Issuer) : legalIssuer (.register sd isPure) x = true ↔
    (x = .host ∨ x = .callback) ∨ (x = .cpuMain ∧ sd = .main) ∨ (x = .cpuSub ∧ sd = .sub) := by
  cases x <;> simp [legalIssuer]

section
variable {i : Instr} {s : State}

/-- A command is legal in the phases and for the issuers of its row (R96). -/
theorem legal_iff {k : CmdClass} (hk : cmdClass i = k) {P Q : Prop} (hp : legalPhase k s.phase = true ↔ P)
    (hq : legalIssuer k s.issuer = true ↔ Q) : legal i s = true ↔ P ∧ Q := by
  rw [legal, hk, Bool.and_eq_true, hp, hq]

/-- EQ.REG and DRV.START. -/
theorem legal_setup (hk : cmdClass i = .setup) : legal i s = true ↔ s.phase = .init ∧ s.issuer = .host :=
  legal_iff hk (legalPhase_setup _) (legalIssuer_setup _)

/-- The Host's own commands. -/
theorem legal_hostRun (hk : cmdClass i = .hostRun) : legal i s = true ↔ s.phase = .running ∧ s.issuer = .host :=
  legal_iff hk (legalPhase_hostRun _) (legalIssuer_hostRun _)

/-- The commands of devices. -/
theorem legal_device (hk : cmdClass i = .device) : legal i s = true ↔
    (s.phase = .init ∨ s.phase = .running) ∧ (s.issuer = .host ∨ s.issuer = .callback) :=
  legal_iff hk (legalPhase_device _) (legalIssuer_device _)

/-- The queries anyone makes. -/
theorem legal_anyone (hk : cmdClass i = .anyone) : legal i s = true ↔
    s.phase = .init ∨ s.phase = .running ∨ s.phase = .halted := by
  rw [legal_iff hk (legalPhase_anyone _) (iff_true_intro (legalIssuer_anyone _)), and_true]

/-- The set "Reg" without "Pure". -/
theorem legal_register {sd : Side} (hk : cmdClass i = .register sd false) : legal i s = true ↔
    (s.phase = .init ∨ s.phase = .running) ∧ ((s.issuer = .host ∨ s.issuer = .callback) ∨
      (s.issuer = .cpuMain ∧ sd = .main) ∨ (s.issuer = .cpuSub ∧ sd = .sub)) :=
  legal_iff hk (legalPhase_register ..) (legalIssuer_register ..)

/-- The set "Pure". -/
theorem legal_pure {sd : Side} (hk : cmdClass i = .register sd true) : legal i s = true ↔
    (s.phase = .init ∨ s.phase = .running ∨ s.phase = .halted) ∧ ((s.issuer = .host ∨ s.issuer = .callback) ∨
      (s.issuer = .cpuMain ∧ sd = .main) ∨ (s.issuer = .cpuSub ∧ sd = .sub)) :=
  legal_iff hk (legalPhase_pure ..) (legalIssuer_register ..)

/-- No command is legal in phase Faulted (R96). -/
theorem phase_of_legal (h : legal i s = true) : s.phase ≠ .faulted := by
  intro hf
  rw [legal, hf, Bool.and_eq_true] at h
  cases hk : cmdClass i <;> simp [hk, legalPhase] at h

end

/-- Settles O7: each command by its row. -/
theorem legalityTable : Obligations.LegalityTable := by
  intro s sd c h rep r e w v u d b src
  exact ⟨legal_setup rfl, legal_setup rfl,
    legal_hostRun rfl, legal_hostRun rfl, legal_hostRun rfl, legal_hostRun rfl, legal_hostRun rfl, legal_hostRun rfl,
    legal_hostRun rfl,
    legal_device rfl, legal_device rfl, legal_device rfl, legal_device rfl,
    legal_anyone rfl, legal_anyone rfl, legal_anyone rfl, legal_anyone rfl,
    legal_register rfl, legal_register rfl, legal_register rfl, legal_register rfl, legal_register rfl,
    legal_register rfl,
    legal_pure rfl, legal_pure rfl, legal_pure rfl, legal_pure rfl, legal_pure rfl⟩

/-! ## The checks before a command's rule (R95, R96, R100) -/

/-- A command outside its phases or issuers takes PhaseViolation, whatever its rule (R96). -/
theorem issue_of_not_legal {i : Instr} {s : State} (rule : State → Run) (hs : s.phase ≠ .faulted)
    (hl : legal i s = false) :
    issue i rule s = takeFault .phaseViolation [(encode i).cmd.setWidth 64, issuerCode s.cfg s.issuer] s := by
  rw [issue, if_neg hs, if_pos hl]

/-- A legal command with an operand out of range takes BadOperand, whatever its rule (R95). -/
theorem issue_of_not_inRange {i : Instr} {s : State} (rule : State → Run) (hl : legal i s = true)
    (hr : inRange i s = false) : issue i rule s = takeFault .badOperand (cmdInfo (encode i)) s := by
  rw [issue, if_neg (phase_of_legal hl), if_neg (by simp [hl]), if_pos hr]

/-- Settles O8. -/
theorem illegalPhaseOrIssuerFaults : Obligations.IllegalPhaseOrIssuerFaults := by
  intro i s hi hs hl
  rcases exec_eq_issue i with ⟨a, b, rfl⟩ | ⟨rule, e⟩
  · exact absurd rfl (hi a b)
  · rw [e, issue_of_not_legal rule hs hl]

/-- A legal command with an operand out of range faults; ILLEGAL has no operand range. -/
theorem exec_of_not_inRange {i : Instr} {s : State} (hr : inRange i s = false) (hl : legal i s = true) :
    exec i s = .next (takeFault .badOperand (cmdInfo (encode i)) s) := by
  rcases exec_eq_issue i with ⟨a, b, rfl⟩ | ⟨rule, e⟩
  · cases hr
  · rw [e, issue_of_not_inRange rule hl hr]

/-- A channel above MAX_CHAN or an unfilled handle is out of an event command's range (R95). -/
theorem eventRange_eq_false {ch : Chan} {h : Handle} {s : State} (hb : s.cfg.maxChan < ch.toNat ∨ s.nh ≤ h.toNat) :
    eventRange ch h s = false := by
  rw [eventRange, Bool.and_eq_false_iff, decide_eq_false_iff_not, decide_eq_false_iff_not]
  omega

/-- Settles O9. -/
theorem outOfRangeOperandFaults : Obligations.OutOfRangeOperandFaults := by
  intro s sd c h rep r w v u b
  refine ⟨fun hc => ?_, fun hb => ?_, fun hh => ?_⟩
  · have hr : decide (c.toNat < s.cfg.nch sd) = false := decide_eq_false (by omega)
    exact ⟨exec_of_not_inRange hr, exec_of_not_inRange hr, exec_of_not_inRange hr⟩
  · have hr : eventRange c h s = false := eventRange_eq_false hb
    have hrh : (eventRange c h s && decide (2 ≤ h.toNat)) = false := by rw [hr, Bool.false_and]
    exact ⟨exec_of_not_inRange hr, exec_of_not_inRange hrh, exec_of_not_inRange hrh⟩
  · have hrh : (eventRange c h s && decide (2 ≤ h.toNat)) = false := by
      rw [decide_eq_false (by omega), Bool.and_false]
    exact ⟨exec_of_not_inRange hrh, exec_of_not_inRange hrh⟩

/-- Settles O10. -/
theorem illegalTakesFaultEntry : Obligations.IllegalTakesFaultEntry := by
  intro a b s hs
  have entry : illegalCommand ⟨0, a, b⟩ s = takeFault .illegalCommand [0, a, b] s := if_neg hs
  exact congrArg Host.Outcome.next entry

/-! ## A write to a channel register that is refused (R160) -/

section
variable {sd : Side} {c : Chan} {reg : ChanReg} {v : Word} {s : State}

/-- An accepted DMA.WR whose rule faults changes nothing else. -/
theorem exec_dmaWr_faults {k : FaultKind} {info : List DWord} (h : Accepted (.dmaWr sd c reg v) s)
    (hf : writeChannel sd c reg v (clearAnswer s) = raiseFault k info (clearAnswer s)) :
    exec (.dmaWr sd c reg v) s = .next (takeFault k info s) := by
  rw [exec, execDmaWr, issue_accepted _ _ _ h.1 h.2, hf]
  rfl

/-- The selects that no write may name fault before the channel is looked at. -/
theorem writeChannel_refused {info : List DWord} (h : writeRefused s.cfg sd c reg v = some info) :
    writeChannel sd c reg v s = raiseFault .badOperand info s := by
  rw [writeChannel, h]

/-- A writable register of an Active channel is busy, unless the write aborts the channel. -/
theorem writeChannel_busy (hw : writeRefused s.cfg sd c reg v = none) (ha : active s sd c = true)
    (hn : ¬(reg = .chcr ∧ strOf sd v = false ∧ running s sd c = false)) :
    writeChannel sd c reg v s = raiseFault .channelBusy (busyInfo sd c reg v) s := by
  rw [writeChannel, hw]
  show (if active s sd c = true then _ else _) = _
  rw [if_pos ha, if_neg hn]

/-- An abort commutes with clearing the answer. -/
theorem abortChannel_clearAnswer : abortChannel sd c v (clearAnswer s) = clearAnswer (abortChannel sd c v s) := by
  rw [abortChannel, setChan_clearAnswer, clearAnswer_chan]
  rfl

/-- A CHCR write with STR 0 aborts a Waiting channel. -/
theorem writeChannel_abort (ha : active s sd c = true) (hv : strOf sd v = false) (hr : running s sd c = false) :
    writeChannel sd c .chcr v s = .ok (abortChannel sd c v s) := by
  rw [writeChannel]
  show (if active s sd c = true then _ else _) = _
  rw [if_pos ha, if_pos ⟨rfl, hv, hr⟩]

end

/-- Settles O39. -/
theorem busyChannelRefusesWrites : Obligations.BusyChannelRefusesWrites := by
  intro sd c reg v s h writable aborts cmd
  refine ⟨fun hreg => ?_, fun hreg => ?_, fun hreg ha hn => ?_, fun ha habort => ?_⟩
  · refine exec_dmaWr_faults h (writeChannel_refused ?_)
    rcases hreg with rfl | rfl <;> rfl
  · refine exec_dmaWr_faults h (writeChannel_refused ?_)
    rcases hreg with rfl | rfl <;> rfl
  · refine exec_dmaWr_faults h (writeChannel_busy ?_ (by simpa using ha) (by simpa [aborts] using hn))
    rcases hreg with rfl | rfl | rfl | rfl <;> rfl
  · obtain ⟨rfl, hv, hr⟩ := habort
    rw [exec, execDmaWr, issue_accepted _ _ _ h.1 h.2, writeChannel_abort (by simpa using ha) hv (by simpa using hr),
      runState_ok, abortChannel_clearAnswer]
    rfl

end Sys2Proof.Safety

/-! PROOFS for 40_event_queue.md, the commands: EQ.REG (O25), EQ.SCHED (O26), EQ.SCHEDSUB (O27), the queries (O28) and
EQ.ADV (O29). -/

namespace Sys2Proof.Safety

open Sys2Proof.Machine

/-! ## The rule of an accepted command (R100) -/

section
variable {i : Instr} {rule : State → Run} {s : State}

/-- An accepted command leaves what its rule leaves. -/
theorem exec_of_rule_ok {t : State} (h : Accepted i s) (hi : exec i s = .next (issue i rule s))
    (hr : rule (clearAnswer s) = .ok t) : exec i s = .next t := by
  rw [hi, issue_accepted _ _ _ h.1 h.2, hr, runState_ok]

/-- An accepted command whose rule raises a fault at once does nothing else. -/
theorem exec_of_rule_fault {k : FaultKind} {info : List DWord} (h : Accepted i s)
    (hi : exec i s = .next (issue i rule s))
    (hr : rule (clearAnswer s) = raiseFault k info (clearAnswer s)) : exec i s = .next (takeFault k info s) := by
  rw [hi, issue_accepted _ _ _ h.1 h.2, hr]
  rfl

end

/-- Settles O25. -/
theorem registerFillsNextSlot : Obligations.RegisterFillsNextSlot := by
  intro k s h
  refine ⟨fun hroom => exec_of_rule_ok h rfl ?_, fun hfull => exec_of_rule_fault h rfl ?_⟩
  · exact if_neg (Nat.not_le.2 hroom)
  · exact if_pos hfull.ge

/-! ## 64-bit times (R93, R125) -/

@[simp] theorem i64_toInt (x : DWord) : i64 x.toInt = x := BitVec.ofInt_toInt

theorem toInt_le_maxTime (x : DWord) : x.toInt ≤ maxTime := by
  have := x.toInt_lt
  unfold maxTime
  omega

/-- An i64 operand is its own number of cycles (log 23). -/
@[simp] theorem cycles64_toInt (x : DWord) : cycles64 x.toInt = x := by
  have hle := toInt_le_maxTime x
  unfold maxTime at hle
  rw [cycles64_eq (by omega), i64_toInt]

/-- A sum of times is the sum of their bit patterns. -/
theorem i64_add (x y : DWord) : i64 (x.toInt + y.toInt) = x + y := by
  rw [i64, BitVec.ofInt_add, BitVec.ofInt_toInt, BitVec.ofInt_toInt]

/-- A number of cycles below `2 ^ 64` is answered exactly (log 23). -/
theorem cycles64_natCast {n : Nat} (h : n < 2 ^ 64) : cycles64 n = BitVec.ofNat 64 n := by
  rw [cycles64_eq (by omega), i64, BitVec.ofInt_natCast]

/-- An operand below `2 ^ 32` is no negative number. -/
theorem toInt_eq_toNat {x : DWord} (h : x.toNat < 2 ^ 32) : x.toInt = x.toNat :=
  BitVec.toInt_eq_toNat_of_lt (by omega)

/-! ## `Schedule` and `Advance`, check by check (R113, R117, R125) -/

section
variable {h : Handle} {ch : Chan} {delay : Int} {rep : Bool} {period : Int} {s : State}

theorem schedule_negativeDelay (hd : delay < 0) : schedule h ch delay rep period s =
    raiseFault .negativeDelay [h.setWidth 64, ch.setWidth 64, i64 delay] s := if_pos hd

theorem schedule_badPeriod (hd : 0 ≤ delay) (hr : rep = true) (hp : period ≤ 0) : schedule h ch delay rep period s =
    raiseFault .badPeriod [h.setWidth 64, ch.setWidth 64, i64 period] s := by
  rw [schedule, if_neg (by omega), if_pos ⟨hr, hp⟩]

/-- When the sums of `Schedule` leave i64 (R113, R125, log 14). -/
theorem beyondI64_iff {now : Int} :
    beyondI64 now delay rep period = true ↔ maxTime < now + delay ∨ (rep = true ∧ maxTime < period) := by
  simp [beyondI64]

theorem schedule_timeOverflow (hd : 0 ≤ delay) (hp : rep = true → 0 < period)
    (ho : maxTime < s.now.toInt + delay ∨ (rep = true ∧ maxTime < period)) : schedule h ch delay rep period s =
    raiseFault .timeOverflow [h.setWidth 64, ch.setWidth 64, cycles64 delay] s := by
  have hpos : ¬(rep = true ∧ period ≤ 0) := fun ⟨hr, hle⟩ => absurd (hp hr) (by omega)
  rw [schedule, if_neg (by omega), if_neg hpos, if_pos (beyondI64_iff.2 ho)]

theorem advance_negativeDelay (hd : delay < 0) : advance delay s =
    raiseFault .negativeDelay (advanceInfo s.cfg (i64 delay)) s := if_pos hd

theorem advance_timeOverflow (hd : 0 ≤ delay) (ho : maxTime < s.now.toInt + delay) : advance delay s =
    raiseFault .timeOverflow (advanceInfo s.cfg (cycles64 delay)) s := by
  rw [advance, if_neg (by omega), if_pos ho]

theorem advance_moves (hd : 0 ≤ delay) (hm : s.now.toInt + delay ≤ maxTime) : advance delay s =
    .ok (s.setNow (i64 (s.now.toInt + delay))) := by
  rw [advance, if_neg (by omega), if_neg (by omega)]

end

/-- Settles O26: the four clauses are the checks of `Schedule` in their order. -/
theorem scheduleInsertsEvent : Obligations.ScheduleInsertsEvent := by
  intro rep ch h delay period s i ha
  refine ⟨fun hd => exec_of_rule_fault ha rfl ?_, fun hd hr hp => exec_of_rule_fault ha rfl ?_,
    fun hd hp ho => exec_of_rule_fault ha rfl ?_, fun hd hp hm => exec_of_rule_ok ha rfl ?_⟩
  · rw [schedule_negativeDelay hd, i64_toInt]
  · rw [schedule_badPeriod hd hr hp, i64_toInt]
  · rw [schedule_timeOverflow (s := clearAnswer s) hd hp (.inl ho), cycles64_toInt]
  · rw [schedule_inserts (s := clearAnswer s) hd (fun hr => ⟨hp hr, toInt_le_maxTime period⟩) hm, i64_add, i64_toInt]
    rfl

/-- Settles O29. -/
theorem advanceMovesNowOnly : Obligations.AdvanceMovesNowOnly := by
  intro delta s ha info
  refine ⟨fun hd => exec_of_rule_fault ha rfl ?_, fun hd ho => exec_of_rule_fault ha rfl ?_,
    fun hd hm => exec_of_rule_ok ha rfl ?_⟩
  · rw [advance_negativeDelay hd, i64_toInt]
    rfl
  · rw [advance_timeOverflow (s := clearAnswer s) hd ho, cycles64_toInt]
    rfl
  · rw [advance_moves (s := clearAnswer s) hd hm, i64_add]
    rfl

/-! ## EQ.SCHEDSUB: the checks, then `Schedule` in main cycles (R115, R142) -/

section
variable {i : Instr} {rep : Bool} {ch : Chan} {h : Handle} {delay period : DWord} {s : State}

theorem scheduleSub_negativeDelay (hd : delay.toInt < 0) : scheduleSub i rep ch h delay period s =
    raiseFault .negativeDelay [h.setWidth 64, ch.setWidth 64, delay] s := if_pos hd

theorem scheduleSub_badPeriod (hd : 0 ≤ delay.toInt) (hr : rep = true) (hp : period.toInt ≤ 0) :
    scheduleSub i rep ch h delay period s =
      raiseFault .badPeriod [h.setWidth 64, ch.setWidth 64, period] s := by
  rw [scheduleSub, if_neg (by omega), if_pos ⟨hr, hp⟩]

/-- Past the signs the two operands are converted, the delay first (R115, log 11). -/
theorem scheduleSub_converts (hd : 0 ≤ delay.toInt) (hp : rep = true → 0 < period.toInt) :
    scheduleSub i rep ch h delay period s = (do
      let d ← toMainChecked i delay s
      let p ← periodChecked i rep period s
      schedule h ch d rep p s) := by
  have hpos : ¬(rep = true ∧ period.toInt ≤ 0) := fun ⟨hr, hle⟩ => absurd (hp hr) (by omega)
  rw [scheduleSub, if_neg (by omega), if_neg hpos]

theorem toMainChecked_wide {d : DWord} (hd : 2 ^ 32 ≤ d.toNat) :
    toMainChecked i d s = raiseFault .badOperand (cmdInfo (encode i)) s := if_neg (by omega)

theorem toMainChecked_converts {d : DWord} (hd : d.toNat < 2 ^ 32) :
    toMainChecked i d s = .ok (toMain s.cfg d.toNat) := if_pos hd

theorem periodChecked_converts (hp : rep = true → period.toNat < 2 ^ 32) :
    periodChecked i rep period s = .ok (if rep then toMain s.cfg period.toNat else 0) := by
  cases rep with
  | false => rfl
  | true => exact toMainChecked_converts (hp rfl)

/-- An operand of `2 ^ 32` or more, the delay or the period of a repetition, is BadOperand (R115, R142). -/
theorem scheduleSub_wide (hd : 0 ≤ delay.toInt) (hp : rep = true → 0 < period.toInt)
    (hw : 2 ^ 32 ≤ delay.toNat ∨ (rep = true ∧ 2 ^ 32 ≤ period.toNat)) :
    scheduleSub i rep ch h delay period s = raiseFault .badOperand (cmdInfo (encode i)) s := by
  rw [scheduleSub_converts hd hp]
  by_cases hdelay : 2 ^ 32 ≤ delay.toNat
  · rw [toMainChecked_wide hdelay]
    rfl
  · obtain ⟨rfl, hperiod⟩ := hw.resolve_left hdelay
    rw [toMainChecked_converts (by omega), periodChecked, if_pos rfl, toMainChecked_wide hperiod]
    rfl

/-- With both operands in range EQ.SCHEDSUB is `Schedule` of the converted operands (R115). -/
theorem scheduleSub_eq_schedule (hd : delay.toNat < 2 ^ 32) (hp : rep = true → 0 < period.toNat ∧ period.toNat < 2 ^ 32) :
    scheduleSub i rep ch h delay period s =
      schedule h ch (toMain s.cfg delay.toNat) rep ((if rep then toMain s.cfg period.toNat else 0 : Nat) : Int) s := by
  have hpos : rep = true → 0 < period.toInt := fun hr => by
    obtain ⟨hlow, hhigh⟩ := hp hr
    rw [toInt_eq_toNat hhigh]
    omega
  rw [scheduleSub_converts (by rw [toInt_eq_toNat hd]; omega) hpos, toMainChecked_converts hd,
    periodChecked_converts fun hr => (hp hr).2]
  rfl

end

/-- A positive number of secondary cycles lasts at least one main cycle (R142). -/
theorem toMain_pos {p : Params} (hp : p.Valid) {d : Nat} (hd : 0 < d) : 0 < toMain p d := by
  have hzero := toMain_le_iff hp d 0
  obtain ⟨_, _, _, hden, _⟩ := hp
  have hpos : 0 < d * p.iopDen := Nat.mul_pos hd (by omega)
  omega

/-- Settles O27: the first three clauses fault before `Schedule`, the last two are `Schedule` in main cycles. -/
theorem scheduleSubInsertsEvent : Obligations.ScheduleSubInsertsEvent := by
  intro rep ch h delay period s i d p ha hv
  refine ⟨fun hd => exec_of_rule_fault ha rfl (scheduleSub_negativeDelay hd),
    fun hd hr hp => exec_of_rule_fault ha rfl (scheduleSub_badPeriod hd hr hp),
    fun hd hp hw => exec_of_rule_fault ha rfl (scheduleSub_wide hd hp hw),
    fun hd hp ho => ⟨cycles64 d, exec_of_rule_fault ha rfl ?_, cycles64_natCast⟩,
    fun hd hp hm => exec_of_rule_ok ha rfl ?_⟩
  · refine (scheduleSub_eq_schedule hd hp).trans
      (schedule_timeOverflow (s := clearAnswer s) (Int.natCast_nonneg d) (fun hr => ?_) ?_)
    · obtain ⟨hlow, _⟩ := hp hr
      rw [if_pos hr]
      exact Int.natCast_pos.2 (toMain_pos hv hlow)
    · refine ho.imp id fun ⟨hr, hbig⟩ => ⟨hr, ?_⟩
      rw [if_pos hr]
      show maxTime < (p : Int)
      unfold maxTime
      omega
  · refine (scheduleSub_eq_schedule hd fun hr => ⟨(hp hr).1, (hp hr).2.1⟩).trans
      ((schedule_inserts (s := clearAnswer s) (Int.natCast_nonneg d) (fun hr => ?_) hm).trans ?_)
    · obtain ⟨hlow, _, hfit⟩ := hp hr
      have hpos : 0 < p := toMain_pos hv hlow
      rw [if_pos hr]
      show 0 < (p : Int) ∧ (p : Int) ≤ maxTime
      unfold maxTime
      omega
    · cases rep <;> rfl

/-- Settles O28. -/
theorem queriesAnswerOnly : Obligations.QueriesAnswerOnly := by
  intro s ch h v d
  refine ⟨fun ha => exec_of_rule_ok ha rfl rfl, fun ha => exec_of_rule_ok ha rfl ?_,
    fun ha hv => ⟨cycles64 (toMain s.cfg v.toNat), exec_of_rule_ok ha rfl (if_pos hv), cycles64_natCast⟩,
    fun ha hv => exec_of_rule_fault ha rfl (if_neg (by omega)), fun ha => exec_of_rule_ok ha rfl ?_⟩
  · simp only [queued_iff]
    rfl
  · rw [clearAnswer_fifo]
    rfl

end Sys2Proof.Safety

/-! PROOFS for 40_event_queue.md, the drain: which event fires (O31), one round (O32), a repeating event over many rounds
(O33); and that the model never stops (O16), the drain being the one place where it could. -/

namespace Sys2Proof.Safety

open Sys2Proof.Machine

/-! ## The event that fires (R118, R120) -/

section
variable {s : State} {e : Event} {tail : List Event}

theorem firstDue_of_due (hq : s.queue = e :: tail) (hd : e.deadline.toInt ≤ s.now.toInt) : firstDue s = some e := by
  simp only [firstDue, hq, if_pos hd]

theorem firstDue_of_not_due (hq : s.queue = e :: tail) (hd : s.now.toInt < e.deadline.toInt) : firstDue s = none := by
  simp only [firstDue, hq, if_neg (Int.not_le.2 hd)]

/-- What the key order says of the first event of a sorted queue (R28, R120). -/
theorem first_least (hs : QueueSorted s) (hq : s.queue = e :: tail) : ∀ f ∈ s.queue,
    e.deadline.toInt < f.deadline.toInt ∨ (e.deadline.toInt = f.deadline.toInt ∧ e.seq.toNat ≤ f.seq.toNat) := by
  intro f hf
  have hpairs : List.Pairwise (fun e f => f.before e = false) (e :: tail) := hq ▸ hs
  rcases List.mem_cons.1 (hq ▸ hf) with rfl | hmem
  · exact .inr ⟨rfl, le_rfl⟩
  · have hle := (before_eq_false_iff f e).1 ((List.pairwise_cons.1 hpairs).1 f hmem)
    omega

end

/-- Settles O31: the first event of a sorted queue is the least, so that nothing is due when it is not. -/
theorem drainSelectsLeastDue : Obligations.DrainSelectsLeastDue := by
  intro s hs
  cases hq : s.queue with
  | nil => simp [firstDue, hq]
  | cons e tail =>
    have hleast := first_least hs hq
    rw [hq] at hleast
    by_cases hd : e.deadline.toInt ≤ s.now.toInt
    · rw [firstDue_of_due hq hd]
      refine ⟨fun hn => (nomatch hn), fun _ he => ?_⟩
      obtain rfl := Option.some.inj he
      refine ⟨List.mem_cons_self .., hd, fun f hf _ => (hleast f hf).imp id fun ⟨heq, hseq⟩ => ?_⟩
      exact ⟨BitVec.eq_of_toInt_eq heq, hseq⟩
    · rw [firstDue_of_not_due hq (Int.not_le.1 hd)]
      refine ⟨fun _ f hf => ?_, fun _ he => (nomatch he)⟩
      have hf' := hleast f hf
      omega

/-! ## One round of a drain (R118, R119, R121) -/

/-- The state after its first event `e` is taken out of the queue, reinserted one period later when it repeats. -/
def dueTaken (e : Event) (tail : List Event) (s : State) : State :=
  { s with
    queue := if e.rep then insertEvent { e with deadline := e.deadline + e.period, seq := s.seq } tail else tail
    seq := if e.rep then s.seq + 1 else s.seq }

section
variable {s t : State} {e : Event} {tail : List Event} {rest : List Task}

theorem takeDue_fits (hq : s.queue = e :: tail)
    (hfit : e.rep = true → e.deadline.toInt + e.period.toInt ≤ maxTime) : takeDue e s = .ok (dueTaken e tail s) := by
  rw [takeDue, hq, List.tail_cons]
  by_cases hr : e.rep = true
  · rw [if_pos hr, reinsert, if_neg (Int.not_lt.2 (hfit hr)), i64_add]
    simp only [dueTaken, if_pos hr]
    rfl
  · simp only [dueTaken, if_neg hr]
    rfl

theorem takeDue_overflows (hq : s.queue = e :: tail) (hr : e.rep = true)
    (ho : maxTime < e.deadline.toInt + e.period.toInt) : takeDue e s =
    raiseFault .timeOverflow [e.h.setWidth 64, e.ch.setWidth 64, e.period] (s.setQueue tail) := by
  rw [takeDue, if_pos hr, hq, List.tail_cons, reinsert, if_pos ho]

/-- A drain's step with nothing due ends the drain (R118). -/
theorem step_drain_ends (ha : s.agenda = .drain :: rest) (hd : firstDue s = none) :
    step s = .next (endTask rest s) := by
  simp only [step, ha, runTask, drainRound, hd]

/-- A drain's step dispatches the first due event once it is taken out (R118). -/
theorem step_drain_dispatches (ha : s.agenda = .drain :: rest) (hd : firstDue s = some e)
    (ht : takeDue e s = .ok t) : step s = dispatch e.h e.ch (s.now.toInt - e.deadline.toInt) t := by
  simp only [step, ha, runTask, drainRound, hd, ht]

/-- A drain's step stops at the fault of a reinsertion (R121, R271). -/
theorem step_drain_faults (ha : s.agenda = .drain :: rest) (hd : firstDue s = some e)
    (ht : takeDue e s = .error t) : step s = .next t := by
  simp only [step, ha, runTask, drainRound, hd, ht]

theorem dispatch_dma {h : Handle} {ch : Chan} {late : Int} (sd : Side)
    (hs : s.handlers.getD h.toNat .empty = (match sd with | .main => .dmaMain | .sub => .dmaSub)) :
    dispatch h ch late s = .next (runState (dmaEvent sd ch s)) := by
  cases sd <;> simp only [dispatch, hs]

/-- An external callback's scripted commands are queued before what was in progress, and its call is recorded (R119). -/
theorem dispatch_external {h : Handle} {ch : Chan} {late : Int} {k : DWord} {cmds : List Command}
    {more : List (List Command)} (hs : s.handlers.getD h.toNat .empty = .external k)
    (hc : s.agents.callbackIn = cmds :: more) : dispatch h ch late s =
    .next ((s.setAgents { s.agents with
      callbackIn := more, callbackLog := s.agents.callbackLog ++ [⟨k, ch, late⟩] }).setAgenda
        (.callback cmds :: s.agenda)) := by
  simp only [dispatch, hs, drawCallback, hc, setAgents_agenda]

/-- A drain's step that fires an external callback (R118, R119, R121, R122). -/
theorem step_drain_external {k : DWord} {cmds : List Command} {more : List (List Command)}
    (ha : s.agenda = .drain :: rest) (hq : s.queue = e :: tail) (hd : e.deadline.toInt ≤ s.now.toInt)
    (hs : s.handlers.getD e.h.toNat .empty = .external k) (hc : s.agents.callbackIn = cmds :: more)
    (hfit : e.rep = true → e.deadline.toInt + e.period.toInt ≤ maxTime) :
    step s = .next
      { dueTaken e tail s with
        agenda := .callback cmds :: .drain :: rest
        agents := { s.agents with
          callbackIn := more
          callbackLog := s.agents.callbackLog ++ [⟨k, e.ch, s.now.toInt - e.deadline.toInt⟩] } } := by
  rw [step_drain_dispatches ha (firstDue_of_due hq hd) (takeDue_fits hq hfit),
    dispatch_external (s := dueTaken e tail s) hs hc, ← ha]
  rfl

end

/-- Settles O32. -/
theorem drainFiresFirstDue : Obligations.DrainFiresFirstDue := by
  intro s rest ha
  refine ⟨fun hd => step_drain_ends ha hd, fun e tail sd hq hd hr hs => ?_,
    fun e tail k cmds more hq hd hs hc hfit => step_drain_external ha hq hd hs hc hfit,
    fun e tail hq hd hr ho => ⟨_, step_drain_faults ha (firstDue_of_due hq hd) (takeDue_overflows hq hr ho)⟩⟩
  have htaken : takeDue e s = .ok { s with queue := tail } := by
    rw [takeDue_fits hq fun hrep => absurd hrep (by simp [hr])]
    simp only [dueTaken, hr, Bool.false_eq_true, if_false]
  rw [step_drain_dispatches ha (firstDue_of_due hq hd) htaken]
  exact dispatch_dma sd hs

/-! ## A repeating event alone in the queue (R121, R122) -/

/-- The state after one firing of the repeating event `e`, alone in the queue, whose callback `k` issued no command:
`scripts` is what later calls will answer. -/
def firedAlone (e : Event) (k : DWord) (scripts : List (List Command)) (s : State) : State :=
  { s with
    queue := [{ e with deadline := e.deadline + e.period, seq := s.seq }]
    seq := s.seq + 1
    answer := none
    agents := { s.agents with
      callbackIn := scripts
      callbackLog := s.agents.callbackLog ++ [⟨k, e.ch, s.now.toInt - e.deadline.toInt⟩] } }

section
variable {s : State} {e : Event} {k : DWord} {rest : List Task}

/-- One firing takes two steps: the callback begins, and its empty list of commands ends. -/
theorem run_firing {scripts : List (List Command)} (ha : s.agenda = .drain :: rest) (hq : s.queue = [e])
    (hr : e.rep = true) (hs : s.handlers.getD e.h.toNat .empty = .external k)
    (hc : s.agents.callbackIn = [] :: scripts) (hd : e.deadline.toInt ≤ s.now.toInt)
    (hfit : e.deadline.toInt + e.period.toInt ≤ maxTime) :
    Host.Core.run Sys2Proof.core 2 s = .next (firedAlone e k scripts s) := by
  rw [run_succ 1 (step_drain_external ha hq hd hs hc fun _ => hfit), run_succ 0 rfl]
  simp only [dueTaken, if_pos hr, endTask, insertEvent, ← ha]
  rfl

/-- The deadline after a firing, as a number. -/
theorem toInt_next_deadline (hp : 0 < e.period.toInt) (h0 : 0 ≤ e.deadline.toInt)
    (hfit : e.deadline.toInt + e.period.toInt ≤ maxTime) :
    (e.deadline + e.period).toInt = e.deadline.toInt + e.period.toInt := by
  rw [← i64_add, toInt_i64 _ (by omega) hfit]

end

/-- The state after `n + 1` firings of `e` (R121, R122). -/
def firedTimes (e : Event) (k : DWord) (scripts : List (List Command)) (n : Nat) (s : State) : State :=
  { s with
    queue := [{ e with
      deadline := BitVec.ofInt 64 (e.deadline.toInt + (n + 1 : Nat) * e.period.toInt)
      seq := s.seq + BitVec.ofNat 64 n }]
    seq := s.seq + BitVec.ofNat 64 (n + 1)
    answer := none
    agents := { s.agents with
      callbackIn := scripts
      callbackLog := s.agents.callbackLog ++ (List.range (n + 1)).map fun j =>
        ⟨k, e.ch, s.now.toInt - (e.deadline.toInt + j * e.period.toInt)⟩ } }

theorem firedAlone_eq_firedTimes (e : Event) (k : DWord) (scripts : List (List Command)) (s : State) :
    firedAlone e k scripts s = firedTimes e k scripts 0 s := by
  simp [firedAlone, firedTimes, BitVec.ofInt_add]

/-- One firing and then `n + 1` of the event it reinserted are `n + 2` firings. -/
theorem firedTimes_firedAlone {e : Event} (k : DWord) (used scripts : List (List Command)) (n : Nat) (s : State)
    (hnext : (e.deadline + e.period).toInt = e.deadline.toInt + e.period.toInt) :
    firedTimes { e with deadline := e.deadline + e.period, seq := s.seq } k scripts n (firedAlone e k used s) =
      firedTimes e k scripts (n + 1) s := by
  have hdead : ∀ j : Nat, (e.deadline + e.period).toInt + j * e.period.toInt =
      e.deadline.toInt + (j + 1 : Nat) * e.period.toInt := fun j => by
    rw [hnext]
    push_cast
    ring
  have hseq : ∀ j : Nat, s.seq + 1 + BitVec.ofNat 64 j = s.seq + BitVec.ofNat 64 (j + 1) := fun j => by
    rw [BitVec.ofNat_add, BitVec.add_assoc, BitVec.add_comm 1]
    rfl
  simp only [firedTimes, firedAlone, hdead, hseq, List.range_succ_eq_map (n := n + 1), List.map_cons, List.map_map,
    List.append_assoc, List.singleton_append]
  simp [Function.comp_def]

/-- `n + 1` firings of a repeating event that are all due take `2 * (n + 1)` steps and leave `firedTimes` (R118, R121). -/
theorem run_firings {k : DWord} {rest : List Task} {more : List (List Command)} (n : Nat) : ∀ (s : State) (e : Event),
    s.agenda = .drain :: rest → s.queue = [e] → e.rep = true → 0 < e.period.toInt → 0 ≤ e.deadline.toInt →
    s.handlers.getD e.h.toNat .empty = .external k → s.agents.callbackIn = List.replicate (n + 1) [] ++ more →
    (∀ j < n + 1, e.deadline.toInt + j * e.period.toInt ≤ s.now.toInt) →
    e.deadline.toInt + (n + 1 : Nat) * e.period.toInt ≤ maxTime →
    Host.Core.run Sys2Proof.core (2 * (n + 1)) s = .next (firedTimes e k more n s) := by
  induction n with
  | zero =>
    intro s e ha hq hr hp h0 hs hc hd hfit
    rw [run_firing (scripts := more) ha hq hr hs hc (by simpa using hd 0 (by omega)) (by simpa using hfit),
      firedAlone_eq_firedTimes]
  | succ n ih =>
    intro s e ha hq hr hp h0 hs hc hd hfit
    have hsum : e.deadline.toInt + (n + 1 + 1 : Nat) * e.period.toInt =
        e.deadline.toInt + e.period.toInt + (n + 1 : Nat) * e.period.toInt := by
      push_cast
      ring
    have hmul : 0 ≤ ((n + 1 : Nat) : Int) * e.period.toInt := Int.mul_nonneg (by omega) hp.le
    rw [hsum] at hfit
    have hone : e.deadline.toInt + e.period.toInt ≤ maxTime := by omega
    have hnext := toInt_next_deadline hp h0 hone
    rw [Nat.mul_succ, Nat.add_comm, run_add 2 _ (run_firing ha hq hr hs hc (by simpa using hd 0 (by omega)) hone),
      ← firedTimes_firedAlone k (List.replicate (n + 1) [] ++ more) more n s hnext]
    refine ih _ _ ha rfl hr hp ?_ hs rfl (fun j hj => ?_) ?_
    · show 0 ≤ (e.deadline + e.period).toInt
      omega
    · have hj' := hd (j + 1) (by omega)
      push_cast at hj'
      show (e.deadline + e.period).toInt + j * e.period.toInt ≤ s.now.toInt
      rw [hnext]
      linarith
    · show (e.deadline + e.period).toInt + (n + 1 : Nat) * e.period.toInt ≤ maxTime
      rwa [hnext]

/-- Settles O33, by induction on the number of firings. -/
theorem repeatingEventNeverDrifts : Obligations.RepeatingEventNeverDrifts := by
  intro s e k count rest more ha hq hr hp h0 hs hc hd hfit hcount
  obtain ⟨n, rfl⟩ := Nat.exists_eq_add_of_le' hcount
  exact run_firings n s e ha hq hr hp h0 hs hc hd hfit

/-! ## The model never stops (R119, R271, log 12) -/

section
variable {s : State}

/-- A command always has a next state: its rule ends or faults. -/
theorem exec_next (i : Instr) (s : State) : ∃ t, exec i s = .next t := by
  rcases exec_eq_issue i with ⟨a, b, rfl⟩ | ⟨rule, e⟩
  · exact ⟨_, rfl⟩
  · exact ⟨_, e s⟩

theorem port_next (c : Command) (s : State) : ∃ t, port c s = .next t := by
  unfold port
  split
  · exact exec_next _ s
  · exact ⟨_, rfl⟩

theorem runHost_next (s : State) : ∃ t, runHost s = .next t := by
  unfold runHost
  split
  · exact ⟨_, rfl⟩
  · rename_i x rest _
    cases x with
    | command c => exact port_next c _
    | store sp a bytes => exact ⟨_, rfl⟩
    | reset => exact ⟨_, rfl⟩

/-- A handle of a filled slot has a callback (R119). -/
theorem dispatch_next {h : Handle} (hs : s.handlers.getD h.toNat .empty ≠ .empty) (ch : Chan) (late : Int) :
    ∃ t, dispatch h ch late s = .next t := by
  unfold dispatch
  split
  · exact ⟨_, rfl⟩
  · exact ⟨_, rfl⟩
  · exact ⟨_, rfl⟩
  · exact absurd ‹_› hs

/-- Every slot below `nh` is filled (R27). -/
theorem filled_of_lt (h : HandlersOk s) {n : Nat} (hn : n < s.nh) : s.handlers.getD n .empty ≠ .empty := by
  obtain ⟨_, _, hmax, hslots⟩ := h
  obtain ⟨h0, h1, h2, _⟩ := hslots n (by omega)
  intro hempty
  rcases (by omega : n = 0 ∨ n = 1 ∨ 2 ≤ n) with e | e | e
  · exact nomatch (h0 e).symm.trans hempty
  · exact nomatch (h1 e).symm.trans hempty
  · exact (h2 e hn).1 hempty

/-- A round of a drain has a next state: a queued event names a filled slot (R28), and taking it out keeps the table. -/
theorem drainRound_next (h : Inv s) (rest : List Task) : ∃ t, drainRound rest s = .next t := by
  unfold drainRound
  split
  · exact ⟨_, rfl⟩
  · rename_i e he
    obtain ⟨hs, -⟩ := inv_iff.1 h
    obtain ⟨⟨hh, _⟩, _⟩ := hs.first_event (queue_of_firstDue he)
    split
    · exact ⟨_, rfl⟩
    · rename_i u hu
      obtain ⟨q, n, rfl⟩ := takeDue_frame hu
      exact dispatch_next (s := { s with queue := q, seq := n }) (filled_of_lt hs.handlers hh) _ _

theorem runTask_next (h : Inv s) (k : Task) (rest : List Task) : ∃ t, runTask k rest s = .next t := by
  unfold runTask
  split
  · rename_i sd left x xs
    cases x with
    | bus c => exact port_next c _
    | store sp a bytes => exact ⟨_, rfl⟩
  · exact ⟨_, rfl⟩
  · exact ⟨_, rfl⟩
  · exact ⟨_, rfl⟩
  · exact ⟨_, rfl⟩
  · exact drainRound_next h rest
  · exact port_next _ _
  · exact ⟨_, rfl⟩
  · exact ⟨_, rfl⟩

end

/-- Settles O16: of all that a step can run, a drain's round alone could stop, and the invariant excludes that. -/
theorem modelNeverStops : Obligations.ModelNeverStops := by
  intro s h
  unfold step
  split
  · exact runHost_next s
  · exact runTask_next h _ _

end Sys2Proof.Safety

/-! PROOFS for 41_clock_driver.md: CLK.CONV (O34), the commands of the driver (O30), and a whole tick in which the CPUs
issue nothing and no event falls due (O37). -/

namespace Sys2Proof.Safety

open Sys2Proof.Machine

/-- Settles O34: the two clauses are the range check of CLK.CONV's rule. -/
theorem convertCarriesRemainder : Obligations.ConvertCarriesRemainder := by
  intro m s ha
  refine ⟨fun hm => exec_of_rule_ok ha rfl ?_, fun hm => exec_of_rule_fault ha rfl ?_⟩
  · exact if_pos hm
  · exact if_neg (Nat.not_lt.2 hm)

/-- Settles O30. -/
theorem driverCommands : Obligations.DriverCommands := fun _ _ =>
  ⟨fun ha => exec_of_rule_ok ha rfl rfl, fun ha => exec_of_rule_ok ha rfl rfl, fun ha => exec_of_rule_ok ha rfl rfl,
    fun ha => exec_of_rule_ok ha rfl rfl⟩

/-! ## A CPU slice whose instructions access nothing (R143, R144) -/

/-- What the CPU of side `sd` will do, instruction by instruction. -/
def cpuScript (sd : Side) (g : Agents) : List (List CpuAct) :=
  match sd with
  | .main => g.mainIn
  | .sub => g.subIn

/-- The pending line as the CPU of side `sd` last consulted it. -/
def lastSample (sd : Side) (g : Agents) : Bool :=
  match sd with
  | .main => g.sampledMain
  | .sub => g.sampledSub

/-- The agents once the CPU of side `sd` has the instructions `more` still to begin and last read its pending line as
`line`. -/
def cpuMoved (sd : Side) (more : List (List CpuAct)) (line : Bool) (g : Agents) : Agents :=
  match sd with
  | .main => { g with mainIn := more, sampledMain := line }
  | .sub => { g with subIn := more, sampledSub := line }

/-- The state after a slice of `n` instructions that access nothing, `more` being left of the CPU's script: the CPU has
consulted its pending line unless `n` is 0. -/
def quietSlice (sd : Side) (n : Nat) (more : List (List CpuAct)) (rest : List Task) (s : State) : State :=
  endTask rest (s.setAgents
    (cpuMoved sd more (if n = 0 then lastSample sd s.agents else pendingLine s sd) s.agents))

section
variable {s : State} {sd : Side} {rest : List Task} {more : List (List CpuAct)}

@[simp] theorem cpuScript_cpuMoved (line : Bool) (g : Agents) : cpuScript sd (cpuMoved sd more line g) = more := by
  cases sd <;> rfl

@[simp] theorem lastSample_cpuMoved (line : Bool) (g : Agents) : lastSample sd (cpuMoved sd more line g) = line := by
  cases sd <;> rfl

@[simp] theorem cpuMoved_self (g : Agents) : cpuMoved sd (cpuScript sd g) (lastSample sd g) g = g := by
  cases sd <;> rfl

@[simp] theorem cpuMoved_cpuMoved (before : List (List CpuAct)) (line line' : Bool) (g : Agents) :
    cpuMoved sd more line' (cpuMoved sd before line g) = cpuMoved sd more line' g := by
  cases sd <;> rfl

@[simp] theorem pendingLine_quietSlice (x : Side) (n : Nat) :
    pendingLine (quietSlice sd n more rest s) x = pendingLine s x := by
  cases x <;> rfl

@[simp] theorem quietSlice_now (n : Nat) : (quietSlice sd n more rest s).now = s.now := rfl
@[simp] theorem quietSlice_queue (n : Nat) : (quietSlice sd n more rest s).queue = s.queue := rfl

@[simp] theorem convertResult_quietSlice (n d : Nat) :
    convertResult d (quietSlice sd n more rest s) = convertResult d s := rfl

/-- A CPU consults its pending line and begins an instruction that accesses nothing (R143, R144). -/
theorem beginInstruction_quiet (n : Nat) (hc : cpuScript sd s.agents = [] :: more) :
    beginInstruction sd n rest s =
      (s.setAgents (cpuMoved sd more (pendingLine s sd) s.agents)).setAgenda (.slice sd n [] :: rest) := by
  cases sd with
  | main =>
    have hm : s.agents.mainIn = [] :: more := hc
    simp only [beginInstruction, sampleLine, drawInstruction, setAgents_agents, hm]
    rfl
  | sub =>
    have hm : s.agents.subIn = [] :: more := hc
    simp only [beginInstruction, sampleLine, drawInstruction, setAgents_agents, hm]
    rfl

/-- A slice of `n` instructions that access nothing takes a step for each and one to end (R143, R144, log 1). -/
theorem run_quietSlice (n : Nat) : ∀ s : State, s.agenda = .slice sd n [] :: rest →
    cpuScript sd s.agents = List.replicate n [] ++ more →
    Host.Core.run Sys2Proof.core (n + 1) s = .next (quietSlice sd n more rest s) := by
  induction n with
  | zero =>
    intro s ha hc
    have hend : step s = .next (endTask rest s) := by simp only [step, ha, runTask]
    obtain rfl : cpuScript sd s.agents = more := hc
    rw [run_succ 0 hend, quietSlice, if_pos rfl, cpuMoved_self]
    rfl
  | succ n ih =>
    intro s ha hc
    have hbegin : step s = .next (beginInstruction sd n rest s) := by simp only [step, ha, runTask]
    rw [run_succ (n + 1) hbegin, beginInstruction_quiet n hc, ih _ rfl (cpuScript_cpuMoved ..)]
    simp only [quietSlice, setAgenda_agents, setAgents_agents, pendingLine_setAgenda, pendingLine_setAgents,
      lastSample_cpuMoved, cpuMoved_cpuMoved, ite_self, if_neg (Nat.succ_ne_zero n)]
    rfl

end

/-! ## The tick around the slices (R145) -/

/-- The state in which the Host's DRV.TICK has laid out the tick of `n` instructions, `acts` being left of the Host's
script (R145). -/
def tickBegun (n : Word) (acts : List HostAct) (s : State) : State :=
  { s with
    agenda := tickTasks n.toNat (n.toNat * s.cfg.mainCpi)
    answer := none
    agents := { s.agents with host := acts } }

section
variable {s : State} {rest : List Task}

@[simp] theorem pendingLine_convertState (x : Side) (d : Nat) : pendingLine (convertState d s) x = pendingLine s x := by
  cases x <;> rfl

@[simp] theorem convertState_now (d : Nat) : (convertState d s).now = s.now := rfl
@[simp] theorem convertState_queue (d : Nat) : (convertState d s).queue = s.queue := rfl

/-- Nothing fires while every deadline lies ahead (R118). -/
theorem firstDue_of_all_ahead (hq : ∀ e ∈ s.queue, s.now.toInt < e.deadline.toInt) : firstDue s = none := by
  cases h : s.queue with
  | nil => simp only [firstDue, h]
  | cons e tail => exact firstDue_of_not_due h (hq e (h ▸ List.mem_cons_self ..))

/-- Between ticks the Host's DRV.TICK begins one (R145). -/
theorem step_drvTick {n : Word} {acts : List HostAct} (hp : s.phase = .running) (ha : s.agenda = [])
    (hh : s.agents.host = .command (encode (.drvTick n)) :: acts) : step s = .next (tickBegun n acts s) := by
  have hacc : Accepted (.drvTick n) (s.setAgents { s.agents with host := acts }) :=
    ⟨(legal_hostRun rfl).2 ⟨hp, issuer_of_idle ha⟩, rfl⟩
  obtain ⟨hhost, -, -⟩ := stepRunsPresentedCommand s _ _ (decode_encode (i := .drvTick n) rfl) rfl
  obtain ⟨-, htick, -, -⟩ := driverCommands (s.setAgents { s.agents with host := acts }) n
  rw [hhost acts ha hh, htick hacc, setAgents_agenda, ha]
  rfl

/-- A tick's conversion is followed by the secondary slice that it gives (R141, R145). -/
theorem step_convert {d : Nat} (ha : s.agenda = .convert d :: rest) : step s = .next
    ((convertState d s).setAgenda (.slice .sub (convertResult d s) [] :: rest)) := by
  simp only [step, ha, runTask]

/-- A tick's conversion and the secondary slice after it, when the secondary CPU accesses nothing (R141, R144). -/
theorem run_quiet_convert {d : Nat} {more : List (List CpuAct)} (ha : s.agenda = .convert d :: rest)
    (hc : s.agents.subIn = List.replicate (convertResult d s) [] ++ more) :
    Host.Core.run Sys2Proof.core (convertResult d s + 2) s =
      .next (quietSlice .sub (convertResult d s) more rest (convertState d s)) := by
  have hslice := run_quietSlice (convertResult d s)
    ((convertState d s).setAgenda (.slice .sub (convertResult d s) [] :: rest)) rfl hc
  rw [run_succ _ (step_convert ha), hslice]
  rfl

/-- A tick's advance, to a time that is an i64 (R117, R145). -/
theorem step_advance {d : Nat} (ha : s.agenda = .advance d :: rest) (hd : s.now.toInt + d ≤ maxTime) : step s = .next
    ((s.setAgenda rest).setNow (i64 (s.now.toInt + d))) := by
  simp only [step, ha, runTask, advance_moves (s := s.setAgenda rest) (Int.natCast_nonneg d) hd, runState_ok,
    setAgenda_now]

/-- The tick is counted (R145). -/
theorem step_tickEnd (ha : s.agenda = .tickEnd :: rest) :
    step s = .next { endTask rest s with tick := s.tick + 1 } := by
  simp only [step, ha, runTask]

/-- The end of a tick in which nothing falls due: the advance, the drain and the count, a step each (R145, log 1). -/
theorem run_quiet_tickEnd {d : Nat} (ha : s.agenda = [.advance d, .drain, .tickEnd]) (hd : s.now.toInt + d ≤ maxTime)
    (hq : ∀ e ∈ s.queue, s.now.toInt + d < e.deadline.toInt) : Host.Core.run Sys2Proof.core 3 s = .next
      { s with now := i64 (s.now.toInt + d), tick := s.tick + 1, agenda := [], answer := none } := by
  have hnow : (i64 (s.now.toInt + d)).toInt = s.now.toInt + d :=
    toInt_i64 _ (by have := s.now.le_toInt; omega) hd
  have hnone : firstDue ((s.setAgenda [.drain, .tickEnd]).setNow (i64 (s.now.toInt + d))) = none :=
    firstDue_of_all_ahead (by rw [setNow_now, hnow]; exact hq)
  rw [run_succ 2 (step_advance ha hd), run_succ 1 (step_drain_ends rfl hnone), run_succ 0 (step_tickEnd rfl)]
  simp only [endTask, State.setAgenda, State.setNow]
  rfl

/-- The tasks of a tick of `n` main instructions and `d` cycles in which the CPUs access nothing and nothing falls due
(R143 to R145, logs 1 and 21). -/
theorem run_quiet_tick {n d : Nat} {mains subs : List (List CpuAct)} (ha : s.agenda = tickTasks n d)
    (hmain : s.agents.mainIn = List.replicate n [] ++ mains)
    (hsub : s.agents.subIn = List.replicate (convertResult d s) [] ++ subs)
    (hd : s.now.toInt + d ≤ maxTime) (hq : ∀ e ∈ s.queue, s.now.toInt + d < e.deadline.toInt) :
    Host.Core.run Sys2Proof.core (n + 1 + (convertResult d s + 2 + 3)) s = .next
      { convertState d s with
        now := i64 (s.now.toInt + d)
        tick := s.tick + 1
        agenda := []
        answer := none
        agents := cpuMoved .sub subs
          (if convertResult d s = 0 then s.agents.sampledSub else pendingLine s .sub)
          (cpuMoved .main mains (if n = 0 then s.agents.sampledMain else pendingLine s .main) s.agents) } := by
  have hconvert :=
    run_quiet_convert (s := quietSlice .main n mains [.convert d, .advance d, .drain, .tickEnd] s) rfl hsub
  rw [convertResult_quietSlice] at hconvert
  have hend := run_quiet_tickEnd (d := d)
    (s := quietSlice .sub (convertResult d s) subs [.advance d, .drain, .tickEnd]
      (convertState d (quietSlice .main n mains [.convert d, .advance d, .drain, .tickEnd] s)))
    rfl (by simpa using hd) (by simpa using hq)
  rw [run_add (n + 1) _ (run_quietSlice n s ha hmain), run_add _ 3 hconvert, hend, quietSlice,
    pendingLine_convertState, pendingLine_quietSlice]
  simp only [quietSlice, endTask, State.setAgents, lastSample, cpuMoved, convertState, State.setAcc]

end

/-- Settles O37: the Host's DRV.TICK, then the tasks that it laid out. -/
theorem quietTickRuns : Obligations.QuietTickRuns := by
  intro s n rest mains subs cycles m hp ha hh hmain hsub hd hq
  have hsteps : n.toNat + m + 7 = n.toNat + 1 + (m + 2 + 3) + 1 := by omega
  have hzero : n = 0 ↔ n.toNat = 0 := BitVec.toNat_eq
  have htick := run_quiet_tick (s := tickBegun n rest s) rfl hmain hsub hd hq
  rw [hsteps, run_succ _ (step_drvTick hp ha hh)]
  refine htick.trans ?_
  simp only [hzero, ← ha]
  rfl

end Sys2Proof.Safety


/-! PROOFS for 42_dma.md, the register port: reads (O45), the writes of an Idle channel (O38), the request line (O44), a
start's checks (O40), and what a start that passes them leaves (O41). -/

namespace Sys2Proof.Safety

open Sys2Proof.Machine

/-! ## Reads (R164) -/

/-- Three flags in the low bits of a word, zero-extended (R93, R164). -/
theorem setWidth_flags (x y z : Bool) :
    ((flagBit x).setWidth 32 ||| ((flagBit y).setWidth 32 <<< 1) ||| ((flagBit z).setWidth 32 <<< 2) : Word).setWidth 64 =
      ((if x then 1 else 0) + 2 * (if y then 1 else 0) + 4 * (if z then 1 else 0) : DWord) := by
  revert x y z
  decide

/-- Settles O45. -/
theorem channelReads : Obligations.ChannelReads := by
  intro sd c s ch gives bit
  have hch : (clearAnswer s).chan sd c = ch := clearAnswer_chan s sd c
  have answers : ∀ {reg : ChanReg} {w : Word}, readChannel sd c reg (clearAnswer s) = .ok (replyWord w (clearAnswer s)) →
      gives reg (w.setWidth 64) := fun hr ha => exec_of_rule_ok ha rfl hr
  refine ⟨?_, ?_, ?_, ?_, ?_, ?_, fun reg hreg ha => ?_⟩
  · exact answers (by rw [readChannel, hch])
  · exact answers (by rw [readChannel, hch])
  · exact answers (by rw [readChannel, hch])
  · exact answers (by rw [readChannel, hch])
  · exact answers (by rw [readChannel, hch])
  · rw [← setWidth_flags]
    exact answers (by rw [readChannel, statusWord_clearAnswer]; rfl)
  · refine exec_of_rule_fault ha rfl ?_
    rcases hreg with rfl | rfl <;> rfl

/-! ## The engines' commands when they defer no start (R160, R166, R184) -/

section
variable {s t : State} {sd : Side} {c : Chan}

/-- What a rule leaves stays when it defers no start (R184). -/
theorem processed {r : Run} (hr : r = .ok t) (h : t.pendingStarts = []) : (r >>= processPendingStarts) = .ok t := by
  rw [hr]
  exact processPendingStarts_nil h

/-- A writable register of an Idle channel is stored, or starts the channel (R160). -/
theorem writeChannel_idle {reg : ChanReg} {v : Word} (hw : writeRefused s.cfg sd c reg v = none)
    (ha : active s sd c = false) : writeChannel sd c reg v s = storeOrStart sd c reg v s >>= processPendingStarts := by
  rw [writeChannel, hw]
  show (if active s sd c = true then _ else _) = _
  rw [if_neg (by simp [ha])]

/-- A register write of an Idle channel that starts nothing stores the masked value (R160, R161). -/
theorem exec_dmaWr_stores {reg : ChanReg} {v : Word} (h : Accepted (.dmaWr sd c reg v) s)
    (hw : writeRefused s.cfg sd c reg v = none) (ha : active s sd c = false) (hp : s.pendingStarts = [])
    (hn : ¬(reg = .chcr ∧ strOf sd v = true)) :
    exec (.dmaWr sd c reg v) s = .next (clearAnswer (s.setChan sd c (writeReg sd reg v (s.chan sd c)))) := by
  refine exec_of_rule_ok h rfl ?_
  rw [writeChannel_idle (s := clearAnswer s) hw (by simpa using ha), storeOrStart, if_neg hn, clearAnswer_chan,
    setChan_clearAnswer]
  exact processed rfl hp

end

/-- Settles O38. -/
theorem idleChannelRegisterWrites : Obligations.IdleChannelRegisterWrites := by
  intro sd c v s ha hp ch next chcrBits addrBits cntBits
  refine ⟨fun h => ?_, fun h => ?_, fun h => ?_, fun h hv => ?_⟩
  · refine (exec_dmaWr_stores h rfl ha hp (by simp)).trans ?_
    cases sd <;> rfl
  · refine (exec_dmaWr_stores h rfl ha hp (by simp)).trans ?_
    cases sd <;> rfl
  · refine (exec_dmaWr_stores h rfl ha hp (by simp)).trans ?_
    cases sd <;> rfl
  · refine (exec_dmaWr_stores h rfl ha hp (by simp [hv])).trans ?_
    cases sd <;> rfl

/-! ## The request line (R166) -/

section
variable {s : State} {sd : Side} {c : Chan}

/-- The line of a channel stored (R37, R166). -/
def withLine (sd : Side) (c : Chan) (b : Bool) (s : State) : State := s.setChan sd c { s.chan sd c with drq := b }

/-- A rising edge of an enabled engine's channel checks the channel (R166, R171). -/
theorem exec_dmaDrq_rises (h : Accepted (.dmaDrq sd c true) s) (hs : sifChannel s.cfg sd c = false)
    (hd : (s.chan sd c).drq = false) (he : engineEnabled s sd = true) :
    exec (.dmaDrq sd c true) s =
      .next (runState (checkRunning sd c (clearAnswer (withLine sd c true s)) >>= processPendingStarts)) := by
  rw [exec, execDmaDrq, issue_accepted _ _ _ h.1 h.2, setDrq, clearAnswer_cfg, hs, if_neg (by decide), storeDrq,
    clearAnswer_chan, engineEnabled_clearAnswer, if_pos ⟨hd, rfl, he⟩, setChan_clearAnswer]
  rfl

/-- A line that does not rise, or rises on a disabled engine, is stored only (R166). -/
theorem exec_dmaDrq_stores {b : Bool} (h : Accepted (.dmaDrq sd c b) s) (hs : sifChannel s.cfg sd c = false)
    (hp : s.pendingStarts = []) (hn : ¬((s.chan sd c).drq = false ∧ b = true ∧ engineEnabled s sd = true)) :
    exec (.dmaDrq sd c b) s = .next (clearAnswer (withLine sd c b s)) := by
  refine exec_of_rule_ok h rfl ?_
  rw [setDrq, clearAnswer_cfg, hs, if_neg (by decide), storeDrq, clearAnswer_chan, engineEnabled_clearAnswer, if_neg hn,
    setChan_clearAnswer]
  exact processed rfl hp

/-- A SIF channel's line cannot be driven (R166, C6). -/
theorem exec_dmaDrq_sif {b : Bool} (h : Accepted (.dmaDrq sd c b) s) (hs : sifChannel s.cfg sd c = true) :
    exec (.dmaDrq sd c b) s = .next
      (takeFault .contradictoryControl [sideCode sd, c.setWidth 64, (flagBit b).setWidth 64] s) := by
  refine exec_of_rule_fault h rfl ?_
  rw [setDrq, clearAnswer_cfg, if_pos hs]

end

/-- Settles O44. -/
theorem requestLineWrites : Obligations.RequestLineWrites := by
  intro sd c b s h u
  refine ⟨fun hs => ?_, fun hs hp hstay => ?_⟩
  · rw [exec_dmaDrq_sif h hs, setWidth_flagBit]
  · by_cases hrise : (s.chan sd c).drq = false ∧ b = true ∧ engineEnabled s sd = true
    · obtain ⟨hd, rfl, he⟩ := hrise
      have hwait : running (clearAnswer u) sd c = true ∨ gate (clearAnswer u) sd c = false := by
        rw [running_clearAnswer, gate_clearAnswer]
        rcases hstay with hb | hd' | he' | hg | hr
        · cases hb
        · rw [hd] at hd'; cases hd'
        · rw [he] at he'; cases he'
        · exact .inr hg
        · exact .inl hr
      rw [exec_dmaDrq_rises h hs hd he]
      exact congrArg (fun r => Host.Outcome.next (Machine.runState r)) (processed (checkRunning_stays hwait) hp)
    · exact exec_dmaDrq_stores h hs hp hrise

/-! ## Starts (R160, R162) -/

section
variable {s : State} {sd : Side} {c : Chan}

/-- The CHCR value that starts a channel stored, and nothing else (R160). -/
def withChcr (sd : Side) (c : Chan) (w : Word) (s : State) : State := s.setChan sd c { s.chan sd c with chcr := w }

/-- A channel that a command names exists, when the engine has its `NCH[s]` channels (R30, R95). -/
theorem lt_length_of_dmaWr {reg : ChanReg} {v : Word} (h : Accepted (.dmaWr sd c reg v) s)
    (hl : (s.dma sd).chans.length = s.cfg.nch sd) : c.toNat < (s.dma sd).chans.length := by
  rw [hl]
  exact of_decide_eq_true h.2

theorem chan_withChcr (hc : c.toNat < (s.dma sd).chans.length) (w : Word) :
    (withChcr sd c w s).chan sd c = { s.chan sd c with chcr := w } := chan_setChan_self s sd c _ hc

/-- A CHCR write with STR 1 to an Idle channel stores the masked value and starts the channel (R160). -/
theorem exec_dmaWr_starts {v : Word} (h : Accepted (.dmaWr sd c .chcr v) s) (ha : active s sd c = false)
    (hv : strOf sd v = true) : exec (.dmaWr sd c .chcr v) s = .next (Machine.runState
      (startChannel sd c (clearAnswer (withChcr sd c (v &&& chcrMask sd) s)) >>= processPendingStarts)) := by
  rw [exec, execDmaWr, issue_accepted _ _ _ h.1 h.2, writeChannel_idle rfl (by simpa using ha), storeOrStart,
    if_pos ⟨rfl, hv⟩, clearAnswer_chan, setChan_clearAnswer]
  rfl

/-- A start whose check fails ends with the channel's diagnostic, CHCR as written (R162, R271). -/
theorem exec_dmaWr_start_faults {v : Word} {k : FaultKind} (h : Accepted (.dmaWr sd c .chcr v) s)
    (ha : active s sd c = false) (hv : strOf sd v = true)
    (hk : ∀ t, t = clearAnswer (withChcr sd c (v &&& chcrMask sd) s) → startChannel sd c t = channelFault k sd c t) :
    exec (.dmaWr sd c .chcr v) s = .next (takeFault k (channelInfo sd c (withChcr sd c (v &&& chcrMask sd) s))
      (withChcr sd c (v &&& chcrMask sd) s)) := by
  rw [exec_dmaWr_starts h ha hv, hk _ rfl]
  simp only [channelFault, channelInfo, clearAnswer_chan]
  rfl

end

/-- Settles O40. -/
theorem startChecksInOrder : Obligations.StartChecksInOrder := by
  intro sd c v s h ha hv hl w ch sif2 contradictory offAddress stops
  have hchan := chan_withChcr (lt_length_of_dmaWr h hl) w
  have stop : ∀ {k}, (∀ t : State, t.chan sd c = { ch with chcr := w } → t.cfg = s.cfg →
      startChannel sd c t = channelFault k sd c t) → stops k := fun hk => by
    refine (exec_dmaWr_start_faults h ha hv fun t ht => hk t ?_ ?_).trans ?_
    · rw [ht, clearAnswer_chan, hchan]
    · rw [ht]; rfl
    · rw [channelInfo, hchan]
      rfl
  refine ⟨fun h1 => stop fun t hx hcfg => ?_, fun h1 h2 => stop fun t hx hcfg => ?_,
    fun h1 h2 h3 => stop fun t hx hcfg => ?_, fun h1 h2 h3 h4 h5 => stop fun t hx hcfg => ?_,
    fun h1 h2 h3 h4 h5 => stop fun t hx hcfg => ?_, fun h1 h2 h3 h4 h5 h6 => stop fun t hx hcfg => ?_,
    fun h1 h2 h3 h4 h5 h6 h7 => stop fun t hx hcfg => ?_, fun h1 h2 h3 h4 h5 h6 h7 => stop fun t hx hcfg => ?_⟩ <;>
  simp only [startChannel, chained, toMem, hx, hcfg]
  · rw [if_pos h1]
  · rw [if_neg h1, if_pos h2]
  · rw [if_neg h1, if_neg h2, if_pos h3]
  · rw [if_neg h1, if_neg h2, if_neg (by simp [h3]), if_pos ⟨h4, h5⟩]
  · rw [if_neg h1, if_neg h2, if_neg (by simp [h3]), if_neg h4, if_pos h5]
  · rw [if_neg h1, if_neg h2, if_neg (by simp [h3]), if_neg (by simp [h5]), if_neg h4, if_pos h5, if_pos h6]
  · rw [if_neg h1, if_neg h2, if_neg (by simp [h3]), if_neg (by simp [h5]), if_neg h4, if_pos h5, if_neg (by simp [ch, h6]),
      if_pos h7]
  · rw [if_neg h1, if_neg h2, if_neg (by simp [h3]), if_neg (by simp [h4]), if_neg h5, if_neg (by simp [h6]), if_pos h7]

section
variable {s : State} {sd : Side} {c : Chan} {v w : Word}

/-- A start that passes every check loads its count and looks at its gate (R162, R163, R171). -/
theorem startChannel_passes (hc : c.toNat < (s.dma sd).chans.length) (h : StartChecks sd c w s) :
    startChannel sd c (withChcr sd c w s) = checkRunning sd c (started sd c w s) := by
  obtain ⟨hsif2, hmode, hmodel, hchain, hprod, hcons, hnormal, htag⟩ := h
  have hload : ∀ x, (withChcr sd c w s).setChan sd c x = s.setChan sd c x := setChan_setChan s sd c _
  have hends : ¬(((produces s.cfg sd c).isSome = true ∧ toMemOf w = true) ∨
      ((consumes s.cfg sd c).isSome = true ∧ toMemOf w = false)) := by
    rintro (⟨hp, hm⟩ | ⟨hc, hm⟩)
    · rw [hprod hp] at hm; cases hm
    · rw [hcons hc] at hm; cases hm
  simp only [startChannel, chained, toMem, chan_withChcr hc, hload]
  rw [show (withChcr sd c w s).cfg = s.cfg from rfl, if_neg hsif2, if_neg hmode, if_neg (by simp [hmodel]), if_neg hchain,
    if_neg hends]
  by_cases hw : chainOf sd w = false
  · obtain ⟨hzero, hoff, hquad⟩ := hnormal hw
    rw [if_pos hw, if_neg (by simp [hzero]), if_neg (by simpa [hoff] using hquad), started, hw]
    rfl
  · rw [Bool.not_eq_false] at hw
    rw [if_neg (by simp [hw]), if_neg (by simp [htag hw]), started, hw]
    rfl

@[simp] theorem started_pendingStarts : (started sd c w s).pendingStarts = s.pendingStarts := rfl

/-- Clearing the answer commutes with the start's stores. -/
theorem started_clearAnswer : started sd c w (clearAnswer s) = clearAnswer (started sd c w s) := by
  cases sd <;> rfl

/-- DMA.WR of a CHCR value whose start passes every check (R160, R162). -/
theorem exec_dmaWr_passes (h : Accepted (.dmaWr sd c .chcr v) s) (ha : active s sd c = false) (hv : strOf sd v = true)
    (hl : (s.dma sd).chans.length = s.cfg.nch sd) (hk : StartChecks sd c (v &&& chcrMask sd) s) :
    exec (.dmaWr sd c .chcr v) s = .next (Machine.runState
      (checkRunning sd c (clearAnswer (started sd c (v &&& chcrMask sd) s)) >>= processPendingStarts)) := by
  have hc := lt_length_of_dmaWr h hl
  rw [exec_dmaWr_starts h ha hv, ← started_clearAnswer,
    ← startChannel_passes (s := clearAnswer s) (by simpa using hc)
      (by cases sd <;> exact hk)]
  cases sd <;> rfl

/-- DMA.WR of a CHCR value whose start passes every check, when the start defers no other (R160, R184). -/
theorem exec_dmaWr_started {t : State} (h : Accepted (.dmaWr sd c .chcr v) s) (ha : active s sd c = false)
    (hv : strOf sd v = true) (hl : (s.dma sd).chans.length = s.cfg.nch sd)
    (hk : StartChecks sd c (v &&& chcrMask sd) s)
    (ht : checkRunning sd c (clearAnswer (started sd c (v &&& chcrMask sd) s)) = .ok t) (hp : t.pendingStarts = []) :
    exec (.dmaWr sd c .chcr v) s = .next t := by
  rw [exec_dmaWr_passes h ha hv hl hk, processed ht hp, runState_ok]

end

/-- Settles O41. -/
theorem startLeavesChannelWaiting : Obligations.StartLeavesChannelWaiting := by
  intro sd c v s w h ha hv hl hp hk hg
  exact exec_dmaWr_started h ha hv hl hk (checkRunning_stays (.inr (by simpa using hg))) hp

end Sys2Proof.Safety


/-! PROOFS for 42_dma.md, the bursts: the first burst of a start (O42), a request edge (O43), a closed gate (O51), the chain
tags (O48, O49). -/

namespace Sys2Proof.Safety

open Sys2Proof.Machine

/-! ## The fields of the state after a burst (R172 to R175) -/

section
variable (sd : Side) (c : Chan) (s : State)

@[simp] theorem burstDone_cfg (n : Nat) : (burstDone sd c n s).cfg = s.cfg := rfl
@[simp] theorem burstDone_phase (n : Nat) : (burstDone sd c n s).phase = s.phase := rfl
@[simp] theorem burstDone_now (n : Nat) : (burstDone sd c n s).now = s.now := rfl
@[simp] theorem burstDone_seq (n : Nat) : (burstDone sd c n s).seq = s.seq + 1 := rfl
@[simp] theorem burstDone_mem (n : Nat) : (burstDone sd c n s).mem = s.mem := rfl
@[simp] theorem burstDone_agents (n : Nat) : (burstDone sd c n s).agents = s.agents := rfl
@[simp] theorem burstDone_pendingStarts (n : Nat) : (burstDone sd c n s).pendingStarts = s.pendingStarts := rfl
@[simp] theorem burstDone_fifo (n : Nat) (d : Dir) : (burstDone sd c n s).fifo d = s.fifo d := by cases d <;> rfl

@[simp] theorem burstDone_chan (n : Nat) (x : Side) (k : Chan) : (burstDone sd c n s).chan x k =
    (s.setChan sd c (burstChannel s.cfg sd n (s.chan sd c))).chan x k := by cases x <;> rfl

@[simp] theorem burstDone_dma (n : Nat) (x : Side) : (burstDone sd c n s).dma x =
    (s.setChan sd c (burstChannel s.cfg sd n (s.chan sd c))).dma x := by cases x <;> rfl

@[simp] theorem sentBurst_cfg (n : Nat) : (sentBurst sd c n s).cfg = s.cfg := rfl
@[simp] theorem sentBurst_pendingStarts (n : Nat) : (sentBurst sd c n s).pendingStarts = s.pendingStarts := rfl
@[simp] theorem sentBurst_mem (n : Nat) : (sentBurst sd c n s).mem = s.mem := rfl
@[simp] theorem sentBurst_periphLog (n : Nat) : (sentBurst sd c n s).agents.periphLog =
    s.agents.periphLog ++ (wordsFrom s.cfg sd s.mem (s.chan sd c).madr n).map (.write sd c) := rfl
@[simp] theorem takenBurst_mem (ws rest : List Word) :
    (takenBurst sd c ws rest s).mem = storeWords s.cfg sd (s.chan sd c).madr ws s.mem := rfl
@[simp] theorem takenBurst_agents (ws rest : List Word) : (takenBurst sd c ws rest s).agents =
    { s.agents with periphIn := rest, periphLog := s.agents.periphLog ++ ws.map (.read sd c) } := rfl
@[simp] theorem takenBurst_cfg (ws rest : List Word) : (takenBurst sd c ws rest s).cfg = s.cfg := rfl
@[simp] theorem takenBurst_pendingStarts (ws rest : List Word) :
    (takenBurst sd c ws rest s).pendingStarts = s.pendingStarts := rfl

theorem sentBurst_clearAnswer (n : Nat) : sentBurst sd c n (clearAnswer s) = clearAnswer (sentBurst sd c n s) := by
  cases sd <;> rfl

theorem takenBurst_clearAnswer (ws rest : List Word) :
    takenBurst sd c ws rest (clearAnswer s) = clearAnswer (takenBurst sd c ws rest s) := by
  cases sd <;> rfl

end

/-! ## The first burst of a start (R163, R171) -/

section
variable {s : State} {sd : Side} {c : Chan} {w : Word}

/-- A Waiting channel whose gate is open bursts (R171). -/
theorem checkRunning_bursts (hr : running s sd c = false) (hg : gate s sd c = true) :
    checkRunning sd c s = burstStep sd c s := by
  rw [checkRunning, if_neg (by simp [hr]), if_pos hg]

/-- A started channel (R162, R163). -/
theorem chan_started (hc : c.toNat < (s.dma sd).chans.length) (hw : chainOf sd w = false) :
    (started sd c w s).chan sd c =
      { s.chan sd c with
        chcr := w, rem := BitVec.ofNat 32 (startCount s.cfg sd w (s.chan sd c).cnt), tagEnd := false } := by
  rw [started, chan_setChan_self s sd c _ hc, hw]
  rfl

/-- The count of R163 in words: 4 words to a quadword of the main side (R35, log 25). -/
theorem startCount_main {p : Params} (hp : p.Valid) (chcr cnt : Word) :
    startCount p .main chcr cnt = 4 * (cnt.extractLsb' 0 16).toNat := by
  obtain ⟨_, hmain, _⟩ := valid_widths hp
  rw [startCount, Params.gran, hmain, countOf, Nat.mul_comm]

/-- The count of R163 on the secondary side: a block, or so many blocks (R35, log 25). -/
theorem startCount_sub {p : Params} (hp : p.Valid) (chcr cnt : Word) : startCount p .sub chcr cnt =
    if modeOf .sub chcr = 0 then (cnt.extractLsb' 0 16).toNat
    else (cnt.extractLsb' 0 16).toNat * (cnt.extractLsb' 16 16).toNat := by
  obtain ⟨_, _, hsub⟩ := valid_widths hp
  rw [startCount, Params.gran, hsub, countOf, Nat.mul_one]

/-- A start's count fits `rem` (R163). -/
theorem startCount_lt {p : Params} (hp : p.Valid) (sd : Side) (chcr cnt : Word) : startCount p sd chcr cnt < 2 ^ 32 := by
  have low := (cnt.extractLsb' 0 16).isLt
  have high := (cnt.extractLsb' 16 16).isLt
  cases sd with
  | main => rw [startCount_main hp]; omega
  | sub =>
    rw [startCount_sub hp]
    split
    · omega
    · exact lt_of_lt_of_eq (Nat.mul_lt_mul'' low high) (by decide)

/-- The words a started channel has left (R163). -/
theorem rem_started (hp : s.cfg.Valid) (hc : c.toNat < (s.dma sd).chans.length) (hw : chainOf sd w = false) :
    ((started sd c w s).chan sd c).rem.toNat = startCount s.cfg sd w (s.chan sd c).cnt := by
  rw [chan_started hc hw, BitVec.toNat_ofNat, Nat.mod_eq_of_lt (startCount_lt hp sd w _)]

/-- A Waiting normal-mode channel whose gate is open sends its burst to its peripheral (R171 to R175). -/
theorem checkRunning_sends (hg : gate s sd c = true) (hr : running s sd c = false) (hch : chained s sd c = false)
    (hm : toMem s sd c = false) (hf : fifoChannel s.cfg sd c = false) (hn : s.now.toInt + burstCost s.cfg sd ≤ 2 ^ 63 - 1) :
    checkRunning sd c s = .ok (sentBurst sd c (min s.cfg.burstCap (s.chan sd c).rem.toNat) s) := by
  rw [checkRunning_bursts hr hg, burstStep_unchained hch]
  exact burstBody_gives sd c s hm hf (lt_length_of_gate hg) hr hn

/-- A Waiting normal-mode channel whose gate is open takes its burst from its peripheral's script (R171 to R175). -/
theorem checkRunning_takes {ws rest : List Word} (hg : gate s sd c = true) (hr : running s sd c = false)
    (hch : chained s sd c = false) (hm : toMem s sd c = true) (hf : fifoChannel s.cfg sd c = false)
    (hn : s.now.toInt + burstCost s.cfg sd ≤ 2 ^ 63 - 1) (hi : s.agents.periphIn = ws ++ rest)
    (hl : ws.length = min s.cfg.burstCap (s.chan sd c).rem.toNat) :
    checkRunning sd c s = .ok (takenBurst sd c ws rest s) := by
  rw [checkRunning_bursts hr hg, burstStep_unchained hch]
  exact burstBody_takes sd c s ws rest hm hf (lt_length_of_gate hg) hr hn hi hl

/-- A channel connected to a FIFO is a SIF channel (R7, R221). -/
theorem fifoChannel_of_not_sif {p : Params} (h : sifChannel p sd c = false) : fifoChannel p sd c = false := by
  cases sd <;> simp_all [sifChannel, fifoChannel, consumes, produces, Params.sif]

end

/-- Settles O42. -/
theorem startMovesFirstBurst : Obligations.StartMovesFirstBurst := by
  intro sd c v s hp w u low high count n h ha hv hl hpend hk hw hf hg hr hn
  have hc := lt_length_of_dmaWr h hl
  have hchan := chan_started hc hw
  have hchained : chained (clearAnswer u) sd c = false := by rw [chained_clearAnswer, chained, hchan]; exact hw
  have hmem : toMem (clearAnswer u) sd c = toMemOf w := by rw [toMem_clearAnswer, toMem, hchan]
  have hrem : min s.cfg.burstCap ((clearAnswer u).chan sd c).rem.toNat = n := by
    rw [clearAnswer_chan, rem_started hp hc hw]
    cases sd
    · exact congrArg _ (startCount_main hp _ _)
    · exact congrArg _ (startCount_sub hp _ _)
  rw [← gate_clearAnswer] at hg
  refine ⟨fun hm => ?_, fun ws rest hm hin hlen => ?_⟩
  · have hsent := checkRunning_sends hg hr hchained (hmem.trans hm) hf hn
    rw [show (clearAnswer u).cfg = s.cfg from rfl, hrem, sentBurst_clearAnswer] at hsent
    exact exec_dmaWr_started h ha hv hl hk hsent (by simpa [u] using hpend)
  · have htaken := checkRunning_takes hg hr hchained (hmem.trans hm) hf hn hin (hlen.trans hrem.symm)
    rw [takenBurst_clearAnswer] at htaken
    exact exec_dmaWr_started h ha hv hl hk htaken (by simpa [u] using hpend)

/-! ## Request edges and gates (R166, R171, R185) -/

section
variable {s : State} {sd : Side} {c : Chan}

/-- A rising edge that opens a Waiting channel's gate continues it with a burst (R166, R171). -/
theorem exec_dmaDrq_bursts (h : Accepted (.dmaDrq sd c true) s) (hs : sifChannel s.cfg sd c = false)
    (hd : (s.chan sd c).drq = false) (hr : running s sd c = false) (hg : gate (withLine sd c true s) sd c = true) :
    exec (.dmaDrq sd c true) s =
      .next (Machine.runState (burstStep sd c (clearAnswer (withLine sd c true s)) >>= processPendingStarts)) := by
  have he : engineEnabled s sd = true := by
    have := engineEnabled_of_gate hg
    rwa [engineEnabled, withLine, dma_setChan_ctrl] at this
  rw [exec_dmaDrq_rises h hs hd he, checkRunning_bursts (s := clearAnswer (withLine sd c true s)) hr
    (by rwa [gate_clearAnswer])]

end

/-- Settles O43. -/
theorem requestEdgeTakesBurst : Obligations.RequestEdgeTakesBurst := by
  intro sd c s ws rest u h hl hpend hs hd hg hr hch hm hin hlen hn
  have hc : c.toNat < (s.dma sd).chans.length := by
    have := lt_length_of_gate hg
    rwa [dma_setChan_length] at this
  have hchan : u.chan sd c = { s.chan sd c with drq := true } := chan_setChan_self s sd c _ hc
  have hburst := burstBody_takes sd c (clearAnswer u) ws rest (by rw [toMem_clearAnswer, toMem, hchan]; exact hm)
    (fifoChannel_of_not_sif hs) (by simpa [u] using hc) hr hn hin (by rw [hlen, clearAnswer_chan, hchan]; rfl)
  have hchained : chained (clearAnswer u) sd c = false := by rw [chained_clearAnswer, chained, hchan]; exact hch
  rw [takenBurst_clearAnswer] at hburst
  rw [exec_dmaDrq_bursts h hs hd hr hg]
  exact congrArg (fun r => Host.Outcome.next (Machine.runState r))
    (processed ((burstStep_unchained hchained).trans hburst) (by simpa [u] using hpend))

/-- Settles O51. -/
theorem closedGateWaits : Obligations.ClosedGateWaits := by
  intro sd c s hp continues
  refine ⟨fun hpend ha hg hleft => ⟨?_, checkRunning_stays (.inr hg)⟩,
    fun h hs hd hr hg => exec_dmaDrq_bursts h hs hd hr hg, fun reg v t h ht => ?_⟩
  · rw [dmaEvent, if_neg (by simp [ha]), if_neg hleft, hg]
    exact processed rfl hpend
  · have hstore : storeEngReg sd reg v (clearAnswer s) = reEvaluate sd (clearAnswer t) := by
      rcases ht with ⟨rfl, rfl⟩ | ⟨rfl, rfl⟩ <;> rfl
    have hcfg : t.cfg = s.cfg := by
      rcases ht with ⟨_, rfl⟩ | ⟨_, rfl⟩ <;> rfl
    have hexec : exec (.dmaWre sd reg v) s =
        .next (Machine.runState (reEvaluate sd (clearAnswer t) >>= processPendingStarts)) := by
      rw [exec, execDmaWre, issue_accepted _ _ _ h.1 h.2, writeEngine, hstore]
    have hloop : reEvaluate sd (clearAnswer t) = reEvaluateFrom sd 0 (s.cfg.nch sd) (clearAnswer t) := by
      rw [reEvaluate, clearAnswer_cfg, hcfg]
    have hnch := nch_le hp sd
    rw [hexec, hloop]
    refine ⟨?_, fun hc hr hg ho => ?_⟩
    · rw [reEvaluateFrom_fold, ← List.range_eq_range']
      rfl
    · have hrun : running (clearAnswer t) sd c = false := by
        rcases ht with ⟨_, rfl⟩ | ⟨_, rfl⟩ <;> exact hr
      rw [reEvaluateFrom_one _ (by omega) hc hrun (by rwa [gate_clearAnswer]) (by simpa using ho)]
      rfl

/-! ## Main-side tags (R176) -/

/-- An address advanced twice is advanced by the sum (R75). -/
theorem advanceAddr_advanceAddr (v : Word) (j k : Nat) :
    advanceAddr .main (advanceAddr .main v j) k = advanceAddr .main v (j + k) := by
  apply BitVec.eq_of_toNat_eq
  simp only [toNat_advanceAddr_main]
  omega

section
variable {s : State} {c : Chan}

/-- The tag at a main-side channel's TADR (R176). -/
def mainTag (c : Chan) (s : State) : MainTag :=
  let ea := effectiveAddr s.cfg .main (s.chan .main c).tadr
  mainTagOf (s.mem.readWord ea.1 ea.2) (s.mem.readWord ea.1 (ea.2 + 4))

/-- The channel with the tag's fields in CHCR and CNT (R176). -/
def mainTagRead (c : Chan) (s : State) : Channel :=
  let ch := s.chan .main c
  let ea := effectiveAddr s.cfg .main ch.tadr
  { ch with
    chcr := (s.mem.readWord ea.1 ea.2 &&& 0xFFFF0000) ||| (ch.chcr &&& 0x0000FFFF)
    cnt := (mainTag c s).qwc.setWidth 32 }

/-- A TADR that is no quadword's (R74, R176). -/
theorem tagFetchMain_off (h : offQuad (s.chan .main c).tadr = true) :
    tagFetchMain c s = channelFault .misaligned .main c s := if_pos h

/-- A tag whose id names no target (R176). -/
theorem tagFetchMain_unknown (h : offQuad (s.chan .main c).tadr = false)
    (ht : mainTagTargets (mainTag c s) (s.chan .main c).tadr = none) :
    tagFetchMain c s = channelFault .unimplemented .main c (s.setChan .main c (mainTagRead c s)) := by
  simp only [mainTag] at ht
  simp only [tagFetchMain, h, ht]
  rfl

/-- A tag whose id names its targets: MADR and TADR are stored, and the data address checked (R74, R176). -/
theorem tagFetchMain_known {madr tadr : Word} {last : Bool} (h : offQuad (s.chan .main c).tadr = false)
    (ht : mainTagTargets (mainTag c s) (s.chan .main c).tadr = some (madr, tadr, last)) :
    tagFetchMain c s =
      if tagDataOff s.cfg c madr = true then
        channelFault .misaligned .main c (s.setChan .main c { mainTagRead c s with madr := madr, tadr := tadr })
      else .ok (s.setChan .main c
        { mainTagRead c s with
          madr := madr, tadr := tadr, rem := BitVec.ofNat 32 (s.cfg.granMain * (mainTag c s).qwc.toNat)
          tagEnd := last || ((mainTag c s).irq && (s.chan .main c).chcr.getLsbD 7) }) := by
  simp only [mainTag] at ht
  simp only [tagFetchMain, h, ht]
  rfl

/-- The ids 4, 5 and 6 name no target (R176). -/
theorem mainTagTargets_unknown {t : MainTag} (tadr : Word) (h : t.id.toNat = 4 ∨ t.id.toNat = 5 ∨ t.id.toNat = 6) :
    mainTagTargets t tadr = none := by
  rcases h with h | h | h <;> simp only [mainTagTargets, h]

/-- Where the other five ids lead (R176). -/
theorem mainTagTargets_known {t : MainTag} (tadr : Word)
    (h : t.id.toNat = 0 ∨ t.id.toNat = 1 ∨ t.id.toNat = 2 ∨ t.id.toNat = 3 ∨ t.id.toNat = 7) :
    mainTagTargets t tadr = some
      (if t.id.toNat = 0 ∨ t.id.toNat = 3 then t.addr else advanceAddr .main tadr 16,
        if t.id.toNat = 0 ∨ t.id.toNat = 3 then advanceAddr .main tadr 16
        else if t.id.toNat = 2 then t.addr else advanceAddr .main tadr (16 + 16 * t.qwc.toNat),
        decide (t.id.toNat = 0 ∨ t.id.toNat = 7)) := by
  rcases h with h | h | h | h | h <;> simp [mainTagTargets, h, advanceAddr_advanceAddr]

/-- A channel's fault after a store to the channel: the diagnostic is what was stored (R162, R271). -/
theorem channelFault_setChan {sd : Side} {k : FaultKind} {x : Channel} (hc : c.toNat < (s.dma sd).chans.length) :
    channelFault k sd c (s.setChan sd c x) = .error (takeFault k
      [sideCode sd, c.setWidth 64, x.chcr.setWidth 64, x.madr.setWidth 64, x.tadr.setWidth 64, x.cnt.setWidth 64]
      (s.setChan sd c x)) := by
  rw [channelFault, channelInfo, chan_setChan_self s sd c x hc]
  rfl

end

/-- Settles O48. -/
theorem mainTagIsFollowed : Obligations.MainTagIsFollowed := by
  intro c s hp ch ea lo hi qwc id data madr tadr last read followed known dataOff stops
  have hread : mainTagRead c s = read := by
    simp only [read, qwc, BitVec.ofNat_toNat]
    rfl
  have htargets : known → mainTagTargets (mainTag c s) ch.tadr = some (madr, tadr, decide (id = 0 ∨ id = 7)) :=
    mainTagTargets_known (t := mainTag c s) ch.tadr
  have hdata : tagDataOff s.cfg c madr = dataOff := rfl
  have stop : ∀ {k x}, (c.toNat < (s.dma .main).chans.length →
      tagFetchMain c s = channelFault k .main c (s.setChan .main c x)) → stops k x :=
    fun h hc => (h hc).trans (channelFault_setChan hc)
  refine ⟨fun h => stop fun hc => ?_, fun h hid => stop fun _ => ?_, fun h hk hoff => stop fun _ => ?_,
    fun h hk hoff => ?_⟩
  · rw [setChan_same s .main c hc, tagFetchMain_off h]
  · rw [← hread, tagFetchMain_unknown h (mainTagTargets_unknown _ hid)]
  · rw [tagFetchMain_known h (htargets hk), hdata, if_pos hoff, hread]
  · refine (tagFetchMain_known h (htargets hk)).trans ?_
    obtain ⟨_, hgran, _⟩ := valid_widths hp
    rw [hdata, if_neg (by simp [hoff]), hread, hgran]
    rfl

/-! ## Secondary-side tags, and when a burst fetches one (R172, R177) -/

section
variable {s t u : State} {sd : Side} {c : Chan}

/-- The tag at a secondary-side channel's TADR (R177). -/
def subTag (c : Chan) (s : State) : SubTag :=
  let word (v : Word) := s.mem.readWord (effectiveAddr s.cfg .sub v).1 (effectiveAddr s.cfg .sub v).2
  subTagOf (word (s.chan .sub c).tadr) (word (advanceAddr .sub (s.chan .sub c).tadr 4))

/-- A TADR or a data address that is no word's (R74, R177). -/
theorem tagFetchSub_off (h : offWord (s.chan .sub c).tadr = true ∨ offWord (subTag c s).addr = true) :
    tagFetchSub c s = channelFault .misaligned .sub c s := by
  by_cases ht : offWord (s.chan .sub c).tadr = true
  · exact if_pos ht
  · exact (if_neg ht).trans (if_pos (h.resolve_left ht))

/-- A tag that is followed (R177). -/
theorem tagFetchSub_known (ht : offWord (s.chan .sub c).tadr = false) (ha : offWord (subTag c s).addr = false) :
    tagFetchSub c s = .ok (s.setChan .sub c
      { s.chan .sub c with
        madr := (subTag c s).addr, tadr := advanceAddr .sub (s.chan .sub c).tadr 8
        rem := BitVec.ofNat 32 (s.cfg.granSub * (subTag c s).len.toNat), tagEnd := (subTag c s).last }) :=
  (if_neg (by simp [ht])).trans (if_neg (by simpa [subTag] using ha))

/-- A tag fetch writes its channel alone (R176, R177). -/
theorem tagFetch_ok (e : tagFetch sd c s = .ok u) : ∃ x, u = s.setChan sd c x := by
  cases sd with
  | main =>
    cases h : offQuad (s.chan .main c).tadr with
    | true => rw [tagFetch, tagFetchMain_off h] at e; cases e
    | false =>
      cases ht : mainTagTargets (mainTag c s) (s.chan .main c).tadr with
      | none => rw [tagFetch, tagFetchMain_unknown h ht] at e; cases e
      | some x =>
        rw [tagFetch, tagFetchMain_known h ht] at e
        split at e
        · cases e
        · exact ⟨_, (Except.ok.inj e).symm⟩
  | sub =>
    by_cases h : offWord (s.chan .sub c).tadr = true ∨ offWord (subTag c s).addr = true
    · rw [tagFetch, tagFetchSub_off h] at e; cases e
    · rw [not_or, Bool.not_eq_true, Bool.not_eq_true] at h
      rw [tagFetch, tagFetchSub_known h.1 h.2] at e
      exact ⟨_, (Except.ok.inj e).symm⟩

/-- A tag is due when a chain's burst begins with nothing left and the chain not ended (R172, R179). -/
theorem needsTag_iff : needsTag sd c s = true ↔
    chained s sd c = true ∧ (s.chan sd c).rem = 0 ∧ (s.chan sd c).tagEnd = false := by
  simp [needsTag, and_assoc]

/-- The state in which a burst moves its words: the tag's, where one is due and followed (R172). -/
theorem burstStep_eq_burstBody (h : (needsTag sd c s = true ∧ tagFetch sd c s = .ok u) ∨ (needsTag sd c s = false ∧ u = s)) :
    burstStep sd c s = burstBody sd c u := by
  rcases h with ⟨h, ht⟩ | ⟨h, rfl⟩
  · rw [burstStep, fetchIfNeeded, if_pos h, ht]
    rfl
  · rw [burstStep, fetchIfNeeded, if_neg (by simp [h])]
    rfl

/-- A burst whose tag faults ends with that fault (R172). -/
theorem burstStep_of_tag_error (h : needsTag sd c s = true) (ht : tagFetch sd c s = .error t) :
    burstStep sd c s = .error t := by
  rw [burstStep, fetchIfNeeded, if_pos h, ht]
  rfl

/-- The event of an unfinished channel whose gate is open is a burst, when the burst defers no start (R178). -/
theorem dmaEvent_bursts (hg : gate s sd c = true)
    (hleft : ¬((s.chan sd c).rem = 0 ∧ (chained s sd c = false ∨ (s.chan sd c).tagEnd = true)))
    (hb : burstStep sd c s = .ok t) (hp : t.pendingStarts = []) : dmaEvent sd c s = .ok t := by
  have ha : active s sd c = true := by
    simp only [gate, Bool.and_eq_true] at hg
    exact hg.1.1.1
  rw [dmaEvent, if_neg (by simp [ha]), if_neg hleft, if_pos hg]
  exact processed hb hp

end

/-- Settles O49. -/
theorem subTagIsFollowed : Obligations.SubTagIsFollowed := by
  intro c s hp ch word w0 w1 stops
  have haddr : offWord (subTag c s).addr = offWord w0 := offWord_and w0 0x00FFFFFF (by decide) (by decide)
  refine ⟨fun h => tagFetchSub_off (.inl h), fun _ h => tagFetchSub_off (.inr (haddr.trans h)), fun ht h => ?_,
    fun sd => ⟨fun t hdue => burstStep_of_tag_error (needsTag_iff.2 hdue), fun u hu => ?_⟩⟩
  · refine (tagFetchSub_known ht (haddr.trans h)).trans ?_
    obtain ⟨_, _, hgran⟩ := valid_widths hp
    rw [hgran, Nat.one_mul, BitVec.ofNat_toNat, BitVec.setWidth_eq]
    rfl
  · have hbody : burstStep sd c s = burstBody sd c u := by
      refine burstStep_eq_burstBody ?_
      rwa [← Bool.not_eq_true, needsTag_iff]
    refine ⟨hbody, fun hc hr hm hf hn => ?_⟩
    obtain ⟨hcfg, hnow, hpend, hrun, hlen⟩ : u.cfg = s.cfg ∧ u.now = s.now ∧ u.pendingStarts = s.pendingStarts ∧
        running u sd c = running s sd c ∧ (u.dma sd).chans.length = (s.dma sd).chans.length := by
      rcases hu with ⟨_, ht⟩ | ⟨_, rfl⟩
      · obtain ⟨x, rfl⟩ := tagFetch_ok ht
        exact ⟨rfl, rfl, rfl, rfl, dma_setChan_length ..⟩
      · exact ⟨rfl, rfl, rfl, rfl, rfl⟩
    have hsent := hbody.trans (burstBody_gives sd c u hm (hcfg ▸ hf) (hlen ▸ hc) (hrun.trans hr)
      (by rw [hcfg, hnow]; exact hn))
    rw [hcfg] at hsent
    exact ⟨hsent, fun hp hg hleft => dmaEvent_bursts hg hleft hsent ((sentBurst_pendingStarts ..).trans (hpend.trans hp))⟩

end Sys2Proof.Safety


/-! PROOFS for 42_dma.md, whole transfers: the deferred starts (O53), and a transfer to or from a peripheral as a block copy
(O52). -/

namespace Sys2Proof.Safety

open Sys2Proof.Machine

/-! ## The deferred starts (R184) -/

/-- Settles O53, by the measure of R184's argument. -/
theorem deferredStartsRunOut : Obligations.DeferredStartsRunOut := fun _ _ => processPendingStarts_pendingStarts

/-! ## Moving on in memory (R75) -/

/-- MADR advanced twice is advanced by the sum (R75). -/
theorem advanceWords_add (sd : Side) (a b : Nat) : ∀ v,
    advanceWords sd (advanceWords sd v a) b = advanceWords sd v (a + b) := by
  induction a with
  | zero => intro v; rw [advanceWords, Nat.zero_add]
  | succ a ih => intro v; rw [Nat.add_right_comm, advanceWords, advanceWords, ih]

section
variable {s t : State} {sd : Side} {c : Chan} {k : Nat}

/-! ## One burst more (R178, R181) -/

/-- The state in which a channel's own event runs: the event has left the queue (R118). -/
def withoutEvent (sd : Side) (c : Chan) (s : State) : State := s.setQueue (removeEvent (dmaHandle sd) c s.queue)

@[simp] theorem withoutEvent_cfg : (withoutEvent sd c s).cfg = s.cfg := rfl
@[simp] theorem withoutEvent_now : (withoutEvent sd c s).now = s.now := rfl
@[simp] theorem withoutEvent_seq : (withoutEvent sd c s).seq = s.seq := rfl
@[simp] theorem withoutEvent_mem : (withoutEvent sd c s).mem = s.mem := rfl
@[simp] theorem withoutEvent_agents : (withoutEvent sd c s).agents = s.agents := rfl
@[simp] theorem withoutEvent_pendingStarts : (withoutEvent sd c s).pendingStarts = s.pendingStarts := rfl
@[simp] theorem withoutEvent_chan : (withoutEvent sd c s).chan sd c = s.chan sd c := setQueue_chan ..
@[simp] theorem withoutEvent_dma : (withoutEvent sd c s).dma sd = s.dma sd := setQueue_dma ..
@[simp] theorem gate_withoutEvent : gate (withoutEvent sd c s) sd c = gate s sd c := by cases sd <;> rfl
@[simp] theorem chained_withoutEvent : chained (withoutEvent sd c s) sd c = chained s sd c := by cases sd <;> rfl
@[simp] theorem toMem_withoutEvent : toMem (withoutEvent sd c s) sd c = toMem s sd c := by cases sd <;> rfl

/-- The last of several events (R178). -/
theorem fireChannelTimes_succ (sd : Side) (c : Chan) (k : Nat) :
    ∀ s, fireChannelTimes sd c (k + 1) s = fireChannelTimes sd c k s >>= fireChannel sd c := by
  induction k with
  | zero =>
    intro s
    show (fireChannel sd c s >>= fireChannelTimes sd c 0) = fireChannel sd c s
    cases fireChannel sd c s <;> rfl
  | succ k ih =>
    intro s
    show (fireChannel sd c s >>= fireChannelTimes sd c (k + 1)) =
      (fireChannel sd c s >>= fireChannelTimes sd c k) >>= fireChannel sd c
    cases fireChannel sd c s with
    | error t => rfl
    | ok t => exact ih t

/-- A channel of its own, no FIFO's, keeps its gate through a burst (R37, R170). -/
theorem gate_burstDone (hf : fifoChannel s.cfg sd c = false) (hg : gate s sd c = true) (n : Nat) :
    gate (burstDone sd c n s) sd c = true := by
  have hends : consumes s.cfg sd c = none ∧ produces s.cfg sd c = none := by simpa [fifoChannel] using hf
  have hchan : (burstDone sd c n s).chan sd c = burstChannel s.cfg sd n (s.chan sd c) := by
    rw [burstDone_chan, chan_setChan_self s sd c _ (lt_length_of_gate hg)]
  rw [← hg]
  simp only [gate, active, drq, engineEnabled, priorityAllows, hchan, burstDone_cfg, hends, burstDone_dma, dma_setChan_ctrl,
    dma_setChan_pcr]
  rfl

/-- A burst makes its channel Running (R172, R175). -/
theorem running_burstDone (n : Nat) : running (burstDone sd c n s) sd c = true :=
  (queued_iff _ _ _).2 ⟨_, (mem_insertEvent _ _ _).2 (.inl rfl), rfl, rfl⟩

/-- What `k` events of a transfer leave, whichever its direction: the channel continues where `k` bursts end (R178, R181). -/
structure Transferred (sd : Side) (c : Chan) (k : Nat) (s t : State) : Prop where
  cfg : t.cfg = s.cfg
  now : t.now = s.now
  pending : t.pendingStarts = []
  gate : gate t sd c = true
  chained : chained t sd c = false
  toMem : toMem t sd c = toMem s sd c
  rem : (t.chan sd c).rem.toNat = (s.chan sd c).rem.toNat - k * s.cfg.burstCap
  madr : (t.chan sd c).madr = advanceWords sd (s.chan sd c).madr (min (s.chan sd c).rem.toNat (k * s.cfg.burstCap))
  seq : t.seq = s.seq + BitVec.ofNat 64 k
  running : k ≠ 0 → running t sd c = true

/-- The words that the next event moves (R173). -/
def nextBurst (sd : Side) (c : Chan) (s : State) : Nat := min s.cfg.burstCap (s.chan sd c).rem.toNat

/-- A transfer before its first event. -/
theorem transferred_zero (hp : s.pendingStarts = []) (hg : gate s sd c = true) (hch : chained s sd c = false) :
    Transferred sd c 0 s s where
  cfg := rfl
  now := rfl
  pending := hp
  gate := hg
  chained := hch
  toMem := rfl
  rem := by simp
  madr := by simp [advanceWords]
  seq := by simp
  running h := absurd rfl h

/-- One burst more, whatever it does to memory and to the peripheral. -/
theorem Transferred.next (h : Transferred sd c k s t) (hf : fifoChannel s.cfg sd c = false) (m : Memory) (g : Agents) :
    Transferred sd c (k + 1) s (((burstDone sd c (nextBurst sd c t) (withoutEvent sd c t)).setMem m).setAgents g) := by
  set u := burstDone sd c (nextBurst sd c t) (withoutEvent sd c t) with hu
  have hchan : u.chan sd c = burstChannel s.cfg sd (nextBurst sd c t) (t.chan sd c) := by
    rw [hu, burstDone_chan, chan_setChan_self _ sd c _ (by simpa using lt_length_of_gate h.gate), withoutEvent_cfg,
      withoutEvent_chan, h.cfg]
  have hsize : nextBurst sd c t = min s.cfg.burstCap ((s.chan sd c).rem.toNat - k * s.cfg.burstCap) := by
    rw [nextBurst, h.cfg, h.rem]
  exact {
    cfg := by simp [hu, h.cfg]
    now := by simp [hu, h.now]
    pending := by simp [hu, h.pending]
    gate := by
      rw [gate_setAgents, gate_setMem]
      exact gate_burstDone (by rwa [withoutEvent_cfg, h.cfg]) (by rw [gate_withoutEvent, h.gate]) _
    chained := by
      rw [chained_setAgents, chained_setMem, Machine.chained, hchan]
      exact h.chained
    toMem := by
      rw [toMem_setAgents, toMem_setMem, Machine.toMem, hchan]
      exact h.toMem
    rem := by
      rw [setAgents_chan, setMem_chan, hchan, burstChannel, toNat_rem, h.rem, hsize, Nat.succ_mul]
      omega
    madr := by
      have hmadr : (u.chan sd c).madr = advanceWords sd (t.chan sd c).madr (nextBurst sd c t) := by rw [hchan]; rfl
      rw [setAgents_chan, setMem_chan, hmadr, h.madr, advanceWords_add, hsize, Nat.succ_mul]
      congr 1
      omega
    seq := by
      rw [setAgents_seq, setMem_seq, hu, burstDone_seq, withoutEvent_seq, h.seq, BitVec.ofNat_add, BitVec.add_assoc]
      rfl
    running := fun _ => by
      rw [running_setAgents, running_setMem]
      exact running_burstDone _ }

/-- Before the last burst words are left (R173). -/
theorem Transferred.rem_ne_zero (h : Transferred sd c k s t) (hp : s.cfg.Valid)
    (hk : k < Machine.ceilDiv (s.chan sd c).rem.toNat s.cfg.burstCap) : (t.chan sd c).rem ≠ 0 := by
  obtain ⟨_, _, _, _, hcap, _⟩ := hp
  have hlt : k * s.cfg.burstCap < (s.chan sd c).rem.toNat := by
    rwa [ceilDiv_eq, ← not_le, ceilDiv_le_iff_le_mul hcap, not_le, Nat.mul_comm] at hk
  intro hz
  have := h.rem
  rw [hz] at this
  simp at this
  omega

/-! ## Out of memory, and into it (R174, R181) -/

/-- The words that `k` events move (R181). -/
def movedWords (sd : Side) (c : Chan) (k : Nat) (s : State) : Nat := min (s.chan sd c).rem.toNat (k * s.cfg.burstCap)

/-- One burst more out of memory. -/
theorem Transferred.sends (h : Transferred sd c k s t) (hf : fifoChannel s.cfg sd c = false) :
    Transferred sd c (k + 1) s (sentBurst sd c (nextBurst sd c t) (withoutEvent sd c t)) :=
  h.next hf (burstDone sd c (nextBurst sd c t) (withoutEvent sd c t)).mem _

/-- One burst more into memory. -/
theorem Transferred.takes (h : Transferred sd c k s t) (hf : fifoChannel s.cfg sd c = false) {ws rest : List Word}
    (hl : ws.length = nextBurst sd c t) : Transferred sd c (k + 1) s (takenBurst sd c ws rest (withoutEvent sd c t)) := by
  rw [takenBurst, hl]
  exact h.next hf _ _

/-- The next event moves the words up to the next count (R173, R181). -/
theorem Transferred.movedWords_succ (h : Transferred sd c k s t) :
    movedWords sd c (k + 1) s = movedWords sd c k s + nextBurst sd c t := by
  rw [movedWords, movedWords, nextBurst, h.cfg, h.rem, Nat.succ_mul]
  omega

/-- The next event of a transfer, whose burst defers no start (R178). -/
theorem Transferred.fires {u : State} (h : Transferred sd c k s t) (hp : s.cfg.Valid)
    (hk : k < Machine.ceilDiv (s.chan sd c).rem.toNat s.cfg.burstCap)
    (hb : burstBody sd c (withoutEvent sd c t) = .ok u) (hu : u.pendingStarts = t.pendingStarts) :
    fireChannel sd c t = .ok u :=
  fireChannel_burst h.gate (h.rem_ne_zero hp hk)
    ((burstStep_unchained (chained_withoutEvent.trans h.chained)).trans hb) (hu.trans h.pending)

/-- `k` events of a transfer out of memory (R181). -/
theorem fireChannelTimes_sends (hp : s.cfg.Valid) (hpend : s.pendingStarts = []) (hg : gate s sd c = true)
    (hch : chained s sd c = false) (hf : fifoChannel s.cfg sd c = false)
    (hn : s.now.toInt + burstCost s.cfg sd ≤ 2 ^ 63 - 1) (hm : toMem s sd c = false) (k : Nat) :
    k ≤ Machine.ceilDiv (s.chan sd c).rem.toNat s.cfg.burstCap →
    ∃ t, fireChannelTimes sd c k s = .ok t ∧ Transferred sd c k s t ∧ t.mem = s.mem ∧
      t.agents.periphLog = s.agents.periphLog ++
        (wordsFrom s.cfg sd s.mem (s.chan sd c).madr (movedWords sd c k s)).map (.write sd c) := by
  induction k with
  | zero => exact fun _ => ⟨s, rfl, transferred_zero hpend hg hch, rfl, by simp [movedWords, wordsFrom]⟩
  | succ k ih =>
    intro hk
    obtain ⟨t, hrun, h, hmem, hlog⟩ := ih (by omega)
    have hsent := burstBody_gives sd c (withoutEvent sd c t) (by rw [toMem_withoutEvent, h.toMem, hm])
      (by rwa [withoutEvent_cfg, h.cfg]) (by simpa using lt_length_of_gate h.gate) (running_without_event sd c t)
      (by rwa [withoutEvent_cfg, withoutEvent_now, h.cfg, h.now])
    rw [withoutEvent_cfg, withoutEvent_chan] at hsent
    refine ⟨_, ?_, h.sends hf, by simp [hmem], ?_⟩
    · rw [fireChannelTimes_succ, hrun]
      exact h.fires hp hk hsent (by simp)
    · rw [sentBurst_periphLog, withoutEvent_agents, withoutEvent_cfg, withoutEvent_mem, withoutEvent_chan, hlog, hmem,
        h.cfg, h.madr, List.append_assoc, ← List.map_append, ← movedWords, ← wordsFrom_append, h.movedWords_succ]

/-- `k` events of a transfer into memory, whose words the peripheral's script holds (R181). -/
theorem fireChannelTimes_takes (hp : s.cfg.Valid) (hpend : s.pendingStarts = []) (hg : gate s sd c = true)
    (hch : chained s sd c = false) (hf : fifoChannel s.cfg sd c = false)
    (hn : s.now.toInt + burstCost s.cfg sd ≤ 2 ^ 63 - 1) (hm : toMem s sd c = true) (k : Nat) :
    k ≤ Machine.ceilDiv (s.chan sd c).rem.toNat s.cfg.burstCap →
    ∀ ws rest, s.agents.periphIn = ws ++ rest → ws.length = movedWords sd c k s →
    ∃ t, fireChannelTimes sd c k s = .ok t ∧ Transferred sd c k s t ∧
      t.mem = storeWords s.cfg sd (s.chan sd c).madr ws s.mem ∧ t.agents.periphIn = rest ∧
      t.agents.periphLog = s.agents.periphLog ++ ws.map (.read sd c) := by
  induction k with
  | zero =>
    intro _ ws rest hin hlen
    obtain rfl : ws = [] := List.length_eq_zero_iff.1 (by simpa [movedWords] using hlen)
    exact ⟨s, rfl, transferred_zero hpend hg hch, rfl, hin, by simp⟩
  | succ k ih =>
    intro hk ws rest hin hlen
    have hle : movedWords sd c k s ≤ ws.length := by
      rw [hlen, movedWords, movedWords, Nat.succ_mul]
      omega
    obtain ⟨old, new, rfl, hold⟩ : ∃ old new, ws = old ++ new ∧ old.length = movedWords sd c k s :=
      ⟨ws.take _, ws.drop _, (List.take_append_drop _ ws).symm, List.length_take_of_le hle⟩
    rw [List.append_assoc] at hin
    obtain ⟨t, hrun, h, hmem, hin', hlog⟩ := ih (by omega) old (new ++ rest) hin hold
    have hnew : new.length = nextBurst sd c t := by
      rw [List.length_append, hold, h.movedWords_succ] at hlen
      omega
    have htaken := burstBody_takes sd c (withoutEvent sd c t) new rest (by rw [toMem_withoutEvent, h.toMem, hm])
      (by rwa [withoutEvent_cfg, h.cfg]) (by simpa using lt_length_of_gate h.gate) (running_without_event sd c t)
      (by rwa [withoutEvent_cfg, withoutEvent_now, h.cfg, h.now]) (by rwa [withoutEvent_agents])
      (by rw [withoutEvent_cfg, withoutEvent_chan]; exact hnew)
    refine ⟨_, ?_, h.takes (rest := rest) hf hnew, ?_, by simp, by simp [hlog]⟩
    · rw [fireChannelTimes_succ, hrun]
      exact h.fires hp hk htaken (by simp)
    · rw [takenBurst_mem, withoutEvent_cfg, withoutEvent_chan, withoutEvent_mem, h.cfg, h.madr, hmem, storeWords_append,
        hold, movedWords]

end

/-- Settles O52. -/
theorem transferTakesCeilBursts : Obligations.TransferTakesCeilBursts := by
  intro sd c s k ch moved ends hp _ hpend hg hch hf hn hpos hk
  have hends : ∀ {t}, fireChannelTimes sd c k s = .ok t → Transferred sd c k s t → ends t := fun hrun h =>
    ⟨hrun, h.rem, by have := h.gate; simp only [gate, Bool.and_eq_true] at this; exact this.1.1.1,
      h.running (by omega), h.seq⟩
  refine ⟨fun hm => ?_, fun ws rest hm hin hlen => ?_⟩
  · obtain ⟨t, hrun, h, hmem, hlog⟩ := fireChannelTimes_sends hp hpend hg hch hf hn hm k hk
    exact ⟨t, hends hrun h, hmem, hlog⟩
  · obtain ⟨t, hrun, h, hmem, hin', hlog⟩ := fireChannelTimes_takes hp hpend hg hch hf hn hm k hk ws rest hin hlen
    exact ⟨t, hends hrun h, hmem, hin', hlog⟩

end Sys2Proof.Safety


/-! PROOFS for 43_ipc_fifo.md: the debug port and the channel it starts (O54), and a block delivered through an empty FIFO
(O56). -/

namespace Sys2Proof.Safety

open Sys2Proof.Machine

/-! ## A Waiting channel at an end of a FIFO (R221, R226) -/

section
variable {s t : State} {d : Dir} {q p : Side × Chan} {im : Bool}

/-- A Waiting normal-mode channel with nothing but its request line between it and a burst (R46, R170, R175). -/
structure Waiting (s : State) (q : Side × Chan) (im : Bool) : Prop where
  active : active s q.1 q.2 = true
  running : running s q.1 q.2 = false
  enabled : engineEnabled s q.1 = true
  priority : priorityAllows s q.1 q.2 = true
  chained : chained s q.1 q.2 = false
  toMem : toMem s q.1 q.2 = im
  now : s.now.toInt + burstCost s.cfg q.1 ≤ 2 ^ 63 - 1

/-- A Waiting channel stays one while its side, its event and the time do. -/
theorem Waiting.congr (h : Waiting s q im) (hd : t.dma q.1 = s.dma q.1)
    (hr : Machine.running t q.1 q.2 = Machine.running s q.1 q.2) (hn : t.now = s.now) (hc : t.cfg = s.cfg) :
    Waiting t q im := by
  have hchan : t.chan q.1 q.2 = s.chan q.1 q.2 := by rw [State.chan, hd]; rfl
  refine ⟨?_, hr.trans h.running, ?_, ?_, ?_, ?_, by rw [hn, hc]; exact h.now⟩
  · rw [Machine.active, hchan]; exact h.active
  · rw [engineEnabled, hd]; exact h.enabled
  · rw [priorityAllows, hd]; exact h.priority
  · rw [Machine.chained, hchan]; exact h.chained
  · rw [Machine.toMem, hchan]; exact h.toMem

theorem Waiting.clearAnswer (h : Waiting s q im) : Waiting (clearAnswer s) q im :=
  h.congr (clearAnswer_dma s q.1) rfl rfl rfl

theorem Waiting.setFifo (h : Waiting s q im) (l : List Word) : Waiting (s.setFifo d l) q im :=
  h.congr (setFifo_dma s d l q.1) rfl rfl rfl

/-- A burst on one side leaves a Waiting channel of the other. -/
theorem Waiting.burstDone (h : Waiting s q im) (hne : q.1 ≠ p.1) (n : Nat) : Waiting (burstDone p.1 p.2 n s) q im :=
  h.congr ((burstDone_dma p.1 p.2 s n q.1).trans (dma_setChan_ne s p.1 q.1 p.2 _ hne)) (burstDone_running_other hne n s)
    rfl rfl

/-- The gate of a Waiting consumer opens with a word in its FIFO (R170, R226). -/
theorem Waiting.gate_consumer (h : Waiting s (consumerOf s.cfg d) im) (hf : s.fifo d ≠ []) :
    gate s (consumerOf s.cfg d).1 (consumerOf s.cfg d).2 = true := by
  have hdrq : drq s (consumerOf s.cfg d).1 (consumerOf s.cfg d).2 = true := by
    rw [drq, consumes_consumerOf]
    exact decide_eq_true (List.length_pos_iff.2 hf)
  rw [gate, h.active, hdrq, h.enabled, h.priority]
  rfl

/-- The gate of a Waiting producer opens below its FIFO's low watermark (R170, R226). -/
theorem Waiting.gate_producer (h : Waiting s (producerOf s.cfg d) im) (hp : s.cfg.Valid)
    (hf : (s.fifo d).length < s.cfg.lwm) : gate s (producerOf s.cfg d).1 (producerOf s.cfg d).2 = true := by
  have hdrq : drq s (producerOf s.cfg d).1 (producerOf s.cfg d).2 = true := by
    rw [drq, consumes_producerOf s.cfg hp, produces_producerOf]
    exact decide_eq_true hf
  rw [gate, h.active, hdrq, h.enabled, h.priority]
  rfl

/-- The burst of a FIFO's Waiting consumer (R173). -/
theorem burstSize_consumer (s : State) (d : Dir) : burstSize (consumerOf s.cfg d).1 (consumerOf s.cfg d).2 s =
    min s.cfg.burstCap (min (s.chan (consumerOf s.cfg d).1 (consumerOf s.cfg d).2).rem.toNat (s.fifo d).length) := by
  rw [burstSize, consumes_consumerOf]

/-- The burst of a FIFO's Waiting producer (R173). -/
theorem burstSize_producer (hp : s.cfg.Valid) (d : Dir) : burstSize (producerOf s.cfg d).1 (producerOf s.cfg d).2 s =
    min s.cfg.burstCap
      (min (s.chan (producerOf s.cfg d).1 (producerOf s.cfg d).2).rem.toNat (s.cfg.fifoCap - (s.fifo d).length)) := by
  rw [burstSize, consumes_producerOf s.cfg hp, produces_producerOf]

/-! ## The deferred start of the channel at the other end (R184, R226) -/

@[simp] theorem setFifo_setFifo (l m : List Word) : (s.setFifo d l).setFifo d m = s.setFifo d m := by cases d <;> rfl

theorem setFifo_of_fifo {l : List Word} (h : s.fifo d = l) : s.setFifo d l = s := by subst h; cases d <;> rfl

/-- With no start deferred the list is as it stands. -/
theorem setPending_nil (h : s.pendingStarts = []) : s.setPending [] = s := by rw [← h]; rfl

/-- A deferred start, or none, whose channel stays as it is (R184). -/
theorem processPendingStarts_stays (h : s.pendingStarts = [] ∨ s.pendingStarts = [p])
    (hs : running s p.1 p.2 = true ∨ gate s p.1 p.2 = false) : processPendingStarts s = .ok (s.setPending []) :=
  drainPending_stays (n := s.pendingStarts.length + 2) h (by simpa using hs)

/-- The Waiting consumer, its start deferred, takes every word of the FIFO that fits its count; the producer stays (R184,
R223, R226). -/
theorem processPendingStarts_consumes (hp : s.cfg.Valid) (hpend : s.pendingStarts = [])
    (hq : Waiting s (consumerOf s.cfg d) true) (hne : s.fifo d ≠ []) (hcap : (s.fifo d).length ≤ s.cfg.burstCap)
    (hrem : (s.fifo d).length ≤ (s.chan (consumerOf s.cfg d).1 (consumerOf s.cfg d).2).rem.toNat)
    (hs : running (s.setFifo d []) (producerOf s.cfg d).1 (producerOf s.cfg d).2 = true ∨
      gate (s.setFifo d []) (producerOf s.cfg d).1 (producerOf s.cfg d).2 = false) :
    processPendingStarts (s.setPending [consumerOf s.cfg d]) =
      .ok (burstDone (consumerOf s.cfg d).1 (consumerOf s.cfg d).2 (s.fifo d).length
        ((s.setFifo d []).setMem (storeWords s.cfg (consumerOf s.cfg d).1
          (s.chan (consumerOf s.cfg d).1 (consumerOf s.cfg d).2).madr (s.fifo d) s.mem))) := by
  have hg := hq.gate_consumer hne
  have hburst := burstStep_pops (ws := s.fifo d) (rest := []) hq.chained hq.toMem (consumes_consumerOf s.cfg d)
    (lt_length_of_gate hg) (List.append_nil _).symm hq.running hq.now (by rw [burstSize_consumer]; omega)
  rw [hpend, List.nil_append] at hburst
  set m := storeWords s.cfg (consumerOf s.cfg d).1 (s.chan (consumerOf s.cfg d).1 (consumerOf s.cfg d).2).madr (s.fifo d)
    s.mem
  have hend : ∀ l, (((s.setMem m).setFifo d []).setPending l).setPending [] = (s.setFifo d []).setMem m := fun _ =>
    setPending_nil (s := (s.setFifo d []).setMem m) hpend
  refine (drainPending_burst (producer_ne_consumer_side s.cfg d) hpend hq.running hg hburst ?_ ?_).trans ?_
  · rw [setPending_pendingStarts]
    split
    · exact .inr rfl
    · exact .inl rfl
  · rwa [hend, running_setMem, gate_setMem]
  · rw [hend]

/-- The Waiting producer, its start deferred, fills the room in its FIFO; the consumer stays (R184, R222, R226). -/
theorem processPendingStarts_produces {n : Nat} {full : List Word} (hp : s.cfg.Valid) (hpend : s.pendingStarts = [])
    (hw : Waiting s (producerOf s.cfg d) false) (hlow : (s.fifo d).length < s.cfg.lwm)
    (hn : n = min s.cfg.burstCap (min (s.chan (producerOf s.cfg d).1 (producerOf s.cfg d).2).rem.toNat
      (s.cfg.fifoCap - (s.fifo d).length)))
    (hfull : full = s.fifo d ++ wordsFrom s.cfg (producerOf s.cfg d).1 s.mem
      (s.chan (producerOf s.cfg d).1 (producerOf s.cfg d).2).madr n)
    (hs : running (s.setFifo d full) (consumerOf s.cfg d).1 (consumerOf s.cfg d).2 = true ∨
      gate (s.setFifo d full) (consumerOf s.cfg d).1 (consumerOf s.cfg d).2 = false) :
    processPendingStarts (s.setPending [producerOf s.cfg d]) =
      .ok (burstDone (producerOf s.cfg d).1 (producerOf s.cfg d).2 n (s.setFifo d full)) := by
  have hg := hw.gate_producer hp hlow
  obtain ⟨_, _, _, _, _, _, _, hlwm, _⟩ := id hp
  have hburst := burstStep_pushes (n := n) hw.chained hw.toMem (valid_widths hp).1 (produces_producerOf s.cfg d)
    (lt_length_of_gate hg) (by omega) hw.running hw.now (by rw [burstSize_producer hp, hn])
  rw [hpend, List.nil_append, ← hfull] at hburst
  have hend : ∀ l, ((s.setFifo d full).setPending l).setPending [] = s.setFifo d full := fun _ =>
    setPending_nil (s := s.setFifo d full) hpend
  refine (drainPending_burst (producer_ne_consumer_side s.cfg d).symm hpend hw.running hg hburst ?_ ?_).trans ?_
  · rw [setPending_pendingStarts]
    split
    · exact .inr rfl
    · exact .inl rfl
  · rwa [hend]
  · rw [hend]

/-! ## The debug port (R227, R228) -/

/-- A push into a FIFO with room appends the word; the consumer's start is deferred when the FIFO was empty (R222, R226). -/
theorem fifoPush_room {w : Word} (hw : s.cfg.fifoWidth = 32) (hpend : s.pendingStarts = [])
    (hroom : (s.fifo d).length < s.cfg.fifoCap) : fifoPush d w s =
      .ok ((s.setFifo d (s.fifo d ++ [w])).setPending (if s.fifo d = [] then [consumerOf s.cfg d] else [])) := by
  have hrise : consumerDrq s d = false ∧ consumerDrq (s.setFifo d (s.fifo d ++ [w])) d = true ↔ s.fifo d = [] := by
    simp [consumerDrq]
  rw [fifoPush, if_pos hroom, fifoEntry_eq hw, setFifoDrq, hpend, List.nil_append, risenDrqs_push]
  simp only [hrise]

/-- A pop takes the oldest word; the producer's start is deferred when the FIFO falls below its low watermark (R223,
R226). -/
theorem fifoPop_word {x : Word} {rest : List Word} (hpend : s.pendingStarts = []) (hf : s.fifo d = x :: rest) :
    fifoPop d s = .ok (x, (s.setFifo d rest).setPending
      (if rest.length + 1 = s.cfg.lwm then [producerOf s.cfg d] else [])) := by
  have hrise : producerDrq s d = false ∧ producerDrq (s.setFifo d rest) d = true ↔ rest.length + 1 = s.cfg.lwm := by
    simp only [producerDrq, hf, fifo_setFifo_self, setFifo_cfg, decide_eq_false_iff_not, decide_eq_true_eq, List.length_cons]
    omega
  rw [fifoPop, hf]
  show Except.ok (x, setFifoDrq d rest s) = _
  rw [setFifoDrq, hpend, List.nil_append, risenDrqs_pop hf]
  simp only [hrise]

/-- A push after which the consumer stays (R227). -/
theorem pushCommand_stays {w : Word} (hw : s.cfg.fifoWidth = 32) (hpend : s.pendingStarts = [])
    (hroom : (s.fifo d).length < s.cfg.fifoCap)
    (hs : running (s.setFifo d (s.fifo d ++ [w])) (consumerOf s.cfg d).1 (consumerOf s.cfg d).2 = true ∨
      gate (s.setFifo d (s.fifo d ++ [w])) (consumerOf s.cfg d).1 (consumerOf s.cfg d).2 = false) :
    pushCommand d w s = .ok (s.setFifo d (s.fifo d ++ [w])) := by
  have hend : ∀ l, ((s.setFifo d (s.fifo d ++ [w])).setPending l).setPending [] = s.setFifo d (s.fifo d ++ [w]) := fun _ =>
    setPending_nil (s := s.setFifo d (s.fifo d ++ [w])) (by simpa using hpend)
  rw [pushCommand, fifoPush_room hw hpend hroom]
  refine (processPendingStarts_stays (p := consumerOf s.cfg d) ?_ (by simpa using hs)).trans (by rw [hend])
  rw [setPending_pendingStarts]
  split
  · exact .inr rfl
  · exact .inl rfl

/-- A push into an empty FIFO, whose word the Waiting consumer takes to memory at once (R226, R227). -/
theorem pushCommand_consumed {w : Word} (hp : s.cfg.Valid) (hpend : s.pendingStarts = []) (hf : s.fifo d = [])
    (hq : Waiting s (consumerOf s.cfg d) true) (hrem : (s.chan (consumerOf s.cfg d).1 (consumerOf s.cfg d).2).rem ≠ 0)
    (hs : running s (producerOf s.cfg d).1 (producerOf s.cfg d).2 = true ∨
      gate s (producerOf s.cfg d).1 (producerOf s.cfg d).2 = false) :
    pushCommand d w s = .ok (burstDone (consumerOf s.cfg d).1 (consumerOf s.cfg d).2 1
      (s.setMem (storeWords s.cfg (consumerOf s.cfg d).1
        (s.chan (consumerOf s.cfg d).1 (consumerOf s.cfg d).2).madr [w] s.mem))) := by
  obtain ⟨_, _, _, _, hcap, _, hlow, hlwm, _⟩ := id hp
  have hpos : 1 ≤ (s.chan (consumerOf s.cfg d).1 (consumerOf s.cfg d).2).rem.toNat := by
    rw [Nat.one_le_iff_ne_zero]
    exact fun h => hrem (BitVec.eq_of_toNat_eq h)
  have hback : (s.setFifo d [w]).setFifo d [] = s := by rw [setFifo_setFifo, setFifo_of_fifo hf]
  have htake := processPendingStarts_consumes (s := s.setFifo d [w]) (d := d) hp (by simpa using hpend) (hq.setFifo [w])
    (by simp) (by simpa using hcap) (by simpa using hpos) (by rw [hback]; exact hs)
  rw [pushCommand, fifoPush_room (valid_widths hp).1 hpend (by rw [hf]; exact Nat.lt_of_lt_of_le hlow hlwm), hf,
    if_pos rfl, List.nil_append]
  refine htake.trans ?_
  rw [hback, fifo_setFifo_self, setFifo_chan, setFifo_cfg]
  rfl

/-- A pop's two stores, the answer and the rest of the FIFO (R223, R228). -/
def popped (d : Dir) (x : Word) (rest : List Word) (s : State) : State := replyWord x (s.setFifo d rest)

@[simp] theorem popped_cfg (x : Word) (rest : List Word) : (popped d x rest s).cfg = s.cfg := rfl
@[simp] theorem popped_mem (x : Word) (rest : List Word) : (popped d x rest s).mem = s.mem := rfl
@[simp] theorem popped_pendingStarts (x : Word) (rest : List Word) :
    (popped d x rest s).pendingStarts = s.pendingStarts := rfl
@[simp] theorem popped_fifo (x : Word) (rest : List Word) : (popped d x rest s).fifo d = rest := by cases d <;> rfl
@[simp] theorem popped_chan (x : Word) (rest : List Word) (sd : Side) (c : Chan) :
    (popped d x rest s).chan sd c = s.chan sd c := by cases sd <;> rfl

theorem Waiting.popped (h : Waiting s q im) (x : Word) (rest : List Word) : Waiting (popped d x rest s) q im :=
  h.congr (by obtain ⟨sd, _⟩ := q; cases sd <;> rfl) rfl rfl rfl

/-- SIF.POP answers the oldest word and runs the producer's deferred start, if it raised its line (R228). -/
theorem popCommand_word {x : Word} {rest : List Word} (hpend : s.pendingStarts = []) (hf : s.fifo d = x :: rest) :
    popCommand d s = processPendingStarts ((popped d x rest s).setPending
      (if rest.length + 1 = s.cfg.lwm then [producerOf s.cfg d] else [])) := by
  rw [popCommand, fifoPop_word hpend hf]
  rfl

/-- A pop after which the producer stays (R228). -/
theorem popCommand_stays {x : Word} {rest : List Word} (hpend : s.pendingStarts = []) (hf : s.fifo d = x :: rest)
    (hs : running (s.setFifo d rest) (producerOf s.cfg d).1 (producerOf s.cfg d).2 = true ∨
      gate (s.setFifo d rest) (producerOf s.cfg d).1 (producerOf s.cfg d).2 = false) :
    popCommand d s = .ok (popped d x rest s) := by
  rw [popCommand_word hpend hf]
  refine (processPendingStarts_stays (p := producerOf s.cfg d) ?_ ?_).trans ?_
  · rw [setPending_pendingStarts]
    split
    · exact .inr rfl
    · exact .inl rfl
  · cases d <;> exact hs
  · exact congrArg Except.ok (setPending_nil (s := popped d x rest s) hpend)

/-- A pop to below the low watermark, after which the Waiting producer fills the FIFO's room at once (R226, R228). -/
theorem popCommand_produced {n : Nat} {full : List Word} {x : Word} {rest : List Word} (hp : s.cfg.Valid)
    (hpend : s.pendingStarts = []) (hf : s.fifo d = x :: rest) (hlow : rest.length + 1 = s.cfg.lwm)
    (hw : Waiting s (producerOf s.cfg d) false)
    (hn : n = min s.cfg.burstCap (min (s.chan (producerOf s.cfg d).1 (producerOf s.cfg d).2).rem.toNat
      (s.cfg.fifoCap - rest.length)))
    (hfull : full = rest ++ wordsFrom s.cfg (producerOf s.cfg d).1 s.mem
      (s.chan (producerOf s.cfg d).1 (producerOf s.cfg d).2).madr n)
    (hs : running (s.setFifo d full) (consumerOf s.cfg d).1 (consumerOf s.cfg d).2 = true ∨
      gate (s.setFifo d full) (consumerOf s.cfg d).1 (consumerOf s.cfg d).2 = false) :
    popCommand d s = .ok (burstDone (producerOf s.cfg d).1 (producerOf s.cfg d).2 n (popped d x full s)) := by
  have hset : (popped d x rest s).setFifo d full = popped d x full s := by cases d <;> rfl
  rw [popCommand_word hpend hf, if_pos hlow, ← hset]
  refine processPendingStarts_produces (s := popped d x rest s) hp hpend (hw.popped x rest) ?_ ?_ ?_ ?_
  · rw [popped_fifo, popped_cfg]
    omega
  · simpa using hn
  · simpa using hfull
  · rw [hset]
    cases d <;> exact hs

end

/-- Settles O54. -/
theorem debugPortPushesAndPops : Obligations.DebugPortPushesAndPops := by
  intro d w s hp hpend asleep p q ready
  have hfifo : (clearAnswer s).fifo d = s.fifo d := clearAnswer_fifo s d
  have waiting : ∀ {p im}, ready p im → Waiting (clearAnswer s) p im := fun h => by
    obtain ⟨ha, hr, he, hpr, hch, hm, _, hn⟩ := h
    exact Waiting.clearAnswer ⟨ha, hr, he, hpr, hch, hm, hn⟩
  have hrem : ∀ {p im}, ready p im → ((clearAnswer s).chan p.1 p.2).rem ≠ 0 := fun h => by
    obtain ⟨_, _, _, _, _, _, hrem, _⟩ := h
    rwa [clearAnswer_chan]
  refine ⟨fun h hroom hs => ?_, fun h hf hq hs => ?_, fun h hfull => ?_, fun x rest h hf hs => ?_,
    fun x rest h hf hlow hw => ?_, fun h hf => ?_⟩
  · have hrun := pushCommand_stays (s := clearAnswer s) (d := d) (w := w) (valid_widths hp).1 hpend (by rwa [hfifo])
      (by rw [hfifo]; cases d <;> exact hs)
    rw [exec_of_rule_ok h rfl hrun, hfifo]
    cases d <;> rfl
  · have hrun := pushCommand_consumed (s := clearAnswer s) (d := d) (w := w) hp hpend (hfifo.trans hf) (waiting hq) (hrem hq)
      (by cases d <;> exact hs)
    rw [exec_of_rule_ok h rfl hrun, clearAnswer_chan]
    cases d <;> rfl
  · refine exec_of_rule_fault h rfl ?_
    rw [pushCommand, fifoPush, hfifo, if_neg (by rw [hfull]; exact lt_irrefl _)]
    rfl
  · have hrun := popCommand_stays (s := clearAnswer s) hpend (hfifo.trans hf) (by cases d <;> exact hs)
    rw [exec_of_rule_ok h rfl hrun]
    cases d <;> rfl
  · intro n full hs
    have hrun := popCommand_produced (s := clearAnswer s) (n := n) (full := full) hp hpend (hfifo.trans hf) hlow (waiting hw)
      (by rw [clearAnswer_chan]; rfl) (by rw [clearAnswer_chan]; rfl) (by cases d <;> exact hs)
    rw [exec_of_rule_ok h rfl hrun]
    cases d <;> rfl
  · refine exec_of_rule_fault h rfl ?_
    rw [popCommand, fifoPop, hfifo, hf]
    rfl

/-! ## A producer's start delivers its block (R163, R226) -/

section
variable {s : State} {d : Dir} {q p : Side × Chan} {im : Bool} {n : Nat} {w : Word}

/-- A count that passes the check of R162 is not 0. -/
theorem startCount_pos {c : Params} (hc : c.Valid) {sd : Side} {cnt : Word} (hm : modeOf sd w ≠ 3)
    (hch : chainOf sd w = false) (hz : zeroCount sd w cnt = false) : 0 < startCount c sd w cnt := by
  have pos : ∀ {x : BitVec 16}, x ≠ 0 → 0 < x.toNat := fun hx =>
    Nat.pos_of_ne_zero fun h => hx (BitVec.eq_of_toNat_eq h)
  cases sd with
  | main =>
    have hlow : cnt.extractLsb' 0 16 ≠ 0 := by simpa [zeroCount] using hz
    rw [startCount_main hc]
    have := pos hlow
    omega
  | sub =>
    have hchain : modeOf .sub w ≠ 2 := by simpa [chainOf] using hch
    obtain ⟨hlow, hhigh⟩ : cnt.extractLsb' 0 16 ≠ 0 ∧ (modeOf .sub w = 1 → cnt.extractLsb' 16 16 ≠ 0) := by
      simpa [zeroCount] using hz
    rw [startCount_sub hc]
    split
    · exact pos hlow
    · have hone : modeOf .sub w = 1 := by
        have := hm
        generalize modeOf .sub w = m at *
        clear hhigh
        revert m
        decide
      exact Nat.mul_pos (pos hlow) (pos (hhigh hone))

/-- A start on one side leaves a Waiting channel of the other. -/
theorem Waiting.started (h : Waiting s q im) (hne : q.1 ≠ p.1) : Waiting (started p.1 p.2 w s) q im :=
  h.congr (dma_setChan_ne s p.1 q.1 p.2 _ hne) rfl rfl rfl

/-- A normal-mode channel that a start leaves Waiting (R46, R160). -/
theorem waiting_started (hc : p.2.toNat < (s.dma p.1).chans.length) (hw : chainOf p.1 w = false)
    (hstr : strOf p.1 w = true) (he : engineEnabled s p.1 = true) (hpr : priorityAllows s p.1 p.2 = true)
    (hr : running s p.1 p.2 = false) (hn : s.now.toInt + burstCost s.cfg p.1 ≤ 2 ^ 63 - 1) :
    Waiting (started p.1 p.2 w s) p (toMemOf w) := by
  have hchan := chan_started hc hw
  refine ⟨?_, hr, ?_, ?_, ?_, ?_, hn⟩
  · rwa [active, hchan]
  · rwa [engineEnabled, started, dma_setChan_ctrl]
  · rwa [priorityAllows, started, dma_setChan_pcr]
  · rwa [chained, hchan]
  · rw [toMem, hchan]

/-- `n` words of memory (R174). -/
theorem length_wordsFrom (c : Params) (sd : Side) (m : Memory) (n : Nat) : ∀ v, (wordsFrom c sd m v n).length = n := by
  induction n with
  | zero => exact fun _ => rfl
  | succ n ih => exact fun v => congrArg (· + 1) (ih _)

/-- A block of `n` words moved from the producer `p`'s memory into the consumer `q`'s (R172 to R175). -/
def delivered (p q : Side × Chan) (n : Nat) (s : State) : State :=
  burstDone q.1 q.2 n ((burstDone p.1 p.2 n s).setMem
    (storeWords s.cfg q.1 (s.chan q.1 q.2).madr (wordsFrom s.cfg p.1 s.mem (s.chan p.1 p.2).madr n) s.mem))

/-- The Waiting producer of an empty FIFO sends its block, which fits one burst and the FIFO, and the Waiting consumer takes
it (R184, R226). -/
theorem checkRunning_delivers (hp : s.cfg.Valid) (hpo : producerOf s.cfg d = p) (hco : consumerOf s.cfg d = q)
    (hpend : s.pendingStarts = []) (hf : s.fifo d = []) (hw : Waiting s p false) (hq : Waiting s q true) (hpos : 0 < n)
    (hn : (s.chan p.1 p.2).rem.toNat = n) (hcap : n ≤ s.cfg.burstCap) (hroom : n ≤ s.cfg.fifoCap)
    (hrem : n ≤ (s.chan q.1 q.2).rem.toNat) :
    (checkRunning p.1 p.2 s >>= processPendingStarts) = .ok (delivered p q n s) := by
  subst hpo hco
  obtain ⟨_, _, _, _, _, _, hlow, _⟩ := id hp
  have hne := (producer_ne_consumer_side s.cfg d).symm
  have hg := hw.gate_producer hp (by rw [hf]; exact hlow)
  set ws := wordsFrom s.cfg (producerOf s.cfg d).1 s.mem (s.chan (producerOf s.cfg d).1 (producerOf s.cfg d).2).madr n
    with hws
  have hlen : ws.length = n := length_wordsFrom ..
  have hburst := burstStep_pushes (d := d) (n := n) hw.chained hw.toMem (valid_widths hp).1 (produces_producerOf s.cfg d)
    (lt_length_of_gate hg) (by rw [hf]; simpa using hroom) hw.running hw.now
    (by rw [burstSize_producer hp, hn, hf]; simp; omega)
  have hempty : consumerDrq s d = false := by simp [consumerDrq, hf]
  rw [hpend, hf, if_pos ⟨hempty, hpos⟩, List.nil_append, List.nil_append, ← hws] at hburst
  rw [checkRunning_bursts hw.running hg, hburst]
  set y := burstDone (producerOf s.cfg d).1 (producerOf s.cfg d).2 n (s.setFifo d ws) with hy
  have hpending : burstDone (producerOf s.cfg d).1 (producerOf s.cfg d).2 n ((s.setFifo d ws).setPending
      [consumerOf s.cfg d]) = y.setPending [consumerOf s.cfg d] := by cases d <;> rfl
  have hfifo : y.fifo d = ws := by rw [hy, burstDone_fifo, fifo_setFifo_self]
  have hback : y.setFifo d [] = burstDone (producerOf s.cfg d).1 (producerOf s.cfg d).2 n s := by
    rw [← setFifo_of_fifo hf]
    cases d <;> rfl
  have hchan : y.chan (consumerOf s.cfg d).1 (consumerOf s.cfg d).2 =
      s.chan (consumerOf s.cfg d).1 (consumerOf s.cfg d).2 := by
    rw [hy, burstDone_chan, chan_setChan_side _ _ _ _ _ _ hne, setFifo_chan]
  have htake := processPendingStarts_consumes (s := y) (d := d) hp (by simpa [hy] using hpend)
    ((hq.setFifo ws).burstDone hne n) (by rw [hfifo, ← List.length_pos_iff, hlen]; exact hpos)
    (by rw [hfifo, hlen]; exact hcap) (by rw [hfifo, hlen]; exact le_of_le_of_eq hrem (congrArg (·.rem.toNat) hchan.symm))
    (.inl (by rw [hback]; exact running_burstDone n))
  rw [hfifo, hlen, hback, show y.cfg = s.cfg from rfl, hchan] at htake
  rw [hpending]
  exact htake

/-! ## What a delivered block leaves -/

@[simp] theorem delivered_phase : (delivered p q n s).phase = s.phase := rfl
@[simp] theorem delivered_pendingStarts : (delivered p q n s).pendingStarts = s.pendingStarts := rfl
@[simp] theorem delivered_fifo : (delivered p q n s).fifo d = s.fifo d := by simp [delivered]
@[simp] theorem delivered_mem : (delivered p q n s).mem =
    storeWords s.cfg q.1 (s.chan q.1 q.2).madr (wordsFrom s.cfg p.1 s.mem (s.chan p.1 p.2).madr n) s.mem := rfl

theorem delivered_chan_consumer (hne : q.1 ≠ p.1) (hc : q.2.toNat < (s.dma q.1).chans.length) :
    (delivered p q n s).chan q.1 q.2 = burstChannel s.cfg q.1 n (s.chan q.1 q.2) := by
  rw [delivered, burstDone_chan, chan_setChan_self _ _ _ _ (by simpa [dma_setChan_ne _ _ _ _ _ hne] using hc), setMem_chan,
    burstDone_chan, chan_setChan_side _ _ _ _ _ _ hne]
  rfl

theorem delivered_chan_producer (hne : p.1 ≠ q.1) (hc : p.2.toNat < (s.dma p.1).chans.length) :
    (delivered p q n s).chan p.1 p.2 = burstChannel s.cfg p.1 n (s.chan p.1 p.2) := by
  rw [delivered, burstDone_chan, chan_setChan_side _ _ _ _ _ _ hne, setMem_chan, burstDone_chan,
    chan_setChan_self _ _ _ _ hc]

theorem running_delivered_producer (hne : p.1 ≠ q.1) : running (delivered p q n s) p.1 p.2 = true := by
  rw [delivered, burstDone_running_other hne, running_setMem]
  exact running_burstDone n

theorem running_delivered_consumer : running (delivered p q n s) q.1 q.2 = true := running_burstDone n

end

/-- Settles O56. -/
theorem producerStartDeliversBlock : Obligations.ProducerStartDeliversBlock := by
  intro d v s p q w n u hp hl hpend hf h ha hv hk hw hcap hroom he hpr hr hqa hqc hqm hqe hqp hqr hrem hmain hsub
  have hnow : ∀ sd, s.now.toInt + burstCost s.cfg sd ≤ 2 ^ 63 - 1 := fun sd => by cases sd <;> assumption
  have hne : p.1 ≠ q.1 := producer_ne_consumer_side s.cfg d
  have hpc := lt_length_of_dmaWr h (hl p.1)
  have hqc' : q.2.toNat < (s.dma q.1).chans.length := chan_exists_of_active s q.1 q.2 hqa
  have hexec := exec_dmaWr_passes h ha hv (hl p.1) hk
  obtain ⟨_, hmode, _, _, hprod, _, hnormal, _⟩ := hk
  obtain ⟨hzero, _⟩ := hnormal hw
  have hpos : 0 < n := startCount_pos hp hmode hw hzero
  have hdir : toMemOf w = false := hprod (by rw [produces_producerOf]; rfl)
  have hpw : Waiting u p (toMemOf w) := waiting_started hpc hw (by rwa [strOf_chcrMask]) he hpr hr (hnow p.1)
  have hqw : Waiting u q true := Waiting.started ⟨hqa, hqr, hqe, hqp, hqc, hqm, hnow q.1⟩ hne.symm
  have hpchan : (clearAnswer u).chan p.1 p.2 = u.chan p.1 p.2 := clearAnswer_chan ..
  have hqchan : (clearAnswer u).chan q.1 q.2 = s.chan q.1 q.2 :=
    (clearAnswer_chan ..).trans (chan_setChan_side s p.1 q.1 p.2 q.2 _ hne.symm)
  have hmadr : (u.chan p.1 p.2).madr = (s.chan p.1 p.2).madr := congrArg (·.madr) (chan_started hpc hw)
  have hfifo : (clearAnswer u).fifo d = [] := (clearAnswer_fifo ..).trans ((setChan_fifo ..).trans hf)
  have hrun := checkRunning_delivers (s := clearAnswer u) (p := p) (q := q) (n := n) hp rfl rfl hpend hfifo
    (hdir ▸ hpw.clearAnswer) hqw.clearAnswer hpos (by rw [hpchan]; exact rem_started hp hpc hw) hcap hroom
    (by rwa [hqchan])
  refine ⟨delivered p q n (clearAnswer u), ?_, delivered_phase, delivered_fifo.trans hfifo,
    delivered_pendingStarts.trans hpend, ?_, ?_, ?_, running_delivered_producer hne, running_delivered_consumer⟩
  · rw [hexec]
    exact congrArg (fun r => Host.Outcome.next (Machine.runState r)) hrun
  · rw [delivered_mem, hqchan, hpchan, hmadr]
    rfl
  · rw [delivered_chan_producer hne (by simpa [u, started] using hpc), hpchan]
    rfl
  · rw [delivered_chan_consumer hne.symm (by simpa [u, started, dma_setChan_ne _ _ _ _ _ hne.symm] using hqc'), hqchan]
    rfl

end Sys2Proof.Safety

/-! PROOFS for 43_ipc_fifo.md, the contents: DMA traffic finds room for the words it pushes and words for the pops it makes
(O23), and words leave a FIFO in the order they entered it (O55). -/

namespace Sys2Proof.Safety

open Sys2Proof.Machine

/-! ## A burst moves no more words than its FIFO has or has room for (R173, R225) -/

section
variable {s₀ s t u : State} {sd : Side} {c : Chan} {d : Dir} {n : Nat}

theorem SameCore.trans (h : SameCore s t) (k : SameCore t u) : SameCore s u where
  cfg := k.cfg.trans h.cfg
  phase := k.phase.trans h.phase
  tick := k.tick.trans h.tick
  fault := k.fault.trans h.fault
  now := k.now.trans h.now
  acc := k.acc.trans h.acc
  handlers := k.handlers.trans h.handlers
  nh := k.nh.trans h.nh

/-- The FIFO at channel `c`'s end, if it has one, holds `n` words to take or has room for `n` to give. -/
structure Room (sd : Side) (c : Chan) (n : Nat) (s : State) : Prop where
  words : toMem s sd c = true → ∀ d, consumes s.cfg sd c = some d → n ≤ (s.fifo d).length
  space : toMem s sd c = false → ∀ d, produces s.cfg sd c = some d → n ≤ s.cfg.fifoCap - (s.fifo d).length

/-- `BurstSize` is within the FIFO, since no channel is both a consumer and a producer (R7, R173, R221). -/
theorem room_burstSize (hp : s.cfg.Valid) : Room sd c (burstSize sd c s) s where
  words _ d hc := by
    simp only [burstSize, hc]
    omega
  space _ d hpr := by
    have hc : consumes s.cfg sd c = none := by
      by_contra hc
      obtain ⟨_, hn⟩ := (sif_ends_distinct hp sd c).1 (Option.isSome_iff_ne_none.2 hc)
      rw [hpr] at hn
      cases hn
    simp only [burstSize, hc, hpr]
    omega

/-- A word for a transfer into memory, and the words that its FIFO then holds (R174, R223). -/
theorem takeWord_of_words (h : ∀ d, consumes s.cfg sd c = some d → n + 1 ≤ (s.fifo d).length) :
    ∃ w t, takeWord sd c s = .ok (w, t) ∧ SameCore s t ∧ ∀ d, consumes s.cfg sd c = some d → n ≤ (t.fifo d).length := by
  unfold takeWord
  cases hc : consumes s.cfg sd c with
  | none => exact ⟨_, _, rfl, (unmoved_periphRead sd c s).toSameCore, fun _ e => by cases e⟩
  | some d =>
    have hlen := h d hc
    cases hq : s.fifo d with
    | nil => simp [hq] at hlen
    | cons w rest =>
      refine ⟨w, setFifoDrq d rest s, by simp [fifoPop, hq], {}, ?_⟩
      rintro _ ⟨⟩
      simpa [hq] using hlen

/-- A place for a word of a transfer from memory, and the room that its FIFO then has (R174, R222). -/
theorem giveWord_of_space (w : Word)
    (h : ∀ d, produces s.cfg sd c = some d → n + 1 ≤ s.cfg.fifoCap - (s.fifo d).length) :
    ∃ t, giveWord sd c w s = .ok t ∧ SameCore s t ∧
      ∀ d, produces s.cfg sd c = some d → n ≤ s.cfg.fifoCap - (t.fifo d).length := by
  unfold giveWord
  cases hc : produces s.cfg sd c with
  | none => exact ⟨_, rfl, {}, fun _ e => by cases e⟩
  | some d =>
    have hlen := h d hc
    refine ⟨setFifoDrq d (s.fifo d ++ [fifoEntry s.cfg w]) s, if_pos (by omega), {}, ?_⟩
    rintro _ ⟨⟩
    rw [setFifoDrq_fifo, fifo_setFifo_self, List.length_append, List.length_singleton]
    omega

/-- A word moved keeps its channel's direction and configuration, so the FIFO decides what room is left (R174). -/
theorem room_of_moveWord (e : moveWord sd c s = .ok t)
    (hwords : toMem s sd c = true → ∀ d, consumes s.cfg sd c = some d → n ≤ (t.fifo d).length)
    (hspace : toMem s sd c = false → ∀ d, produces s.cfg sd c = some d → n ≤ s.cfg.fifoCap - (t.fifo d).length) :
    Room sd c n t := by
  have hmem := (moveWord_edge e).1
  have hcfg := (moveWord_chan e).1
  constructor <;> rwa [hmem, hcfg]

/-- With room for its word a move does not fault, and leaves room for one word less (R174, R225). -/
theorem moveWord_of_room (h : Room sd c (n + 1) s) :
    ∃ t, moveWord sd c s = .ok t ∧ SameCore s t ∧ Room sd c n t := by
  set ea := effectiveAddr s.cfg sd (s.chan sd c).madr with hea
  cases hm : toMem s sd c with
  | true =>
    obtain ⟨w, u, hu, hcore, hleft⟩ := takeWord_of_words (h.words hm)
    have e : moveWord sd c s = .ok (stepMadr sd c (u.setMem (u.mem.writeWord ea.1 ea.2 w))) := by
      simp [moveWord, hm, hu, hea]
    refine ⟨_, e, hcore.trans {}, room_of_moveWord e (fun _ d hd => ?_) fun hf => absurd (hm.symm.trans hf) (by decide)⟩
    simpa [stepMadr] using hleft d hd
  | false =>
    obtain ⟨u, hu, hcore, hleft⟩ := giveWord_of_space (s.mem.readWord ea.1 ea.2) (h.space hm)
    have e : moveWord sd c s = .ok (stepMadr sd c u) := by simp [moveWord, hm, ← hea, hu]
    refine ⟨_, e, hcore.trans {}, room_of_moveWord e (fun ht => absurd (hm.symm.trans ht) (by decide)) fun _ d hd => ?_⟩
    simpa [stepMadr] using hleft d hd

/-- With room for its words a burst moves them all (R172, R225). -/
theorem moveWords_of_room (h : Room sd c n s) : ∃ t, moveWords sd c n s = .ok t ∧ SameCore s t := by
  induction n generalizing s with
  | zero => exact ⟨s, rfl, {}⟩
  | succ n ih =>
    obtain ⟨u, hu, hcore, hroom⟩ := moveWord_of_room h
    obtain ⟨t, ht, hcore'⟩ := ih hroom
    exact ⟨t, by rw [moveWords, hu]; exact ht, hcore.trans hcore'⟩

/-! ## Where a FIFO fault comes from (R222, R223, R225) -/

/-- What the step from `s₀` has to present for a fault of this kind: the debug port's command for a FIFO fault, nothing for
the others (R225). -/
def Cause (s₀ : State) : FaultKind → Prop
  | .fifoOverflow => ∃ d w, Presents s₀ (.sifPush d w)
  | .fifoUnderflow => ∃ d, Presents s₀ (.sifPop d)
  | _ => True

/-- A FIFO fault in the record has its cause in the step from `s₀`. The configuration is the one R173 needs. -/
structure Traced (s₀ s : State) : Prop where
  config : s.cfg.Valid
  record : ∀ f, s.fault = some f → Cause s₀ f.kind

/-- The record is all that an update of the state has to keep, in one configuration. -/
theorem Traced.same (h : Traced s₀ s) (hc : t.cfg = s.cfg := by rfl) (hf : t.fault = s.fault := by rfl) :
    Traced s₀ t where
  config := hc ▸ h.config
  record f e := h.record f (hf ▸ e)

theorem Traced.core (h : Traced s₀ s) (e : SameCore s t) : Traced s₀ t := h.same e.cfg e.fault

/-- A fault with its cause, which is nothing but for a FIFO fault (R271). -/
theorem Traced.takeFault (h : Traced s₀ s) {k : FaultKind} {info : List DWord} (hk : Cause s₀ k := by exact trivial) :
    Traced s₀ (takeFault k info s) where
  config := h.config
  record f hf := by
    cases e : s.fault with
    | none =>
      rw [takeFault_fault_of_none s k info e] at hf
      exact Option.some.inj hf ▸ hk
    | some g =>
      rw [takeFault_fault_of_some s k info g e] at hf
      exact h.record f (e.trans hf)

/-- One part of a rule after another. -/
theorem traced_bind {α : Type} {r : Except State α} {f : α → Run} (herr : ∀ t, r = .error t → Traced s₀ t)
    (hok : ∀ a, r = .ok a → Traced s₀ (runState (f a))) : Traced s₀ (runState (r >>= f)) := by
  cases r with
  | error t => exact herr t rfl
  | ok a => exact hok a rfl

/-- One rule after another. -/
theorem Traced.andThen {r : Run} {f : State → Run} (h : Traced s₀ (runState r))
    (hf : ∀ t, Traced s₀ t → Traced s₀ (runState (f t))) : Traced s₀ (runState (r >>= f)) :=
  traced_bind (fun _ e => by rwa [e] at h) fun t e => hf t (by rwa [e] at h)

/-! ### Rules outside the DMA engines -/

theorem Traced.schedule (h : Traced s₀ s) (hd : Handle) (ch : Chan) (delay : Int) (rep : Bool) (period : Int) :
    Traced s₀ (runState (schedule hd ch delay rep period s)) := by
  unfold Machine.schedule
  split
  · exact h.takeFault
  · split
    · exact h.takeFault
    · split
      · exact h.takeFault
      · exact h.same

theorem Traced.toMainChecked_error (h : Traced s₀ s) {i : Instr} {v : DWord} (e : toMainChecked i v s = .error t) :
    Traced s₀ t := by
  unfold toMainChecked at e
  split at e
  · cases e
  · exact Except.error.inj e ▸ h.takeFault

theorem Traced.periodChecked_error (h : Traced s₀ s) {i : Instr} {rep : Bool} {v : DWord}
    (e : periodChecked i rep v s = .error t) : Traced s₀ t := by
  unfold periodChecked at e
  split at e
  · exact h.toMainChecked_error e
  · cases e

theorem Traced.scheduleSub (h : Traced s₀ s) (i : Instr) (rep : Bool) (ch : Chan) (hd : Handle) (delay period : DWord) :
    Traced s₀ (runState (scheduleSub i rep ch hd delay period s)) := by
  unfold Machine.scheduleSub
  split
  · exact h.takeFault
  · split
    · exact h.takeFault
    · exact traced_bind (fun _ => h.toMainChecked_error) fun _ _ =>
        traced_bind (fun _ => h.periodChecked_error) fun _ _ => h.schedule ..

theorem Traced.advance (h : Traced s₀ s) (delta : Int) : Traced s₀ (runState (advance delta s)) := by
  unfold Machine.advance
  split
  · exact h.takeFault
  · split
    · exact h.takeFault
    · exact h.same

theorem Traced.takeDue (h : Traced s₀ s) (e : Event) : Traced s₀ (runState (takeDue e s)) := by
  unfold Machine.takeDue reinsert
  split
  · split
    · exact h.same.takeFault
    · exact h.same
  · exact h.same

theorem Traced.fifoPush (h : Traced s₀ s) (w : Word) (hk : Cause s₀ .fifoOverflow) :
    Traced s₀ (runState (fifoPush d w s)) := by
  unfold Machine.fifoPush
  split
  · exact h.same
  · exact h.takeFault hk

/-! ### Rules of the DMA engines -/

theorem Traced.channelFault (h : Traced s₀ s) {k : FaultKind} (hk : Cause s₀ k := by exact trivial) :
    Traced s₀ (runState (channelFault k sd c s)) := h.takeFault hk

theorem Traced.tagFetch (h : Traced s₀ s) (sd : Side) (c : Chan) : Traced s₀ (runState (tagFetch sd c s)) := by
  cases sd with
  | main =>
    simp only [Machine.tagFetch, tagFetchMain]
    split
    · exact h.channelFault
    · split
      · exact h.same.channelFault
      · split
        · exact h.same.channelFault
        · exact h.same
  | sub =>
    simp only [Machine.tagFetch, tagFetchSub]
    split
    · exact h.channelFault
    · split
      · exact h.channelFault
      · exact h.same

/-- A burst faults at its tag or at its event and never at a word (R172, R225). -/
theorem Traced.burstStep (h : Traced s₀ s) (sd : Side) (c : Chan) : Traced s₀ (runState (burstStep sd c s)) := by
  have fetched : Traced s₀ (runState (fetchIfNeeded sd c s)) := by
    unfold fetchIfNeeded
    split
    · exact h.tagFetch sd c
    · exact h
  refine fetched.andThen fun t ht => ?_
  obtain ⟨u, hu, hcore⟩ := moveWords_of_room (room_burstSize (sd := sd) (c := c) ht.config)
  have counted : Traced s₀ (countWords sd c (burstSize sd c t) u) := (ht.core hcore).same
  rw [burstBody, hu]
  exact counted.schedule (dmaHandle sd) c (burstCost t.cfg sd) false 0

theorem Traced.checkRunning (h : Traced s₀ s) (sd : Side) (c : Chan) : Traced s₀ (runState (checkRunning sd c s)) := by
  unfold Machine.checkRunning
  split
  · exact h
  · split
    · exact h.burstStep sd c
    · exact h

theorem Traced.startPending (h : Traced s₀ s) (p : Side × Chan) : Traced s₀ (runState (startPending p s)) := by
  unfold Machine.startPending
  split
  · exact h.checkRunning ..
  · exact h

theorem Traced.drainPending (h : Traced s₀ s) (fuel : Nat) : Traced s₀ (runState (drainPending fuel s)) := by
  induction fuel generalizing s with
  | zero => exact h
  | succ fuel ih =>
    unfold Machine.drainPending
    split
    · exact h
    · rename_i p rest _
      have started := (h.same (t := s.setPending rest)).startPending p
      split <;> rename_i e <;> rw [e] at started
      · exact started
      · exact ih started

theorem Traced.processPendingStarts (h : Traced s₀ s) : Traced s₀ (runState (processPendingStarts s)) :=
  h.drainPending _

theorem Traced.reEvaluateFrom (h : Traced s₀ s) (sd : Side) (c n : Nat) :
    Traced s₀ (runState (reEvaluateFrom sd c n s)) := by
  induction n generalizing c s with
  | zero => exact h
  | succ n ih =>
    unfold Machine.reEvaluateFrom
    simp only
    split
    · have checked := h.checkRunning sd (BitVec.ofNat 6 c)
      split <;> rename_i e <;> rw [e] at checked
      · exact checked
      · exact ih checked (c + 1)
    · exact ih h (c + 1)

/-- A start faults at one of R162's checks, or as the burst it begins does. -/
theorem Traced.startChannel (h : Traced s₀ s) (sd : Side) (c : Chan) : Traced s₀ (runState (startChannel sd c s)) := by
  unfold Machine.startChannel
  simp only
  iterate 5
    split
    · exact h.channelFault
  split
  · split
    · exact h.channelFault
    · split
      · exact h.channelFault
      · exact h.same.checkRunning ..
  · split
    · exact h.channelFault
    · exact h.same.checkRunning ..

theorem sameCore_evalMaster (sd : Side) (old : Bool) (s : State) : SameCore s (evalMaster sd old s) := by
  unfold evalMaster
  split <;> exact {}

theorem Traced.dmaEvent (h : Traced s₀ s) (sd : Side) (c : Chan) : Traced s₀ (runState (dmaEvent sd c s)) := by
  unfold Machine.dmaEvent
  split
  · exact h
  · split
    · exact (h.core (unmoved_complete sd c s).toSameCore).processPendingStarts
    · refine Traced.andThen ?_ fun _ => Traced.processPendingStarts
      split
      · exact h.burstStep sd c
      · exact h

/-! ### The engines' commands -/

theorem Traced.writeChannel (h : Traced s₀ s) (reg : ChanReg) (v : Word) :
    Traced s₀ (runState (writeChannel sd c reg v s)) := by
  unfold Machine.writeChannel
  split
  · exact h.takeFault
  · split
    · split
      · exact h.same
      · exact h.takeFault
    · refine Traced.andThen ?_ fun _ => Traced.processPendingStarts
      unfold storeOrStart
      split
      · exact h.same.startChannel sd c
      · exact h.same

theorem Traced.readChannel (h : Traced s₀ s) (reg : ChanReg) : Traced s₀ (runState (readChannel sd c reg s)) := by
  unfold Machine.readChannel
  split
  case h_7 | h_8 => exact h.takeFault
  all_goals exact h.same

theorem Traced.writeEngine (h : Traced s₀ s) (reg : EngReg) (v : Word) :
    Traced s₀ (runState (writeEngine sd reg v s)) := by
  refine Traced.andThen ?_ fun _ => Traced.processPendingStarts
  cases reg with
  | ctrl | pcr => exact h.same.reEvaluateFrom sd 0 _
  | dintStat | dintCtl => exact h.same.core (sameCore_evalMaster sd _ _)

theorem Traced.setDrq (h : Traced s₀ s) (b : Bool) : Traced s₀ (runState (setDrq sd c b s)) := by
  unfold Machine.setDrq
  split
  · exact h.takeFault
  · refine Traced.andThen ?_ fun _ => Traced.processPendingStarts
    unfold storeDrq
    split
    · exact h.same.checkRunning sd c
    · exact h.same

/-! ### The debug port -/

theorem Traced.pushCommand (h : Traced s₀ s) {w : Word} (hi : Presents s₀ (.sifPush d w)) :
    Traced s₀ (runState (pushCommand d w s)) :=
  (h.fifoPush w ⟨d, w, hi⟩).andThen fun _ => Traced.processPendingStarts

theorem Traced.popCommand (h : Traced s₀ s) (hi : Presents s₀ (.sifPop d)) : Traced s₀ (runState (popCommand d s)) := by
  unfold Machine.popCommand
  split
  · rename_i t e
    obtain ⟨_, rfl⟩ := fifoPop_error e
    exact h.takeFault ⟨d, hi⟩
  · rename_i w t e
    obtain ⟨rest, _, rfl⟩ := fifoPop_ok e
    exact h.same.processPendingStarts

/-! ### One command, one step -/

/-- The checks before a command's rule raise no FIFO fault (R95, R96, R100). -/
theorem Traced.issue (h : Traced s₀ s) {i : Instr} {rule : State → Run}
    (hrule : Traced s₀ (clearAnswer s) → Traced s₀ (runState (rule (clearAnswer s)))) : Traced s₀ (issue i rule s) := by
  rcases issue_cases i rule s with ⟨_, e⟩ | ⟨_, _, e⟩ | ⟨_, _, _, e⟩ | ⟨_, _, _, e⟩ <;> rw [e]
  · exact h.same
  · exact h.takeFault
  · exact h.takeFault
  · exact hrule h.same

theorem Traced.illegalCommand (h : Traced s₀ s) (x : Command) : Traced s₀ (illegalCommand x s) := by
  unfold Machine.illegalCommand
  split
  · exact h.same
  · exact h.takeFault

/-- Of all the commands SIF.PUSH and SIF.POP alone raise a FIFO fault (R222, R223, R227, R228). -/
theorem Traced.exec (h : Traced s₀ s) {i : Instr} (hi : Presents s₀ i) (e : exec i s = .next t) : Traced s₀ t := by
  cases i with
  | eqReg k =>
    obtain rfl := Host.Outcome.next.inj e
    refine h.issue fun h => ?_
    unfold registerHandler
    split
    · exact h.takeFault
    · exact h.same
  | eqSched rep ch hd delay period =>
    obtain rfl := Host.Outcome.next.inj e
    exact h.issue fun h => h.schedule ..
  | eqSchedSub rep ch hd delay period =>
    obtain rfl := Host.Outcome.next.inj e
    exact h.issue fun h => h.scheduleSub ..
  | eqAdv delta =>
    obtain rfl := Host.Outcome.next.inj e
    exact h.issue fun h => h.advance _
  | clkConv m =>
    obtain rfl := Host.Outcome.next.inj e
    refine h.issue fun h => ?_
    unfold convertCommand
    split
    · exact h.same
    · exact h.takeFault
  | clkToMain v =>
    obtain rfl := Host.Outcome.next.inj e
    refine h.issue fun h => ?_
    unfold toMainCommand
    split
    · exact h.same
    · exact h.takeFault
  | dmaWr sd c reg v =>
    obtain rfl := Host.Outcome.next.inj e
    exact h.issue fun h => h.writeChannel reg v
  | dmaRd sd c reg =>
    obtain rfl := Host.Outcome.next.inj e
    exact h.issue fun h => h.readChannel reg
  | dmaWre sd reg v =>
    obtain rfl := Host.Outcome.next.inj e
    exact h.issue fun h => h.writeEngine reg v
  | dmaDrq sd c b =>
    obtain rfl := Host.Outcome.next.inj e
    exact h.issue fun h => h.setDrq b
  | sifPush d w =>
    obtain rfl := Host.Outcome.next.inj e
    exact h.issue fun h => h.pushCommand hi
  | sifPop d =>
    obtain rfl := Host.Outcome.next.inj e
    exact h.issue fun h => h.popCommand hi
  | intRctrl sd =>
    obtain rfl := Host.Outcome.next.inj e
    refine h.issue fun h => ?_
    cases sd <;> exact h.same
  | illegal a b =>
    obtain rfl := Host.Outcome.next.inj e
    exact h.illegalCommand _
  | _ =>
    obtain rfl := Host.Outcome.next.inj e
    exact h.issue fun h => h.same

/-- One firing of a drain (R118, R119). -/
theorem Traced.fired (h : Traced s₀ s) {e : Event} (hf : Fired e s t) : Traced s₀ t := by
  have taken := h.takeDue e
  rcases hf with ⟨u, hu, rfl⟩ | ⟨u, hu, hd⟩ <;> rw [hu] at taken
  · exact taken
  · rcases hd with ⟨_, rfl⟩ | ⟨_, rfl⟩ | ⟨k, g, cmds, _, rfl⟩
    · exact taken.dmaEvent .main e.ch
    · exact taken.dmaEvent .sub e.ch
    · exact taken.same

/-- A FIFO fault that a step records has its cause in that step. -/
theorem Traced.stepped (h : Traced s s) (k : Stepped s t) : Traced s t := by
  cases k with
  | idle e => exact e ▸ h
  | reset _ _ _ e => exact e ▸ ⟨h.config, fun _ hf => by cases hf⟩
  | store u sp a bytes hu e => exact e ▸ (h.core (unmoved_of_popped hu).toSameCore).same
  | command u x i hu hx hd e => exact (h.core (unmoved_of_popped hu).toSameCore).exec ⟨x, hx, hd⟩ e
  | illegal u x _ hu _ _ e => exact e ▸ (h.core (unmoved_of_popped hu).toSameCore).illegalCommand x
  | begins _ _ _ _ _ _ e => exact e ▸ h.same
  | ends _ _ _ e => exact e ▸ h.same
  | convert m rest _ e => exact e ▸ h.same
  | advance delta rest _ e => exact e ▸ h.same.advance _
  | fires _ _ _ _ hf => exact h.fired hf
  | tickEnd rest _ e => exact e ▸ h.same

end

/-- Settles O23: a burst never faults at a word (`moveWords_of_room`), so a FIFO fault is traced to the debug port. -/
theorem fifoFaultsOnlyFromDebugPort : Obligations.FifoFaultsOnlyFromDebugPort := by
  intro s t hp e hf
  have unfaulted : Traced s s := ⟨hp, fun f h => by rw [hf] at h; cases h⟩
  have traced := unfaulted.stepped (step_cases e)
  exact ⟨fun _ ho => traced.record _ ho, fun _ hu => traced.record _ hu⟩

/-! ## Words leave a FIFO in the order they entered it (R224) -/

section
variable {s : State} {d : Dir}

/-- What left and what is still there, in order, is what was there and what was pushed; the other FIFO stays. -/
theorem fifoSteps_order (hw : s.cfg.fifoWidth = 32) {ops : List (Option Word)} {out : List Word} {t : State}
    (e : fifoSteps d ops s = .ok (out, t)) :
    out ++ t.fifo d = s.fifo d ++ ops.filterMap id ∧ ∀ x, x ≠ d → t.fifo x = s.fifo x := by
  induction ops generalizing s out with
  | nil =>
    obtain ⟨rfl, rfl⟩ := Prod.mk.inj (Except.ok.inj e)
    simp
  | cons op ops ih =>
    cases op with
    | some w =>
      rw [fifoSteps] at e
      split at e
      · cases e
      · rename_i u hu
        obtain ⟨_, rfl⟩ := fifoPush_ok hu
        obtain ⟨horder, hother⟩ := ih (s := setFifoDrq d (s.fifo d ++ [fifoEntry s.cfg w]) s) hw e
        refine ⟨by simpa [fifoEntry_eq hw] using horder, fun x hx => ?_⟩
        rw [hother x hx, setFifoDrq_fifo, fifo_setFifo_ne s d x _ hx]
    | none =>
      rw [fifoSteps] at e
      split at e
      · cases e
      · rename_i w u hu
        obtain ⟨rest, hq, rfl⟩ := fifoPop_ok hu
        cases hr : fifoSteps d ops (setFifoDrq d rest s) with
        | error v => rw [hr] at e; cases e
        | ok p =>
          rw [hr] at e
          obtain ⟨rfl, rfl⟩ := Prod.mk.inj (Except.ok.inj e)
          obtain ⟨horder, hother⟩ := ih (s := setFifoDrq d rest s) hw hr
          refine ⟨by simpa [hq] using horder, fun x hx => ?_⟩
          rw [hother x hx, setFifoDrq_fifo, fifo_setFifo_ne s d x _ hx]

/-- With room for them the words `ws` are pushed, one after another (R222). -/
theorem fifoSteps_pushes (hw : s.cfg.fifoWidth = 32) (ws : List Word)
    (hroom : (s.fifo d).length + ws.length ≤ s.cfg.fifoCap) :
    ∃ t, t.fifo d = s.fifo d ++ ws ∧ ∀ ops, fifoSteps d (ws.map some ++ ops) s = fifoSteps d ops t := by
  induction ws generalizing s with
  | nil => exact ⟨s, by simp, fun _ => rfl⟩
  | cons w ws ih =>
    rw [List.length_cons] at hroom
    have hpush : fifoPush d w s = .ok (setFifoDrq d (s.fifo d ++ [w]) s) := by
      rw [fifoPush, if_pos (by omega), fifoEntry_eq hw]
    obtain ⟨t, hfifo, hrun⟩ := ih (s := setFifoDrq d (s.fifo d ++ [w]) s) hw (by simp; omega)
    refine ⟨t, by simpa using hfifo, fun ops => ?_⟩
    rw [← hrun ops, List.map_cons, List.cons_append, fifoSteps, hpush]

/-- Every word there can be popped, oldest first (R223). -/
theorem fifoSteps_pops {q : List Word} (hq : s.fifo d = q) :
    ∃ t, fifoSteps d (List.replicate q.length none) s = .ok (q, t) := by
  induction q generalizing s with
  | nil => exact ⟨s, rfl⟩
  | cons w rest ih =>
    obtain ⟨t, ht⟩ := ih (s := setFifoDrq d rest s) (by simp)
    have hpop : fifoPop d s = .ok (w, setFifoDrq d rest s) := by rw [fifoPop, hq]
    refine ⟨t, ?_⟩
    rw [List.length_cons, List.replicate_succ, fifoSteps, hpop]
    simp only [ht]
    rfl

end

/-- Settles O55. -/
theorem fifoKeepsOrder : Obligations.FifoKeepsOrder := by
  intro d s hp
  have hw : s.cfg.fifoWidth = 32 := (valid_widths hp).1
  refine ⟨fun ops t out => fifoSteps_order hw, fun ws hroom => ?_⟩
  obtain ⟨u, hu, hpushes⟩ := fifoSteps_pushes hw ws hroom
  obtain ⟨t, hpops⟩ := fifoSteps_pops hu
  exact ⟨t, by rw [hpushes, ← List.length_append]; exact hpops⟩

end Sys2Proof.Safety

/-! PROOFS for 44_interrupt.md: the commands that write an interrupt controller (O57, O59), and a latched bit that stays until
it is acknowledged (O22). -/

namespace Sys2Proof.Safety

open Sys2Proof.Machine

/-! ## The commands that write a controller (R243 to R247, R250, R251) -/

section
variable {s : State} {sd : Side}

/-- INT.WMASK writes the mask as the side does it (R244 to R246). -/
theorem exec_intWmask {v : Word} (h : Accepted (.intWmask sd v) s) : exec (.intWmask sd v) s = .next
    { s.setIntc sd { s.intc sd with mask := maskAfter s.cfg sd (s.intc sd).mask v } with answer := none } :=
  exec_of_rule_ok h rfl rfl

/-- Read-to-disable keeps the master enable on the main side and clears it on the secondary side (R250). -/
theorem disableOnRead_eq (sd : Side) (s : State) : disableOnRead sd s =
    s.setIntc sd { s.intc sd with master := (s.intc sd).master && (sd == .main) } := by
  cases sd with
  | main =>
    rw [show (Side.main == Side.main) = true from rfl, Bool.and_true]
    rfl
  | sub =>
    rw [show (Side.sub == Side.main) = false from rfl, Bool.and_false]
    rfl

/-- INT.RCTRL answers the master enable as it stood before the read (R250). -/
theorem exec_intRctrl (h : Accepted (.intRctrl sd) s) : exec (.intRctrl sd) s = .next
    { s.setIntc sd { s.intc sd with master := (s.intc sd).master && (sd == .main) } with
      answer := some (if (s.intc sd).master then 1 else 0) } := by
  refine exec_of_rule_ok h rfl ?_
  rw [setWidth_flagBit, disableOnRead_eq]
  rfl

/-- A main-side mask written as it stands changes nothing but the answer. -/
theorem setIntc_mask_self {m : Word} (h : m = s.intMain.mask) :
    { s.setIntc .main { s.intMain with mask := m } with answer := none } = { s with answer := none } := by
  rw [h]
  rfl

end

/-- Settles O57. Each accepted command leaves what its rule leaves; the mask write has a clause per side and parameter. -/
theorem interruptWrites : Obligations.InterruptWrites := by
  intro sd src v s q ends
  refine ⟨fun h => exec_of_rule_ok h rfl rfl, fun h => exec_of_rule_ok h rfl rfl, fun h => exec_of_rule_ok h rfl rfl,
    exec_intRctrl, ?main, ?subOr, ?subStore⟩
  case main =>
    rintro rfl h
    exact exec_intWmask h
  case subOr =>
    rintro rfl hor h
    rw [exec_intWmask h, maskAfter, hor]
  case subStore =>
    rintro rfl hstore h
    rw [exec_intWmask h, maskAfter, hstore]

/-- Settles O59. The second write meets the same checks, since the first leaves the phase and the issuer; then
`(m ^^^ v) ^^^ v = m`. -/
theorem mainMaskWriteToggles : Obligations.MainMaskWriteToggles := by
  intro v s h
  refine ⟨_, exec_intWmask h, rfl, ?twice, ?zero⟩
  case twice =>
    have cancel : s.intMain.mask ^^^ v ^^^ v = s.intMain.mask := by
      rw [BitVec.xor_assoc, BitVec.xor_self, BitVec.xor_zero]
    have back := setIntc_mask_self cancel
    refine (exec_intWmask ?accepted).trans (congrArg Host.Outcome.next back)
    exact h
  case zero =>
    rintro rfl
    exact setIntc_mask_self BitVec.xor_zero

/-! ## A latched bit stays until it is acknowledged (R241, R247) -/

/-- The step from `s₀` presents an acknowledgement that names bit `n` of the side's status. -/
def Acknowledges (s₀ : State) (sd : Side) (n : Nat) : Prop :=
  ∃ v, Presents s₀ (.intAck sd v) ∧ v.getLsbD n = true

/-- Every status bit set in `s` is set in `t`, unless the step from `s₀` acknowledges it. -/
def StatusKept (s₀ s t : State) : Prop :=
  ∀ sd n, (s.intc sd).stat.getLsbD n = true → (t.intc sd).stat.getLsbD n = true ∨ Acknowledges s₀ sd n

section
variable {s₀ s t u : State}

theorem StatusKept.trans (h : StatusKept s₀ s t) (k : StatusKept s₀ t u) : StatusKept s₀ s u :=
  fun sd n hs => (h sd n hs).elim (k sd n) .inr

/-- With both controllers the same no bit has changed. -/
theorem statusKept_of_same (hmain : t.intMain = s.intMain) (hsub : t.intSub = s.intSub) : StatusKept s₀ s t := by
  intro sd n hs
  cases sd with
  | main => exact .inl ((congrArg (·.stat.getLsbD n) hmain).trans hs)
  | sub => exact .inl ((congrArg (·.stat.getLsbD n) hsub).trans hs)

/-- A write to one controller has that side's bits alone to answer for. -/
theorem statusKept_setIntc {sd : Side} {q : IntCtl}
    (h : ∀ n, (s.intc sd).stat.getLsbD n = true → q.stat.getLsbD n = true ∨ Acknowledges s₀ sd n) :
    StatusKept s₀ s (s.setIntc sd q) := by
  intro x n hs
  by_cases hx : x = sd
  · subst hx
    rw [intc_setIntc_self]
    exact h n hs
  · rw [intc_setIntc_ne s sd x q hx]
    exact .inl hs

/-- A source raised only sets bits (R243). -/
theorem statusKept_raiseInt (sd : Side) (src : BitVec 5) (s : State) : StatusKept s₀ s (raiseInt sd src s) :=
  statusKept_setIntc fun n hs => .inl (by rw [BitVec.getLsbD_or, hs, Bool.true_or])

/-- A bit that an acknowledgement clears is one it names (R247). -/
theorem statusKept_ack {sd : Side} {v : Word} (hp : Presents s₀ (.intAck sd v)) (s : State) :
    StatusKept s₀ s (s.setIntc sd { s.intc sd with stat := (s.intc sd).stat &&& ~~~v }) := by
  refine statusKept_setIntc fun n hs => ?_
  have hn : n < 32 := BitVec.lt_of_getLsbD hs
  cases hv : v.getLsbD n with
  | true => exact .inr ⟨v, hp, hv⟩
  | false => exact .inl (by rw [BitVec.getLsbD_and, BitVec.getLsbD_not, hs, hv, decide_eq_true hn]; rfl)

/-- The end of a channel's transfer raises its engine's source at most (R180, R182). -/
theorem statusKept_complete (sd : Side) (c : Chan) (s : State) : StatusKept s₀ s (complete sd c s) := by
  rw [complete_eq]
  have stopped : StatusKept s₀ s (setFlag sd c (stopChannel sd c s)) := statusKept_of_same rfl rfl
  unfold evalMaster
  split
  · exact stopped.trans (statusKept_raiseInt _ _ _)
  · exact stopped

/-- No rule of the engines writes a controller, but for the end of a transfer. -/
theorem statusKept_burstClosed (s₀ : State) : BurstClosed (StatusKept s₀) where
  refl _ := statusKept_of_same rfl rfl
  trans _ _ _ := StatusKept.trans
  chan _ _ _ _ _ _ := statusKept_of_same rfl rfl
  mem _ _ _ _ := statusKept_of_same rfl rfl
  push _ _ _ _ := statusKept_of_same rfl rfl
  pop _ _ _ _ _ := statusKept_of_same rfl rfl
  read s sd c := by
    unfold periphRead
    split <;> exact statusKept_of_same rfl rfl
  write _ _ _ _ := statusKept_of_same rfl rfl
  sched _ _ _ _ _ e := by
    obtain ⟨_, _, _, rfl⟩ := schedule_ok e
    exact statusKept_of_same rfl rfl
  pend _ _ := statusKept_of_same rfl rfl

/-- Of all the commands INT.ACK alone clears a status bit. -/
theorem statusKept_commandClosed {i : Instr} (hi : Presents s₀ i) : CommandClosed i (StatusKept s₀) where
  toBurstClosed := statusKept_burstClosed s₀
  answer _ _ := statusKept_of_same rfl rfl
  fault _ _ _ := statusKept_of_same rfl rfl
  handler _ _ _ _ _ := statusKept_of_same rfl rfl
  event _ _ _ _ _ _ _ _ _ _ e := by
    obtain ⟨_, _, _, rfl⟩ := schedule_ok e
    exact statusKept_of_same rfl rfl
  advance _ _ _ _ e := by
    obtain ⟨_, _, rfl⟩ := advance_ok e
    exact statusKept_of_same rfl rfl
  drain _ _ _ := statusKept_of_same rfl rfl
  convert _ _ _ := statusKept_of_same rfl rfl
  start _ _ _ := statusKept_of_same rfl rfl
  tick _ _ _ _ := statusKept_of_same rfl rfl
  halt _ _ _ _ := statusKept_of_same rfl rfl
  store _ _ _ _ _ _ _ := statusKept_of_same rfl rfl
  abort _ _ _ _ _ _ _ _ := statusKept_of_same rfl rfl
  engine _ _ _ _ _ := statusKept_of_same rfl rfl
  line _ _ _ _ _ := statusKept_of_same rfl rfl
  raise s sd src := statusKept_raiseInt sd src s
  mask _ _ _ _ := statusKept_setIntc fun _ => .inl
  ack s _ _ e := statusKept_ack (e ▸ hi) s
  disable _ _ := statusKept_setIntc fun _ => .inl
  master _ _ _ _ := statusKept_setIntc fun _ => .inl

/-- The fault entry leaves the controllers as the run left them (R271). -/
theorem statusKept_runState {r : Run} (h : Ends (StatusKept s₀) s r) : StatusKept s₀ s (runState r) := by
  cases r with
  | ok t => exact h
  | error t =>
    obtain ⟨u, k, info, hu, rfl⟩ := h
    exact hu.trans (statusKept_of_same rfl rfl)

/-- A channel's event (R178). -/
theorem statusKept_dmaEvent (sd : Side) (c : Chan) (s : State) : StatusKept s₀ s (runState (dmaEvent sd c s)) :=
  statusKept_runState (dmaEvent_ends (statusKept_burstClosed s₀) sd c s (statusKept_complete sd c s))

/-- The advance of a tick, faulting or not (R117, R145). -/
theorem statusKept_advance (d : Int) (s : State) : StatusKept s₀ s (runState (advance d s)) := by
  cases e : advance d s with
  | ok t =>
    obtain ⟨_, _, rfl⟩ := advance_ok e
    exact statusKept_of_same rfl rfl
  | error t =>
    obtain ⟨k, info, rfl⟩ := advance_error e
    exact statusKept_of_same rfl rfl

/-- Taking the next item out of its script. -/
theorem statusKept_popped (h : Popped s u) : StatusKept s₀ s u := by
  rcases h with ⟨_, _, _, _, rfl⟩ | ⟨_, _, _, _, _, _, rfl⟩ | ⟨_, _, _, _, rfl⟩ <;> exact statusKept_of_same rfl rfl

/-- One firing of a drain (R118, R119). -/
theorem statusKept_fired {e : Event} (hf : Fired e s t) : StatusKept s₀ s t := by
  rcases hf with ⟨u, hu, rfl⟩ | ⟨u, hu, hd⟩
  · unfold takeDue at hu
    split at hu
    · obtain ⟨k, info, rfl⟩ := reinsert_error hu
      exact statusKept_of_same rfl rfl
    · cases hu
  · obtain ⟨q, n, rfl⟩ := takeDue_frame hu
    have taken : StatusKept s₀ s { s with queue := q, seq := n } := statusKept_of_same rfl rfl
    rcases hd with ⟨_, rfl⟩ | ⟨_, rfl⟩ | ⟨k, g, cmds, _, rfl⟩
    · exact taken.trans (statusKept_dmaEvent .main e.ch _)
    · exact taken.trans (statusKept_dmaEvent .sub e.ch _)
    · exact statusKept_of_same rfl rfl

/-- Every step but the reset keeps the status bits it does not acknowledge. -/
theorem statusKept_stepped (hn : ¬Resets s) (k : Stepped s t) : StatusKept s s t := by
  cases k with
  | idle e => exact e ▸ statusKept_of_same rfl rfl
  | reset _ hr _ _ => exact absurd hr hn
  | store u sp a bytes hu e => exact e ▸ (statusKept_popped hu).trans (statusKept_of_same rfl rfl)
  | command u c i hu hc hd e =>
    exact (statusKept_popped hu).trans (exec_related (statusKept_commandClosed ⟨c, hc, hd⟩) e)
  | illegal u c _ hu _ _ e =>
    refine (statusKept_popped hu).trans (e ▸ ?_)
    unfold illegalCommand
    split <;> exact statusKept_of_same rfl rfl
  | begins _ _ _ _ _ _ e => exact e ▸ statusKept_of_same rfl rfl
  | ends _ _ _ e => exact e ▸ statusKept_of_same rfl rfl
  | convert _ _ _ e => exact e ▸ statusKept_of_same rfl rfl
  | advance d rest _ e =>
    have cut : StatusKept s s (s.setAgenda rest) := statusKept_of_same rfl rfl
    exact e ▸ cut.trans (statusKept_advance d _)
  | fires _ _ _ _ hf => exact statusKept_fired hf
  | tickEnd _ _ e => exact e ▸ statusKept_of_same rfl rfl

end

/-- Settles O22. Bit by bit, every update a step other than the reset is made of keeps the status bits, INT.ACK aside, and
INT.ACK clears those it names. -/
theorem statusBitsClearedOnlyByAck : Obligations.StatusBitsClearedOnlyByAck := by
  intro s t sd n e hn hset hclear
  rcases statusKept_stepped hn (step_cases e) sd n hset with hkept | hack
  · rw [hclear] at hkept
    cases hkept
  · exact hack

end Sys2Proof.Safety

/-! PROOFS for 20_memory.md and 10_state.md: every step keeps memory in its canonical form (O17). Memory has two writers, a
channel's burst, word by word, and an agent's store; each is a run of byte writes, which keep the form. -/

namespace Sys2Proof.Safety

open Sys2Proof.Machine

/-- Memory is in its canonical form at the end if it was at the start. -/
def KeepsMemory (s t : State) : Prop := MemoryOk s → MemoryOk t

section
variable {s t u : State}

/-- An update that leaves memory alone. -/
theorem keepsMemory_of_mem (h : t.mem = s.mem) : KeepsMemory s t := by
  unfold KeepsMemory MemoryOk
  rw [h]
  exact id

theorem KeepsMemory.trans (h : KeepsMemory s t) (k : KeepsMemory t u) : KeepsMemory s u := fun hs => k (h hs)

/-! ## What leaves memory alone -/

/-- The end of a channel's transfer writes no memory (R180). -/
theorem complete_mem (sd : Side) (c : Chan) (s : State) : (complete sd c s).mem = s.mem := by
  unfold complete evalMaster
  simp only
  split <;> rfl

/-- An advance writes no memory, faulting or not (R117). -/
theorem advance_mem (d : Int) (s : State) : (runState (advance d s)).mem = s.mem := by
  cases e : advance d s with
  | ok t =>
    obtain ⟨_, _, rfl⟩ := advance_ok e
    rfl
  | error t =>
    obtain ⟨k, info, rfl⟩ := advance_error e
    rfl

/-- A triple that is no command writes no memory (R97, R100). -/
theorem illegalCommand_mem (c : Command) (s : State) : (illegalCommand c s).mem = s.mem := by
  unfold illegalCommand
  split <;> rfl

/-- Taking the next item out of its script writes no memory. -/
theorem mem_of_popped (h : Popped s u) : u.mem = s.mem := by
  rcases h with ⟨_, _, _, _, rfl⟩ | ⟨_, _, _, _, _, _, rfl⟩ | ⟨_, _, _, _, rfl⟩ <;> rfl

/-- Taking the firing event out writes no memory, faulting or not (R121). -/
theorem takeDue_mem (e : Event) (s : State) : (runState (takeDue e s)).mem = s.mem := by
  cases hu : takeDue e s with
  | ok u =>
    obtain ⟨q, n, rfl⟩ := takeDue_frame hu
    rfl
  | error u =>
    unfold takeDue at hu
    split at hu
    · obtain ⟨k, info, rfl⟩ := reinsert_error hu
      rfl
    · cases hu

/-! ## The two writers -/

/-- Of the engines' updates a moved word alone writes memory (R174). -/
theorem keepsMemory_burstClosed : BurstClosed KeepsMemory where
  refl _ := id
  trans _ _ _ := KeepsMemory.trans
  chan _ _ _ _ _ _ := id
  mem s sp a w := wf_writeWord s.mem sp a w
  push _ _ _ _ := id
  pop _ _ _ _ _ := id
  read s sd c := keepsMemory_of_mem (periphRead_mem s sd c)
  write _ _ _ _ := id
  sched _ _ _ _ _ e := by
    obtain ⟨_, _, _, rfl⟩ := schedule_ok e
    exact id
  pend _ _ := id

/-- A command reaches memory through the engines' rules alone. -/
theorem keepsMemory_commandClosed (i : Instr) : CommandClosed i KeepsMemory where
  toBurstClosed := keepsMemory_burstClosed
  answer _ _ := id
  fault _ _ _ := id
  handler _ _ _ _ _ := id
  event _ _ _ _ _ _ _ _ _ _ e := by
    obtain ⟨_, _, _, rfl⟩ := schedule_ok e
    exact id
  advance _ _ _ _ e := by
    obtain ⟨_, _, rfl⟩ := advance_ok e
    exact id
  drain _ _ _ := id
  convert _ _ _ := id
  start _ _ _ := id
  tick _ _ _ _ := id
  halt _ _ _ _ := id
  store _ _ _ _ _ _ _ := id
  abort _ _ _ _ _ _ _ _ := id
  engine _ _ _ _ _ := id
  line _ _ _ _ _ := id
  raise _ _ _ := id
  mask _ _ _ _ := id
  ack _ _ _ _ := id
  disable _ _ := id
  master _ _ _ _ := id

/-- A channel's event, faulting or not, writes memory by its burst alone (R178). -/
theorem keepsMemory_dmaEvent (sd : Side) (c : Chan) (s : State) : KeepsMemory s (runState (dmaEvent sd c s)) := by
  have completed : KeepsMemory s (complete sd c s) := keepsMemory_of_mem (complete_mem sd c s)
  have ends := dmaEvent_ends keepsMemory_burstClosed sd c s completed
  cases e : dmaEvent sd c s with
  | ok t =>
    rw [e] at ends
    exact ends
  | error t =>
    rw [e] at ends
    obtain ⟨u, k, info, hu, rfl⟩ := ends
    exact hu

/-- An agent's store, of any length and at any address (R70). -/
theorem keepsMemory_agentStore (sp : Space) (a : Word) (bytes : List Byte) (s : State) :
    KeepsMemory s (agentStore sp a bytes s) := wf_storeBytes sp _ bytes a s.mem

/-! ## One step -/

/-- One firing of a drain (R118, R119). -/
theorem keepsMemory_fired {e : Event} (hf : Fired e s t) : KeepsMemory s t := by
  have taken := keepsMemory_of_mem (takeDue_mem e s)
  rcases hf with ⟨u, hu, rfl⟩ | ⟨u, hu, hd⟩ <;> rw [hu] at taken
  · exact taken
  · rcases hd with ⟨_, rfl⟩ | ⟨_, rfl⟩ | ⟨k, g, cmds, _, rfl⟩
    · exact taken.trans (keepsMemory_dmaEvent .main e.ch u)
    · exact taken.trans (keepsMemory_dmaEvent .sub e.ch u)
    · exact taken

/-- Every step keeps the canonical form, the reset by leaving memory as it stands (R291). -/
theorem keepsMemory_stepped (k : Stepped s t) : KeepsMemory s t := by
  cases k with
  | idle e => exact e ▸ id
  | reset _ _ _ e => exact keepsMemory_of_mem (e ▸ rfl)
  | store u sp a bytes hu e =>
    exact e ▸ (keepsMemory_of_mem (mem_of_popped hu)).trans (keepsMemory_agentStore sp a bytes u)
  | command u c i hu _ _ e =>
    exact (keepsMemory_of_mem (mem_of_popped hu)).trans (exec_related (keepsMemory_commandClosed i) e)
  | illegal u c _ hu _ _ e => exact keepsMemory_of_mem (e ▸ (illegalCommand_mem c u).trans (mem_of_popped hu))
  | begins _ _ _ _ _ _ e | ends _ _ _ e | convert _ _ _ e | tickEnd _ _ e => exact keepsMemory_of_mem (e ▸ rfl)
  | advance d rest _ e => exact keepsMemory_of_mem (e ▸ advance_mem d (s.setAgenda rest))
  | fires _ _ _ _ hf => exact keepsMemory_fired hf

end

/-- Settles O17. Each case of a step is made of updates that leave memory alone and of the two writers' byte writes. -/
theorem memoryFormKept : Obligations.MemoryFormKept := fun _ _ h e => keepsMemory_stepped (step_cases e) h

end Sys2Proof.Safety
